-- ==== Sys2Proof/Word.lean ====
section
/-! DEFINITION. The word types of the 80386 (spec 00_scope.md R7, R12): byte, word, doubleword. -/

namespace Sys2Proof

/-- 8 bits. -/
abbrev Byte := BitVec 8

/-- 16 bits (R12). -/
abbrev Word := BitVec 16

/-- 32 bits (R12): registers, offsets, linear and physical addresses (R7). -/
abbrev Dword := BitVec 32

end Sys2Proof
end

