-- ==== Sys2Proof/Config.lean ====
section
/-! DEFINITION. What the spec leaves open: the free values (no body, so that nothing can be proved of them) and the
named values of the chip and the platform (00_scope.md R8). -/

namespace Sys2Proof.Config

/-- The n-th free value the machine takes: an undefined or unstated result is this constant applied to the counter that
State holds (log entry 5; 93_implementation_defined.md U7, U10, U15, U24 and the TLB test results of 49_tlb_test.md R677). -/
opaque freeWord : Nat → Dword

/-- Whether a data access meets a breakpoint whose R/W or LEN field holds a value the spec calls undefined
(48_debug.md R623, R624; 93_implementation_defined.md U16; log entry 30): the R/W field, the LEN field, the breakpoint
address, the linear address, the size of the access, and whether it writes. -/
opaque undefinedDataBreakpoint : BitVec 2 → BitVec 2 → Dword → Dword → Nat → Bool → Bool

/-- Whether an instruction at a linear address meets a breakpoint whose R/W or LEN field holds a value the spec calls
undefined (48_debug.md R623, R640; 93_implementation_defined.md U16; log entry 30): the R/W field, the LEN field, the
breakpoint address, the linear address of the instruction. -/
opaque undefinedCodeBreakpoint : BitVec 2 → BitVec 2 → Dword → Dword → Bool

/-- What a physical address that holds nothing reads as (00_scope.md R8, PHYS_MEM; log entry 50). -/
opaque absentByte : Nat → Byte

/-- The stepping id that DL holds after RESET (00_scope.md R8, 10_state.md R112). DESIGN CHOICE 0 (log entry 3): unsafe. -/
def steppingId : Byte := 0x00#8

/-- What a byte of memory that nothing has written reads as. DESIGN CHOICE 00H (log entry 4): unsafe. -/
def unwrittenByte : Byte := 0x00#8

/-- How many bytes after an instruction may have been prefetched. PRESUMED 16, the family's (log entry 54): unsafe. -/
def prefetchDepth : Nat := 16

/-- The longest instruction, in bytes (30_encoding.md R232). -/
def maxLength : Nat := 15

end Sys2Proof.Config
end

