-- ==== Sys2Proof/Syntax.lean ====
section
/-! DEFINITION. The instructions of spec/opcode_table.json as abstract syntax, one constructor per row, and their operand
forms (30_encoding.md R240 to R250). -/

namespace Sys2Proof

/-- The eight general registers, in the order of 10_state.md R30. -/
inductive Reg where
  | eax | ecx | edx | ebx | esp | ebp | esi | edi
deriving DecidableEq, Repr

/-- The eight byte registers, in the order of 30_encoding.md R242. -/
inductive Reg8 where
  | al | cl | dl | bl | ah | ch | dh | bh
deriving DecidableEq, Repr

/-- The six segment registers, in the order of 30_encoding.md R242. -/
inductive Sreg where
  | es | cs | ss | ds | fs | gs
deriving DecidableEq, Repr

/-- The instruction prefixes (30_encoding.md R233, R241). -/
inductive Pfx where
  | lock | repne | rep
  | seg (s : Sreg)
  | opSize | addrSize
deriving DecidableEq, Repr

/-- What every instruction carries beside its operands: its prefixes in order, whether the code segment's default size
is 32 bits (30_encoding.md R241), and its whole length in bytes, prefixes included. -/
structure Ctx where
  prefixes : List Pfx
  d32 : Bool
  len : Nat
deriving DecidableEq, Repr

/-- The eight register sums of 16-bit addressing (30_encoding.md R244). -/
inductive Base16 where
  | bxSi | bxDi | bpSi | bpDi | si | di | bp | bx
deriving DecidableEq, Repr

/-- The displacement of a 16-bit addressing form (30_encoding.md R244). -/
inductive Disp16 where
  | none
  | d8 (v : Byte)
  | d16 (v : Word)
deriving DecidableEq, Repr

/-- The displacement of a 32-bit addressing form (30_encoding.md R243). -/
inductive Disp32 where
  | none
  | d8 (v : Byte)
  | d32 (v : Dword)
deriving DecidableEq, Repr

/-- A memory operand's effective-address form (30_encoding.md R243, R244). -/
inductive Ea where
  /-- a register sum and a displacement, 16-bit addressing -/
  | ea16 (b : Base16) (d : Disp16)
  /-- a 16-bit address alone -/
  | abs16 (d : Word)
  /-- a base register and a displacement, 32-bit addressing, no SIB byte -/
  | ea32 (b : Reg) (d : Disp32)
  /-- a 32-bit address alone, no SIB byte -/
  | abs32 (d : Dword)
  /-- a SIB byte with a base register -/
  | sib (scale : BitVec 2) (index : Option Reg) (base : Reg) (d : Disp32)
  /-- a SIB byte without a base register -/
  | sibAbs (scale : BitVec 2) (index : Option Reg) (d : Dword)
deriving DecidableEq, Repr

/-- A register-or-memory operand, over the kind of register it may name (30_encoding.md R242). -/
inductive RM (ρ : Type) where
  | reg (r : ρ)
  | mem (ea : Ea)
deriving DecidableEq, Repr

/-- An immediate of the operand size (30_encoding.md R245, R248). -/
inductive Imm where
  | i16 (v : Word)
  | i32 (v : Dword)
deriving DecidableEq, Repr

/-- What a repeat prefix repeats (45_io.md R517), or the byte of an opcode that the spec does not hold. -/
inductive RepTarget where
  | insb | insw | outsb | outsw
  | other (op : Byte)
deriving DecidableEq, Repr

/-- What a LOCK prefix stands before (47_coprocessor_and_lock.md R600): the two exchanges, or another opcode, with its
ModRM byte if the opcode is one of the list's. -/
inductive LockTarget where
  | xchgByte (rm : RM Reg8) (r : Reg8)
  | xchg (rm : RM Reg) (r : Reg)
  /-- a one-byte opcode that the list does not hold -/
  | oneByte (op : Byte)
  /-- a two-byte opcode 0F op that the list does not hold -/
  | twoByte (op : Byte)
  /-- a one-byte opcode of the list and its ModRM byte -/
  | oneByteRm (op modrm : Byte)
  /-- a two-byte opcode 0F op of the list and its ModRM byte -/
  | twoByteRm (op modrm : Byte)
deriving DecidableEq, Repr

/-- The instructions, one constructor per row of spec/opcode_table.json in the table's order. A special-register or
segment-register number that an encoding holds is kept as its three bits, because numbers that name no register are
encodings too (they raise an exception when executed). `mb` is the mod field of a MOV to or from a special register,
which selects nothing (30_encoding.md R249). -/
inductive Instr where
  | arpl (c : Ctx) (dst : RM Reg) (src : Reg)
  | lar (c : Ctx) (dst : Reg) (src : RM Reg)
  | lsl (c : Ctx) (dst : Reg) (src : RM Reg)
  | verr (c : Ctx) (src : RM Reg)
  | verw (c : Ctx) (src : RM Reg)
  | sldt (c : Ctx) (dst : RM Reg)
  | str (c : Ctx) (dst : RM Reg)
  | lldt (c : Ctx) (src : RM Reg)
  | ltr (c : Ctx) (src : RM Reg)
  | sgdt (c : Ctx) (dst : RM Reg)
  | sidt (c : Ctx) (dst : RM Reg)
  | lgdt (c : Ctx) (src : RM Reg)
  | lidt (c : Ctx) (src : RM Reg)
  | smsw (c : Ctx) (dst : RM Reg)
  | lmsw (c : Ctx) (src : RM Reg)
  | clts (c : Ctx)
  | movFromCr (c : Ctx) (dst : Reg) (n : BitVec 3) (mb : BitVec 2)
  | movFromDr (c : Ctx) (dst : Reg) (n : BitVec 3) (mb : BitVec 2)
  | movToCr (c : Ctx) (n : BitVec 3) (src : Reg) (mb : BitVec 2)
  | movToDr (c : Ctx) (n : BitVec 3) (src : Reg) (mb : BitVec 2)
  | movFromTr (c : Ctx) (dst : Reg) (n : BitVec 3) (mb : BitVec 2)
  | movToTr (c : Ctx) (n : BitVec 3) (src : Reg) (mb : BitVec 2)
  | hlt (c : Ctx)
  | movToSreg (c : Ctx) (n : BitVec 3) (src : RM Reg)
  | movFromSreg (c : Ctx) (dst : RM Reg) (n : BitVec 3)
  | pushEs (c : Ctx)
  | pushCs (c : Ctx)
  | pushSs (c : Ctx)
  | pushDs (c : Ctx)
  | pushFs (c : Ctx)
  | pushGs (c : Ctx)
  | popEs (c : Ctx)
  | popSs (c : Ctx)
  | popDs (c : Ctx)
  | popFs (c : Ctx)
  | popGs (c : Ctx)
  | lds (c : Ctx) (dst : Reg) (src : RM Reg)
  | les (c : Ctx) (dst : Reg) (src : RM Reg)
  | lss (c : Ctx) (dst : Reg) (src : RM Reg)
  | lfs (c : Ctx) (dst : Reg) (src : RM Reg)
  | lgs (c : Ctx) (dst : Reg) (src : RM Reg)
  | jmpRel8 (c : Ctx) (d : Byte)
  | jmpRel (c : Ctx) (d : Imm)
  | jmpNear (c : Ctx) (t : RM Reg)
  | callRel (c : Ctx) (d : Imm)
  | callNear (c : Ctx) (t : RM Reg)
  | retNear (c : Ctx)
  | retNearImm (c : Ctx) (n : Word)
  | jmpFar (c : Ctx) (off : Imm) (sel : Word)
  | jmpFarMem (c : Ctx) (t : RM Reg)
  | callFar (c : Ctx) (off : Imm) (sel : Word)
  | callFarMem (c : Ctx) (t : RM Reg)
  | retFar (c : Ctx)
  | retFarImm (c : Ctx) (n : Word)
  | inAlImm (c : Ctx) (port : Byte)
  | inAxImm (c : Ctx) (port : Byte)
  | inAlDx (c : Ctx)
  | inAxDx (c : Ctx)
  | outImmAl (c : Ctx) (port : Byte)
  | outImmAx (c : Ctx) (port : Byte)
  | outDxAl (c : Ctx)
  | outDxAx (c : Ctx)
  | insb (c : Ctx)
  | insw (c : Ctx)
  | outsb (c : Ctx)
  | outsw (c : Ctx)
  | repPrefix (c : Ctx) (t : RepTarget)
  | cli (c : Ctx)
  | sti (c : Ctx)
  | pushf (c : Ctx)
  | popf (c : Ctx)
  | int3 (c : Ctx)
  | intImm (c : Ctx) (v : Byte)
  | into (c : Ctx)
  | bound (c : Ctx) (r : Reg) (m : RM Reg)
  | iret (c : Ctx)
  | esc (c : Ctx) (op : BitVec 3) (reg : BitVec 3) (rm : RM Reg)
  | wait (c : Ctx)
  | lockPrefix (c : Ctx) (t : LockTarget)
  | xchgByte (c : Ctx) (rm : RM Reg8) (r : Reg8)
  | xchg (c : Ctx) (rm : RM Reg) (r : Reg)
deriving DecidableEq, Repr

end Sys2Proof
end

