-- ==== Sys2Proof/Machine/State.lean ====
section
/-! DEFINITION. Every piece of state the spec gives the machine (10_state.md), as plain data; the reasons a step can stop;
the machine right after RESET (10_state.md R110 to R121, 70_reset_and_hazards.md R800). -/

namespace Sys2Proof.Machine

/-- The eight general registers (R30). -/
structure Gpr where
  eax : Dword
  ecx : Dword
  edx : Dword
  ebx : Dword
  esp : Dword
  ebp : Dword
  esi : Dword
  edi : Dword
deriving DecidableEq, Repr

/-- EFLAGS (R45); the bits drawn 0 and 1 are no state, they read as drawn (R46). `ifl` is IF. -/
structure EFlags where
  cf : Bool
  pf : Bool
  af : Bool
  zf : Bool
  sf : Bool
  tf : Bool
  ifl : Bool
  df : Bool
  ovf : Bool
  iopl : BitVec 2
  nt : Bool
  rf : Bool
  vm : Bool
deriving DecidableEq, Repr

/-- The attribute bits of a descriptor, held in the hidden part of a segment register (R60; 20_memory.md R140). -/
structure SegAttr where
  g : Bool
  db : Bool
  avl : Bool
  p : Bool
  dpl : BitVec 2
  s : Bool
  typ : BitVec 4
deriving DecidableEq, Repr

/-- A segment register: the visible selector and the hidden part (R60). `valid` is false after a null selector. -/
structure SegReg where
  sel : Word
  base : Dword
  limit : Dword
  attr : SegAttr
  valid : Bool
deriving DecidableEq, Repr

/-- The six segment registers (R60). -/
structure SegRegs where
  cs : SegReg
  ss : SegReg
  ds : SegReg
  es : SegReg
  fs : SegReg
  gs : SegReg
deriving DecidableEq, Repr

/-- GDTR and IDTR (R70, R71). -/
structure TableReg where
  base : Dword
  limit : Word
deriving DecidableEq, Repr

/-- LDTR and TR (R72, R73): the visible selector and the hidden base and limit. -/
structure SystemSeg where
  sel : Word
  base : Dword
  limit : Dword
  valid : Bool
deriving DecidableEq, Repr

/-- The control registers (R80 to R87). -/
structure ControlRegs where
  cr0 : Dword
  cr2 : Dword
  cr3 : Dword
deriving DecidableEq, Repr

/-- The debug registers (R92; 48_debug.md R620 to R629). -/
structure DebugRegs where
  dr0 : Dword
  dr1 : Dword
  dr2 : Dword
  dr3 : Dword
  dr6 : Dword
  dr7 : Dword
deriving DecidableEq, Repr

/-- One entry of the TLB (49_tlb_test.md R670): tag (`la`, `v`, `d`, `u`, `w`) and data (`pa`). `known` is the model's
own: whether the entry has been assigned since RESET (R677; log entry 33). -/
structure TlbEntry where
  known : Bool
  v : Bool
  la : BitVec 20
  d : Bool
  u : Bool
  w : Bool
  pa : BitVec 20
deriving DecidableEq, Repr

/-- One decision about the TLB that the spec leaves to the chip (20_memory.md R200; 93_implementation_defined.md U20; log
entry 32): whether the entries of the set are forgotten before the translation, and the block a walk fills, if any. -/
structure TlbChoice where
  drop : Bool
  fill : Option (BitVec 2)
deriving DecidableEq, Repr

/-- The test registers and the TLB (R93, R100; 49_tlb_test.md R670): block b's entry i is `entries[8 * b + i]`. `choices`
and `next` are the model's own (log entry 32): the decisions still to come, and the block filled when none is left. -/
structure Tlb where
  tr6 : Dword
  tr7 : Dword
  entries : Vector TlbEntry 32
  choices : List TlbChoice
  next : BitVec 2
deriving DecidableEq, Repr

/-- What the processor is doing (R105). -/
inductive RunState where
  | running | halted | shutdown
deriving DecidableEq, Repr

/-- The classes of Table 9-3, and the double fault itself (60_exceptions.md R750, R751). -/
inductive ExcClass where
  | benign | contributory | pageFault | doubleFault
deriving DecidableEq, Repr

/-- The debug traps an instruction has accumulated (R109; 48_debug.md R645): single step, task switch, the enabled data
breakpoints that matched, and all the data breakpoints that matched (R630). -/
structure PendingDebug where
  bs : Bool
  bt : Bool
  hit : BitVec 4
  occurred : BitVec 4
deriving DecidableEq, Repr

/-- What is kept of the instruction prefetch queue (R101; 20_memory.md R229; log entry 7): the physical addresses of the bytes
that may lie in it and have been stored into since the last control transfer, and whether the instruction being run has
delivered an event, which empties it. -/
structure Prefetch where
  stale : List Nat
  emptied : Bool
deriving DecidableEq, Repr

/-- The hidden state between and inside instructions (R101 to R109, R120). -/
structure RunInfo where
  runState : RunState
  nmiMasked : Bool
  nmiPending : Bool
  ssInhibit : Bool
  stiInhibit : Bool
  a31Forced : Bool
  pendingDb : PendingDebug
  delivering : Option ExcClass
  prefetch : Prefetch
deriving DecidableEq, Repr

/-- The inputs that the outside drives (R104, R106): INTR and the identifier the controller supplies (60_exceptions.md
R707), BUSY#, ERROR# and RESET, each true when asserted. -/
structure Pins where
  intrLine : Bool
  intrVector : Byte
  busy : Bool
  error : Bool
  reset : Bool
deriving DecidableEq, Repr

/-- One access to the I/O space (45_io.md R510; log entry 6): `write` tells OUT from IN. -/
structure IoEvent where
  write : Bool
  port : Word
  size : Nat
  value : Dword
deriving DecidableEq, Repr

/-- The I/O devices (00_scope.md R8, IO_PORTS; log entry 6): the data the next port reads return, and the accesses made,
the latest first. -/
structure IoState where
  inputs : List Dword
  log : List IoEvent
deriving DecidableEq, Repr

/-- What the coprocessor does with the next ESC instruction (47_coprocessor_and_lock.md R585; log entry 28): whether it is
one that tests ERROR#, the length of its memory operand (at most 108 bytes), whether it stores, and the bytes it stores. -/
structure CopReply where
  testsError : Bool
  length : Nat
  store : Bool
  data : List Byte
deriving DecidableEq, Repr

/-- What an ESC instruction names by its mod and rm fields (R585): with mod = 11 the rm bits belong to the coprocessor's
opcode; else the operand's selector, its offset and the bytes transferred. -/
inductive CopOperand where
  | opcode (rm : BitVec 3)
  | memory (sel : Word) (off : Dword) (bytes : List Byte)
deriving DecidableEq, Repr

/-- An ESC instruction handed to the coprocessor (R585): the low three bits of its first byte, the reg field, and what the
rest of the ModRM byte names. -/
structure CopEvent where
  op : BitVec 3
  reg : BitVec 3
  operand : CopOperand
deriving DecidableEq, Repr

/-- The coprocessor as the processor sees it (log entry 28): its coming answers, and what was handed to it. -/
structure CopState where
  replies : List CopReply
  log : List CopEvent
deriving DecidableEq, Repr

/-- The coprocessor of the configuration (00_scope.md R8). -/
inductive CopKind where
  | none | i287 | i387
deriving DecidableEq, Repr

/-- What stands at a physical address (00_scope.md R8, PHYS_MEM). A store to `rom` is lost (20_memory.md R154; log entry
50); `absent` is nothing at all. -/
inductive MemKind where
  | ram | rom | absent
deriving DecidableEq, Repr

/-- A range of physical addresses, both ends in it, and what stands there. -/
structure MemRange where
  first : Nat
  last : Nat
  kind : MemKind
deriving DecidableEq, Repr

/-- Physical memory (20_memory.md R130). `map` is the parameter PHYS_MEM (00_scope.md R8), which no step changes: RAM
wherever it lists nothing. `cells` lists the bytes that differ from what an unlisted byte reads as, addresses strictly
rising. -/
structure PhysMem where
  map : List MemRange
  cells : List Host.Cell
deriving DecidableEq, Repr

/-- The parameters of 00_scope.md R8, but for PHYS_MEM, which `PhysMem` holds; no step changes them. `selfTestEax` is what
EAX holds after a requested self-test; `copKind` is COPROCESSOR; `selectorTestSetsA` and `iceInUse` are SELECTOR_TEST_SETS_A
and ICE_IN_USE. The model's own is `prefetchDepth`: how many bytes may be prefetched (10_state.md R101; log entry 54). -/
structure Params where
  copKind : CopKind
  selfTestEax : Dword
  selectorTestSetsA : Bool
  iceInUse : Bool
  prefetchDepth : Nat
deriving DecidableEq, Repr

/-- The model's own: the free values still to come, as far as they are given, and how many have been taken; past the end
of the list a free value is an unknown of Config (log entry 5). -/
structure FreeState where
  values : List Dword
  count : Nat
deriving DecidableEq, Repr

/-- The machine (10_state.md). `cpl` is the CPL field of hidden CS (70_reset_and_hazards.md R822). `free` is the model's
own (log entry 5). -/
structure State where
  gpr : Gpr
  pc : Dword
  flags : EFlags
  cpl : BitVec 2
  seg : SegRegs
  gdtr : TableReg
  idtr : TableReg
  ldtr : SystemSeg
  tr : SystemSeg
  ctl : ControlRegs
  dbg : DebugRegs
  tlb : Tlb
  run : RunInfo
  pins : Pins
  io : IoState
  cop : CopState
  params : Params
  free : FreeState
  mem : PhysMem
deriving DecidableEq, Repr

/-- Why the machine stops although it would go on: each is a case that the spec calls undefined, unspecified or reserved
and to which it gives no effect. Stopping is safe: no claim about what follows can be proved. -/
inductive Fault where
  /-- Raised by a page walk that meets an entry with P = 1 and a 1 in bits 8:7 or 4:3 (93_implementation_defined.md U6).
  Safe. -/
  | reservedPageEntry
  /-- Raised by a MOV to TR6 that commands a TLB write while TR7.HT is 0 (49_tlb_test.md R674, R676; U21). Safe. -/
  | tlbWriteWithoutHit
  /-- Raised by a translation that finds two valid TLB entries with one tag (49_tlb_test.md R676; U21). Safe. -/
  | duplicateTlbTags
  /-- Raised by an I/O instruction whose bytes run past port FFFFH (45_io.md R510; U13). Safe. -/
  | portBeyondSpace
deriving DecidableEq, Repr

/-- Why an instruction has no meaning in this model. Refusing is safe: no claim about what follows can be proved. -/
inductive Refusal where
  /-- Answered by an arm of exec that has no meaning yet; none is left. Safe. -/
  | notModelled (mnemonic : String)
  /-- Answered by a step whose bytes are an opcode that spec/opcode_table.json does not hold and that is not known to be
  invalid (30_encoding.md R236, R252). Safe. -/
  | opcodeOutsideSpec (opcode : List Byte)
  /-- Answered by a LOCK prefix before an instruction of R600's list other than XCHG with a memory destination, whose meaning
  is not in the spec (47_coprocessor_and_lock.md R600; 30_encoding.md R252). Safe. -/
  | lockOutsideSpec (opcode : List Byte)
  /-- Answered by a repeat prefix before an opcode that the spec does not hold (45_io.md R517). Safe. -/
  | repeatOutsideSpec (opcode : Byte)
  /-- Answered in virtual 8086 mode, which the spec leaves out (10_state.md R51, 60_exceptions.md R781). Safe. -/
  | virtual8086
  /-- Answered by a transfer through an 80286 descriptor (93_implementation_defined.md U8). Safe. -/
  | descriptor286
  /-- Answered by a MOV to or from DR4 or DR5 (48_debug.md R629; U12). Safe. -/
  | reservedDebugRegister
  /-- Answered by the fetch of a byte that may have been prefetched before it was stored into (20_memory.md R229;
  93_implementation_defined.md U25). Safe. -/
  | prefetchedStore
  /-- Answered by an ESC instruction when no coprocessor is attached (47_coprocessor_and_lock.md R587; U14). Safe. -/
  | noCoprocessor
deriving DecidableEq, Repr

/-- The general registers after RESET (R111, R112, R118): DH = 3, DL the stepping id, the rest 0 (log entry 1). -/
def Gpr.reset : Gpr :=
  { eax := 0x00000000#32, ecx := 0x00000000#32, edx := 0x0003#24 ++ Config.steppingId, ebx := 0x00000000#32,
    esp := 0x00000000#32, ebp := 0x00000000#32, esi := 0x00000000#32, edi := 0x00000000#32 }

/-- EFLAGS after RESET: 00000002H (R113). -/
def EFlags.reset : EFlags :=
  { cf := false, pf := false, af := false, zf := false, sf := false, tf := false, ifl := false, df := false,
    ovf := false, iopl := 0#2, nt := false, rf := false, vm := false }

/-- A present, writable, expand-up data segment of DPL 0 (R119). DESIGN CHOICE (log entry 1): the accessed bit, which R118
leaves undefined, is 0, and so are G, D/B and AVL. -/
def SegAttr.resetData : SegAttr :=
  { g := false, db := false, avl := false, p := true, dpl := 0#2, s := true, typ := 0b0010#4 }

/-- A present, readable, executable segment of DPL 0 (R119). DESIGN CHOICE (log entry 1): the accessed and the conforming
bit, which R118 leaves undefined, are 0, and so are G, D/B and AVL. -/
def SegAttr.resetCode : SegAttr :=
  { g := false, db := false, avl := false, p := true, dpl := 0#2, s := true, typ := 0b1010#4 }

/-- DS, ES, SS, FS, GS after RESET (R116, R119). -/
def SegReg.resetData : SegReg :=
  { sel := 0x0000#16, base := 0x00000000#32, limit := 0x0000FFFF#32, attr := SegAttr.resetData, valid := true }

/-- CS after RESET (R115, R116, R119). -/
def SegReg.resetCode : SegReg :=
  { sel := 0xF000#16, base := 0xFFFF0000#32, limit := 0x0000FFFF#32, attr := SegAttr.resetCode, valid := true }

/-- LDTR and TR after RESET (R118; log entry 1). -/
def SystemSeg.reset : SystemSeg :=
  { sel := 0x0000#16, base := 0x00000000#32, limit := 0x00000000#32, valid := false }

/-- A TLB entry after RESET (R118; log entry 1). -/
def TlbEntry.reset : TlbEntry :=
  { known := false, v := false, la := 0#20, d := false, u := false, w := false, pa := 0#20 }

/-- The test registers and the TLB after RESET (R118; log entries 1 and 32). -/
def Tlb.reset : Tlb :=
  { tr6 := 0x00000000#32, tr7 := 0x00000000#32, entries := Vector.replicate 32 TlbEntry.reset, choices := [],
    next := 0#2 }

/-- No debug trap is pending. -/
def PendingDebug.none : PendingDebug := { bs := false, bt := false, hit := 0#4, occurred := 0#4 }

/-- The hidden state after RESET (R120; 70_reset_and_hazards.md R800). -/
def RunInfo.reset : RunInfo :=
  { runState := .running, nmiMasked := false, nmiPending := false, ssInhibit := false, stiInhibit := false,
    a31Forced := true, pendingDb := .none, delivering := Option.none, prefetch := { stale := [], emptied := false } }

/-- The machine right after RESET (R110 to R121; 70_reset_and_hazards.md R800), with an 80387 attached (log entry 3),
RAM everywhere and nothing in it (log entries 4 and 50), 16 bytes that may be prefetched (log entry 54), and every input
inactive (log entries 6, 28, 37, 38). -/
def State.reset : State :=
  { gpr := Gpr.reset
    pc := 0x0000FFF0#32
    flags := EFlags.reset
    cpl := 0#2
    seg := { cs := .resetCode, ss := .resetData, ds := .resetData, es := .resetData, fs := .resetData,
             gs := .resetData }
    gdtr := { base := 0x00000000#32, limit := 0x0000#16 }
    idtr := { base := 0x00000000#32, limit := 0x03FF#16 }
    ldtr := .reset
    tr := .reset
    ctl := { cr0 := 0x00000010#32, cr2 := 0x00000000#32, cr3 := 0x00000000#32 }
    dbg := { dr0 := 0x00000000#32, dr1 := 0x00000000#32, dr2 := 0x00000000#32, dr3 := 0x00000000#32,
             dr6 := 0x00000000#32, dr7 := 0x00000000#32 }
    tlb := .reset
    run := .reset
    pins := { intrLine := false, intrVector := 0x00#8, busy := false, error := false, reset := false }
    io := { inputs := [], log := [] }
    cop := { replies := [], log := [] }
    params := { copKind := .i387, selfTestEax := 0x00000000#32, selectorTestSetsA := true, iceInUse := false,
                prefetchDepth := Config.prefetchDepth }
    free := { values := [], count := 0 }
    mem := { map := [], cells := [] } }

end Sys2Proof.Machine
end

