-- ==== Sys2Proof/Machine/Bits.lean ====
section
/-! DEFINITION. The fields of selectors, descriptors, gates and control registers (20_memory.md R140 to R155; 10_state.md
R81; 60_exceptions.md R712), and little-endian bytes (20_memory.md R210). -/

namespace Sys2Proof.Machine

/-- A 32-bit value from its bytes, the least significant first; bytes past the fourth do not count. -/
def fromBytes : List Byte → Dword
  | [] => 0x00000000#32
  | b :: r => (fromBytes r <<< 8) ||| b.setWidth 32

/-- The low n bytes of a value, the least significant first. -/
def toBytes : Nat → Dword → List Byte
  | 0, _ => []
  | n + 1, v => v.setWidth 8 :: toBytes n (v >>> 8)

/-- The low 16 bits. -/
def lowWord (v : Dword) : Word := v.setWidth 16

/-- A value with its low 16 bits replaced. -/
def withLowWord (v : Dword) (w : Word) : Dword := v.extractLsb' 16 16 ++ w

/-- INDEX of a selector (R155). -/
def selIndex (sel : Word) : Nat := sel.toNat / 8

/-- TI of a selector (R155): true for the LDT. -/
def selTi (sel : Word) : Bool := sel.getLsbD 2

/-- RPL of a selector (R155). -/
def selRpl (sel : Word) : BitVec 2 := sel.setWidth 2

/-- Whether a selector is null, whatever its RPL (R156). -/
def selNull (sel : Word) : Bool := sel.extractLsb' 2 14 = 0#14

/-- A selector with another RPL. -/
def withRpl (sel : Word) (pl : BitVec 2) : Word := sel.extractLsb' 2 14 ++ pl

/-- The 8 bytes of a descriptor-table entry, as two doublewords, and the linear address they were read from (R140,
R160). -/
structure Descriptor where
  lo : Dword
  hi : Dword
  addr : Dword
deriving DecidableEq, Repr

/-- BASE (R143). -/
def Descriptor.base (d : Descriptor) : Dword := d.hi.extractLsb' 24 8 ++ d.hi.extractLsb' 0 8 ++ d.lo.extractLsb' 16 16

/-- The 20-bit LIMIT (R144). -/
def Descriptor.limit20 (d : Descriptor) : BitVec 20 := d.hi.extractLsb' 16 4 ++ d.lo.extractLsb' 0 16

/-- The limit scaled by the granularity bit (R144, R145). -/
def Descriptor.limit (d : Descriptor) : Dword :=
  if d.hi.getLsbD 23 then d.limit20 ++ 0xFFF#12 else d.limit20.setWidth 32

/-- The attribute bits (R140). -/
def Descriptor.attr (d : Descriptor) : SegAttr :=
  { g := d.hi.getLsbD 23, db := d.hi.getLsbD 22, avl := d.hi.getLsbD 20, p := d.hi.getLsbD 15,
    dpl := d.hi.extractLsb' 13 2, s := d.hi.getLsbD 12, typ := d.hi.extractLsb' 8 4 }

/-- The type code of a system descriptor or gate: S and TYPE together (R142; 60_exceptions.md R712). -/
def Descriptor.kind (d : Descriptor) : BitVec 5 := d.hi.extractLsb' 8 5

/-- DPL (R149). -/
def Descriptor.dpl (d : Descriptor) : BitVec 2 := d.hi.extractLsb' 13 2

/-- P (R146). -/
def Descriptor.present (d : Descriptor) : Bool := d.hi.getLsbD 15

/-- The selector of a gate (R712; 41_control_transfer.md R340). -/
def Descriptor.gateSel (d : Descriptor) : Word := d.lo.extractLsb' 16 16

/-- The offset of a gate. -/
def Descriptor.gateOff (d : Descriptor) : Dword := d.hi.extractLsb' 16 16 ++ d.lo.extractLsb' 0 16

/-- The doubleword count of a call gate (41_control_transfer.md R340). -/
def Descriptor.gateCount (d : Descriptor) : Nat := (d.hi.extractLsb' 0 5).toNat

/-- An executable segment (R141). -/
def SegAttr.code (a : SegAttr) : Bool := a.s && a.typ.getLsbD 3

/-- A data segment (R141). -/
def SegAttr.data (a : SegAttr) : Bool := a.s && !a.typ.getLsbD 3

/-- A conforming executable segment (R141). -/
def SegAttr.conforming (a : SegAttr) : Bool := a.code && a.typ.getLsbD 2

/-- A readable segment: every data segment, and an executable one with R = 1 (R141). -/
def SegAttr.readable (a : SegAttr) : Bool := a.data || (a.code && a.typ.getLsbD 1)

/-- A writable data segment (R141). -/
def SegAttr.writable (a : SegAttr) : Bool := a.data && a.typ.getLsbD 1

/-- An expand-down data segment (R141). -/
def SegAttr.expandDown (a : SegAttr) : Bool := a.data && a.typ.getLsbD 2

/-- The 80286 descriptors whose formats the spec does not give (93_implementation_defined.md U8): types 1, 3, 4, 6, 7 with
S = 0. -/
def Descriptor.is286 (d : Descriptor) : Bool :=
  d.kind = 0b00001#5 || d.kind = 0b00011#5 || d.kind = 0b00100#5 || d.kind = 0b00110#5 || d.kind = 0b00111#5

/-- The hidden part that a descriptor gives a segment register, under a selector; the accessed bit reads as the load
leaves it, set (R60, R143, R144, R147). -/
def Descriptor.segReg (d : Descriptor) (sel : Word) : SegReg :=
  { sel := sel, base := d.base, limit := d.limit, attr := { d.attr with typ := d.attr.typ ||| 0b0001#4 },
    valid := true }

/-- PE of CR0 (10_state.md R81). -/
def State.pe (s : State) : Bool := s.ctl.cr0.getLsbD 0

/-- MP of CR0. -/
def State.mp (s : State) : Bool := s.ctl.cr0.getLsbD 1

/-- EM of CR0. -/
def State.em (s : State) : Bool := s.ctl.cr0.getLsbD 2

/-- TS of CR0. -/
def State.ts (s : State) : Bool := s.ctl.cr0.getLsbD 3

/-- PG of CR0. -/
def State.pg (s : State) : Bool := s.ctl.cr0.getLsbD 31

end Sys2Proof.Machine
end

