-- ==== Sys2Proof/Machine/Flags.lean ====
section
/-! DEFINITION. EFLAGS as a word, and every way an instruction writes it (10_state.md R45 to R54; 45_io.md R533 to R535;
46_interrupt_instructions.md R560, R563). -/

namespace Sys2Proof.Machine

/-- One bit as a word. -/
def bit (b : Bool) : BitVec 1 := BitVec.ofBool b

/-- EFLAGS as it reads (R45, R46): bit 1 is 1, bits 31:18, 15, 5 and 3 are 0. -/
def EFlags.pack (f : EFlags) : Dword :=
  0#14 ++ bit f.vm ++ bit f.rf ++ 0#1 ++ bit f.nt ++ f.iopl ++ bit f.ovf ++ bit f.df ++ bit f.ifl ++ bit f.tf ++ bit f.sf
    ++ bit f.zf ++ 0#1 ++ bit f.af ++ 0#1 ++ bit f.pf ++ 1#1 ++ bit f.cf

/-- The flags a word holds; the bits that are hard-wired are ignored (R46). -/
def EFlags.unpack (w : Dword) : EFlags :=
  { cf := w.getLsbD 0, pf := w.getLsbD 2, af := w.getLsbD 4, zf := w.getLsbD 6, sf := w.getLsbD 7, tf := w.getLsbD 8,
    ifl := w.getLsbD 9, df := w.getLsbD 10, ovf := w.getLsbD 11, iopl := w.extractLsb' 12 2, nt := w.getLsbD 14,
    rf := w.getLsbD 16, vm := w.getLsbD 17 }

/-- EFLAGS with another ZF. -/
def State.setZf (s : State) (b : Bool) : State := { s with flags := { s.flags with zf := b } }

/-- EFLAGS with another IF. -/
def State.setIf (s : State) (b : Bool) : State := { s with flags := { s.flags with ifl := b } }

/-- EFLAGS with another RF. -/
def State.setRf (s : State) (b : Bool) : State := { s with flags := { s.flags with rf := b } }

/-- The flags image that the entry of a handler saves: EFLAGS, with RF set when the event is a fault (48_debug.md R651). -/
def EFlags.image (f : EFlags) (isFault : Bool) : Dword := { f with rf := f.rf || isFault }.pack

/-- The flags that POPF and IRET load from a word, privileges applied (10_state.md R52; 45_io.md R534;
46_interrupt_instructions.md R560): IOPL only at CPL 0, IF only when CPL <= IOPL, RF only from a doubleword, VM as it
stands; `old` are the flags before. -/
def EFlags.load (old : EFlags) (w : Dword) (cpl : BitVec 2) (dword : Bool) : EFlags :=
  let new := EFlags.unpack w
  { new with
    iopl := if cpl = 0#2 then new.iopl else old.iopl
    ifl := if cpl ≤ old.iopl then new.ifl else old.ifl
    rf := if dword then new.rf else old.rf
    vm := old.vm }

/-- The flags a procedure handler starts with (60_exceptions.md R720 step 9, R727): TF, NT and RF clear, IF clear through
an interrupt gate. -/
def EFlags.enterGate (f : EFlags) (interruptGate : Bool) : EFlags :=
  { f with tf := false, nt := false, rf := false, ifl := f.ifl && !interruptGate }

/-- The flags a real-address-mode handler starts with (60_exceptions.md R730): IF and TF clear. -/
def EFlags.enterReal (f : EFlags) : EFlags := { f with tf := false, ifl := false }

end Sys2Proof.Machine
end

