-- ==== Sys2Proof/Machine/Prefixes.lean ====
section
/-! DEFINITION. What an instruction's prefixes select: its operand size, its address size, its segment
(30_encoding.md R233, R241); the opcodes that LOCK may stand before (47_coprocessor_and_lock.md R600). -/

namespace Sys2Proof

/-- Whether a LOCK prefix stands before the instruction. -/
def Ctx.hasLock (c : Ctx) : Bool := c.prefixes.contains .lock

/-- Whether a repeat prefix stands before the instruction; F2H repeats as F3H does (log entry 10). -/
def Ctx.hasRep (c : Ctx) : Bool := c.prefixes.contains .rep || c.prefixes.contains .repne

/-- A size, 32 bits or not, after each prefix that toggles it (R241; log entry 9). -/
def toggled (p : Pfx) (ps : List Pfx) (size32 : Bool) : Bool := size32 != decide (ps.count p % 2 = 1)

/-- Whether the operand size is 32 bits: the default size, toggled by every 66H (R241). -/
def Ctx.op32 (c : Ctx) : Bool := toggled .opSize c.prefixes c.d32

/-- Whether the address size is 32 bits: the default size, toggled by every 67H (R241). -/
def Ctx.addr32 (c : Ctx) : Bool := toggled .addrSize c.prefixes c.d32

/-- The segment a prefix names, if any; of several the last counts (log entry 9). -/
def segOverride : List Pfx → Option Sreg
  | [] => none
  | .seg s :: r => some ((segOverride r).getD s)
  | _ :: r => segOverride r

/-- The instruction's segment override, or the default segment of its operand. -/
def Ctx.segment (c : Ctx) (dflt : Sreg) : Sreg := (segOverride c.prefixes).getD dflt

/-- The operand size in bytes, 2 or 4. -/
def Ctx.opBytes (c : Ctx) : Nat := if c.op32 then 4 else 2

/-- The reg fields with which a one-byte opcode and a ModRM byte are an instruction of R600's list other than XCHG, its
destination the operand that the ModRM byte names: ADD, OR, ADC, SBB, AND, SUB and XOR to r/m, also with an immediate; NOT
and NEG; INC and DEC. None for every other opcode. PRESUMED (log entry 11): the opcodes are the 80386's. -/
def lockFields (op : Byte) : List (BitVec 3) :=
  if [0x00#8, 0x01#8, 0x08#8, 0x09#8, 0x10#8, 0x11#8, 0x18#8, 0x19#8, 0x20#8, 0x21#8, 0x28#8, 0x29#8, 0x30#8,
      0x31#8].contains op then [0#3, 1#3, 2#3, 3#3, 4#3, 5#3, 6#3, 7#3]
  else if [0x80#8, 0x81#8, 0x82#8, 0x83#8].contains op then [0#3, 1#3, 2#3, 3#3, 4#3, 5#3, 6#3]
  else if op = 0xF6#8 || op = 0xF7#8 then [2#3, 3#3]
  else if op = 0xFE#8 || op = 0xFF#8 then [0#3, 1#3]
  else []

/-- The same for an opcode 0F op: BTS, BTR and BTC. -/
def lockFields2 (op : Byte) : List (BitVec 3) :=
  if op = 0xAB#8 || op = 0xB3#8 || op = 0xBB#8 then [0#3, 1#3, 2#3, 3#3, 4#3, 5#3, 6#3, 7#3]
  else if op = 0xBA#8 then [5#3, 6#3, 7#3]
  else []

end Sys2Proof
end

