-- ==== Sys2Proof/Machine/Monad.lean ====
section
/-! DEFINITION. How a meaning runs: it reads and changes the state, or stops with an exception, a fault or a refusal; and
how an exception is raised (00_scope.md R14 to R16; 60_exceptions.md R691, R735). A meaning makes every check and every
translation before it changes a register or a byte, so the state that an exception carries differs from the state before
the instruction only where 60_exceptions.md R691 allows (CR2, DR6, accessed and dirty bits, the TLB) and in the count of
free values. -/

namespace Sys2Proof.Machine

/-- How an event came about (60_exceptions.md R720). -/
inductive EventKind where
  | fault | trap | abort | software | external
deriving DecidableEq, Repr

/-- An interrupt or exception to be delivered: its vector, its kind, and its error code if it has one. -/
structure Event where
  vector : Byte
  kind : EventKind
  code : Option Dword
deriving DecidableEq, Repr

/-- Why a meaning does not complete. -/
inductive Err where
  | exc (e : Event)
  | fault (f : Fault)
  | refusal (r : Refusal)
deriving DecidableEq, Repr

/-- A computation over the machine. -/
abbrev M := EStateM Err State

/-- Stop with a reason. -/
def stop {α : Type} (e : Err) : M α := fun s => .error e s

/-- The next free value: the next of the given ones, or an unknown of Config (log entry 5). -/
def FreeState.head (f : FreeState) : Dword :=
  match f.values with
  | v :: _ => v
  | [] => Config.freeWord f.count

/-- The free values after one is taken. -/
def FreeState.next (f : FreeState) : FreeState := { values := f.values.tail, count := f.count + 1 }

/-- Take a free value (log entry 5). -/
def takeFree : M Dword := fun s => .ok s.free.head { s with free := s.free.next }

/-- Raise a fault that has no error code (60_exceptions.md R736). -/
def raise {α : Type} (vector : Byte) : M α := stop (.exc { vector := vector, kind := .fault, code := none })

/-- Raise a fault with an error code whose low word is given; bits 31:16 are undefined (60_exceptions.md R735): a free
value (log entry 19). -/
def raiseCode {α : Type} (vector : Byte) (code : Word) : M α := do
  let f ← takeFree
  stop (.exc { vector := vector, kind := .fault, code := some (withLowWord f code) })

/-- #UD (60_exceptions.md R759). -/
def raiseUD {α : Type} : M α := raise 0x06#8

/-- #NM (60_exceptions.md R761). -/
def raiseNM {α : Type} : M α := raise 0x07#8

/-- #TS with an error code (60_exceptions.md R763). -/
def raiseTS {α : Type} (code : Word) : M α := raiseCode 0x0A#8 code

/-- #NP with an error code (60_exceptions.md R765). -/
def raiseNP {α : Type} (code : Word) : M α := raiseCode 0x0B#8 code

/-- #SS with an error code (60_exceptions.md R767). -/
def raiseSS {α : Type} (code : Word) : M α := raiseCode 0x0C#8 code

/-- #GP with an error code (60_exceptions.md R769). -/
def raiseGP {α : Type} (code : Word) : M α := raiseCode 0x0D#8 code

/-- EXT as a word. -/
def extBit (ext : Bool) : Word := if ext then 0x0001#16 else 0x0000#16

/-- The error code that names a selector (00_scope.md R16). -/
def selErr (sel : Word) (ext : Bool) : Word := (sel &&& 0xFFFC#16) ||| extBit ext

/-- The error code that names an IDT entry (00_scope.md R16). -/
def idtErr (vec : Byte) (ext : Bool) : Word := (vec.setWidth 16 <<< 3) ||| 0x0002#16 ||| extBit ext

/-- Raise an exception unless a condition holds. -/
def require (ok : Bool) (otherwise : M Unit) : M Unit := if ok then pure () else otherwise

/-- Change the state. -/
def update (f : State → State) : M Unit := fun s => .ok () (f s)

/-- The state. -/
def getState : M State := fun s => .ok s s

end Sys2Proof.Machine
end

