-- ==== Sys2Proof/Machine/Debug.lean ====
section
/-! DEFINITION. Breakpoint recognition and the debug status register (48_debug.md R620 to R660). -/

namespace Sys2Proof.Machine

/-- DRn for n from 0 to 3 (R620). -/
def DebugRegs.address (d : DebugRegs) : Nat → Dword
  | 0 => d.dr0
  | 1 => d.dr1
  | 2 => d.dr2
  | _ => d.dr3

/-- R/Wn of DR7 (R622, R623). -/
def DebugRegs.rw (d : DebugRegs) (n : Nat) : BitVec 2 := d.dr7.extractLsb' (16 + 4 * n) 2

/-- LENn of DR7 (R622, R624). -/
def DebugRegs.len (d : DebugRegs) (n : Nat) : BitVec 2 := d.dr7.extractLsb' (18 + 4 * n) 2

/-- Whether breakpoint n is enabled, locally or globally (R625). -/
def DebugRegs.enabled (d : DebugRegs) (n : Nat) : Bool := d.dr7.getLsbD (2 * n) || d.dr7.getLsbD (2 * n + 1)

/-- Whether breakpoint n's R/W and LEN fields hold values the spec calls undefined (R623, R624). -/
def DebugRegs.undefinedFields (d : DebugRegs) (n : Nat) : Bool :=
  d.rw n = 2#2 || d.len n = 2#2 || (d.rw n = 0#2 && d.len n ≠ 0#2)

/-- The length in bytes that a LEN field names (R624, R635). -/
def fieldLength (len : BitVec 2) : Nat :=
  match len with
  | 0#2 => 1
  | 1#2 => 2
  | _ => 4

/-- The first byte of breakpoint n's field: DRn with its low bits masked (R635). -/
def DebugRegs.fieldStart (d : DebugRegs) (n : Nat) : Nat :=
  (d.address n &&& ~~~(BitVec.ofNat 32 (fieldLength (d.len n) - 1))).toNat

/-- Whether an access of `size` bytes at a linear address meets the condition of data breakpoint n (R635); with undefined
fields, a free answer when n is enabled and none otherwise (93_implementation_defined.md U16; log entry 30). -/
def DebugRegs.dataMatch (d : DebugRegs) (la : Dword) (size : Nat) (write : Bool) (n : Nat) : Bool :=
  if d.undefinedFields n then
    d.enabled n && Config.undefinedDataBreakpoint (d.rw n) (d.len n) (d.address n) la size write
  else
    (d.rw n = 3#2 || (d.rw n = 1#2 && write)) && la.toNat ≤ d.fieldStart n + fieldLength (d.len n) - 1
      && d.fieldStart n ≤ la.toNat + size - 1

/-- Whether an instruction at a linear address meets the condition of instruction breakpoint n (R640); with undefined
fields as above. -/
def DebugRegs.codeMatch (d : DebugRegs) (la : Dword) (n : Nat) : Bool :=
  if d.undefinedFields n then
    d.enabled n && Config.undefinedCodeBreakpoint (d.rw n) (d.len n) (d.address n) la
  else d.rw n = 0#2 && d.address n = la

/-- Four answers as four bits, the answer for 0 lowest. -/
def bits4 (f : Nat → Bool) : BitVec 4 :=
  BitVec.ofBool (f 3) ++ BitVec.ofBool (f 2) ++ BitVec.ofBool (f 1) ++ BitVec.ofBool (f 0)

/-- The state after a data access: the breakpoint conditions that occurred, and those of them that are enabled, are
pending (R645, R646). -/
def State.recordAccess (s : State) (la : Dword) (size : Nat) (write : Bool) : State :=
  let occurred := bits4 (s.dbg.dataMatch la size write)
  let hit := bits4 fun n => s.dbg.enabled n && s.dbg.dataMatch la size write n
  { s with run := { s.run with pendingDb :=
    { s.run.pendingDb with occurred := s.run.pendingDb.occurred ||| occurred, hit := s.run.pendingDb.hit ||| hit } } }

/-- Whether a debug trap is pending (R645): single step, task switch, or an enabled data breakpoint. -/
def PendingDebug.any (p : PendingDebug) : Bool := p.bs || p.bt || p.hit ≠ 0#4

/-- DR6 after the pending traps are reported: BS, BT and every Bn that occurred are set, nothing is cleared (R626, R630 to
R632). -/
def PendingDebug.report (p : PendingDebug) (dr6 : Dword) : Dword :=
  dr6 ||| (0#16 ++ BitVec.ofBool p.bt ++ BitVec.ofBool p.bs ++ 0#10 ++ p.occurred)

/-- The instruction breakpoints whose condition the next instruction meets (R640). -/
def State.codeOccurred (s : State) : BitVec 4 := bits4 (s.dbg.codeMatch (s.seg.cs.base + s.pc))

/-- The enabled ones among them. -/
def State.codeHit (s : State) : BitVec 4 :=
  bits4 fun n => s.dbg.enabled n && s.dbg.codeMatch (s.seg.cs.base + s.pc) n

/-- DR7 after a task switch: L0 to L3 and LE cleared (R627). -/
def DebugRegs.clearLocal (d : DebugRegs) : DebugRegs := { d with dr7 := d.dr7 &&& ~~~0x00000155#32 }

/-- BD of DR6 (R626, R633). -/
def dr6BD : Dword := 0x00002000#32

end Sys2Proof.Machine
end

