-- ==== Sys2Proof/Machine/Memory.lean ====
section
/-! DEFINITION. Physical memory (20_memory.md R130, R210): a list of the bytes that differ from what an unlisted byte reads
as, addresses strictly rising, under the platform's map of RAM, ROM and nothing (00_scope.md R8); and the places of an
operand, which lies in at most two pages (R186). -/

namespace Sys2Proof.Machine

/-- The byte that a list of cells gives an address. -/
def Memory.cell : List Host.Cell → Nat → Byte
  | [], _ => Config.unwrittenByte
  | (k, v) :: r, a => if a < k then Config.unwrittenByte else if a = k then v else Memory.cell r a

/-- The list of cells with one byte changed. -/
def Memory.setCell : List Host.Cell → Nat → Byte → List Host.Cell
  | [], a, v => if v = Config.unwrittenByte then [] else [(a, v)]
  | (k, w) :: r, a, v =>
    if a < k then if v = Config.unwrittenByte then (k, w) :: r else (a, v) :: (k, w) :: r
    else if a = k then if v = Config.unwrittenByte then r else (a, v) :: r
    else (k, w) :: Memory.setCell r a v

/-- Whether an address lies below every listed address. -/
def Memory.below (a : Nat) : List Host.Cell → Bool
  | [] => true
  | (k, _) :: _ => a < k

/-- The canonical form of a list of cells: addresses strictly rising and within the physical space, no entry equal to what
an unlisted byte reads as. -/
def Memory.cellsWf : List Host.Cell → Bool
  | [] => true
  | (k, v) :: r => k < 4294967296 && v ≠ Config.unwrittenByte && Memory.below k r && Memory.cellsWf r

/-- What stands at a physical address: what the first range of the map that holds it says, else RAM. -/
def PhysMem.kindAt (m : PhysMem) (a : Nat) : MemKind :=
  match m.map.find? fun r => r.first ≤ a && a ≤ r.last with
  | some r => r.kind
  | none => .ram

/-- The byte at a physical address; where nothing stands, a free value of the platform (log entry 50). -/
def Memory.read (m : PhysMem) (a : Nat) : Byte :=
  if m.kindAt a = .absent then Config.absentByte a else Memory.cell m.cells a

/-- Memory after a byte is stored: only RAM takes it (log entry 50). -/
def Memory.write (m : PhysMem) (a : Nat) (v : Byte) : PhysMem :=
  if m.kindAt a = .ram then { m with cells := Memory.setCell m.cells a v } else m

/-- Memory with a byte of RAM or ROM put there from outside the machine. -/
def Memory.place (m : PhysMem) (a : Nat) (v : Byte) : PhysMem :=
  if m.kindAt a = .absent then m else { m with cells := Memory.setCell m.cells a v }

/-- The canonical form of memory: that of its cells, none of which lies where nothing stands. -/
def Memory.wf (m : PhysMem) : Bool := Memory.cellsWf m.cells && m.cells.all fun c => m.kindAt c.1 ≠ .absent

/-- Where the bytes of an operand lie in physical memory: `split` bytes from `first` on, the rest from `second` on. -/
structure Span where
  first : Dword
  split : Nat
  second : Dword
deriving DecidableEq, Repr

/-- The physical address of an operand's k-th byte. -/
def Span.addr (sp : Span) (k : Nat) : Nat :=
  if k < sp.split then (sp.first + BitVec.ofNat 32 k).toNat else (sp.second + BitVec.ofNat 32 (k - sp.split)).toNat

/-- n bytes of an operand from its k-th on. -/
def Memory.readSpan (m : PhysMem) (sp : Span) : Nat → Nat → List Byte
  | _, 0 => []
  | k, n + 1 => Memory.read m (sp.addr k) :: Memory.readSpan m sp (k + 1) n

/-- Memory with bytes of an operand changed, from its k-th on. -/
def Memory.writeSpan (m : PhysMem) (sp : Span) : Nat → List Byte → PhysMem
  | _, [] => m
  | k, b :: r => Memory.writeSpan (Memory.write m (sp.addr k) b) sp (k + 1) r

/-- Bytes about to be stored, every check passed. -/
structure Store where
  span : Span
  bytes : List Byte
deriving DecidableEq, Repr

/-- The state after a store. -/
def State.store (s : State) (st : Store) : State := { s with mem := Memory.writeSpan s.mem st.span 0 st.bytes }

/-- The state after several stores, in order. -/
def State.storeAll (s : State) (sts : List Store) : State := sts.foldl State.store s

/-- n consecutive bytes of physical memory as one span. -/
def Span.flat (a : Dword) (n : Nat) : Span := { first := a, split := n, second := a }

end Sys2Proof.Machine
end

