-- ==== Sys2Proof/Machine/Paging.lean ====
section
/-! DEFINITION. Page translation: the TLB, the two-level walk, page-level protection (20_memory.md R170 to R204;
40_protection_and_segment_loads.md R320 to R328; 60_exceptions.md R774 to R776). -/

namespace Sys2Proof.Machine

/-- The page number of a linear address (R171): DIR and PAGE. -/
def pageOf (la : Dword) : BitVec 20 := la.extractLsb' 12 20

/-- The offset within a page (R171). -/
def pageOff (la : Dword) : BitVec 12 := la.setWidth 12

/-- The place of a page's entry within a block (49_tlb_test.md R670): linear-address bits 14:12. -/
def tlbIndex (page : BitVec 20) : Nat := (page.setWidth 3).toNat

/-- Entry i of block b (49_tlb_test.md R670). -/
def Tlb.entry (t : Tlb) (b i : Nat) : TlbEntry := (t.entries[8 * b + i]?).getD TlbEntry.reset

/-- The TLB with entry i of block b replaced. -/
def Tlb.setEntry (t : Tlb) (b i : Nat) (e : TlbEntry) : Tlb := { t with entries := t.entries.setIfInBounds (8 * b + i) e }

/-- The blocks that hold a valid translation of a page. -/
def Tlb.hits (t : Tlb) (page : BitVec 20) : List Nat :=
  [0, 1, 2, 3].filter fun b => (t.entry b (tlbIndex page)).v && (t.entry b (tlbIndex page)).la = page

/-- The entry of one block, marked invalid. -/
def Tlb.invalidate (t : Tlb) (b i : Nat) : Tlb := t.setEntry b i { t.entry b i with v := false }

/-- The TLB without any translation of a page. -/
def Tlb.forget (t : Tlb) (page : BitVec 20) : Tlb := (t.hits page).foldl (fun t b => t.invalidate b (tlbIndex page)) t

/-- The TLB with every entry invalid (R201; 49_tlb_test.md R678). -/
def Tlb.flush (t : Tlb) : Tlb := { t with entries := t.entries.map fun e => { e with v := false } }

/-- Take the next decision about the TLB (R200; log entry 32). -/
def takeChoice : M TlbChoice := fun s =>
  match s.tlb.choices with
  | c :: r => .ok c { s with tlb := { s.tlb with choices := r } }
  | [] => .ok { drop := false, fill := some s.tlb.next } { s with tlb := { s.tlb with next := s.tlb.next + 1#2 } }

/-- Raise #PF at a linear address: CR2 receives the address; the error code says whether the page was present, whether
the access was a write, and whether it was made at user level; its bits 31:3 are undefined: a free value (60_exceptions.md
R775, R776; log entry 19). -/
def pageFault {α : Type} (la : Dword) (present write user : Bool) : M α := do
  update fun s => { s with ctl := { s.ctl with cr2 := la } }
  let f ← takeFree
  stop (.exc { vector := 0x0E#8, kind := .fault,
               code := some (f.extractLsb' 3 29 ++ BitVec.ofBool user ++ BitVec.ofBool write ++ BitVec.ofBool present) })

/-- Page-level protection on the combined rights (40_protection_and_segment_loads.md R322 to R324). -/
def pageAllowed (u w write user : Bool) : Bool := !user || (u && (!write || w))

/-- Whether an entry has a 1 in its reserved bits 8:7 or 4:3 (R173, R177). -/
def reservedEntry (e : Dword) : Bool := e.extractLsb' 7 2 ≠ 0#2 || e.extractLsb' 3 2 ≠ 0#2

/-- A doubleword of physical memory (R210). -/
def physRead (m : PhysMem) (pa : Dword) : Dword := fromBytes (Memory.readSpan m (Span.flat pa 4) 0 4)

/-- Memory with a doubleword of it changed. -/
def physWrite (m : PhysMem) (pa v : Dword) : PhysMem := Memory.writeSpan m (Span.flat pa 4) 0 (toBytes 4 v)

/-- The address of the directory entry of a linear address (R185). -/
def pdeAddr (cr3 la : Dword) : Dword := (cr3.extractLsb' 12 20 ++ 0#12) + (la.extractLsb' 22 10 ++ 0#2).setWidth 32

/-- The address of the page-table entry of a linear address, given its directory entry (R185). -/
def pteAddr (pde la : Dword) : Dword := (pde.extractLsb' 12 20 ++ 0#12) + (la.extractLsb' 12 10 ++ 0#2).setWidth 32

/-- The TLB after a walk, with the translation in the chosen block if any (R200; log entry 32). -/
def Tlb.fill (t : Tlb) (block : Option (BitVec 2)) (e : TlbEntry) : Tlb :=
  match block with
  | none => t
  | some b => t.setEntry b.toNat (tlbIndex e.la) e

/-- The two-level walk (R185): the physical address, the accessed and dirty bits set in memory, and the TLB filled. -/
def walk (la : Dword) (write user : Bool) (block : Option (BitVec 2)) : M Dword := do
  let s ← getState
  let pdeA := pdeAddr s.ctl.cr3 la
  let pde := physRead s.mem pdeA
  if !pde.getLsbD 0 then pageFault la false write user
  else if reservedEntry pde then stop (.fault .reservedPageEntry)
  else
    let pteA := pteAddr pde la
    let pte := physRead s.mem pteA
    if !pte.getLsbD 0 then pageFault la false write user
    else if reservedEntry pte then stop (.fault .reservedPageEntry)
    else
      let u := pde.getLsbD 2 && pte.getLsbD 2
      let w := pde.getLsbD 1 && pte.getLsbD 1
      if !pageAllowed u w write user then pageFault la true write user
      else
        let m1 := if pde.getLsbD 5 then s.mem else physWrite s.mem pdeA (pde ||| 0x00000020#32)
        let pte' := pte ||| (if write then 0x00000060#32 else 0x00000020#32)
        let m2 := if pte' = pte then m1 else physWrite m1 pteA pte'
        let e : TlbEntry := { known := true, v := true, la := pageOf la, d := pte'.getLsbD 6, u := u, w := w,
                              pa := pte.extractLsb' 12 20 }
        update fun s => { s with mem := m2, tlb := s.tlb.fill block e }
        pure (pte.extractLsb' 12 20 ++ pageOff la)

/-- The physical address of a linear address with paging on: a TLB entry if one holds the page, else a walk (R200); a
write through an entry whose D is 0 forgets the entry and walks (R203); two entries for one page stop (49_tlb_test.md
R676). -/
def translatePage (la : Dword) (write user : Bool) : M Dword := do
  let c ← takeChoice
  update fun s => if c.drop then { s with tlb := s.tlb.forget (pageOf la) } else s
  let s ← getState
  match s.tlb.hits (pageOf la) with
  | [] => walk la write user c.fill
  | [b] =>
    let e := s.tlb.entry b (tlbIndex (pageOf la))
    if !pageAllowed e.u e.w write user then pageFault la true write user
    else if write && !e.d then do
      update fun s => { s with tlb := s.tlb.invalidate b (tlbIndex (pageOf la)) }
      walk la write user c.fill
    else pure (e.pa ++ pageOff la)
  | _ => stop (.fault .duplicateTlbTags)

/-- The bytes from a linear address to the end of its page. -/
def pageRest (la : Dword) : Nat := 4096 - (pageOff la).toNat

/-- The places of n bytes at a linear address (R190): the address itself with paging off; each page translated, the lower
first, with paging on (R186). DESIGN CHOICE (log entry 49): of an operand that wraps from FFFFFFFFH to 0, the page of the
first byte comes first. -/
def translate (la : Dword) (n : Nat) (write user : Bool) : M Span := do
  let s ← getState
  if !s.pg then pure (Span.flat la n)
  else do
    let p1 ← translatePage la write user
    if n ≤ pageRest la then pure (Span.flat p1 n)
    else do
      let p2 ← translatePage (la + BitVec.ofNat 32 (pageRest la)) write user
      pure { first := p1, split := pageRest la, second := p2 }

/-- n bytes at a linear address, read at a page privilege (R190). -/
def linBytes (la : Dword) (n : Nat) (user : Bool) : M (List Byte) := do
  let sp ← translate la n false user
  let s ← getState
  pure (Memory.readSpan s.mem sp 0 n)

/-- A privilege-0 read of n bytes as a value (40_protection_and_segment_loads.md R327). -/
def sysRead (la : Dword) (n : Nat) : M Dword := do
  let bs ← linBytes la n false
  pure (fromBytes bs)

/-- A store at a linear address, translated and checked but not yet made, at page privilege 0
(40_protection_and_segment_loads.md R327). -/
def sysPrepare (la : Dword) (bytes : List Byte) : M Store := do
  let sp ← translate la bytes.length true false
  pure { span := sp, bytes := bytes }

end Sys2Proof.Machine
end

