-- ==== Sys2Proof/Machine/Segments.lean ====
section
/-! DEFINITION. Segment registers: the checks of every reference (40_protection_and_segment_loads.md R270 to R284;
70_reset_and_hazards.md R812), memory reads and prepared writes through them (00_scope.md R14), and the loading of data and
stack segments (R290 to R296; 20_memory.md R160). -/

namespace Sys2Proof.Machine

/-- A segment register. -/
def SegRegs.get (g : SegRegs) : Sreg → SegReg
  | .es => g.es
  | .cs => g.cs
  | .ss => g.ss
  | .ds => g.ds
  | .fs => g.fs
  | .gs => g.gs

/-- The segment registers with one of them replaced. -/
def SegRegs.set (g : SegRegs) (r : Sreg) (v : SegReg) : SegRegs :=
  match r with
  | .es => { g with es := v }
  | .cs => { g with cs := v }
  | .ss => { g with ss := v }
  | .ds => { g with ds := v }
  | .fs => { g with fs := v }
  | .gs => { g with gs := v }

/-- The state with one segment register replaced. -/
def State.setSeg (s : State) (r : Sreg) (v : SegReg) : State := { s with seg := s.seg.set r v }

/-- What a reference does to its operand (R276). -/
inductive Access where
  | read | write | fetch
deriving DecidableEq, Repr

/-- Whether n bytes at an offset lie within a segment (R280, R281); the sum is not truncated (R280). -/
def SegReg.inLimit (g : SegReg) (off : Dword) (n : Nat) : Bool :=
  if g.attr.expandDown then
    g.limit.toNat < off.toNat && off.toNat + n ≤ (if g.attr.db then 4294967296 else 65536)
  else off.toNat + n ≤ g.limit.toNat + 1

/-- Whether the segment's type forbids a reference (R276 step 2). -/
def SegReg.typeForbids (g : SegReg) : Access → Bool
  | .read => g.attr.code && !g.attr.readable
  | .write => g.attr.code || (g.attr.data && !g.attr.writable)
  | .fetch => false

/-- Raise the exception of a limit violation through a segment register: #SS(0) for SS, #GP(0) for the others (R276,
R277). -/
def limitFault {α : Type} (r : Sreg) : M α := if r = .ss then raiseSS 0x0000#16 else raiseGP 0x0000#16

/-- The checks on a reference of n bytes through a segment register (R276). In real-address mode only: no byte beyond
offset FFFFH (70_reset_and_hazards.md R812; log entry 14). -/
def segCheck (r : Sreg) (off : Dword) (n : Nat) (k : Access) : M Unit := do
  let s ← getState
  let g := s.seg.get r
  if !s.pe then
    if off.toNat + n ≤ 65536 then pure () else limitFault r
  else if !g.valid then raiseGP 0x0000#16
  else if g.typeForbids k then raiseGP 0x0000#16
  else if g.inLimit off n then pure ()
  else limitFault r

/-- The linear address of an offset in a segment (20_memory.md R135, R136). -/
def State.linear (s : State) (r : Sreg) (off : Dword) : Dword := (s.seg.get r).base + off

/-- Whether the current level is user level for page protection (R321). -/
def State.user (s : State) : Bool := s.cpl = 3#2

/-- The places of an operand of n bytes: segment checks, then translation (R273). -/
def checkedSpan (r : Sreg) (off : Dword) (n : Nat) (k : Access) : M Span := do
  segCheck r off n k
  let s ← getState
  translate (s.linear r off) n (k = .write) s.user

/-- An access through a segment register is noted for the data breakpoints (48_debug.md R646). -/
def noteAccess (r : Sreg) (off : Dword) (n : Nat) (k : Access) : M Unit :=
  update fun s => s.recordAccess (s.linear r off) n (k = .write)

/-- The places of an operand of n bytes that is going to be accessed. -/
def operandSpan (r : Sreg) (off : Dword) (n : Nat) (k : Access) : M Span := do
  let sp ← checkedSpan r off n k
  noteAccess r off n k
  pure sp

/-- MemRead (00_scope.md R14), as bytes. -/
def memBytes (r : Sreg) (off : Dword) (n : Nat) : M (List Byte) := do
  let sp ← operandSpan r off n .read
  let s ← getState
  pure (Memory.readSpan s.mem sp 0 n)

/-- MemRead (00_scope.md R14), as a value. -/
def memRead (r : Sreg) (off : Dword) (n : Nat) : M Dword := do
  let bs ← memBytes r off n
  pure (fromBytes bs)

/-- The offset of a later part of an operand, k bytes above the first part, which has passed its checks. The sum is not
truncated (00_scope.md R13; R280): past FFFFFFFFH it lies beyond every limit. -/
def offsetAbove (r : Sreg) (off : Dword) (k : Nat) : M Dword :=
  if off.toNat + k < 4294967296 then pure (off + BitVec.ofNat 32 k) else limitFault r

/-- MemRead of a later part of an operand. -/
def memReadAbove (r : Sreg) (off : Dword) (k n : Nat) : M Dword := do
  let a ← offsetAbove r off k
  memRead r a n

/-- MemWrite (00_scope.md R14), checked and translated but not yet made. -/
def memPrepare (r : Sreg) (off : Dword) (bytes : List Byte) : M Store := do
  let sp ← operandSpan r off bytes.length .write
  pure { span := sp, bytes := bytes }

/-- The descriptor a selector names, or none when it lies outside its table or the table is absent (20_memory.md R160,
R161). -/
def readDescriptor (sel : Word) : M (Option Descriptor) := do
  let s ← getState
  let base := if selTi sel then s.ldtr.base else s.gdtr.base
  let limit := if selTi sel then s.ldtr.limit.toNat else s.gdtr.limit.toNat
  if (selTi sel && !s.ldtr.valid) || selIndex sel * 8 + 7 > limit then pure none
  else do
    let addr := base + BitVec.ofNat 32 (selIndex sel * 8)
    let lo ← sysRead addr 4
    let hi ← sysRead (addr + 4#32) 4
    pure (some { lo := lo, hi := hi, addr := addr })

/-- The descriptor a selector names; `otherwise` raises what the caller raises when there is none. -/
def needDescriptor (sel : Word) (otherwise : M Descriptor) : M Descriptor := do
  let d ← readDescriptor sel
  match d with
  | some d => pure d
  | none => otherwise

/-- The store that sets a descriptor's accessed bit, if it is clear (20_memory.md R147; R290 step 7). -/
def markAccessed (d : Descriptor) : M (List Store) :=
  if d.hi.getLsbD 8 then pure []
  else do
    let st ← sysPrepare (d.addr + 4#32) (toBytes 4 (d.hi ||| 0x00000100#32))
    pure [st]

/-- A segment-register load whose every check has passed. -/
structure SegLoad where
  reg : Sreg
  val : SegReg
  marks : List Store
deriving DecidableEq, Repr

/-- The state after a segment-register load. -/
def State.load (s : State) (l : SegLoad) : State := (s.storeAll l.marks).setSeg l.reg l.val

/-- The greater of two privilege levels. -/
def maxPl (a b : BitVec 2) : BitVec 2 := if a ≤ b then b else a

/-- A segment register loaded in real-address mode (70_reset_and_hazards.md R812): base is the selector times 16, limit
and attributes as they were. -/
def SegReg.realLoad (g : SegReg) (sel : Word) : SegReg :=
  { g with sel := sel, base := (sel.setWidth 32 <<< 4 : Dword), valid := true }

/-- The checks of a load of DS, ES, FS or GS in protected mode (R290). -/
def loadData (r : Sreg) (sel : Word) : M SegLoad := do
  let s ← getState
  if selNull sel then pure { reg := r, val := { s.seg.get r with sel := sel, valid := false }, marks := [] }
  else do
    let d ← needDescriptor sel (raiseGP (selErr sel false))
    if !d.attr.s then raiseGP (selErr sel false)
    else if !d.attr.readable then raiseGP (selErr sel false)
    else if !d.attr.conforming && d.dpl < maxPl s.cpl (selRpl sel) then raiseGP (selErr sel false)
    else if !d.present then raiseNP (selErr sel false)
    else do
      let marks ← markAccessed d
      pure { reg := r, val := d.segReg sel, marks := marks }

/-- The checks of a load of SS in protected mode (R293). -/
def loadStack (sel : Word) : M SegLoad := do
  let s ← getState
  if selNull sel then raiseGP 0x0000#16
  else do
    let d ← needDescriptor sel (raiseGP (selErr sel false))
    if !d.attr.writable then raiseGP (selErr sel false)
    else if selRpl sel ≠ s.cpl || d.dpl ≠ s.cpl then raiseGP (selErr sel false)
    else if !d.present then raiseSS (selErr sel false)
    else do
      let marks ← markAccessed d
      pure { reg := .ss, val := d.segReg sel, marks := marks }

/-- LoadSeg for a segment register other than CS (R290, R293, R296). -/
def loadSeg (r : Sreg) (sel : Word) : M SegLoad := do
  let s ← getState
  if !s.pe then pure { reg := r, val := (s.seg.get r).realLoad sel, marks := [] }
  else if r = .ss then loadStack sel
  else loadData r sel

end Sys2Proof.Machine
end

