-- ==== Sys2Proof/Machine/Operands.lean ====
section
/-! DEFINITION. Registers and operands: the general registers and their parts (10_state.md R30 to R33), effective addresses
(30_encoding.md R243, R244), register-or-memory operands, and the stack (41_control_transfer.md R331, R332). -/

namespace Sys2Proof

/-- The general register a byte register is part of (R32). -/
def Reg8.whole : Reg8 → Reg
  | .al => .eax
  | .cl => .ecx
  | .dl => .edx
  | .bl => .ebx
  | .ah => .eax
  | .ch => .ecx
  | .dh => .edx
  | .bh => .ebx

/-- Whether a byte register is bits 15:8 of its general register (R32). -/
def Reg8.high : Reg8 → Bool
  | .al => false
  | .cl => false
  | .dl => false
  | .bl => false
  | .ah => true
  | .ch => true
  | .dh => true
  | .bh => true

/-- The value of a 16-bit form's displacement (R244). -/
def Disp16.value : Disp16 → Word
  | .none => 0x0000#16
  | .d8 v => v.signExtend 16
  | .d16 v => v

/-- The value of a 32-bit form's displacement (R243). -/
def Disp32.value : Disp32 → Dword
  | .none => 0x00000000#32
  | .d8 v => v.signExtend 32
  | .d32 v => v

/-- The segment a memory operand uses without an override: SS when its base is BP, EBP or ESP (R243, R244). -/
def Ea.segment : Ea → Sreg
  | .ea16 b _ => if b = .bp || b = .bpSi || b = .bpDi then .ss else .ds
  | .abs16 _ => .ds
  | .ea32 b _ => if b = .ebp || b = .esp then .ss else .ds
  | .abs32 _ => .ds
  | .sib _ _ b _ => if b = .ebp || b = .esp then .ss else .ds
  | .sibAbs _ _ _ => .ds

/-- The segment register a memory operand uses, overrides counted (30_encoding.md R241). -/
def Ctx.eaSegment (c : Ctx) (ea : Ea) : Sreg := c.segment ea.segment

end Sys2Proof

namespace Sys2Proof.Machine

/-- A general register (R30). -/
def Gpr.get (g : Gpr) : Reg → Dword
  | .eax => g.eax
  | .ecx => g.ecx
  | .edx => g.edx
  | .ebx => g.ebx
  | .esp => g.esp
  | .ebp => g.ebp
  | .esi => g.esi
  | .edi => g.edi

/-- The general registers with one of them replaced. -/
def Gpr.set (g : Gpr) (r : Reg) (v : Dword) : Gpr :=
  match r with
  | .eax => { g with eax := v }
  | .ecx => { g with ecx := v }
  | .edx => { g with edx := v }
  | .ebx => { g with ebx := v }
  | .esp => { g with esp := v }
  | .ebp => { g with ebp := v }
  | .esi => { g with esi := v }
  | .edi => { g with edi := v }

/-- A general register of the state. -/
def State.reg (s : State) (r : Reg) : Dword := s.gpr.get r

/-- The state with a general register replaced. -/
def State.setReg (s : State) (r : Reg) (v : Dword) : State := { s with gpr := s.gpr.set r v }

/-- The state with the low word of a general register replaced; the rest of it stays (R32). -/
def State.setReg16 (s : State) (r : Reg) (v : Word) : State := s.setReg r (withLowWord (s.reg r) v)

/-- The state with n bytes of a general register replaced, n 2 or 4. -/
def State.setRegN (s : State) (r : Reg) (n : Nat) (v : Dword) : State :=
  if n = 2 then s.setReg16 r (lowWord v) else s.setReg r v

/-- A byte register (R32). -/
def State.reg8 (s : State) (r : Reg8) : Byte :=
  if r.high then (s.reg r.whole).extractLsb' 8 8 else (s.reg r.whole).extractLsb' 0 8

/-- The state with a byte register replaced; the rest of its general register stays (R32). -/
def State.setReg8 (s : State) (r : Reg8) (v : Byte) : State :=
  let w := s.reg r.whole
  s.setReg r.whole
    (if r.high then w.extractLsb' 16 16 ++ v ++ w.extractLsb' 0 8 else w.extractLsb' 8 24 ++ v)

/-- The sum of registers a 16-bit form names (R244). -/
def base16Value (s : State) : Base16 → Word
  | .bxSi => lowWord s.gpr.ebx + lowWord s.gpr.esi
  | .bxDi => lowWord s.gpr.ebx + lowWord s.gpr.edi
  | .bpSi => lowWord s.gpr.ebp + lowWord s.gpr.esi
  | .bpDi => lowWord s.gpr.ebp + lowWord s.gpr.edi
  | .si => lowWord s.gpr.esi
  | .di => lowWord s.gpr.edi
  | .bp => lowWord s.gpr.ebp
  | .bx => lowWord s.gpr.ebx

/-- The index register times its scale (R243). -/
def indexValue (s : State) (scale : BitVec 2) : Option Reg → Dword
  | none => 0x00000000#32
  | some r => s.reg r <<< scale.toNat

/-- The effective address: the offset a memory operand names (R243, R244). -/
def State.eaOffset (s : State) : Ea → Dword
  | .ea16 b d => (base16Value s b + d.value).setWidth 32
  | .abs16 v => v.setWidth 32
  | .ea32 b d => s.reg b + d.value
  | .abs32 v => v
  | .sib sc i b d => s.reg b + indexValue s sc i + d.value
  | .sibAbs sc i v => indexValue s sc i + v

/-- A register-or-memory operand of n bytes, read. -/
def rmRead (c : Ctx) (rm : RM Reg) (n : Nat) : M Dword := do
  let s ← getState
  match rm with
  | .reg r => pure (if n = 2 then (lowWord (s.reg r)).setWidth 32 else s.reg r)
  | .mem ea => memRead (c.eaSegment ea) (s.eaOffset ea) n

/-- A 16-bit register-or-memory operand, read. -/
def rmRead16 (c : Ctx) (rm : RM Reg) : M Word := do
  let v ← rmRead c rm 2
  pure (lowWord v)

/-- Where a result goes: a register, or a place in memory already checked and translated. -/
inductive Place where
  | reg (r : Reg)
  | mem (sp : Span)
deriving DecidableEq, Repr

/-- The place of a register-or-memory destination of n bytes, every check made. -/
def rmPlace (c : Ctx) (rm : RM Reg) (n : Nat) : M Place := do
  let s ← getState
  match rm with
  | .reg r => pure (.reg r)
  | .mem ea => do
    let sp ← operandSpan (c.eaSegment ea) (s.eaOffset ea) n .write
    pure (.mem sp)

/-- The state with n bytes written to a place, n 2 or 4. -/
def State.put (s : State) (p : Place) (n : Nat) (v : Dword) : State :=
  match p with
  | .reg r => s.setRegN r n v
  | .mem sp => s.store { span := sp, bytes := toBytes n v }

/-- The offset of the stack's top: SP in real-address mode, ESP in protected mode (41_control_transfer.md R331;
60_exceptions.md R730; log entry 12). -/
def State.stackTop (s : State) : Dword := if s.pe then s.gpr.esp else (lowWord s.gpr.esp).setWidth 32

/-- The stack offset some bytes above the top. -/
def State.stackOff (s : State) (k : Nat) : Dword :=
  if s.pe then s.gpr.esp + BitVec.ofNat 32 k else (lowWord s.gpr.esp + BitVec.ofNat 16 k).setWidth 32

/-- The stack offset some bytes below the top. -/
def State.stackBelow (s : State) (k : Nat) : Dword :=
  if s.pe then s.gpr.esp - BitVec.ofNat 32 k else (lowWord s.gpr.esp - BitVec.ofNat 16 k).setWidth 32

/-- The state with its stack pointer moved up: ESP in protected mode, SP in real-address mode (log entry 12). -/
def State.moveUp (s : State) (k : Nat) : State :=
  if s.pe then s.setReg .esp (s.gpr.esp + BitVec.ofNat 32 k)
  else s.setReg16 .esp (lowWord s.gpr.esp + BitVec.ofNat 16 k)

/-- The state with its stack pointer moved down. -/
def State.moveDown (s : State) (k : Nat) : State :=
  if s.pe then s.setReg .esp (s.gpr.esp - BitVec.ofNat 32 k)
  else s.setReg16 .esp (lowWord s.gpr.esp - BitVec.ofNat 16 k)

/-- The stack's n bytes at some distance above its top, read (41_control_transfer.md R332). -/
def stackRead (k n : Nat) : M Dword := do
  let s ← getState
  memRead .ss (s.stackOff k) n

/-- A push of n bytes, checked and translated but not yet made, at some distance below the top (R332): the store lies at
the top less `k`. -/
def stackPrepare (k : Nat) (bytes : List Byte) : M Store := do
  let s ← getState
  memPrepare .ss (s.stackBelow k) bytes

/-- EIP after the instruction (10_state.md R42). -/
def State.nextPc (s : State) (c : Ctx) : Dword := s.pc + BitVec.ofNat 32 c.len

/-- The state moved past the instruction (10_state.md R42). -/
def State.advance (s : State) (c : Ctx) : State := { s with pc := s.nextPc c }

end Sys2Proof.Machine
end

