-- ==== Sys2Proof/Machine/Tasks.lean ====
section
/-! DEFINITION. The task switch (44_multitasking.md R450 to R482; 60_exceptions.md R778). -/

namespace Sys2Proof.Machine

/-- What causes a task switch (R470). -/
inductive SwitchKind where
  | jmp | call | int | iret
deriving DecidableEq, Repr

/-- The doubleword at an offset of a TSS image. -/
def tssField (image : List Byte) (off : Nat) : Dword := fromBytes ((image.drop off).take 4)

/-- The selector at an offset of a TSS image. -/
def tssSel (image : List Byte) (off : Nat) : Word := lowWord (tssField image off)

/-- Phase 1 of the task switch (R470, tests 1 to 3 of R471): the descriptor of the incoming TSS. -/
def incomingTss (kind : SwitchKind) (tsel : Word) (ext : Bool) : M Descriptor := do
  let e := selErr tsel ext
  let bad : M Descriptor := if kind = .iret then raiseTS e else raiseGP e
  if selNull tsel || selTi tsel then bad
  else do
    let d ← needDescriptor tsel bad
    if d.kind = 0b00001#5 || d.kind = 0b00011#5 then stop (.refusal .descriptor286)
    else if d.kind ≠ 0b01001#5 && d.kind ≠ 0b01011#5 then bad
    else if !d.present then raiseNP e
    else if kind ≠ .iret && d.kind = 0b01011#5 then raiseGP e
    else if kind = .iret && d.kind = 0b01001#5 then raiseTS e
    else if d.limit.toNat < 103 then raiseTS e
    else pure d

/-- The stores of phase 2 that save the outgoing task (R470): EIP, EFLAGS and the general registers as doublewords, the
segment selectors as words (R451; log entry 20). -/
def saveTask (nextEip flags : Dword) : M (List Store) := do
  let s ← getState
  let b := s.tr.base
  let g := s.gpr
  let main ← sysPrepare (b + 0x20#32)
    (toBytes 4 nextEip ++ toBytes 4 flags ++ toBytes 4 g.eax ++ toBytes 4 g.ecx ++ toBytes 4 g.edx ++ toBytes 4 g.ebx
      ++ toBytes 4 g.esp ++ toBytes 4 g.ebp ++ toBytes 4 g.esi ++ toBytes 4 g.edi)
  let es ← sysPrepare (b + 0x48#32) (toBytes 2 (s.seg.es.sel.setWidth 32))
  let cs ← sysPrepare (b + 0x4C#32) (toBytes 2 (s.seg.cs.sel.setWidth 32))
  let ss ← sysPrepare (b + 0x50#32) (toBytes 2 (s.seg.ss.sel.setWidth 32))
  let ds ← sysPrepare (b + 0x54#32) (toBytes 2 (s.seg.ds.sel.setWidth 32))
  let fs ← sysPrepare (b + 0x58#32) (toBytes 2 (s.seg.fs.sel.setWidth 32))
  let gs ← sysPrepare (b + 0x5C#32) (toBytes 2 (s.seg.gs.sel.setWidth 32))
  pure [main, es, cs, ss, ds, fs, gs]

/-- The store that clears the busy bit of the outgoing TSS descriptor, when the switch does not nest (R470, R481): the
GDT entry that TR names, type BH to 9; a null TR names none (20_memory.md R151; log entry 36). -/
def clearBusy (kind : SwitchKind) : M (List Store) := do
  let s ← getState
  if (kind = .jmp || kind = .iret) && !selNull s.tr.sel then do
    let a := s.gdtr.base + BitVec.ofNat 32 (selIndex s.tr.sel * 8) + 4#32
    let hi ← sysRead a 4
    if hi.extractLsb' 8 5 = 0b01011#5 then do
      let st ← sysPrepare a (toBytes 4 (hi &&& ~~~0x00000200#32))
      pure [st]
    else pure []
  else pure []

/-- The store that sets the busy bit of the incoming TSS descriptor (R470, R481). -/
def setBusy (kind : SwitchKind) (d : Descriptor) : M (List Store) :=
  if kind = .iret then pure []
  else do
    let st ← sysPrepare (d.addr + 4#32) (toBytes 4 (d.hi ||| 0x00000200#32))
    pure [st]

/-- The store of the back link, when the switch nests (R470, R480). -/
def linkBack (kind : SwitchKind) (base : Dword) : M (List Store) := do
  let s ← getState
  if kind = .call || kind = .int then do
    let st ← sysPrepare base (toBytes 2 (s.tr.sel.setWidth 32))
    pure [st]
  else pure []

/-- A segment register that a task switch has loaded but not yet checked (R470 phase 4, R478). -/
def SegReg.unchecked (g : SegReg) (sel : Word) : SegReg := { g with sel := sel, valid := false }

/-- NT of the incoming task (R480). -/
def incomingNt (kind : SwitchKind) (image : Bool) : Bool :=
  match kind with
  | .jmp => false
  | .call => true
  | .int => true
  | .iret => image

/-- The state after phases 3 and 4 (R470): TR and CR0.TS, then every register from the TSS image, the segment registers
and LDTR not yet valid; CR3 only with paging on, the TLB flushed when it changes (20_memory.md R202); L0 to L3 and LE of
DR7 cleared. -/
def State.enterTask (s : State) (kind : SwitchKind) (tsel : Word) (d : Descriptor) (image : List Byte) : State :=
  let f := EFlags.unpack (tssField image 0x24)
  let cs := tssSel image 0x4C
  let cr3 := if s.pg then tssField image 0x1C else s.ctl.cr3
  { s with
    tr := { sel := tsel, base := d.base, limit := d.limit, valid := true }
    ctl := { s.ctl with cr0 := s.ctl.cr0 ||| 0x00000008#32, cr3 := cr3 }
    tlb := if s.pg && cr3 ≠ s.ctl.cr3 then s.tlb.flush else s.tlb
    flags := { f with nt := incomingNt kind f.nt }
    pc := tssField image 0x20
    gpr := { eax := tssField image 0x28, ecx := tssField image 0x2C, edx := tssField image 0x30,
             ebx := tssField image 0x34, esp := tssField image 0x38, ebp := tssField image 0x3C,
             esi := tssField image 0x40, edi := tssField image 0x44 }
    ldtr := { s.ldtr with sel := tssSel image 0x60, valid := false }
    seg := { es := s.seg.es.unchecked (tssSel image 0x48), cs := s.seg.cs.unchecked cs,
             ss := s.seg.ss.unchecked (tssSel image 0x50), ds := s.seg.ds.unchecked (tssSel image 0x54),
             fs := s.seg.fs.unchecked (tssSel image 0x58), gs := s.seg.gs.unchecked (tssSel image 0x5C) }
    cpl := selRpl cs
    dbg := s.dbg.clearLocal }

/-- Tests 4 and 5: the LDT of the incoming task (R471, R473, R474). -/
def taskLdt (ext : Bool) : M Unit := do
  let s ← getState
  let sel := s.ldtr.sel
  let e := selErr sel ext
  if selNull sel then pure ()
  else if selTi sel then raiseTS e
  else do
    let d ← needDescriptor sel (raiseTS e)
    if d.kind ≠ 0b00010#5 then raiseTS e
    else if !d.present then raiseTS e
    else update fun t => { t with ldtr := { sel := sel, base := d.base, limit := d.limit, valid := true } }

/-- A segment register of the incoming task becomes valid (R475). -/
def acceptSeg (r : Sreg) (d : Descriptor) (sel : Word) : M Unit := do
  let marks ← markAccessed d
  update fun t => t.load { reg := r, val := d.segReg sel, marks := marks }

/-- Tests 6 to 8: CS of the incoming task (R471). -/
def taskCs (ext : Bool) : M Unit := do
  let s ← getState
  let sel := s.seg.cs.sel
  let e := selErr sel ext
  if selNull sel then raiseTS e
  else do
    let d ← needDescriptor sel (raiseTS e)
    if !d.attr.code then raiseTS e
    else if !d.present then raiseNP e
    else if !d.attr.conforming && d.dpl ≠ selRpl sel then raiseTS e
    else if d.attr.conforming && selRpl sel < d.dpl then raiseTS e
    else acceptSeg .cs d sel

/-- Tests 9 to 12: SS of the incoming task (R471). -/
def taskSs (ext : Bool) : M Unit := do
  let s ← getState
  let sel := s.seg.ss.sel
  let e := selErr sel ext
  if selNull sel then raiseTS e
  else do
    let d ← needDescriptor sel (raiseTS e)
    if !d.attr.writable then raiseTS e
    else if !d.present then raiseSS e
    else if d.dpl ≠ s.cpl then raiseTS e
    else if selRpl sel ≠ s.cpl then raiseTS e
    else acceptSeg .ss d sel

/-- Tests 13 to 16 on one data-segment register of the incoming task (R471, R473). -/
def taskData (r : Sreg) (ext : Bool) : M Unit := do
  let s ← getState
  let sel := (s.seg.get r).sel
  let e := selErr sel ext
  if selNull sel then pure ()
  else do
    let d ← needDescriptor sel (raiseTS e)
    if !d.attr.readable then raiseTS e
    else if !d.present then raiseNP e
    else if !d.attr.conforming && d.dpl < maxPl s.cpl (selRpl sel) then raiseGP e
    else acceptSeg r d sel

/-- Phase 5: tests 4 to 16, in their order (R471). -/
def taskTests (ext : Bool) : M Unit := do
  taskLdt ext
  taskCs ext
  taskSs ext
  taskData .ds ext
  taskData .es ext
  taskData .fs ext
  taskData .gs ext

/-- The task switch (R470): every page that phases 2 to 4 touch is translated before anything changes (60_exceptions.md
R778); a VM image enters a mode the spec leaves out (60_exceptions.md R781). `nextEip` is the EIP to be saved, `flags` the
EFLAGS image to be saved. -/
def taskSwitch (kind : SwitchKind) (tsel : Word) (ext : Bool) (nextEip flags : Dword) : M Unit := do
  let d ← incomingTss kind tsel ext
  let save ← saveTask nextEip flags
  let clear ← clearBusy kind
  let set ← setBusy kind d
  let link ← linkBack kind d.base
  let span ← translate d.base 104 false false
  update fun s => s.storeAll (save ++ clear ++ set ++ link)
  let s ← getState
  let image := Memory.readSpan s.mem span 0 104
  update fun s => s.enterTask kind tsel d image
  let s ← getState
  if s.flags.vm then stop (.refusal .virtual8086)
  else do
    taskTests ext
    if (tssField image 0x64).getLsbD 0 then
      update fun s => { s with run := { s.run with pendingDb := { s.run.pendingDb with bt := true } } }
    else pure ()

end Sys2Proof.Machine
end

