-- ==== Sys2Proof/Machine/Transfers.lean ====
section
/-! DEFINITION. The shared operations of control transfers (41_control_transfer.md): near targets, far transfers to a
segment, a gate or a task, the interlevel call, the far return. -/

namespace Sys2Proof

/-- A target cut to the operand size (log entry 13). -/
def Ctx.cutTarget (c : Ctx) (v : Dword) : Dword := if c.op32 then v else (v.setWidth 16 : Word).setWidth 32

end Sys2Proof

namespace Sys2Proof.Machine

/-- Whether an offset lies within a code segment about to be loaded. -/
def Descriptor.holds (d : Descriptor) (off : Dword) : Bool := (d.segReg 0x0000#16).inLimit off 1

/-- The checks of LoadCS (R338): the accessed-bit store, and CS as it will be, its RPL the new CPL. -/
def loadCode (d : Descriptor) (sel : Word) (cpl : BitVec 2) : M SegLoad := do
  let marks ← markAccessed d
  pure { reg := .cs, val := d.segReg (withRpl sel cpl), marks := marks }

/-- The state after a load of CS (R338). -/
def State.loadCs (s : State) (l : SegLoad) (cpl : BitVec 2) : State := { s.load l with cpl := cpl }

/-- A near transfer's target must lie within CS (R333). -/
def nearTarget (target : Dword) : M Unit := segCheck .cs target 1 .fetch

/-- A doubleword or a word that holds a selector; in a doubleword the high word is undefined: a free value (R332;
93_implementation_defined.md U7; log entry 17). -/
def selectorSlot (n : Nat) (sel : Word) : M (List Byte) :=
  if n = 2 then pure (toBytes 2 (sel.setWidth 32))
  else do
    let f ← takeFree
    pure (toBytes 4 (withLowWord f sel))

/-- The pushes of a far call's return address within one stack: CS, then EIP, n bytes each (R338). -/
def pushReturn (n : Nat) (eip : Dword) : M (List Store) := do
  let s ← getState
  let a ← operandSpan .ss (s.stackBelow n) n .write
  let b ← stackPrepare (2 * n) (toBytes n eip)
  let slot ← selectorSlot n s.seg.cs.sel
  pure [{ span := a, bytes := slot }, b]

/-- What a far transfer does besides loading CS and EIP: nothing, or push the return address (R338). -/
inductive FarKind where
  | jmp
  | call (n : Nat) (ret : Dword)
deriving DecidableEq, Repr

/-- The kind of task switch that a far transfer makes (R338). -/
def FarKind.switch : FarKind → SwitchKind
  | .jmp => .jmp
  | .call _ _ => .call

/-- Whether a far transfer is a call. -/
def FarKind.isCall : FarKind → Bool
  | .jmp => false
  | .call _ _ => true

/-- The end of a far transfer that changes neither level nor stack (R338, R341): the limit check, the pushes of a call,
then the commit. -/
def transferSame (kind : FarKind) (d : Descriptor) (sel : Word) (off : Dword) : M Unit := do
  require (d.holds off) (raiseGP 0x0000#16)
  let s ← getState
  match kind with
  | .jmp => do
    let l ← loadCode d sel s.cpl
    update fun t => { t.loadCs l s.cpl with pc := off }
  | .call n ret => do
    let pushes ← pushReturn n ret
    let l ← loadCode d sel s.cpl
    update fun t => { ((t.storeAll pushes).moveDown (2 * n)).loadCs l s.cpl with pc := off }

/-- A new stack taken from the TSS for level n: its selector and pointer (R344; 60_exceptions.md R720 step 8). -/
def innerStack (n : BitVec 2) (ext : Bool) : M (Dword × Word) := do
  let s ← getState
  let k := 8 * n.toNat
  require (k + 9 ≤ s.tr.limit.toNat) (raiseTS (selErr s.tr.sel ext))
  let esp ← sysRead (s.tr.base + BitVec.ofNat 32 (4 + k)) 4
  let ss ← sysRead (s.tr.base + BitVec.ofNat 32 (8 + k)) 2
  pure (esp, lowWord ss)

/-- The checks on a new stack's selector (R345 step 2; 60_exceptions.md R720 step 8); `wrongDpl` raises what a DPL other
than the new level raises. -/
def innerStackSeg (nss : Word) (n : BitVec 2) (ext : Bool) (wrongDpl : M Unit) : M Descriptor := do
  let e := selErr nss ext
  require (!selNull nss) (raiseTS e)
  let d ← needDescriptor nss (raiseTS e)
  require (selRpl nss = n) (raiseTS e)
  require d.attr.writable (raiseTS e)
  require (d.dpl = n) wrongDpl
  require d.present (raiseSS e)
  pure d

/-- Pushes of doublewords on a new stack whose room has been checked (R345 step 6; 60_exceptions.md R720): the first item
lies highest; each is a privilege-0 access (40_protection_and_segment_loads.md R327) that the data breakpoints see
(48_debug.md R638). -/
def innerPushes (g : SegReg) (top : Dword) : List (List Byte) → M (List Store)
  | [] => pure []
  | b :: r => do
    let at_ := top - 4#32
    let sp ← translate (g.base + at_) b.length true false
    update fun t => t.recordAccess (g.base + at_) b.length true
    let rest ← innerPushes g at_ r
    pure ({ span := sp, bytes := b } :: rest)

/-- The parameters of a call through a gate: n doublewords from the old stack's i-th on (R345 step 5). -/
def readParams : Nat → Nat → M (List Dword)
  | _, 0 => pure []
  | i, n + 1 => do
    let s ← getState
    let v ← memReadAbove .ss s.gpr.esp (4 * i) 4
    let rest ← readParams (i + 1) n
    pure (v :: rest)

/-- The interlevel call through a call gate (R345): `ret` is the return EIP. DESIGN CHOICE (log entry 49): the room for the
pushes is counted down from ESPn modulo 2^32, so an ESPn of 0 has room below FFFFFFFFH. -/
def interlevelCall (d : Descriptor) (tsel : Word) (off : Dword) (count : Nat) (ret : Dword) : M Unit := do
  let n := d.dpl
  let (nesp, nss) ← innerStack n false
  let sd ← innerStackSeg nss n false (raiseSS 0x0000#16)
  let g := sd.segReg nss
  let need := 16 + 4 * count
  require (g.inLimit (nesp - BitVec.ofNat 32 need) need) (raiseSS (selErr nss false))
  require (d.holds off) (raiseGP 0x0000#16)
  let params ← readParams 0 count
  let s ← getState
  let oldSs ← selectorSlot 4 s.seg.ss.sel
  let oldCs ← selectorSlot 4 s.seg.cs.sel
  let marks ← markAccessed sd
  let l ← loadCode d tsel n
  let pushes ← innerPushes g nesp
    ([oldSs, toBytes 4 s.gpr.esp] ++ (params.reverse.map (toBytes 4)) ++ [oldCs, toBytes 4 ret])
  update fun t =>
    let t1 := (t.load { reg := .ss, val := g, marks := marks }).loadCs l n
    { (t1.storeAll pushes).setReg .esp (nesp - BitVec.ofNat 32 need) with pc := off }

/-- A transfer through a 386 call gate (R341). -/
def gateTransfer (kind : FarKind) (gate : Descriptor) (gsel : Word) : M Unit := do
  let s ← getState
  let ge := selErr gsel false
  require (maxPl s.cpl (selRpl gsel) ≤ gate.dpl) (raiseGP ge)
  require gate.present (raiseNP ge)
  let tsel := gate.gateSel
  let e := selErr tsel false
  require (!selNull tsel) (raiseGP 0x0000#16)
  let d ← needDescriptor tsel (raiseGP e)
  require d.attr.code (raiseGP e)
  require (kind.isCall || d.attr.conforming || d.dpl = s.cpl) (raiseGP e)
  require (d.dpl ≤ s.cpl) (raiseGP e)
  require d.present (raiseNP e)
  match kind with
  | .call _ ret =>
    if !d.attr.conforming && d.dpl < s.cpl then interlevelCall d tsel gate.gateOff gate.gateCount ret
    else transferSame (.call 4 ret) d tsel gate.gateOff
  | .jmp => transferSame .jmp d tsel gate.gateOff

/-- How a far transfer ended: within the task, or in another task. -/
inductive FarEnd where
  | sameTask | newTask
deriving DecidableEq, Repr

/-- A far JMP or CALL in protected mode (R338); `next` is the EIP after the instruction. -/
def farProtected (kind : FarKind) (sel : Word) (off next : Dword) : M FarEnd := do
  let s ← getState
  let e := selErr sel false
  require (!selNull sel) (raiseGP 0x0000#16)
  let d ← needDescriptor sel (raiseGP e)
  if d.attr.s then do
    require d.attr.code (raiseGP e)
    require (d.attr.conforming || d.dpl = s.cpl) (raiseGP e)
    require (d.dpl ≤ s.cpl) (raiseGP e)
    require d.present (raiseNP e)
    transferSame kind d sel off
    pure .sameTask
  else if d.kind = 0b01100#5 then do
    gateTransfer kind d sel
    pure .sameTask
  else if d.kind = 0b00101#5 then do
    require (maxPl s.cpl (selRpl sel) ≤ d.dpl) (raiseGP e)
    require d.present (raiseNP e)
    taskSwitch kind.switch d.gateSel false next s.flags.pack
    pure .newTask
  else if d.kind = 0b01001#5 then do
    require (maxPl s.cpl (selRpl sel) ≤ d.dpl) (raiseGP e)
    taskSwitch kind.switch sel false next s.flags.pack
    pure .newTask
  else if d.kind = 0b00001#5 || d.kind = 0b00011#5 || d.kind = 0b00100#5 then stop (.refusal .descriptor286)
  else raiseGP e

/-- A far JMP or CALL in real-address mode (R356; 70_reset_and_hazards.md R812): no descriptor. DESIGN CHOICE (log entry 14):
no check of the target, so that one beyond FFFFH raises #GP at the next fetch. -/
def farReal (kind : FarKind) (sel : Word) (off : Dword) : M Unit :=
  match kind with
  | .jmp => update fun t => { t.setSeg .cs (t.seg.cs.realLoad sel) with pc := off }
  | .call n ret => do
    let pushes ← pushReturn n ret
    update fun t => { ((t.storeAll pushes).moveDown (2 * n)).setSeg .cs (t.seg.cs.realLoad sel) with pc := off }

/-- A far JMP or CALL (R336 to R338); it ends the forcing of A31 to A20 (70_reset_and_hazards.md R802). DESIGN CHOICE (log
entry 55): one that ends in an exception does not, even where its task switch had committed. -/
def farTransfer (kind : FarKind) (sel : Word) (off next : Dword) : M FarEnd := do
  let s ← getState
  let e ← if s.pe then farProtected kind sel off next else do
    farReal kind sel off
    pure .sameTask
  update fun t => { t with run := { t.run with a31Forced := false } }
  pure e

/-- The checks on a return's code selector (R350 step 2). -/
def returnCode (ncs : Word) : M Descriptor := do
  let s ← getState
  let e := selErr ncs false
  require (s.cpl ≤ selRpl ncs) (raiseGP e)
  require (!selNull ncs) (raiseGP 0x0000#16)
  let d ← needDescriptor ncs (raiseGP e)
  require d.attr.code (raiseGP e)
  require (d.attr.conforming || d.dpl = selRpl ncs) (raiseGP e)
  require (d.dpl ≤ selRpl ncs) (raiseGP e)
  require d.present (raiseNP e)
  pure d

/-- The checks on an outer return's stack selector, for the level returned to (R350 step 4). -/
def returnStack (nss : Word) (level : BitVec 2) : M Descriptor := do
  let e := selErr nss false
  require (!selNull nss) (raiseGP 0x0000#16)
  let d ← needDescriptor nss (raiseGP e)
  require d.attr.writable (raiseGP e)
  require (d.dpl = level) (raiseGP e)
  require (selRpl nss = d.dpl) (raiseGP e)
  require d.present (raiseSS e)
  pure d

/-- A data-segment register after a return to an outer level (R350 step 6, R353): null when it holds a data or
nonconforming code segment more privileged than the new level. -/
def SegReg.nulled (g : SegReg) (cpl : BitVec 2) : SegReg :=
  if g.valid && !g.attr.conforming && g.attr.dpl < cpl then { g with sel := 0x0000#16, valid := false } else g

/-- The data-segment registers after a return to an outer level. -/
def State.nullOuter (s : State) (cpl : BitVec 2) : State :=
  { s with seg := { s.seg with ds := s.seg.ds.nulled cpl, es := s.seg.es.nulled cpl, fs := s.seg.fs.nulled cpl,
                               gs := s.seg.gs.nulled cpl } }

/-- The stack pointer after a return to an outer level, from the n bytes popped for it and the bytes the return releases:
ESP, or with 16 bits SP, which leaves ESP[31:16] as it is (R350 step 5; 46_interrupt_instructions.md R563; 10_state.md R32;
log entry 41). -/
def State.outerEsp (s : State) (n : Nat) (v : Dword) (extra : Nat) : Dword :=
  if n = 2 then withLowWord s.gpr.esp (lowWord v + BitVec.ofNat 16 extra) else v + BitVec.ofNat 32 extra

/-- The room a return's frame needs within the stack segment (R350 steps 1 and 4). DESIGN CHOICE (log entry 14): in
real-address mode too it is tested as a whole, against FFFFH. -/
def frameCheck (n : Nat) : M Unit := do
  let s ← getState
  segCheck .ss (s.stackOff 0) n .read

/-- A return in protected mode (R350; 46_interrupt_instructions.md R560): slots of n bytes, the outer stack pointer
`skip` bytes above the return address, `extra` bytes released. `flags` is what the return does to EFLAGS at the end. -/
def returnProtected (n frame skip extra : Nat) (neip : Dword) (ncs : Word) (flags : State → State) : M Unit := do
  let s ← getState
  let d ← returnCode ncs
  let level := selRpl ncs
  if level = s.cpl then do
    require (d.holds neip) (raiseGP 0x0000#16)
    let l ← loadCode d ncs level
    update fun t => flags { (t.moveUp (frame + extra)).loadCs l level with pc := neip }
  else do
    frameCheck (skip + 2 * n)
    let vsp ← stackRead skip n
    let nss ← stackRead (skip + n) n
    let sd ← returnStack (lowWord nss) level
    require (d.holds neip) (raiseGP 0x0000#16)
    let l ← loadCode d ncs level
    let marks ← markAccessed sd
    update fun t =>
      let t1 := (t.loadCs l level).load { reg := .ss, val := sd.segReg (lowWord nss), marks := marks }
      flags { (t1.setReg .esp (t.outerEsp n vsp extra)).nullOuter level with pc := neip }

/-- A far return (R350); `extra` is the immediate operand. In real-address mode the selector is loaded without checks
(R356; 70_reset_and_hazards.md R812); DESIGN CHOICE (log entry 14): so is an EIP beyond FFFFH, which raises #GP at the next
fetch. -/
def farReturn (n extra : Nat) : M Unit := do
  let s ← getState
  frameCheck (2 * n)
  let neip ← stackRead 0 n
  let vcs ← stackRead n n
  let ncs := lowWord vcs
  if s.pe then returnProtected n (2 * n) (extra + 2 * n) extra neip ncs id
  else update fun t => { (t.moveUp (2 * n + extra)).setSeg .cs (t.seg.cs.realLoad ncs) with pc := neip }

end Sys2Proof.Machine
end

