-- ==== Sys2Proof/Machine/Ops.lean ====
section
/-! DEFINITION. Taking an interrupt or exception (60_exceptions.md R719 to R752), returning from one
(46_interrupt_instructions.md R560 to R565), the end of every instruction (60_exceptions.md R706), and RESET
(70_reset_and_hazards.md R800). -/

namespace Sys2Proof.Machine

/-- EXT of the error codes raised while an event is delivered (R735). -/
def Event.ext (e : Event) : Bool := e.kind = .external

/-- The class of an event (R750, Table 9-3); interrupts and software interrupts are benign whatever their vector. -/
def Event.excClass (e : Event) : ExcClass :=
  if e.kind = .external || e.kind = .software then .benign
  else
    match e.vector with
    | 0x08#8 => .doubleFault
    | 0x0E#8 => .pageFault
    | 0x00#8 => .contributory
    | 0x09#8 => .contributory
    | 0x0A#8 => .contributory
    | 0x0B#8 => .contributory
    | 0x0C#8 => .contributory
    | 0x0D#8 => .contributory
    | _ => .benign

/-- Table 9-4 (R751): whether a second exception makes a double fault. -/
def doubles (first second : ExcClass) : Bool :=
  (first = .contributory && second = .contributory) || (first = .pageFault && second ≠ .benign)

/-- Delivery through a task gate (R725): the task switch, then the error code on the new task's stack. -/
def deliverTask (e : Event) (gate : Descriptor) : M Unit := do
  let s ← getState
  taskSwitch .int gate.gateSel e.ext s.pc (s.flags.image (e.kind = .fault))
  match e.code with
  | none => pure ()
  | some c => do
    let st ← stackPrepare 4 (toBytes 4 c)
    update fun t => (t.store st).moveDown 4

/-- The checks on the code segment that an interrupt or trap gate names (R720 step 6). -/
def handlerCode (e : Event) (gate : Descriptor) : M Descriptor := do
  let s ← getState
  let tsel := gate.gateSel
  let er := selErr tsel e.ext
  require (!selNull tsel) (raiseGP (extBit e.ext))
  let d ← needDescriptor tsel (raiseGP er)
  require d.attr.code (raiseGP er)
  require (d.dpl ≤ s.cpl) (raiseGP er)
  require d.present (raiseNP er)
  pure d

/-- The error code's bytes, if there is one, as a last push (R722). -/
def codePush (e : Event) : List (List Byte) :=
  match e.code with
  | none => []
  | some c => [toBytes 4 c]

/-- The state as a handler's first instruction finds it (R720 step 9, R727). -/
def State.enterHandler (s : State) (gate : Descriptor) : State :=
  { s with pc := gate.gateOff, flags := s.flags.enterGate (gate.kind = 0b01110#5) }

/-- Delivery to a more privileged level, on the stack the TSS names (R720 step 8); the room for the pushes is counted down
modulo 2^32 (log entry 49). -/
def deliverInner (e : Event) (gate d : Descriptor) : M Unit := do
  let s ← getState
  let n := d.dpl
  let (nesp, nss) ← innerStack n e.ext
  let sd ← innerStackSeg nss n e.ext (raiseTS (selErr nss e.ext))
  let g := sd.segReg nss
  let need := 20 + 4 * (codePush e).length
  require (g.inLimit (nesp - BitVec.ofNat 32 need) need) (raiseSS (selErr nss e.ext))
  require (d.holds gate.gateOff) (raiseGP (extBit e.ext))
  let oldSs ← selectorSlot 4 s.seg.ss.sel
  let oldCs ← selectorSlot 4 s.seg.cs.sel
  let marks ← markAccessed sd
  let l ← loadCode d gate.gateSel n
  let pushes ← innerPushes g nesp
    ([oldSs, toBytes 4 s.gpr.esp, toBytes 4 (s.flags.image (e.kind = .fault)), oldCs, toBytes 4 s.pc] ++ codePush e)
  update fun t =>
    let t1 := (t.load { reg := .ss, val := g, marks := marks }).loadCs l n
    ((t1.storeAll pushes).setReg .esp (nesp - BitVec.ofNat 32 need)).enterHandler gate

/-- Prepared pushes of doublewords on the current stack, the first item highest (41_control_transfer.md R332). -/
def pushAll : Nat → List (List Byte) → M (List Store)
  | _, [] => pure []
  | k, b :: r => do
    let st ← stackPrepare (k + 4) b
    let rest ← pushAll (k + 4) r
    pure (st :: rest)

/-- Delivery at the current level, on the current stack (R720 step 8); the room for the pushes is counted down modulo 2^32
(41_control_transfer.md R332; log entry 49). -/
def deliverSame (e : Event) (gate d : Descriptor) : M Unit := do
  let s ← getState
  let need := 12 + 4 * (codePush e).length
  require (s.seg.ss.valid && s.seg.ss.inLimit (s.gpr.esp - BitVec.ofNat 32 need) need) (raiseSS (extBit e.ext))
  require (d.holds gate.gateOff) (raiseGP (extBit e.ext))
  let oldCs ← selectorSlot 4 s.seg.cs.sel
  let pushes ← pushAll 0 ([toBytes 4 (s.flags.image (e.kind = .fault)), oldCs, toBytes 4 s.pc] ++ codePush e)
  let l ← loadCode d gate.gateSel s.cpl
  update fun t => (((t.storeAll pushes).moveDown need).loadCs l s.cpl).enterHandler gate

/-- Delivery in protected mode (R720). -/
def deliverProtected (e : Event) : M Unit := do
  let s ← getState
  let er := idtErr e.vector e.ext
  let k := 8 * e.vector.toNat
  require (k + 7 ≤ s.idtr.limit.toNat) (raiseGP er)
  let a := s.idtr.base + BitVec.ofNat 32 k
  let lo ← sysRead a 4
  let hi ← sysRead (a + 4#32) 4
  let gate : Descriptor := { lo := lo, hi := hi, addr := a }
  if gate.kind = 0b00110#5 || gate.kind = 0b00111#5 then stop (.refusal .descriptor286)
  else do
    require (gate.kind = 0b00101#5 || gate.kind = 0b01110#5 || gate.kind = 0b01111#5) (raiseGP er)
    require (!(e.kind = .software && gate.dpl < s.cpl)) (raiseGP (idtErr e.vector false))
    require gate.present (raiseNP er)
    if gate.kind = 0b00101#5 then deliverTask e gate
    else do
      let d ← handlerCode e gate
      if !d.attr.conforming && d.dpl < s.cpl then deliverInner e gate d
      else deliverSame e gate d

/-- A computation whose every exception and stop is the refusal of virtual 8086 mode (10_state.md R51). -/
def orVirtual {α : Type} (m : M α) : M α := fun s =>
  match m s with
  | .error _ t => .error (.refusal .virtual8086) t
  | r => r

/-- The selector of the handler of an event through a trap or interrupt gate to a privilege level other than zero (R769 item
14); no value for any other event. DESIGN CHOICE (log entry 16): that is told from the gate, which is present, and the DPL of
the code segment it names, present or not; no other check of R720 is made. -/
def outerHandler (e : Event) : M Word := do
  let s ← getState
  let none : M Unit := stop (.refusal .virtual8086)
  let k := 8 * e.vector.toNat
  require (s.pe && k + 7 ≤ s.idtr.limit.toNat) none
  let a := s.idtr.base + BitVec.ofNat 32 k
  let lo ← sysRead a 4
  let hi ← sysRead (a + 4#32) 4
  let gate : Descriptor := { lo := lo, hi := hi, addr := a }
  require (gate.present && (gate.kind = 0b01110#5 || gate.kind = 0b01111#5) && !selNull gate.gateSel) none
  let d ← needDescriptor gate.gateSel (stop (.refusal .virtual8086))
  require (d.attr.code && d.dpl ≠ 0#2) none
  pure gate.gateSel

/-- Delivery from virtual 8086 mode: refused (R720; 10_state.md R51), a page fault met on the way included, but for the one
statement of R781 (b): #GP with the handler's selector when its privilege level is not zero (log entry 16). -/
def deliverVirtual (e : Event) : M Unit := do
  let sel ← orVirtual (outerHandler e)
  raiseGP (selErr sel e.ext)

/-- Delivery in real-address mode (R730): FLAGS, CS and IP pushed as words, IF and TF cleared, CS:IP from a four-byte
entry of the table; an entry beyond IDTR's limit raises #GP (log entry 40). -/
def deliverReal (e : Event) : M Unit := do
  let s ← getState
  let k := 4 * e.vector.toNat
  require (k + 3 ≤ s.idtr.limit.toNat) (raiseGP (idtErr e.vector e.ext))
  let entry ← sysRead (s.idtr.base + BitVec.ofNat 32 k) 4
  let a ← stackPrepare 2 (toBytes 2 s.flags.pack)
  let b ← stackPrepare 4 (toBytes 2 (s.seg.cs.sel.setWidth 32))
  let c ← stackPrepare 6 (toBytes 2 s.pc)
  update fun t =>
    { ((t.storeAll [a, b, c]).moveDown 6).setSeg .cs (t.seg.cs.realLoad (entry.extractLsb' 16 16)) with
      pc := (lowWord entry).setWidth 32, flags := t.flags.enterReal }

/-- One attempt to deliver an event (R720, R730; from virtual 8086 mode R781). -/
def deliverOnce (e : Event) : M Unit := do
  let s ← getState
  if s.flags.vm then deliverVirtual e
  else if s.pe then deliverProtected e else deliverReal e

/-- The state with the class of the event being delivered noted, or nothing noted (10_state.md R108). -/
def State.setDelivering (s : State) (c : Option ExcClass) : State := { s with run := { s.run with delivering := c } }

/-- The state in which an event has been delivered: nothing is being delivered, and the prefetch queue is empty (20_memory.md
R229). -/
def State.delivered (s : State) : State :=
  { s with run := { s.run with delivering := none, prefetch := { stale := [], emptied := true } } }

/-- The state with other debug traps pending. -/
def State.setPending (s : State) (p : PendingDebug) : State := { s with run := { s.run with pendingDb := p } }

/-- The state with the EIP that an event saves: as it stands, but for the coprocessor segment overrun, whose saved EIP is
unspecified: a free value (R728; 93_implementation_defined.md U15; log entry 29). -/
def State.savedEip (s : State) (e : Event) : State :=
  if e.vector = 0x09#8 && e.kind = .abort then { s with pc := s.free.head, free := s.free.next } else s

/-- Shutdown (R752). -/
def State.shutDown (s : State) : State := { s with run := { s.run with runState := .shutdown, delivering := none } }

/-- The double fault (R762): an abort whose error code is 0. -/
def doubleFault : Event := { vector := 0x08#8, kind := .abort, code := some 0x00000000#32 }

/-- Taking an interrupt or exception (R720, R750 to R752): one attempt; an exception inside it is delivered in turn, or as
a double fault by Table 9-4, or shuts the processor down while the double fault itself is delivered. What an attempt that
failed has left is what 60_exceptions.md R691 allows, and after a task switch's commit point the new task. DESIGN CHOICE
(log entry 52): the debug traps that an attempt has left pending, a task switch's among them, are dropped when it fails. The
first argument bounds the attempts; no chain of Table 9-4 is longer than 6, so it never runs out. -/
def deliver : Nat → Event → State → Host.Outcome State Fault Refusal
  | 0, _, s => .next s.shutDown
  | n + 1, e, s =>
    match deliverOnce e ((s.savedEip e).setDelivering (some e.excClass)) with
    | .ok _ t => .next t.delivered
    | .error (.fault r) _ => .fault r
    | .error (.refusal r) _ => .refused r
    | .error (.exc e2) t =>
      let t := t.setPending .none
      if e.excClass = .doubleFault then .next t.shutDown
      else if doubles e.excClass e2.excClass then deliver n doubleFault t
      else deliver n e2 t

/-- The bound on the attempts of one delivery. -/
def deliverBound : Nat := 8

/-- How an instruction that completed ends (R706; 48_debug.md R645, R652, R657). -/
inductive Completion where
  /-- RF is cleared, and the single-step trap is pending if TF was set at the start -/
  | plain
  /-- an IRET, a POPF, or a JMP, CALL or INT that switched tasks: RF stays as loaded -/
  | keepsRf
  /-- an iteration of a repeated string instruction that is not its last: the instruction is not complete -/
  | iterating
  /-- a WAIT that waits: nothing has happened -/
  | waiting
deriving DecidableEq, Repr

/-- The state with the single-step trap pending, if TF was set when the instruction began (48_debug.md R657). -/
def State.stepTrap (s : State) (tf : Bool) : State :=
  s.setPending { s.run.pendingDb with bs := s.run.pendingDb.bs || tf }

/-- The end of an instruction (R706). -/
def State.complete (s : State) (tf : Bool) : Completion → State
  | .plain => (s.setRf false).stepTrap tf
  | .keepsRf => s.stepTrap tf
  | .iterating => s.stepTrap tf
  | .waiting => s

/-- What became of an instruction's body: its completion, or the exception it raised delivered with the traps it had
accumulated dropped (R706; 48_debug.md R645). -/
def finish (tf : Bool) : EStateM.Result Err State Completion → Host.Outcome State Fault Refusal
  | .ok c t => .next (t.complete tf c)
  | .error (.exc e) t => deliver deliverBound e (t.setPending .none)
  | .error (.fault r) _ => .fault r
  | .error (.refusal r) _ => .refused r

/-- Run an instruction: in virtual 8086 mode it is refused (10_state.md R51), else its body runs and ends. -/
def runInstr (body : M Completion) (s : State) : Host.Outcome State Fault Refusal :=
  if s.flags.vm then .refused .virtual8086 else finish s.flags.tf (body s)

/-- Run an instruction that is defined in virtual 8086 mode too (60_exceptions.md R781). -/
def runAnyMode (body : M Completion) (s : State) : Host.Outcome State Fault Refusal := finish s.flags.tf (body s)

/-- A privileged instruction (40_protection_and_segment_loads.md R311): #GP(0) in protected mode at a CPL other than 0. -/
def privileged : M Unit := do
  let s ← getState
  require (!s.pe || s.cpl = 0#2) (raiseGP 0x0000#16)

/-- An instruction of protected mode only (70_reset_and_hazards.md R813): #UD in real-address mode. -/
def protectedOnly : M Unit := do
  let s ← getState
  require s.pe raiseUD

/-- A software interrupt (46_interrupt_instructions.md R550 to R552): the event is delivered from the state after the
instruction; its own single-step trap is not reported (48_debug.md R645). A gate's entry has cleared RF and a task switch
has loaded it; the entry of a real-address-mode handler leaves RF to the end of the instruction, which clears it
(48_debug.md R652). -/
def softwareInterrupt (vector : Byte) (s : State) : Host.Outcome State Fault Refusal :=
  deliver deliverBound { vector := vector, kind := .software, code := none } (if s.pe then s else s.setRf false)

/-- The level that POPF and IRET load IOPL and IF at: CPL, or 0 in real-address mode, where both are loaded
unconditionally (46_interrupt_instructions.md R563). -/
def State.flagLevel (s : State) : BitVec 2 := if s.pe then s.cpl else 0#2

/-- The flags that POPF and IRET load from an image of n bytes, for the level and the flags `s0` they began with
(45_io.md R534; 46_interrupt_instructions.md R560, R563): a word leaves EFLAGS[31:16] as it is. -/
def loadFlags (s0 : State) (n : Nat) (image : Dword) (s : State) : State :=
  let w := if n = 2 then withLowWord s0.flags.pack (lowWord image) else image
  { s with flags := s0.flags.load w s0.flagLevel (n = 4) }

/-- A completed return from an interrupt unmasks NMI (46_interrupt_instructions.md R565). -/
def State.unmaskNmi (s : State) : State := { s with run := { s.run with nmiMasked := false } }

/-- The return from an interrupt or exception (46_interrupt_instructions.md R560 to R565), slots of n bytes; `next` is the
EIP after the IRET. DESIGN CHOICE (log entry 16): in real-address mode bit 17 of a 32-bit image is dropped, VM stays 0, as R563
does not say what a 1 there does. DESIGN CHOICE (log entry 14): in real-address mode too the frame is tested as a whole, so
that one with a byte beyond FFFFH raises #SS before anything is popped; and a 32-bit EIP beyond FFFFH is loaded unchecked, so
that the #GP comes at the next fetch and saves the target, as R563, R356 and 70_reset_and_hazards.md R812 do not say where it
comes. -/
def returnFromInterrupt (n : Nat) (next : Dword) : M Unit := do
  let s ← getState
  if s.pe && s.flags.nt then do
    let bl ← sysRead s.tr.base 2
    taskSwitch .iret (lowWord bl) false next { s.flags with nt := false }.pack
  else do
    frameCheck (3 * n)
    let neip ← stackRead 0 n
    let vcs ← stackRead n n
    let image ← stackRead (2 * n) n
    let ncs := lowWord vcs
    if s.pe then do
      returnProtected n (3 * n) (3 * n) 0 neip ncs (loadFlags s n image)
      if n = 4 && s.cpl = 0#2 && image.getLsbD 17 then stop (.refusal .virtual8086) else pure ()
    else
      update fun t =>
        loadFlags s n image { (t.moveUp (3 * n)).setSeg .cs (t.seg.cs.realLoad ncs) with pc := neip }
  update State.unmaskNmi

/-- RESET (10_state.md R110 to R121; 70_reset_and_hazards.md R800, R801): every register at its value after reset; memory,
the I/O devices, the coprocessor, the parameters and the inputs stay, the RESET input is taken; EAX is the self-test's
result when BUSY# is asserted, CR0.ET says whether the coprocessor is an 80387 (R803). -/
def State.resetPin (s : State) : State :=
  { State.reset with
    gpr := { Gpr.reset with eax := if s.pins.busy then s.params.selfTestEax else Gpr.reset.eax }
    ctl := { State.reset.ctl with cr0 := if s.params.copKind = .i387 then 0x00000010#32 else 0x00000000#32 }
    pins := { s.pins with reset := false }
    io := s.io
    cop := s.cop
    params := s.params
    free := s.free
    tlb := { Tlb.reset with choices := s.tlb.choices, next := s.tlb.next }
    mem := s.mem }

end Sys2Proof.Machine
end

