-- ==== Sys2Proof/Machine/ControlTransfer.lean ====
section
/-! DEFINITION. JMP, CALL and RET, near and far (41_control_transfer.md R333 to R337, R350 to R356). -/

namespace Sys2Proof

/-- An immediate, sign-extended: a displacement (41_control_transfer.md R333). -/
def Imm.signed : Imm → Dword
  | .i16 v => v.signExtend 32
  | .i32 v => v

/-- An immediate, zero-extended: an offset (41_control_transfer.md R336). -/
def Imm.unsigned : Imm → Dword
  | .i16 v => v.setWidth 32
  | .i32 v => v

end Sys2Proof

namespace Sys2Proof.Machine

/-- The target of a relative transfer: the next instruction's address plus the displacement, cut to the operand size
(R333; log entry 13). -/
def State.relTarget (s : State) (c : Ctx) (d : Dword) : Dword := c.cutTarget (s.nextPc c + d)

/-- A near JMP (R333). -/
def nearJump (target : Dword) : M Completion := do
  nearTarget target
  update fun t => { t with pc := target }
  pure .plain

/-- A near CALL (R334): the target is checked before the push. -/
def nearCall (c : Ctx) (target : Dword) : M Completion := do
  nearTarget target
  let s ← getState
  let st ← stackPrepare c.opBytes (toBytes c.opBytes (s.nextPc c))
  update fun t => { (t.store st).moveDown c.opBytes with pc := target }
  pure .plain

/-- A near RET (R335); `extra` is the immediate operand. -/
def nearReturn (c : Ctx) (extra : Nat) : M Completion := do
  let target ← stackRead 0 c.opBytes
  nearTarget target
  update fun t => { t.moveUp (c.opBytes + extra) with pc := target }
  pure .plain

/-- How a far transfer's end completes the instruction: a switch of tasks leaves RF as loaded (48_debug.md R652). -/
def FarEnd.completion : FarEnd → Completion
  | .sameTask => .plain
  | .newTask => .keepsRf

/-- A far JMP (R336). -/
def farJump (c : Ctx) (sel : Word) (off : Dword) : M Completion := do
  let s ← getState
  let e ← farTransfer .jmp sel off (s.nextPc c)
  pure e.completion

/-- A far CALL (R337). -/
def farCall (c : Ctx) (sel : Word) (off : Dword) : M Completion := do
  let s ← getState
  let e ← farTransfer (.call c.opBytes (s.nextPc c)) sel off (s.nextPc c)
  pure e.completion

/-- A far pointer in memory: the offset, and above it the selector (20_memory.md R211); a register operand is invalid
(30_encoding.md R250). -/
def farPointer (c : Ctx) (t : RM Reg) : M (Dword × Word) := do
  match t with
  | .reg _ => raiseUD
  | .mem ea => do
    let s ← getState
    let a := s.eaOffset ea
    let off ← memRead (c.eaSegment ea) a c.opBytes
    let sel ← memReadAbove (c.eaSegment ea) a c.opBytes 2
    pure (off, lowWord sel)

/-- JMP rel8 (R333). -/
def execJmpRel8 (c : Ctx) (d : Byte) (s : State) : Host.Outcome State Fault Refusal :=
  runInstr (nearJump (s.relTarget c (d.signExtend 32))) s

/-- JMP rel16/32 (R333). -/
def execJmpRel (c : Ctx) (d : Imm) (s : State) : Host.Outcome State Fault Refusal :=
  runInstr (nearJump (s.relTarget c d.signed)) s

/-- JMP r/m16/32 (R333). -/
def execJmpNear (c : Ctx) (t : RM Reg) (s : State) : Host.Outcome State Fault Refusal :=
  runInstr (do
    let target ← rmRead c t c.opBytes
    nearJump target) s

/-- CALL rel16/32 (R334). -/
def execCallRel (c : Ctx) (d : Imm) (s : State) : Host.Outcome State Fault Refusal :=
  runInstr (nearCall c (s.relTarget c d.signed)) s

/-- CALL r/m16/32 (R334). -/
def execCallNear (c : Ctx) (t : RM Reg) (s : State) : Host.Outcome State Fault Refusal :=
  runInstr (do
    let target ← rmRead c t c.opBytes
    nearCall c target) s

/-- RET near (R335). -/
def execRetNear (c : Ctx) (s : State) : Host.Outcome State Fault Refusal := runInstr (nearReturn c 0) s

/-- RET imm16 near (R335): the immediate is zero-extended. -/
def execRetNearImm (c : Ctx) (n : Word) (s : State) : Host.Outcome State Fault Refusal :=
  runInstr (nearReturn c n.toNat) s

/-- JMP ptr16:16/32 (R336). -/
def execJmpFar (c : Ctx) (off : Imm) (sel : Word) (s : State) : Host.Outcome State Fault Refusal :=
  runInstr (farJump c sel off.unsigned) s

/-- JMP m16:16/32 (R336). -/
def execJmpFarMem (c : Ctx) (t : RM Reg) (s : State) : Host.Outcome State Fault Refusal :=
  runInstr (do
    let (off, sel) ← farPointer c t
    farJump c sel off) s

/-- CALL ptr16:16/32 (R337). -/
def execCallFar (c : Ctx) (off : Imm) (sel : Word) (s : State) : Host.Outcome State Fault Refusal :=
  runInstr (farCall c sel off.unsigned) s

/-- CALL m16:16/32 (R337). -/
def execCallFarMem (c : Ctx) (t : RM Reg) (s : State) : Host.Outcome State Fault Refusal :=
  runInstr (do
    let (off, sel) ← farPointer c t
    farCall c sel off) s

/-- RET far (R350). -/
def execRetFar (c : Ctx) (s : State) : Host.Outcome State Fault Refusal :=
  runInstr (do
    farReturn c.opBytes 0
    pure .plain) s

/-- RET imm16 far (R350): the immediate is zero-extended. -/
def execRetFarImm (c : Ctx) (n : Word) (s : State) : Host.Outcome State Fault Refusal :=
  runInstr (do
    farReturn c.opBytes n.toNat
    pure .plain) s

end Sys2Proof.Machine
end

