-- ==== Sys2Proof/WellFormed.lean ====
section
/-! DEFINITION. Which terms of Instr are instructions: the ones some bytes encode (30_encoding.md R240 to R250). -/

namespace Sys2Proof

/-- Bytes of a displacement. -/
def Disp16.size : Disp16 → Nat
  | .none => 0
  | .d8 _ => 1
  | .d16 _ => 2

/-- Bytes of a displacement. -/
def Disp32.size : Disp32 → Nat
  | .none => 0
  | .d8 _ => 1
  | .d32 _ => 4

/-- Bytes of a memory operand's encoding, ModRM byte included. -/
def Ea.size : Ea → Nat
  | .ea16 _ d => 1 + d.size
  | .abs16 _ => 3
  | .ea32 _ d => 1 + d.size
  | .abs32 _ => 5
  | .sib _ _ _ d => 2 + d.size
  | .sibAbs _ _ _ => 6

/-- Bytes of an operand's encoding, ModRM byte included. -/
def RM.size {ρ : Type} : RM ρ → Nat
  | .reg _ => 1
  | .mem ea => ea.size

/-- Bytes of an immediate. -/
def Imm.size : Imm → Nat
  | .i16 _ => 2
  | .i32 _ => 4

/-- The addressing forms each address size has (R243, R244): [BP] and [EBP] alone have no encoding without a
displacement, ESP is no index, and ESP is a base only through a SIB byte. -/
def Ea.wf (a32 : Bool) : Ea → Bool
  | .ea16 b d => !a32 && !(b = .bp && d = .none)
  | .abs16 _ => !a32
  | .ea32 b d => a32 && b ≠ .esp && !(b = .ebp && d = .none)
  | .abs32 _ => a32
  | .sib _ i b d => a32 && i ≠ some .esp && !(b = .ebp && d = .none)
  | .sibAbs _ i _ => a32 && i ≠ some .esp

/-- An operand is well formed for the address size. -/
def RM.wf {ρ : Type} (a32 : Bool) : RM ρ → Bool
  | .reg _ => true
  | .mem ea => ea.wf a32

/-- An immediate has the operand size (R248). -/
def Imm.wf (op32 : Bool) : Imm → Bool
  | .i16 _ => !op32
  | .i32 _ => op32

/-- The prefix a byte is (R241). -/
def pfxOf (b : Byte) : Option Pfx :=
  match b with
  | 0xF0#8 => some .lock
  | 0xF2#8 => some .repne
  | 0xF3#8 => some .rep
  | 0x2E#8 => some (.seg .cs)
  | 0x36#8 => some (.seg .ss)
  | 0x3E#8 => some (.seg .ds)
  | 0x26#8 => some (.seg .es)
  | 0x64#8 => some (.seg .fs)
  | 0x65#8 => some (.seg .gs)
  | 0x66#8 => some .opSize
  | 0x67#8 => some .addrSize
  | _ => none

/-- The one-byte opcodes of spec/opcode_table.json, the groups' first bytes among them. -/
def listedOneByte : List Byte :=
  [0x06#8, 0x07#8, 0x0E#8, 0x16#8, 0x17#8, 0x1E#8, 0x1F#8, 0x62#8, 0x63#8, 0x6C#8, 0x6D#8, 0x6E#8, 0x6F#8, 0x86#8,
    0x87#8, 0x8C#8, 0x8E#8, 0x9A#8, 0x9B#8, 0x9C#8, 0x9D#8]
  ++ [0xC2#8, 0xC3#8, 0xC4#8, 0xC5#8, 0xCA#8, 0xCB#8, 0xCC#8, 0xCD#8, 0xCE#8, 0xCF#8, 0xD8#8, 0xD9#8, 0xDA#8, 0xDB#8,
    0xDC#8, 0xDD#8, 0xDE#8, 0xDF#8, 0xE4#8, 0xE5#8, 0xE6#8, 0xE7#8, 0xE8#8, 0xE9#8, 0xEA#8, 0xEB#8, 0xEC#8, 0xED#8,
    0xEE#8, 0xEF#8, 0xF4#8, 0xFA#8, 0xFB#8, 0xFF#8]

/-- Whether the decoder reads on after an opcode's first byte: the escape 0FH, the group FE, which holds invalid opcodes, and
the table's opcodes. -/
def knownOneByte (op : Byte) : Bool := op = 0x0F#8 || op = 0xFE#8 || listedOneByte.contains op

/-- The repeat targets that are encodings: a byte that is no prefix and at which the decoder stops. -/
def RepTarget.wf : RepTarget → Bool
  | .other op => pfxOf op = none && !knownOneByte op
  | _ => true

/-- Bytes a LOCK prefix's target has. -/
def LockTarget.size : LockTarget → Nat
  | .xchgByte rm _ => 1 + rm.size
  | .xchg rm _ => 1 + rm.size
  | .oneByte _ => 1
  | .twoByte _ => 2
  | .oneByteRm _ _ => 2
  | .twoByteRm _ _ => 3

/-- The LOCK targets that are encodings, each in one form. -/
def LockTarget.wf (a32 : Bool) : LockTarget → Bool
  | .xchgByte rm _ => rm.wf a32
  | .xchg rm _ => rm.wf a32
  | .oneByte op => pfxOf op = none && op ≠ 0x0F#8 && op ≠ 0x86#8 && op ≠ 0x87#8 && (lockFields op).isEmpty
  | .twoByte op => (lockFields2 op).isEmpty
  | .oneByteRm op _ => !(lockFields op).isEmpty
  | .twoByteRm op _ => !(lockFields2 op).isEmpty

/-- What every instruction but LOCK's asks of its prefixes and its length (R232, R240). -/
def Ctx.wf (c : Ctx) (size : Nat) : Bool :=
  !c.hasLock && c.len = c.prefixes.length + size && c.len ≤ Config.maxLength

/-- The instructions that some bytes encode. -/
def Instr.wf : Instr → Bool
  | .arpl c dst _ => c.wf (1 + dst.size) && dst.wf c.addr32
  | .lar c _ src => c.wf (2 + src.size) && src.wf c.addr32
  | .lsl c _ src => c.wf (2 + src.size) && src.wf c.addr32
  | .verr c src => c.wf (2 + src.size) && src.wf c.addr32
  | .verw c src => c.wf (2 + src.size) && src.wf c.addr32
  | .sldt c dst => c.wf (2 + dst.size) && dst.wf c.addr32
  | .str c dst => c.wf (2 + dst.size) && dst.wf c.addr32
  | .lldt c src => c.wf (2 + src.size) && src.wf c.addr32
  | .ltr c src => c.wf (2 + src.size) && src.wf c.addr32
  | .sgdt c dst => c.wf (2 + dst.size) && dst.wf c.addr32
  | .sidt c dst => c.wf (2 + dst.size) && dst.wf c.addr32
  | .lgdt c src => c.wf (2 + src.size) && src.wf c.addr32
  | .lidt c src => c.wf (2 + src.size) && src.wf c.addr32
  | .smsw c dst => c.wf (2 + dst.size) && dst.wf c.addr32
  | .lmsw c src => c.wf (2 + src.size) && src.wf c.addr32
  | .clts c => c.wf 2
  | .movFromCr c _ _ _ => c.wf 3
  | .movFromDr c _ _ _ => c.wf 3
  | .movToCr c _ _ _ => c.wf 3
  | .movToDr c _ _ _ => c.wf 3
  | .movFromTr c _ _ _ => c.wf 3
  | .movToTr c _ _ _ => c.wf 3
  | .hlt c => c.wf 1
  | .movToSreg c _ src => c.wf (1 + src.size) && src.wf c.addr32
  | .movFromSreg c dst _ => c.wf (1 + dst.size) && dst.wf c.addr32
  | .pushEs c => c.wf 1
  | .pushCs c => c.wf 1
  | .pushSs c => c.wf 1
  | .pushDs c => c.wf 1
  | .pushFs c => c.wf 2
  | .pushGs c => c.wf 2
  | .popEs c => c.wf 1
  | .popSs c => c.wf 1
  | .popDs c => c.wf 1
  | .popFs c => c.wf 2
  | .popGs c => c.wf 2
  | .lds c _ src => c.wf (1 + src.size) && src.wf c.addr32
  | .les c _ src => c.wf (1 + src.size) && src.wf c.addr32
  | .lss c _ src => c.wf (2 + src.size) && src.wf c.addr32
  | .lfs c _ src => c.wf (2 + src.size) && src.wf c.addr32
  | .lgs c _ src => c.wf (2 + src.size) && src.wf c.addr32
  | .jmpRel8 c _ => c.wf 2
  | .jmpRel c d => c.wf (1 + d.size) && d.wf c.op32
  | .jmpNear c t => c.wf (1 + t.size) && t.wf c.addr32
  | .callRel c d => c.wf (1 + d.size) && d.wf c.op32
  | .callNear c t => c.wf (1 + t.size) && t.wf c.addr32
  | .retNear c => c.wf 1
  | .retNearImm c _ => c.wf 3
  | .jmpFar c off _ => c.wf (3 + off.size) && off.wf c.op32
  | .jmpFarMem c t => c.wf (1 + t.size) && t.wf c.addr32
  | .callFar c off _ => c.wf (3 + off.size) && off.wf c.op32
  | .callFarMem c t => c.wf (1 + t.size) && t.wf c.addr32
  | .retFar c => c.wf 1
  | .retFarImm c _ => c.wf 3
  | .inAlImm c _ => c.wf 2
  | .inAxImm c _ => c.wf 2
  | .inAlDx c => c.wf 1
  | .inAxDx c => c.wf 1
  | .outImmAl c _ => c.wf 2
  | .outImmAx c _ => c.wf 2
  | .outDxAl c => c.wf 1
  | .outDxAx c => c.wf 1
  | .insb c => c.wf 1 && !c.hasRep
  | .insw c => c.wf 1 && !c.hasRep
  | .outsb c => c.wf 1 && !c.hasRep
  | .outsw c => c.wf 1 && !c.hasRep
  | .repPrefix c t => c.wf 1 && c.hasRep && t.wf
  | .cli c => c.wf 1
  | .sti c => c.wf 1
  | .pushf c => c.wf 1
  | .popf c => c.wf 1
  | .int3 c => c.wf 1
  | .intImm c _ => c.wf 2
  | .into c => c.wf 1
  | .bound c _ m => c.wf (1 + m.size) && m.wf c.addr32
  | .iret c => c.wf 1
  | .esc c _ _ rm => c.wf (1 + rm.size) && rm.wf c.addr32
  | .wait c => c.wf 1
  | .lockPrefix c t =>
    c.hasLock && c.len = c.prefixes.length + t.size && c.len ≤ Config.maxLength && t.wf c.addr32
  | .xchgByte c rm _ => c.wf (1 + rm.size) && rm.wf c.addr32
  | .xchg c rm _ => c.wf (1 + rm.size) && rm.wf c.addr32

end Sys2Proof
end

