-- ==== Sys2Proof/Decode.lean ====
section
/-! DEFINITION. The decoder and the encoder, from the encoding tables of 30_encoding.md (R240 to R250) and
spec/opcode_table.json. All byte values rest on log entry 8. -/

namespace Sys2Proof

/-- The general register a number names (10_state.md R30). -/
def Reg.ofBits (b : BitVec 3) : Reg :=
  match b with
  | 0#3 => .eax
  | 1#3 => .ecx
  | 2#3 => .edx
  | 3#3 => .ebx
  | 4#3 => .esp
  | 5#3 => .ebp
  | 6#3 => .esi
  | _ => .edi

/-- The number of a general register. -/
def Reg.bits : Reg → BitVec 3
  | .eax => 0#3
  | .ecx => 1#3
  | .edx => 2#3
  | .ebx => 3#3
  | .esp => 4#3
  | .ebp => 5#3
  | .esi => 6#3
  | .edi => 7#3

/-- The byte register a number names (30_encoding.md R242). -/
def Reg8.ofBits (b : BitVec 3) : Reg8 :=
  match b with
  | 0#3 => .al
  | 1#3 => .cl
  | 2#3 => .dl
  | 3#3 => .bl
  | 4#3 => .ah
  | 5#3 => .ch
  | 6#3 => .dh
  | _ => .bh

/-- The number of a byte register. -/
def Reg8.bits : Reg8 → BitVec 3
  | .al => 0#3
  | .cl => 1#3
  | .dl => 2#3
  | .bl => 3#3
  | .ah => 4#3
  | .ch => 5#3
  | .dh => 6#3
  | .bh => 7#3

/-- The sum a 16-bit rm field names (R244). -/
def Base16.ofBits (b : BitVec 3) : Base16 :=
  match b with
  | 0#3 => .bxSi
  | 1#3 => .bxDi
  | 2#3 => .bpSi
  | 3#3 => .bpDi
  | 4#3 => .si
  | 5#3 => .di
  | 6#3 => .bp
  | _ => .bx

/-- The rm field of a 16-bit sum. -/
def Base16.bits : Base16 → BitVec 3
  | .bxSi => 0#3
  | .bxDi => 1#3
  | .bpSi => 2#3
  | .bpDi => 3#3
  | .si => 4#3
  | .di => 5#3
  | .bp => 6#3
  | .bx => 7#3

/-- Why a decoding does not yet answer an instruction. -/
inductive DecodeStop where
  /-- the bytes end before the instruction does -/
  | needMore
  /-- an opcode that the spec does not hold -/
  | unlisted (opcode : List Byte)
  /-- an invalid opcode (30_encoding.md R236) -/
  | invalid (opcode : List Byte)
deriving DecidableEq, Repr

/-- A reader of bytes. -/
abbrev Parse := EStateM DecodeStop (List Byte)

/-- The next byte. -/
def nextByte : Parse Byte := fun bs =>
  match bs with
  | [] => .error .needMore []
  | b :: r => .ok b r

/-- The next two bytes, the first least significant (20_memory.md R210). -/
def nextWord : Parse Word := do
  let b0 ← nextByte
  let b1 ← nextByte
  pure (b1 ++ b0)

/-- The next four bytes, the first least significant. -/
def nextDword : Parse Dword := do
  let w0 ← nextWord
  let w1 ← nextWord
  pure (w1 ++ w0)

/-- An immediate of the operand size (R245, R248). -/
def nextImm (op32 : Bool) : Parse Imm :=
  if op32 then do
    let v ← nextDword
    pure (.i32 v)
  else do
    let v ← nextWord
    pure (.i16 v)

/-- Bits 7:6 of a ModRM or SIB byte. -/
def fieldHi (b : Byte) : BitVec 2 := b.extractLsb' 6 2

/-- Bits 5:3 of a ModRM or SIB byte. -/
def fieldMid (b : Byte) : BitVec 3 := b.extractLsb' 3 3

/-- Bits 2:0 of a ModRM or SIB byte. -/
def fieldLo (b : Byte) : BitVec 3 := b.extractLsb' 0 3

/-- A ModRM or SIB byte from its fields. -/
def packFields (hi : BitVec 2) (mid lo : BitVec 3) : Byte := hi ++ mid ++ lo

/-- The index register of a SIB byte; 4 is none (R243). -/
def indexOf (b : BitVec 3) : Option Reg := if b = 4#3 then none else some (Reg.ofBits b)

/-- The index field of a SIB byte. -/
def indexBits : Option Reg → BitVec 3
  | none => 4#3
  | some r => r.bits

/-- The displacement of a 16-bit form whose mod is not 11B. -/
def nextDisp16 (mb : BitVec 2) : Parse Disp16 :=
  match mb with
  | 0#2 => pure .none
  | 1#2 => do
    let v ← nextByte
    pure (.d8 v)
  | _ => do
    let v ← nextWord
    pure (.d16 v)

/-- The displacement of a 32-bit form whose mod is not 11B. -/
def nextDisp32 (mb : BitVec 2) : Parse Disp32 :=
  match mb with
  | 0#2 => pure .none
  | 1#2 => do
    let v ← nextByte
    pure (.d8 v)
  | _ => do
    let v ← nextDword
    pure (.d32 v)

/-- The rest of a 16-bit memory operand (R244). -/
def nextEa16 (mb : BitVec 2) (rm : BitVec 3) : Parse Ea :=
  if mb = 0#2 ∧ rm = 6#3 then do
    let v ← nextWord
    pure (.abs16 v)
  else do
    let d ← nextDisp16 mb
    pure (.ea16 (Base16.ofBits rm) d)

/-- The rest of a 32-bit memory operand that has a SIB byte (R243). -/
def nextSib (mb : BitVec 2) : Parse Ea := do
  let b ← nextByte
  if mb = 0#2 ∧ fieldLo b = 5#3 then do
    let v ← nextDword
    pure (.sibAbs (fieldHi b) (indexOf (fieldMid b)) v)
  else do
    let d ← nextDisp32 mb
    pure (.sib (fieldHi b) (indexOf (fieldMid b)) (Reg.ofBits (fieldLo b)) d)

/-- The rest of a 32-bit memory operand (R243). -/
def nextEa32 (mb : BitVec 2) (rm : BitVec 3) : Parse Ea :=
  if rm = 4#3 then nextSib mb
  else if mb = 0#2 ∧ rm = 5#3 then do
    let v ← nextDword
    pure (.abs32 v)
  else do
    let d ← nextDisp32 mb
    pure (.ea32 (Reg.ofBits rm) d)

/-- The operand a ModRM byte announces (R242), over the kind of register it may name. -/
def nextRmOf {ρ : Type} (regOf : BitVec 3 → ρ) (a32 : Bool) (b : Byte) : Parse (RM ρ) :=
  if fieldHi b = 3#2 then pure (.reg (regOf (fieldLo b)))
  else if a32 then do
    let ea ← nextEa32 (fieldHi b) (fieldLo b)
    pure (.mem ea)
  else do
    let ea ← nextEa16 (fieldHi b) (fieldLo b)
    pure (.mem ea)

/-- A ModRM byte and its operand: the reg field, and the register or memory operand. -/
def nextModRM (a32 : Bool) : Parse (BitVec 3 × RM Reg) := do
  let b ← nextByte
  let rm ← nextRmOf Reg.ofBits a32 b
  pure (fieldMid b, rm)

/-- The same with byte registers. -/
def nextModRM8 (a32 : Bool) : Parse (BitVec 3 × RM Reg8) := do
  let b ← nextByte
  let rm ← nextRmOf Reg8.ofBits a32 b
  pure (fieldMid b, rm)

/-- A ModRM byte of a MOV to or from a special register: mod, reg, rm (R249). -/
def nextSpecial : Parse (BitVec 2 × BitVec 3 × Reg) := do
  let b ← nextByte
  pure (fieldHi b, fieldMid b, Reg.ofBits (fieldLo b))

/-- An opcode that the spec does not hold. -/
def unlisted {α : Type} (opcode : List Byte) : Parse α := fun bs => .error (.unlisted opcode) bs

/-- An opcode that is no instruction's (R236). -/
def invalid {α : Type} (opcode : List Byte) : Parse α := fun bs => .error (.invalid opcode) bs

/-- The second bytes of the invalid two-byte opcodes. PRESUMED (log entry 56): those that the 80386's opcode map leaves blank
and that no chip of the family is known to run. -/
def invalidTwoByte (op : Byte) : Bool :=
  let n := op.toNat
  n = 0x04 || n = 0x05 || (0x08 ≤ n && n ≤ 0x0F) || (0x14 ≤ n && n ≤ 0x1F) || n = 0x25 || (0x27 ≤ n && n ≤ 0x7F)
    || n = 0xA2 || n = 0xAA || n = 0xAE || n = 0xB0 || n = 0xB1 || n = 0xB8 || n = 0xB9 || 0xC0 ≤ n

/-- An instruction that still lacks what every instruction carries. -/
abbrev Shape := Ctx → Instr

/-- The instructions of group 0F 00; the reg fields 6 and 7 are invalid (log entry 56). -/
def parse0F00 (a32 : Bool) : Parse Shape := do
  let (n, rm) ← nextModRM a32
  match n with
  | 0#3 => pure fun c => .sldt c rm
  | 1#3 => pure fun c => .str c rm
  | 2#3 => pure fun c => .lldt c rm
  | 3#3 => pure fun c => .ltr c rm
  | 4#3 => pure fun c => .verr c rm
  | 5#3 => pure fun c => .verw c rm
  | _ => invalid [0x0F#8, 0x00#8]

/-- The instructions of group 0F 01; the reg fields 5 and 7 are invalid (log entry 56). -/
def parse0F01 (a32 : Bool) : Parse Shape := do
  let (n, rm) ← nextModRM a32
  match n with
  | 0#3 => pure fun c => .sgdt c rm
  | 1#3 => pure fun c => .sidt c rm
  | 2#3 => pure fun c => .lgdt c rm
  | 3#3 => pure fun c => .lidt c rm
  | 4#3 => pure fun c => .smsw c rm
  | 6#3 => pure fun c => .lmsw c rm
  | _ => invalid [0x0F#8, 0x01#8]

/-- Group 0F BA, of which the table holds nothing; the reg fields 0 to 3 are invalid (log entry 56). -/
def parse0FBA (a32 : Bool) : Parse Shape := do
  let (n, _) ← nextModRM a32
  if n.toNat < 4 then invalid [0x0F#8, 0xBA#8] else unlisted [0x0F#8, 0xBA#8]

/-- Group FE, of which the table holds nothing; the reg fields 2 to 7 are invalid (log entry 56). -/
def parseFE (a32 : Bool) : Parse Shape := do
  let (n, _) ← nextModRM a32
  if n.toNat < 2 then unlisted [0xFE#8] else invalid [0xFE#8]

/-- The instructions of group FF; the reg field 7 is invalid (log entry 56). -/
def parseFF (a32 : Bool) : Parse Shape := do
  let (n, rm) ← nextModRM a32
  match n with
  | 2#3 => pure fun c => .callNear c rm
  | 3#3 => pure fun c => .callFarMem c rm
  | 4#3 => pure fun c => .jmpNear c rm
  | 5#3 => pure fun c => .jmpFarMem c rm
  | 7#3 => invalid [0xFF#8]
  | _ => unlisted [0xFF#8]

/-- The two-byte opcodes of the table. -/
def parse0F (a32 : Bool) : Parse Shape := do
  let op ← nextByte
  match op with
  | 0x00#8 => parse0F00 a32
  | 0x01#8 => parse0F01 a32
  | 0x02#8 => do
    let (n, rm) ← nextModRM a32
    pure fun c => .lar c (Reg.ofBits n) rm
  | 0x03#8 => do
    let (n, rm) ← nextModRM a32
    pure fun c => .lsl c (Reg.ofBits n) rm
  | 0x06#8 => pure .clts
  | 0x20#8 => do
    let (mb, n, r) ← nextSpecial
    pure fun c => .movFromCr c r n mb
  | 0x21#8 => do
    let (mb, n, r) ← nextSpecial
    pure fun c => .movFromDr c r n mb
  | 0x22#8 => do
    let (mb, n, r) ← nextSpecial
    pure fun c => .movToCr c n r mb
  | 0x23#8 => do
    let (mb, n, r) ← nextSpecial
    pure fun c => .movToDr c n r mb
  | 0x24#8 => do
    let (mb, n, r) ← nextSpecial
    pure fun c => .movFromTr c r n mb
  | 0x26#8 => do
    let (mb, n, r) ← nextSpecial
    pure fun c => .movToTr c n r mb
  | 0xA0#8 => pure .pushFs
  | 0xA1#8 => pure .popFs
  | 0xA8#8 => pure .pushGs
  | 0xA9#8 => pure .popGs
  | 0xB2#8 => do
    let (n, rm) ← nextModRM a32
    pure fun c => .lss c (Reg.ofBits n) rm
  | 0xB4#8 => do
    let (n, rm) ← nextModRM a32
    pure fun c => .lfs c (Reg.ofBits n) rm
  | 0xB5#8 => do
    let (n, rm) ← nextModRM a32
    pure fun c => .lgs c (Reg.ofBits n) rm
  | 0xBA#8 => parse0FBA a32
  | _ => if invalidTwoByte op then invalid [0x0F#8, op] else unlisted [0x0F#8, op]

/-- An ESC instruction: any opcode byte whose five high bits are 11011B (R230). -/
def parseEsc (a32 : Bool) (op : Byte) : Parse Shape := do
  let (n, rm) ← nextModRM a32
  pure fun c => .esc c (fieldLo op) n rm

/-- The table's opcodes below 90H. -/
def parseLow (c : Ctx) (op : Byte) : Parse Shape :=
  match op with
  | 0x06#8 => pure .pushEs
  | 0x07#8 => pure .popEs
  | 0x0E#8 => pure .pushCs
  | 0x0F#8 => parse0F c.addr32
  | 0x16#8 => pure .pushSs
  | 0x17#8 => pure .popSs
  | 0x1E#8 => pure .pushDs
  | 0x1F#8 => pure .popDs
  | 0x62#8 => do
    let (n, rm) ← nextModRM c.addr32
    pure fun c => .bound c (Reg.ofBits n) rm
  | 0x63#8 => do
    let (n, rm) ← nextModRM c.addr32
    pure fun c => .arpl c rm (Reg.ofBits n)
  | 0x6C#8 => pure .insb
  | 0x6D#8 => pure .insw
  | 0x6E#8 => pure .outsb
  | 0x6F#8 => pure .outsw
  | 0x86#8 => do
    let (n, rm) ← nextModRM8 c.addr32
    pure fun c => .xchgByte c rm (Reg8.ofBits n)
  | 0x87#8 => do
    let (n, rm) ← nextModRM c.addr32
    pure fun c => .xchg c rm (Reg.ofBits n)
  | 0x8C#8 => do
    let (n, rm) ← nextModRM c.addr32
    pure fun c => .movFromSreg c rm n
  | 0x8E#8 => do
    let (n, rm) ← nextModRM c.addr32
    pure fun c => .movToSreg c n rm
  | _ => unlisted [op]

/-- A direct far pointer: the offset, then the selector (R245). -/
def nextFar (op32 : Bool) : Parse (Imm × Word) := do
  let off ← nextImm op32
  let sel ← nextWord
  pure (off, sel)

/-- The table's opcodes from 90H on. -/
def parseHigh (c : Ctx) (op : Byte) : Parse Shape :=
  match op with
  | 0x9A#8 => do
    let (off, sel) ← nextFar c.op32
    pure fun c => .callFar c off sel
  | 0x9B#8 => pure .wait
  | 0x9C#8 => pure .pushf
  | 0x9D#8 => pure .popf
  | 0xC2#8 => do
    let n ← nextWord
    pure fun c => .retNearImm c n
  | 0xC3#8 => pure .retNear
  | 0xC4#8 => do
    let (n, rm) ← nextModRM c.addr32
    pure fun c => .les c (Reg.ofBits n) rm
  | 0xC5#8 => do
    let (n, rm) ← nextModRM c.addr32
    pure fun c => .lds c (Reg.ofBits n) rm
  | 0xCA#8 => do
    let n ← nextWord
    pure fun c => .retFarImm c n
  | 0xCB#8 => pure .retFar
  | 0xCC#8 => pure .int3
  | 0xCD#8 => do
    let v ← nextByte
    pure fun c => .intImm c v
  | 0xCE#8 => pure .into
  | 0xCF#8 => pure .iret
  | 0xD8#8 => parseEsc c.addr32 op
  | 0xD9#8 => parseEsc c.addr32 op
  | 0xDA#8 => parseEsc c.addr32 op
  | 0xDB#8 => parseEsc c.addr32 op
  | 0xDC#8 => parseEsc c.addr32 op
  | 0xDD#8 => parseEsc c.addr32 op
  | 0xDE#8 => parseEsc c.addr32 op
  | 0xDF#8 => parseEsc c.addr32 op
  | 0xE4#8 => do
    let p ← nextByte
    pure fun c => .inAlImm c p
  | 0xE5#8 => do
    let p ← nextByte
    pure fun c => .inAxImm c p
  | 0xE6#8 => do
    let p ← nextByte
    pure fun c => .outImmAl c p
  | 0xE7#8 => do
    let p ← nextByte
    pure fun c => .outImmAx c p
  | 0xE8#8 => do
    let d ← nextImm c.op32
    pure fun c => .callRel c d
  | 0xE9#8 => do
    let d ← nextImm c.op32
    pure fun c => .jmpRel c d
  | 0xEA#8 => do
    let (off, sel) ← nextFar c.op32
    pure fun c => .jmpFar c off sel
  | 0xEB#8 => do
    let d ← nextByte
    pure fun c => .jmpRel8 c d
  | 0xEC#8 => pure .inAlDx
  | 0xED#8 => pure .inAxDx
  | 0xEE#8 => pure .outDxAl
  | 0xEF#8 => pure .outDxAx
  | 0xF4#8 => pure .hlt
  | 0xFA#8 => pure .cli
  | 0xFB#8 => pure .sti
  | 0xFE#8 => parseFE c.addr32
  | 0xFF#8 => parseFF c.addr32
  | _ => unlisted [op]

/-- What a LOCK prefix stands before: the exchanges are read whole, every other opcode as far as it takes to know whether LOCK
may stand before it (47_coprocessor_and_lock.md R600). -/
def parseLocked (c : Ctx) (op : Byte) : Parse Shape :=
  match op with
  | 0x86#8 => do
    let (n, rm) ← nextModRM8 c.addr32
    pure fun c => .lockPrefix c (.xchgByte rm (Reg8.ofBits n))
  | 0x87#8 => do
    let (n, rm) ← nextModRM c.addr32
    pure fun c => .lockPrefix c (.xchg rm (Reg.ofBits n))
  | 0x0F#8 => do
    let op2 ← nextByte
    if (lockFields2 op2).isEmpty then pure fun c => .lockPrefix c (.twoByte op2)
    else do
      let b ← nextByte
      pure fun c => .lockPrefix c (.twoByteRm op2 b)
  | _ =>
    if (lockFields op).isEmpty then pure fun c => .lockPrefix c (.oneByte op)
    else do
      let b ← nextByte
      pure fun c => .lockPrefix c (.oneByteRm op b)

/-- What a repeat prefix stands before: the four string instructions, an opcode that the spec does not hold, or an
instruction that it leaves as it is (45_io.md R517; log entry 10). -/
def parseRepeated (c : Ctx) (op : Byte) : Parse Shape :=
  match op with
  | 0x6C#8 => pure fun c => .repPrefix c .insb
  | 0x6D#8 => pure fun c => .repPrefix c .insw
  | 0x6E#8 => pure fun c => .repPrefix c .outsb
  | 0x6F#8 => pure fun c => .repPrefix c .outsw
  | _ =>
    if knownOneByte op then
      if op.toNat < 0x90 then parseLow c op else parseHigh c op
    else pure fun c => .repPrefix c (.other op)

/-- The instruction after the prefixes. -/
def parseOpcode (c : Ctx) : Parse Shape := do
  let op ← nextByte
  if c.hasLock then parseLocked c op
  else if c.hasRep then parseRepeated c op
  else if op.toNat < 0x90 then parseLow c op
  else parseHigh c op

/-- The prefixes at the head of some bytes, and the bytes after them (R240). -/
def takePrefixes : List Byte → List Pfx × List Byte
  | [] => ([], [])
  | b :: r =>
    match pfxOf b with
    | some p => (p :: (takePrefixes r).1, (takePrefixes r).2)
    | none => ([], b :: r)

/-- What some bytes decode to. -/
inductive Decoded where
  /-- an instruction; its length is in its context -/
  | instr (i : Instr)
  /-- the bytes end before the instruction does -/
  | needMore
  /-- an opcode that the spec does not hold -/
  | unlisted (opcode : List Byte)
  /-- an invalid opcode (30_encoding.md R236) -/
  | invalid (opcode : List Byte)
  /-- more than 15 bytes (30_encoding.md R232) -/
  | tooLong
deriving DecidableEq, Repr

/-- The instruction at the head of some bytes, in a code segment whose default size is 32 bits or not. -/
def decode (d32 : Bool) (bs : List Byte) : Decoded :=
  let (ps, rest) := takePrefixes bs
  match parseOpcode ⟨ps, d32, 0⟩ rest with
  | .ok f rest' =>
    if bs.length - rest'.length ≤ Config.maxLength then .instr (f ⟨ps, d32, bs.length - rest'.length⟩) else .tooLong
  | .error .needMore _ => if Config.maxLength ≤ bs.length then .tooLong else .needMore
  | .error (.unlisted op) _ => .unlisted op
  | .error (.invalid op) _ => .invalid op

/-- The byte of a prefix (R241). -/
def Pfx.byte : Pfx → Byte
  | .lock => 0xF0#8
  | .repne => 0xF2#8
  | .rep => 0xF3#8
  | .seg .cs => 0x2E#8
  | .seg .ss => 0x36#8
  | .seg .ds => 0x3E#8
  | .seg .es => 0x26#8
  | .seg .fs => 0x64#8
  | .seg .gs => 0x65#8
  | .opSize => 0x66#8
  | .addrSize => 0x67#8

/-- Two bytes, the least significant first. -/
def wordBytes (v : Word) : List Byte := [v.extractLsb' 0 8, v.extractLsb' 8 8]

/-- Four bytes, the least significant first. -/
def dwordBytes (v : Dword) : List Byte := wordBytes (v.extractLsb' 0 16) ++ wordBytes (v.extractLsb' 16 16)

/-- The bytes of an immediate. -/
def Imm.bytes : Imm → List Byte
  | .i16 v => wordBytes v
  | .i32 v => dwordBytes v

/-- The mod field a 16-bit displacement asks for. -/
def Disp16.mod : Disp16 → BitVec 2
  | .none => 0#2
  | .d8 _ => 1#2
  | .d16 _ => 2#2

/-- The bytes of a displacement. -/
def Disp16.bytes : Disp16 → List Byte
  | .none => []
  | .d8 v => [v]
  | .d16 v => wordBytes v

/-- The mod field a 32-bit displacement asks for. -/
def Disp32.mod : Disp32 → BitVec 2
  | .none => 0#2
  | .d8 _ => 1#2
  | .d32 _ => 2#2

/-- The bytes of a displacement. -/
def Disp32.bytes : Disp32 → List Byte
  | .none => []
  | .d8 v => [v]
  | .d32 v => dwordBytes v

/-- The ModRM byte and what follows it, for a memory operand and a reg field. -/
def Ea.bytes (n : BitVec 3) : Ea → List Byte
  | .ea16 b d => packFields d.mod n b.bits :: d.bytes
  | .abs16 v => packFields 0#2 n 6#3 :: wordBytes v
  | .ea32 b d => packFields d.mod n b.bits :: d.bytes
  | .abs32 v => packFields 0#2 n 5#3 :: dwordBytes v
  | .sib s i b d => packFields d.mod n 4#3 :: packFields s (indexBits i) b.bits :: d.bytes
  | .sibAbs s i v => packFields 0#2 n 4#3 :: packFields s (indexBits i) 5#3 :: dwordBytes v

/-- The ModRM byte and what follows it, for an operand and a reg field. -/
def RM.bytes {ρ : Type} (bitsOf : ρ → BitVec 3) (n : BitVec 3) : RM ρ → List Byte
  | .reg r => [packFields 3#2 n (bitsOf r)]
  | .mem ea => ea.bytes n

/-- The same for the general registers. -/
abbrev rmBytes (n : BitVec 3) (rm : RM Reg) : List Byte := rm.bytes Reg.bits n

/-- The bytes after a repeat prefix. -/
def RepTarget.bytes : RepTarget → List Byte
  | .insb => [0x6C#8]
  | .insw => [0x6D#8]
  | .outsb => [0x6E#8]
  | .outsw => [0x6F#8]
  | .other op => [op]

/-- The bytes after a LOCK prefix. -/
def LockTarget.bytes : LockTarget → List Byte
  | .xchgByte rm r => 0x86#8 :: rm.bytes Reg8.bits r.bits
  | .xchg rm r => 0x87#8 :: rmBytes r.bits rm
  | .oneByte op => [op]
  | .twoByte op => [0x0F#8, op]
  | .oneByteRm op b => [op, b]
  | .twoByteRm op b => [0x0F#8, op, b]

/-- What every instruction carries beside its operands. -/
def Instr.ctx : Instr → Ctx
  | .arpl c _ _ => c
  | .lar c _ _ => c
  | .lsl c _ _ => c
  | .verr c _ => c
  | .verw c _ => c
  | .sldt c _ => c
  | .str c _ => c
  | .lldt c _ => c
  | .ltr c _ => c
  | .sgdt c _ => c
  | .sidt c _ => c
  | .lgdt c _ => c
  | .lidt c _ => c
  | .smsw c _ => c
  | .lmsw c _ => c
  | .clts c => c
  | .movFromCr c _ _ _ => c
  | .movFromDr c _ _ _ => c
  | .movToCr c _ _ _ => c
  | .movToDr c _ _ _ => c
  | .movFromTr c _ _ _ => c
  | .movToTr c _ _ _ => c
  | .hlt c => c
  | .movToSreg c _ _ => c
  | .movFromSreg c _ _ => c
  | .pushEs c => c
  | .pushCs c => c
  | .pushSs c => c
  | .pushDs c => c
  | .pushFs c => c
  | .pushGs c => c
  | .popEs c => c
  | .popSs c => c
  | .popDs c => c
  | .popFs c => c
  | .popGs c => c
  | .lds c _ _ => c
  | .les c _ _ => c
  | .lss c _ _ => c
  | .lfs c _ _ => c
  | .lgs c _ _ => c
  | .jmpRel8 c _ => c
  | .jmpRel c _ => c
  | .jmpNear c _ => c
  | .callRel c _ => c
  | .callNear c _ => c
  | .retNear c => c
  | .retNearImm c _ => c
  | .jmpFar c _ _ => c
  | .jmpFarMem c _ => c
  | .callFar c _ _ => c
  | .callFarMem c _ => c
  | .retFar c => c
  | .retFarImm c _ => c
  | .inAlImm c _ => c
  | .inAxImm c _ => c
  | .inAlDx c => c
  | .inAxDx c => c
  | .outImmAl c _ => c
  | .outImmAx c _ => c
  | .outDxAl c => c
  | .outDxAx c => c
  | .insb c => c
  | .insw c => c
  | .outsb c => c
  | .outsw c => c
  | .repPrefix c _ => c
  | .cli c => c
  | .sti c => c
  | .pushf c => c
  | .popf c => c
  | .int3 c => c
  | .intImm c _ => c
  | .into c => c
  | .bound c _ _ => c
  | .iret c => c
  | .esc c _ _ _ => c
  | .wait c => c
  | .lockPrefix c _ => c
  | .xchgByte c _ _ => c
  | .xchg c _ _ => c

/-- The bytes of an instruction after its prefixes (R247 and spec/opcode_table.json). -/
def Instr.opcodeBytes : Instr → List Byte
  | .arpl _ dst src => 0x63#8 :: rmBytes src.bits dst
  | .lar _ dst src => 0x0F#8 :: 0x02#8 :: rmBytes dst.bits src
  | .lsl _ dst src => 0x0F#8 :: 0x03#8 :: rmBytes dst.bits src
  | .verr _ src => 0x0F#8 :: 0x00#8 :: rmBytes 4#3 src
  | .verw _ src => 0x0F#8 :: 0x00#8 :: rmBytes 5#3 src
  | .sldt _ dst => 0x0F#8 :: 0x00#8 :: rmBytes 0#3 dst
  | .str _ dst => 0x0F#8 :: 0x00#8 :: rmBytes 1#3 dst
  | .lldt _ src => 0x0F#8 :: 0x00#8 :: rmBytes 2#3 src
  | .ltr _ src => 0x0F#8 :: 0x00#8 :: rmBytes 3#3 src
  | .sgdt _ dst => 0x0F#8 :: 0x01#8 :: rmBytes 0#3 dst
  | .sidt _ dst => 0x0F#8 :: 0x01#8 :: rmBytes 1#3 dst
  | .lgdt _ src => 0x0F#8 :: 0x01#8 :: rmBytes 2#3 src
  | .lidt _ src => 0x0F#8 :: 0x01#8 :: rmBytes 3#3 src
  | .smsw _ dst => 0x0F#8 :: 0x01#8 :: rmBytes 4#3 dst
  | .lmsw _ src => 0x0F#8 :: 0x01#8 :: rmBytes 6#3 src
  | .clts _ => [0x0F#8, 0x06#8]
  | .movFromCr _ dst n mb => [0x0F#8, 0x20#8, packFields mb n dst.bits]
  | .movFromDr _ dst n mb => [0x0F#8, 0x21#8, packFields mb n dst.bits]
  | .movToCr _ n src mb => [0x0F#8, 0x22#8, packFields mb n src.bits]
  | .movToDr _ n src mb => [0x0F#8, 0x23#8, packFields mb n src.bits]
  | .movFromTr _ dst n mb => [0x0F#8, 0x24#8, packFields mb n dst.bits]
  | .movToTr _ n src mb => [0x0F#8, 0x26#8, packFields mb n src.bits]
  | .hlt _ => [0xF4#8]
  | .movToSreg _ n src => 0x8E#8 :: rmBytes n src
  | .movFromSreg _ dst n => 0x8C#8 :: rmBytes n dst
  | .pushEs _ => [0x06#8]
  | .pushCs _ => [0x0E#8]
  | .pushSs _ => [0x16#8]
  | .pushDs _ => [0x1E#8]
  | .pushFs _ => [0x0F#8, 0xA0#8]
  | .pushGs _ => [0x0F#8, 0xA8#8]
  | .popEs _ => [0x07#8]
  | .popSs _ => [0x17#8]
  | .popDs _ => [0x1F#8]
  | .popFs _ => [0x0F#8, 0xA1#8]
  | .popGs _ => [0x0F#8, 0xA9#8]
  | .lds _ dst src => 0xC5#8 :: rmBytes dst.bits src
  | .les _ dst src => 0xC4#8 :: rmBytes dst.bits src
  | .lss _ dst src => 0x0F#8 :: 0xB2#8 :: rmBytes dst.bits src
  | .lfs _ dst src => 0x0F#8 :: 0xB4#8 :: rmBytes dst.bits src
  | .lgs _ dst src => 0x0F#8 :: 0xB5#8 :: rmBytes dst.bits src
  | .jmpRel8 _ d => [0xEB#8, d]
  | .jmpRel _ d => 0xE9#8 :: d.bytes
  | .jmpNear _ t => 0xFF#8 :: rmBytes 4#3 t
  | .callRel _ d => 0xE8#8 :: d.bytes
  | .callNear _ t => 0xFF#8 :: rmBytes 2#3 t
  | .retNear _ => [0xC3#8]
  | .retNearImm _ n => 0xC2#8 :: wordBytes n
  | .jmpFar _ off sel => 0xEA#8 :: (off.bytes ++ wordBytes sel)
  | .jmpFarMem _ t => 0xFF#8 :: rmBytes 5#3 t
  | .callFar _ off sel => 0x9A#8 :: (off.bytes ++ wordBytes sel)
  | .callFarMem _ t => 0xFF#8 :: rmBytes 3#3 t
  | .retFar _ => [0xCB#8]
  | .retFarImm _ n => 0xCA#8 :: wordBytes n
  | .inAlImm _ p => [0xE4#8, p]
  | .inAxImm _ p => [0xE5#8, p]
  | .inAlDx _ => [0xEC#8]
  | .inAxDx _ => [0xED#8]
  | .outImmAl _ p => [0xE6#8, p]
  | .outImmAx _ p => [0xE7#8, p]
  | .outDxAl _ => [0xEE#8]
  | .outDxAx _ => [0xEF#8]
  | .insb _ => [0x6C#8]
  | .insw _ => [0x6D#8]
  | .outsb _ => [0x6E#8]
  | .outsw _ => [0x6F#8]
  | .repPrefix _ t => t.bytes
  | .cli _ => [0xFA#8]
  | .sti _ => [0xFB#8]
  | .pushf _ => [0x9C#8]
  | .popf _ => [0x9D#8]
  | .int3 _ => [0xCC#8]
  | .intImm _ v => [0xCD#8, v]
  | .into _ => [0xCE#8]
  | .bound _ r m => 0x62#8 :: rmBytes r.bits m
  | .iret _ => [0xCF#8]
  | .esc _ op n rm => (27#5 ++ op : Byte) :: rmBytes n rm
  | .wait _ => [0x9B#8]
  | .lockPrefix _ t => t.bytes
  | .xchgByte _ rm r => 0x86#8 :: rm.bytes Reg8.bits r.bits
  | .xchg _ rm r => 0x87#8 :: rmBytes r.bits rm

/-- The bytes of an instruction: its prefixes, then the rest (R240). -/
def encode (i : Instr) : List Byte := i.ctx.prefixes.map Pfx.byte ++ i.opcodeBytes

/-- The bytes of a table row's instruction with the FIRST byte in the most significant byte of the word, as
spec/opcode_table.json writes its rows (log entry 42). -/
def bytesFirstHigh : Nat → Nat → List Byte
  | 0, _ => []
  | n + 1, w => BitVec.ofNat 8 (w / 256 ^ n) :: bytesFirstHigh n w

/-- The bytes with the first byte in the least significant byte of the word. -/
def bytesFirstLow : Nat → Nat → List Byte
  | 0, _ => []
  | n + 1, w => BitVec.ofNat 8 w :: bytesFirstLow n (w / 256)

/-- Whether some bytes, in a 16-bit segment, decode to an instruction that has at least so many bytes. -/
def decodesWhole (n : Nat) (bs : List Byte) : Bool :=
  match decode false bs with
  | .instr i => n ≤ i.ctx.len
  | _ => false

/-- The 15 bytes an instruction of the opcode table stands for, zeros above the bits the table gives it. The table
writes the first byte in the most significant place; a word that decodes only with the first byte in the least
significant place is taken that way (log entry 42). -/
def tableBytes (nbits w : Nat) : List Byte :=
  let n := (nbits + 7) / 8
  let hi := bytesFirstHigh n w ++ List.replicate (Config.maxLength - n) 0x00#8
  let lo := bytesFirstLow n w ++ List.replicate (Config.maxLength - n) 0x00#8
  if decodesWhole n hi then hi else if decodesWhole n lo then lo else hi

/-- The instruction the decoder reads from a row of the opcode table, in the 16-bit default size that holds after reset
(30_encoding.md R241). -/
def decodeTableWord (nbits w : Nat) : Option Instr :=
  match decode false (tableBytes nbits w) with
  | .instr i => some i
  | _ => none

end Sys2Proof
end

