-- ==== Sys2Proof/Machine/Coprocessor.lean ====
section
/-! DEFINITION. ESC and WAIT, and the processor's side of the coprocessor interface; the LOCK prefix; XCHG
(47_coprocessor_and_lock.md). -/

namespace Sys2Proof.Machine

/-- BUSY# as the processor sees it: inactive without a coprocessor (R587). -/
def State.busyPin (s : State) : Bool := s.params.copKind ≠ .none && s.pins.busy

/-- ERROR# as the processor sees it: inactive without a coprocessor (R587). -/
def State.errorPin (s : State) : Bool := s.params.copKind ≠ .none && s.pins.error

/-- What the coprocessor does with an ESC when nothing else is given (log entry 28): it reads a doubleword. -/
def CopReply.plain : CopReply := { testsError := false, length := 4, store := false, data := [] }

/-- What the coprocessor does with the next ESC (log entry 28). -/
def CopState.reply (k : CopState) : CopReply := (k.replies.head?).getD CopReply.plain

/-- The length of the memory operand: 1 to 108 bytes (R591). -/
def CopReply.size (r : CopReply) : Nat := min (max r.length 1) 108

/-- The coprocessor after it was handed an ESC. -/
def CopState.handOver (k : CopState) (e : CopEvent) : CopState := { replies := k.replies.tail, log := e :: k.log }

/-- The state after the coprocessor was handed an ESC. -/
def State.handOver (s : State) (e : CopEvent) : State := { s with cop := s.cop.handOver e }

/-- The addressing limit plus one of a segment (R590): 10000H for a small segment, 2^32 for a big one (log entry 29). -/
def SegReg.addressSpan (g : SegReg) : Nat :=
  if !g.attr.db && g.limit.toNat ≤ 65535 then 65536 else 4294967296

/-- The coprocessor segment overrun (R590, R591): an abort without an error code. -/
def overrun : Event := { vector := 0x09#8, kind := .abort, code := none }

/-- A check on the middle of a wrapped operand: its exception is the coprocessor segment overrun instead, and CR2 stays
(R590). -/
def asOverrun {α : Type} (m : M α) : M α := fun s =>
  match m s with
  | .error (.exc _) t => .error (.exc overrun) { t with ctl := s.ctl }
  | r => r

/-- The offset of a wrapped operand's k-th byte (R590). -/
def State.wrappedOff (s : State) (r : Sreg) (off k : Nat) : Dword :=
  BitVec.ofNat 32 ((off + k) % (s.seg.get r).addressSpan)

/-- The linear address of a wrapped operand's first byte in the page of its k-th byte (60_exceptions.md R776). -/
def State.wrappedPage (s : State) (r : Sreg) (off k : Nat) : Dword :=
  let la := fun j => s.linear r (s.wrappedOff r off j)
  la (((List.range k).find? fun j => pageOf (la j) = pageOf (la k)).getD k)

/-- The place of a wrapped operand's k-th byte, checked on its own (R590). Its page is translated at the operand's first byte
there, whose linear address a page fault leaves in CR2 (60_exceptions.md R776). -/
def wrappedByte (r : Sreg) (off k : Nat) (a : Access) : M Span := do
  let s ← getState
  let o := s.wrappedOff r off k
  let la := s.wrappedPage r off k
  segCheck r o 1 a
  let sp ← translate la 1 (a = .write) s.user
  noteAccess r o 1 a
  pure (Span.flat (sp.first + (s.linear r o - la)) 1)

/-- The places of n bytes of the middle of a wrapped operand, from its k-th on. -/
def wrappedMiddle (r : Sreg) (off : Nat) (a : Access) : Nat → Nat → M (List Span)
  | _, 0 => pure []
  | k, n + 1 => do
    let sp ← asOverrun (wrappedByte r off k a)
    let rest ← wrappedMiddle r off a (k + 1) n
    pure (sp :: rest)

/-- The places of an operand that wraps around the addressing limit (R590): the first and the last byte are validated
like any operand, the middle during the transfer. DESIGN CHOICE (log entry 29): the page of the first byte is translated before
the page of the last one, which at the addressing limit of a 64K segment lies at the lower linear address; R590 gives no order,
and 20_memory.md R186 (D10: lower linear address first) does not treat the wrap. -/
def wrappedSpans (r : Sreg) (off n : Nat) (a : Access) : M (List Span) := do
  let first ← wrappedByte r off 0 a
  let last ← wrappedByte r off (n - 1) a
  let middle ← wrappedMiddle r off a 1 (n - 2)
  pure (first :: (middle ++ [last]))

/-- Whether an operand of n bytes wraps around the addressing limit of its segment; this is a matter of protected mode
(R590). -/
def State.wraps (s : State) (r : Sreg) (off : Dword) (n : Nat) : Bool :=
  s.pe && (s.seg.get r).addressSpan < off.toNat + n && off.toNat < (s.seg.get r).addressSpan

/-- n bytes that the coprocessor stores: those given, then free values (log entry 28). -/
def copData : Nat → List Byte → M (List Byte)
  | 0, _ => pure []
  | n + 1, b :: r => do
    let rest ← copData n r
    pure (b :: rest)
  | n + 1, [] => do
    let f ← takeFree
    let rest ← copData n []
    pure (f.setWidth 8 :: rest)

/-- The bytes at places of one byte each. -/
def readEach (m : PhysMem) : List Span → List Byte
  | [] => []
  | sp :: r => Memory.read m (sp.addr 0) :: readEach m r

/-- Stores of one byte each. -/
def storeEach : List Span → List Byte → List Store
  | sp :: r, b :: bs => { span := sp, bytes := [b] } :: storeEach r bs
  | _, _ => []

/-- The memory operand of an ESC transferred (R585, R590): the bytes that crossed, and the stores. -/
def copTransfer (r : Sreg) (off : Dword) (reply : CopReply) : M (List Byte × List Store) := do
  let s ← getState
  let n := reply.size
  let a : Access := if reply.store then .write else .read
  if s.wraps r off n then do
    let sps ← wrappedSpans r off.toNat n a
    let s ← getState
    if reply.store then do
      let bs ← copData n reply.data
      pure (bs, storeEach sps bs)
    else pure (readEach s.mem sps, [])
  else do
    let sp ← operandSpan r off n a
    let s ← getState
    if reply.store then do
      let bs ← copData n reply.data
      pure (bs, [{ span := sp, bytes := bs }])
    else pure (Memory.readSpan s.mem sp 0 n, [])

/-- ESC (R585, R588): EM or TS raises #NM; a tested ERROR# raises #MF; then the opcode and the operand go to the
coprocessor. DESIGN CHOICE (log entry 28): no ESC, and so no register form, changes a general register, a flag or another
register of the processor; R585 does not say whether the coprocessor may deliver a value to one. -/
def escBody (c : Ctx) (op reg : BitVec 3) (rm : RM Reg) : M Completion := do
  let s ← getState
  require (!(s.em || s.ts)) raiseNM
  if s.params.copKind = .none then stop (.refusal .noCoprocessor)
  else do
    let reply := s.cop.reply
    require (!(reply.testsError && s.errorPin)) (raise 0x10#8)
    match rm with
    | .reg r => update fun t => (t.handOver { op := op, reg := reg, operand := .opcode r.bits }).advance c
    | .mem ea => do
      let seg := c.eaSegment ea
      let off := s.eaOffset ea
      let (bs, stores) ← copTransfer seg off reply
      update fun t =>
        ((t.storeAll stores).handOver { op := op, reg := reg, operand := .memory (s.seg.get seg).sel off bs }).advance c
    pure .plain

/-- ESC (R585). -/
def execEsc (c : Ctx) (op reg : BitVec 3) (rm : RM Reg) (s : State) : Host.Outcome State Fault Refusal :=
  runInstr (escBody c op reg rm) s

/-- WAIT (R586, R589): it waits while BUSY# is active, in steps of nothing (log entry 48). -/
def execWait (c : Ctx) (s : State) : Host.Outcome State Fault Refusal :=
  runInstr (do
    require (!(s.mp && s.ts)) raiseNM
    if s.busyPin then pure .waiting
    else do
      require (s.em || !s.errorPin) (raise 0x10#8)
      update fun t => t.advance c
      pure .plain) s

/-- XCHG of bytes (R603): a memory operand is checked as a write before it is read. -/
def xchgByteBody (c : Ctx) (rm : RM Reg8) (r : Reg8) : M Completion := do
  let s ← getState
  match rm with
  | .reg q => update fun t => ((t.setReg8 q (s.reg8 r)).setReg8 r (s.reg8 q)).advance c
  | .mem ea => do
    let sp ← operandSpan (c.eaSegment ea) (s.eaOffset ea) 1 .write
    let t ← getState
    let v := fromBytes (Memory.readSpan t.mem sp 0 1)
    update fun t => ((t.store { span := sp, bytes := [s.reg8 r] }).setReg8 r (v.setWidth 8)).advance c
  pure .plain

/-- XCHG of words or doublewords (R603). -/
def xchgBody (c : Ctx) (rm : RM Reg) (r : Reg) : M Completion := do
  let s ← getState
  let n := c.opBytes
  match rm with
  | .reg q => update fun t => ((t.setRegN q n (s.reg r)).setRegN r n (s.reg q)).advance c
  | .mem ea => do
    let sp ← operandSpan (c.eaSegment ea) (s.eaOffset ea) n .write
    let t ← getState
    let v := fromBytes (Memory.readSpan t.mem sp 0 n)
    update fun t => ((t.store { span := sp, bytes := toBytes n (s.reg r) }).setRegN r n v).advance c
  pure .plain

/-- XCHG r/m8, r8. -/
def execXchgByte (c : Ctx) (rm : RM Reg8) (r : Reg8) (s : State) : Host.Outcome State Fault Refusal :=
  runInstr (xchgByteBody c rm r) s

/-- XCHG r/m16/32, r16/32. -/
def execXchg (c : Ctx) (rm : RM Reg) (r : Reg) (s : State) : Host.Outcome State Fault Refusal :=
  runInstr (xchgBody c rm r) s

/-- LOCK before an opcode and its ModRM byte, which with the reg fields given is an instruction of R600's list other than
XCHG: with a memory destination LOCK may stand before it, and what it does is not in the spec (R600; 30_encoding.md R252; log
entry 11); with a register destination (D31), and with any other reg field, it is invalid. -/
def lockOther {α : Type} (fields : List (BitVec 3)) (opcode : List Byte) (modrm : Byte) : M α :=
  if fieldHi modrm ≠ 3#2 && fields.contains (fieldMid modrm) then stop (.refusal (.lockOutsideSpec (opcode ++ [modrm])))
  else raiseUD

/-- LOCK (R600): the exchange with memory runs; with a register destination, and before every instruction that is not in the
list, invalid opcodes and 90H to 97H included, it is invalid. -/
def execLockPrefix (c : Ctx) (t : LockTarget) (s : State) : Host.Outcome State Fault Refusal :=
  runInstr (do
    match t with
    | .xchgByte (.mem ea) r => xchgByteBody c (.mem ea) r
    | .xchgByte (.reg _) _ => raiseUD
    | .xchg (.mem ea) r => xchgBody c (.mem ea) r
    | .xchg (.reg _) _ => raiseUD
    | .oneByte _ => raiseUD
    | .twoByte _ => raiseUD
    | .oneByteRm op b => lockOther (lockFields op) [op] b
    | .twoByteRm op b => lockOther (lockFields2 op) [0x0F#8, op] b) s

end Sys2Proof.Machine
end

