-- ==== Sys2Proof/Machine/InputOutput.lean ====
section
/-! DEFINITION. IN, OUT, INS, OUTS, the repeat prefix with INS and OUTS, the I/O permission map; CLI, STI, PUSHF, POPF
(45_io.md). -/

namespace Sys2Proof.Machine

/-- The bits of the I/O permission map for n ports from one port on, tested in ascending order (R521, R523): the map's
offset in the TSS is `base`; a port past the TSS limit reads as a one bit (R524). -/
def ioMapBits (base : Nat) : Nat → Nat → M Unit
  | _, 0 => pure ()
  | port, n + 1 => do
    let s ← getState
    require (base + port / 8 ≤ s.tr.limit.toNat) (raiseGP 0x0000#16)
    let b ← sysRead (s.tr.base + BitVec.ofNat 32 (base + port / 8)) 1
    require (!b.getLsbD (port % 8)) (raiseGP 0x0000#16)
    ioMapBits base (port + 1) n

/-- IoPermit (R521): nothing in real-address mode or when CPL <= IOPL, else the I/O permission map of the current TSS. -/
def ioPermit (port : Word) (n : Nat) : M Unit := do
  let s ← getState
  if !s.pe then pure ()
  else if !s.flags.vm && s.cpl ≤ s.flags.iopl then pure ()
  else do
    require s.tr.valid (raiseGP 0x0000#16)
    let v ← sysRead (s.tr.base + 0x66#32) 2
    require (v.toNat < s.tr.limit.toNat) (raiseGP 0x0000#16)
    ioMapBits v.toNat port.toNat n

/-- The low n bytes of a value, n 1, 2 or 4. -/
def lowBytes (n : Nat) (v : Dword) : Dword := fromBytes (toBytes n v)

/-- The ports of an access lie in the I/O space (R510; 93_implementation_defined.md U13; log entry 27). -/
def ioSpace (port : Word) (n : Nat) : M Unit :=
  require (port.toNat + n ≤ 65536) (stop (.fault .portBeyondSpace))

/-- The state after an access to the I/O space. -/
def State.logIo (s : State) (e : IoEvent) : State := { s with io := { s.io with log := e :: s.io.log } }

/-- IoRead (R510): what the platform answers, or a free value when no answer is given (log entry 6). -/
def ioRead (port : Word) (n : Nat) : M Dword := do
  ioSpace port n
  let s ← getState
  let v ← match s.io.inputs with
    | d :: r => do
      update fun t => { t with io := { t.io with inputs := r } }
      pure (lowBytes n d)
    | [] => do
      let f ← takeFree
      pure (lowBytes n f)
  update fun t => t.logIo { write := false, port := port, size := n, value := v }
  pure v

/-- IoWrite (R510). -/
def ioWrite (port : Word) (n : Nat) (v : Dword) : M Unit := do
  ioSpace port n
  update fun t => t.logIo { write := true, port := port, size := n, value := lowBytes n v }

/-- The low n bytes of EAX replaced, n 1, 2 or 4: AL, AX or EAX (R511). -/
def State.setAcc (s : State) (n : Nat) (v : Dword) : State :=
  if n = 1 then s.setReg8 .al (v.setWidth 8) else s.setRegN .eax n v

/-- IN (R511). -/
def inBody (c : Ctx) (port : Word) (n : Nat) : M Completion := do
  ioPermit port n
  let v ← ioRead port n
  update fun t => (t.setAcc n v).advance c
  pure .plain

/-- OUT (R512). -/
def outBody (c : Ctx) (port : Word) (n : Nat) : M Completion := do
  ioPermit port n
  let s ← getState
  ioWrite port n s.gpr.eax
  update fun t => t.advance c
  pure .plain

/-- The port that DX names (R513). -/
def State.dx (s : State) : Word := lowWord s.gpr.edx

/-- A string register as an offset: all of it, or its low word with a 16-bit address size (R514). -/
def State.stringOff (s : State) (c : Ctx) (r : Reg) : Dword :=
  if c.addr32 then s.reg r else (lowWord (s.reg r)).setWidth 32

/-- A string or count register changed by some amount, within the address size (R514, R517). -/
def State.bumpReg (s : State) (c : Ctx) (r : Reg) (delta : Dword) : State :=
  if c.addr32 then s.setReg r (s.reg r + delta) else s.setReg16 r (lowWord (s.reg r) + lowWord delta)

/-- How far a string register moves: up by n, or down by n when DF is set (R514). -/
def State.stringStep (s : State) (n : Nat) : Dword :=
  if s.flags.df then 0x00000000#32 - BitVec.ofNat 32 n else BitVec.ofNat 32 n

/-- How virtual 8086 mode forms addresses is left out of the spec (60_exceptions.md R781). -/
def notVirtual : M Unit := do
  let s ← getState
  require (!s.flags.vm) (stop (.refusal .virtual8086))

/-- One INS step (R514): the destination is validated before the port is read. In virtual 8086 mode only the permission test
is stated (60_exceptions.md R781). -/
def insStep (c : Ctx) (n : Nat) : M Unit := do
  let s ← getState
  ioPermit s.dx n
  notVirtual
  let sp ← operandSpan .es (s.stringOff c .edi) n .write
  let v ← ioRead s.dx n
  update fun t => (t.store { span := sp, bytes := toBytes n v }).bumpReg c .edi (s.stringStep n)

/-- One OUTS step (R515), in virtual 8086 mode as for INS. -/
def outsStep (c : Ctx) (n : Nat) : M Unit := do
  let s ← getState
  ioPermit s.dx n
  notVirtual
  let v ← memRead (c.segment .ds) (s.stringOff c .esi) n
  ioWrite s.dx n v
  update fun t => t.bumpReg c .esi (s.stringStep n)

/-- A string instruction without a repeat prefix. -/
def stringOnce (c : Ctx) (stepOnce : M Unit) : M Completion := do
  stepOnce
  update fun t => t.advance c
  pure .plain

/-- The count of a repeated string instruction: ECX, or CX with a 16-bit address size (R517). -/
def State.repCount (s : State) (c : Ctx) : Nat := (s.stringOff c .ecx).toNat

/-- One iteration of a repeated string instruction (R517): nothing is executed when the count is 0; the instruction is
complete after the iteration that brings the count to 0, and before that EIP stays at its first prefix. -/
def repeated (c : Ctx) (stepOnce : M Unit) : M Completion := do
  let s ← getState
  if s.repCount c = 0 then do
    notVirtual
    update fun t => t.advance c
    pure .plain
  else do
    stepOnce
    update fun t => t.bumpReg c .ecx 0xFFFFFFFF#32
    if s.repCount c = 1 then do
      update fun t => t.advance c
      pure .plain
    else pure .iterating

/-- IN AL, imm8 (R511). -/
def execInAlImm (c : Ctx) (port : Byte) (s : State) : Host.Outcome State Fault Refusal :=
  runAnyMode (inBody c (port.setWidth 16) 1) s

/-- IN AX/EAX, imm8 (R511). -/
def execInAxImm (c : Ctx) (port : Byte) (s : State) : Host.Outcome State Fault Refusal :=
  runAnyMode (inBody c (port.setWidth 16) c.opBytes) s

/-- IN AL, DX (R511). -/
def execInAlDx (c : Ctx) (s : State) : Host.Outcome State Fault Refusal := runAnyMode (inBody c s.dx 1) s

/-- IN AX/EAX, DX (R511). -/
def execInAxDx (c : Ctx) (s : State) : Host.Outcome State Fault Refusal := runAnyMode (inBody c s.dx c.opBytes) s

/-- OUT imm8, AL (R512). -/
def execOutImmAl (c : Ctx) (port : Byte) (s : State) : Host.Outcome State Fault Refusal :=
  runAnyMode (outBody c (port.setWidth 16) 1) s

/-- OUT imm8, AX/EAX (R512). -/
def execOutImmAx (c : Ctx) (port : Byte) (s : State) : Host.Outcome State Fault Refusal :=
  runAnyMode (outBody c (port.setWidth 16) c.opBytes) s

/-- OUT DX, AL (R512). -/
def execOutDxAl (c : Ctx) (s : State) : Host.Outcome State Fault Refusal := runAnyMode (outBody c s.dx 1) s

/-- OUT DX, AX/EAX (R512). -/
def execOutDxAx (c : Ctx) (s : State) : Host.Outcome State Fault Refusal := runAnyMode (outBody c s.dx c.opBytes) s

/-- INSB (R514). -/
def execInsb (c : Ctx) (s : State) : Host.Outcome State Fault Refusal := runAnyMode (stringOnce c (insStep c 1)) s

/-- INSW and INSD (R514). -/
def execInsw (c : Ctx) (s : State) : Host.Outcome State Fault Refusal :=
  runAnyMode (stringOnce c (insStep c c.opBytes)) s

/-- OUTSB (R515). -/
def execOutsb (c : Ctx) (s : State) : Host.Outcome State Fault Refusal := runAnyMode (stringOnce c (outsStep c 1)) s

/-- OUTSW and OUTSD (R515). -/
def execOutsw (c : Ctx) (s : State) : Host.Outcome State Fault Refusal :=
  runAnyMode (stringOnce c (outsStep c c.opBytes)) s

/-- REP before INS or OUTS (R517), or before an opcode that the spec does not hold (log entry 10). -/
def execRepPrefix (c : Ctx) (t : RepTarget) (s : State) : Host.Outcome State Fault Refusal :=
  runAnyMode (do
    match t with
    | .insb => repeated c (insStep c 1)
    | .insw => repeated c (insStep c c.opBytes)
    | .outsb => repeated c (outsStep c 1)
    | .outsw => repeated c (outsStep c c.opBytes)
    | .other op => do
      notVirtual
      stop (.refusal (.repeatOutsideSpec op))) s

/-- CLI and STI are sensitive to IOPL in protected mode (R530, R531). -/
def ioplSensitive : M Unit := do
  let s ← getState
  require (!s.pe || s.cpl ≤ s.flags.iopl) (raiseGP 0x0000#16)

/-- CLI (R530). -/
def execCli (c : Ctx) (s : State) : Host.Outcome State Fault Refusal :=
  runInstr (do
    ioplSensitive
    update fun t => (t.setIf false).advance c
    pure .plain) s

/-- The state after an STI: the boundary that follows holds off INTR when IF was 0 (R531). -/
def State.enableInterrupts (s : State) : State :=
  { s.setIf true with run := { s.run with stiInhibit := s.run.stiInhibit || !s.flags.ifl } }

/-- STI (R531). -/
def execSti (c : Ctx) (s : State) : Host.Outcome State Fault Refusal :=
  runInstr (do
    ioplSensitive
    update fun t => t.enableInterrupts.advance c
    pure .plain) s

/-- What PUSHF pushes (R533): EFLAGS with VM and RF read as 0. -/
def EFlags.pushImage (f : EFlags) : Dword := f.pack &&& 0x00FCFFFF#32

/-- PUSHF and PUSHFD (R533). -/
def execPushf (c : Ctx) (s : State) : Host.Outcome State Fault Refusal :=
  runInstr (do
    let st ← stackPrepare c.opBytes (toBytes c.opBytes s.flags.pushImage)
    update fun t => ((t.store st).moveDown c.opBytes).advance c
    pure .plain) s

/-- POPF and POPFD (R534, R535). -/
def execPopf (c : Ctx) (s : State) : Host.Outcome State Fault Refusal :=
  runInstr (do
    let v ← stackRead 0 c.opBytes
    update fun t => loadFlags s c.opBytes v ((t.moveUp c.opBytes).advance c)
    pure .keepsRf) s

end Sys2Proof.Machine
end

