-- ==== Sys2Proof/Machine/Interrupts.lean ====
section
/-! DEFINITION. INT 3, INT n, INTO, BOUND, IRET (46_interrupt_instructions.md). -/

namespace Sys2Proof.Machine

/-- A software interrupt of any mode but virtual 8086 mode (R550; 60_exceptions.md R781). -/
def trapInstr (c : Ctx) (vector : Byte) (s : State) : Host.Outcome State Fault Refusal :=
  if s.flags.vm then .refused .virtual8086 else softwareInterrupt vector (s.advance c)

/-- INT 3 (R551). -/
def execInt3 (c : Ctx) (s : State) : Host.Outcome State Fault Refusal := trapInstr c 0x03#8 s

/-- INT n (R550). -/
def execIntImm (c : Ctx) (v : Byte) (s : State) : Host.Outcome State Fault Refusal := trapInstr c v s

/-- INTO (R552): INT 4 when OF is set, and nothing otherwise. -/
def execInto (c : Ctx) (s : State) : Host.Outcome State Fault Refusal :=
  if s.flags.ovf then trapInstr c 0x04#8 s
  else runInstr (do
    update fun t => t.advance c
    pure .plain) s

/-- A value of n bytes as a signed number, n 2 or 4. -/
def signedOf (n : Nat) (v : Dword) : Int := if n = 2 then (lowWord v).toInt else v.toInt

/-- BOUND (R553): lower bound, then upper bound, both inclusive; #BR outside; a register operand is invalid. -/
def execBound (c : Ctx) (r : Reg) (m : RM Reg) (s : State) : Host.Outcome State Fault Refusal :=
  runInstr (do
    match m with
    | .reg _ => raiseUD
    | .mem ea => do
      let n := c.opBytes
      let a := s.eaOffset ea
      let lo ← memRead (c.eaSegment ea) a n
      let hi ← memReadAbove (c.eaSegment ea) a n n
      let v := signedOf n (s.reg r)
      require (signedOf n lo ≤ v && v ≤ signedOf n hi) (raise 0x05#8)
      update fun t => t.advance c
      pure .plain) s

/-- IRET and IRETD (R560 to R565). -/
def execIret (c : Ctx) (s : State) : Host.Outcome State Fault Refusal :=
  runInstr (do
    returnFromInterrupt c.opBytes (s.nextPc c)
    pure .keepsRf) s

end Sys2Proof.Machine
end

