-- ==== Sys2Proof/Machine/PointerValidation.lean ====
section
/-! DEFINITION. ARPL, LAR, LSL, VERR, VERW (42_pointer_validation.md). -/

namespace Sys2Proof.Machine

/-- Visible (R383): the descriptor a selector names, if the current level may see it. -/
def visible (sel : Word) : M (Option Descriptor) := do
  if selNull sel then pure none
  else do
    let s ← getState
    let d ← readDescriptor sel
    match d with
    | none => pure none
    | some d =>
      if d.attr.conforming then pure (some d)
      else if d.dpl < s.cpl || d.dpl < selRpl sel then pure none
      else pure (some d)

/-- The accessed bit after a successful selector test (R381): set when the parameter SELECTOR_TEST_SETS_A says so. -/
def testMarks (d : Descriptor) : M (List Store) := do
  let s ← getState
  if s.params.selectorTestSetsA && d.attr.s then markAccessed d else pure []

/-- The system types LAR accepts (R384): all but the reserved 0, 8, AH, DH. -/
def larValid (d : Descriptor) : Bool :=
  d.attr.s || !(d.attr.typ = 0x0#4 || d.attr.typ = 0x8#4 || d.attr.typ = 0xA#4 || d.attr.typ = 0xD#4)

/-- The system types LSL accepts (R386, Table 6-4): 1, 2, 3, 9, BH. -/
def lslValid (d : Descriptor) : Bool :=
  d.attr.s || d.attr.typ = 0x1#4 || d.attr.typ = 0x2#4 || d.attr.typ = 0x3#4 || d.attr.typ = 0x9#4 || d.attr.typ = 0xB#4

/-- What LAR stores (R384): the second doubleword masked, its bits 19:16 undefined. Bit 21 of a segment descriptor reads 0
(93_implementation_defined.md U5). DESIGN CHOICE (log entry 18): so does bit 21 of a gate, which is bit 21 of its offset: the
mask of R384's quotation and pseudocode keeps the bit, and its result layout has a 0 there. -/
def larValue (d : Descriptor) (free : Dword) : Dword :=
  (d.hi &&& 0x00D0FF00#32) ||| (free &&& 0x000F0000#32)

/-- ARPL (R382): the destination's write access is checked before it is read. DESIGN CHOICE (log entry 53): a memory operand
is translated as a write (20_memory.md R176), so the dirty bit of its page is set even where the RPL is not raised and
nothing is written. -/
def arplBody (c : Ctx) (dst : RM Reg) (src : Reg) : M Completion := do
  protectedOnly
  let s ← getState
  let rpl := selRpl (lowWord (s.reg src))
  match dst with
  | .reg r => do
    let d := lowWord (s.reg r)
    if selRpl d < rpl then update fun t => ((t.setReg16 r (withRpl d rpl)).setZf true).advance c
    else update fun t => (t.setZf false).advance c
  | .mem ea => do
    let seg := c.eaSegment ea
    let off := s.eaOffset ea
    let sp ← checkedSpan seg off 2 .write
    noteAccess seg off 2 .read
    let s ← getState
    let d := lowWord (fromBytes (Memory.readSpan s.mem sp 0 2))
    if selRpl d < rpl then do
      noteAccess seg off 2 .write
      update fun t => ((t.put (.mem sp) 2 ((withRpl d rpl).setWidth 32)).setZf true).advance c
    else update fun t => (t.setZf false).advance c
  pure .plain

/-- LAR and LSL (R384, R386): the test, the value, and the destination register. R384 says of LAR alone that a 16-bit operand
size stores the low word; DESIGN CHOICE (log entry 13): LSL does so too. -/
def rightsBody (c : Ctx) (dst : Reg) (src : RM Reg) (valid : Descriptor → Bool) (value : Descriptor → M Dword) :
    M Completion := do
  protectedOnly
  let sel ← rmRead16 c src
  let r ← visible sel
  match r with
  | none => update fun t => (t.setZf false).advance c
  | some d =>
    if valid d then do
      let marks ← testMarks d
      let v ← value d
      update fun t => (((t.storeAll marks).setRegN dst c.opBytes v).setZf true).advance c
    else update fun t => (t.setZf false).advance c
  pure .plain

/-- VERR and VERW (R388, R389). -/
def verifyBody (c : Ctx) (src : RM Reg) (ok : Descriptor → Bool) : M Completion := do
  protectedOnly
  let sel ← rmRead16 c src
  let r ← visible sel
  match r with
  | none => update fun t => (t.setZf false).advance c
  | some d =>
    if ok d then do
      let marks ← testMarks d
      update fun t => ((t.storeAll marks).setZf true).advance c
    else update fun t => (t.setZf false).advance c
  pure .plain

/-- ARPL (R382). -/
def execArpl (c : Ctx) (dst : RM Reg) (src : Reg) (s : State) : Host.Outcome State Fault Refusal :=
  runInstr (arplBody c dst src) s

/-- LAR (R384); bits 19:16 are a free value (log entry 18). -/
def execLar (c : Ctx) (dst : Reg) (src : RM Reg) (s : State) : Host.Outcome State Fault Refusal :=
  runInstr (rightsBody c dst src larValid fun d => do
    let f ← takeFree
    pure (larValue d f)) s

/-- LSL (R386). -/
def execLsl (c : Ctx) (dst : Reg) (src : RM Reg) (s : State) : Host.Outcome State Fault Refusal :=
  runInstr (rightsBody c dst src lslValid fun d => pure d.limit) s

/-- VERR (R388). -/
def execVerr (c : Ctx) (src : RM Reg) (s : State) : Host.Outcome State Fault Refusal :=
  runInstr (verifyBody c src fun d => d.attr.readable) s

/-- VERW (R389). -/
def execVerw (c : Ctx) (src : RM Reg) (s : State) : Host.Outcome State Fault Refusal :=
  runInstr (verifyBody c src fun d => d.attr.writable) s

end Sys2Proof.Machine
end

