-- ==== Sys2Proof/Machine/SegmentLoads.lean ====
section
/-! DEFINITION. MOV to and from a segment register, PUSH and POP of one, LDS, LES, LSS, LFS, LGS
(40_protection_and_segment_loads.md R297 to R299). -/

namespace Sys2Proof.Machine

/-- The segment register a reg field names (30_encoding.md R242); 6 and 7 name none. -/
def sregOf (n : BitVec 3) : Option Sreg :=
  match n with
  | 0#3 => some .es
  | 1#3 => some .cs
  | 2#3 => some .ss
  | 3#3 => some .ds
  | 4#3 => some .fs
  | 5#3 => some .gs
  | _ => none

/-- The boundary after a MOV or POP to SS holds off interrupts and debug events (60_exceptions.md R703). -/
def State.inhibitAfter (s : State) (r : Sreg) : State :=
  if r = .ss then { s with run := { s.run with ssInhibit := true } } else s

/-- MOV Sreg, r/m16 (R297): CS and the numbers without a register are invalid. -/
def execMovToSreg (c : Ctx) (n : BitVec 3) (src : RM Reg) (s : State) : Host.Outcome State Fault Refusal :=
  runInstr (do
    match sregOf n with
    | none => raiseUD
    | some .cs => raiseUD
    | some r => do
      let sel ← rmRead16 c src
      let l ← loadSeg r sel
      update fun t => ((t.load l).inhibitAfter r).advance c
      pure .plain) s

/-- MOV r/m16, Sreg (R299): a word in memory; in a 32-bit register destination the high word is undefined, a free value
(93_implementation_defined.md U7; log entry 17). DESIGN CHOICE (log entry 23): the reg fields 6 and 7, for which R299 names
no exception, raise #UD. -/
def execMovFromSreg (c : Ctx) (dst : RM Reg) (n : BitVec 3) (s : State) : Host.Outcome State Fault Refusal :=
  runInstr (do
    match sregOf n with
    | none => raiseUD
    | some r => do
      let sel := (s.seg.get r).sel
      let p ← rmPlace c dst 2
      match p with
      | .mem sp => update fun t => (t.put (.mem sp) 2 (sel.setWidth 32)).advance c
      | .reg q =>
        if c.op32 then do
          let f ← takeFree
          update fun t => (t.setReg q (withLowWord f sel)).advance c
        else update fun t => (t.setReg16 q sel).advance c
      pure .plain) s

/-- PUSH of a segment register (R299). -/
def pushSreg (c : Ctx) (r : Sreg) : M Completion := do
  let s ← getState
  let sp ← operandSpan .ss (s.stackBelow c.opBytes) c.opBytes .write
  let slot ← selectorSlot c.opBytes (s.seg.get r).sel
  update fun t => ((t.store { span := sp, bytes := slot }).moveDown c.opBytes).advance c
  pure .plain

/-- POP of a segment register (R298). -/
def popSreg (c : Ctx) (r : Sreg) : M Completion := do
  let v ← stackRead 0 c.opBytes
  let l ← loadSeg r (lowWord v)
  update fun t => (((t.load l).moveUp c.opBytes).inhibitAfter r).advance c
  pure .plain

/-- LDS, LES, LSS, LFS and LGS (R298): the offset lies below the selector; a register operand is invalid. -/
def loadPointer (c : Ctx) (r : Sreg) (dst : Reg) (src : RM Reg) : M Completion := do
  match src with
  | .reg _ => raiseUD
  | .mem ea => do
    let s ← getState
    let seg := c.eaSegment ea
    let a := s.eaOffset ea
    let off ← memRead seg a c.opBytes
    let v ← memReadAbove seg a c.opBytes 2
    let l ← loadSeg r (lowWord v)
    update fun t => ((t.load l).setRegN dst c.opBytes off).advance c
    pure .plain

/-- PUSH ES. -/
def execPushEs (c : Ctx) (s : State) : Host.Outcome State Fault Refusal := runInstr (pushSreg c .es) s

/-- PUSH CS. -/
def execPushCs (c : Ctx) (s : State) : Host.Outcome State Fault Refusal := runInstr (pushSreg c .cs) s

/-- PUSH SS. -/
def execPushSs (c : Ctx) (s : State) : Host.Outcome State Fault Refusal := runInstr (pushSreg c .ss) s

/-- PUSH DS. -/
def execPushDs (c : Ctx) (s : State) : Host.Outcome State Fault Refusal := runInstr (pushSreg c .ds) s

/-- PUSH FS. -/
def execPushFs (c : Ctx) (s : State) : Host.Outcome State Fault Refusal := runInstr (pushSreg c .fs) s

/-- PUSH GS. -/
def execPushGs (c : Ctx) (s : State) : Host.Outcome State Fault Refusal := runInstr (pushSreg c .gs) s

/-- POP ES. -/
def execPopEs (c : Ctx) (s : State) : Host.Outcome State Fault Refusal := runInstr (popSreg c .es) s

/-- POP SS. -/
def execPopSs (c : Ctx) (s : State) : Host.Outcome State Fault Refusal := runInstr (popSreg c .ss) s

/-- POP DS. -/
def execPopDs (c : Ctx) (s : State) : Host.Outcome State Fault Refusal := runInstr (popSreg c .ds) s

/-- POP FS. -/
def execPopFs (c : Ctx) (s : State) : Host.Outcome State Fault Refusal := runInstr (popSreg c .fs) s

/-- POP GS. -/
def execPopGs (c : Ctx) (s : State) : Host.Outcome State Fault Refusal := runInstr (popSreg c .gs) s

/-- LDS. -/
def execLds (c : Ctx) (dst : Reg) (src : RM Reg) (s : State) : Host.Outcome State Fault Refusal :=
  runInstr (loadPointer c .ds dst src) s

/-- LES. -/
def execLes (c : Ctx) (dst : Reg) (src : RM Reg) (s : State) : Host.Outcome State Fault Refusal :=
  runInstr (loadPointer c .es dst src) s

/-- LSS; it does not hold off the next boundary (60_exceptions.md R703). -/
def execLss (c : Ctx) (dst : Reg) (src : RM Reg) (s : State) : Host.Outcome State Fault Refusal :=
  runInstr (loadPointer c .ss dst src) s

/-- LFS. -/
def execLfs (c : Ctx) (dst : Reg) (src : RM Reg) (s : State) : Host.Outcome State Fault Refusal :=
  runInstr (loadPointer c .fs dst src) s

/-- LGS. -/
def execLgs (c : Ctx) (dst : Reg) (src : RM Reg) (s : State) : Host.Outcome State Fault Refusal :=
  runInstr (loadPointer c .gs dst src) s

end Sys2Proof.Machine
end

