-- ==== Sys2Proof/Machine/SystemRegisters.lean ====
section
/-! DEFINITION. SLDT, STR, LLDT, LTR, SGDT, SIDT, LGDT, LIDT, SMSW, LMSW, CLTS, MOV to and from CRn, DRn and TRn, HLT
(43_system_registers.md), with the TLB commands of TR6 (49_tlb_test.md). -/

namespace Sys2Proof.Machine

/-- A selector stored into a register-or-memory destination: a word in memory; in a register the low word, and with a
32-bit operand size an undefined high word, a free value (93_implementation_defined.md U7; log entry 17). -/
def storeSelector (c : Ctx) (dst : RM Reg) (sel : Word) : M Unit := do
  let p ← rmPlace c dst 2
  match p with
  | .mem sp => update fun t => t.put (.mem sp) 2 (sel.setWidth 32)
  | .reg r =>
    if c.op32 then do
      let f ← takeFree
      update fun t => t.setReg r (withLowWord f sel)
    else update fun t => t.setReg16 r sel

/-- SLDT (R405). -/
def execSldt (c : Ctx) (dst : RM Reg) (s : State) : Host.Outcome State Fault Refusal :=
  runInstr (do
    protectedOnly
    storeSelector c dst s.ldtr.sel
    update fun t => t.advance c
    pure .plain) s

/-- STR (R407). -/
def execStr (c : Ctx) (dst : RM Reg) (s : State) : Host.Outcome State Fault Refusal :=
  runInstr (do
    protectedOnly
    storeSelector c dst s.tr.sel
    update fun t => t.advance c
    pure .plain) s

/-- The checks of LLDT on a selector (R404): LDTR as it will be. -/
def loadLdt (sel : Word) : M SystemSeg := do
  let s ← getState
  let e := selErr sel false
  if selNull sel then pure { s.ldtr with sel := sel, valid := false }
  else do
    require (!selTi sel) (raiseGP e)
    let d ← needDescriptor sel (raiseGP e)
    require (d.kind = 0b00010#5) (raiseGP e)
    require d.present (raiseNP e)
    pure { sel := sel, base := d.base, limit := d.limit, valid := true }

/-- LLDT (R404). -/
def execLldt (c : Ctx) (src : RM Reg) (s : State) : Host.Outcome State Fault Refusal :=
  runInstr (do
    protectedOnly
    privileged
    let sel ← rmRead16 c src
    let l ← loadLdt sel
    update fun t => { t with ldtr := l }.advance c
    pure .plain) s

/-- The checks of LTR on a selector (R406): TR as it will be, and the store that marks the descriptor busy. -/
def loadTr (sel : Word) : M (SystemSeg × Store) := do
  let e := selErr sel false
  require (!selNull sel) (raiseGP 0x0000#16)
  require (!selTi sel) (raiseGP e)
  let d ← needDescriptor sel (raiseGP e)
  if d.kind = 0b00001#5 || d.kind = 0b00011#5 then stop (.refusal .descriptor286)
  else do
    require (d.kind = 0b01001#5) (raiseGP e)
    require d.present (raiseNP e)
    let st ← sysPrepare (d.addr + 4#32) (toBytes 4 (d.hi ||| 0x00000200#32))
    pure ({ sel := sel, base := d.base, limit := d.limit, valid := true }, st)

/-- LTR (R406). -/
def execLtr (c : Ctx) (src : RM Reg) (s : State) : Host.Outcome State Fault Refusal :=
  runInstr (do
    protectedOnly
    privileged
    let sel ← rmRead16 c src
    let (tr, busy) ← loadTr sel
    update fun t => { t.store busy with tr := tr }.advance c
    pure .plain) s

/-- A descriptor-table register stored as six bytes: the limit, then the base (R401, R403; 60_exceptions.md R711); a
register operand is invalid (30_encoding.md R250). -/
def storeTable (c : Ctx) (dst : RM Reg) (t : TableReg) : M Completion := do
  match dst with
  | .reg _ => raiseUD
  | .mem ea => do
    let s ← getState
    let seg := c.eaSegment ea
    let off := s.eaOffset ea
    let a ← memPrepare seg off (toBytes 2 (t.limit.setWidth 32))
    let above ← offsetAbove seg off 2
    let b ← memPrepare seg above (toBytes 4 t.base)
    update fun u => (u.storeAll [a, b]).advance c
    pure .plain

/-- A descriptor-table register's six bytes read (R400, R402): with a 16-bit operand size only 24 bits of the base. -/
def readTable (c : Ctx) (src : RM Reg) : M TableReg := do
  match src with
  | .reg _ => raiseUD
  | .mem ea => do
    let s ← getState
    let seg := c.eaSegment ea
    let off := s.eaOffset ea
    let l ← memRead seg off 2
    let b ← memReadAbove seg off 2 4
    pure { base := if c.op32 then b else b &&& 0x00FFFFFF#32, limit := lowWord l }

/-- SGDT (R401). -/
def execSgdt (c : Ctx) (dst : RM Reg) (s : State) : Host.Outcome State Fault Refusal :=
  runInstr (storeTable c dst s.gdtr) s

/-- SIDT (R403). -/
def execSidt (c : Ctx) (dst : RM Reg) (s : State) : Host.Outcome State Fault Refusal :=
  runInstr (storeTable c dst s.idtr) s

/-- LGDT (R400). -/
def execLgdt (c : Ctx) (src : RM Reg) (s : State) : Host.Outcome State Fault Refusal :=
  runInstr (do
    privileged
    let g ← readTable c src
    update fun t => { t with gdtr := g }.advance c
    pure .plain) s

/-- LIDT (R402). -/
def execLidt (c : Ctx) (src : RM Reg) (s : State) : Host.Outcome State Fault Refusal :=
  runInstr (do
    privileged
    let g ← readTable c src
    update fun t => { t with idtr := g }.advance c
    pure .plain) s

/-- SMSW (R417): CR0[15:0]. -/
def execSmsw (c : Ctx) (dst : RM Reg) (s : State) : Host.Outcome State Fault Refusal :=
  runInstr (do
    let p ← rmPlace c dst 2
    update fun t => (t.put p 2 ((lowWord s.ctl.cr0).setWidth 32)).advance c
    pure .plain) s

/-- CR0 after LMSW (R416): MP, EM and TS as given, PE set if given, the rest as it is. -/
def lmswValue (cr0 : Dword) (v : Word) : Dword := (cr0 &&& 0xFFFFFFF1#32) ||| (v.setWidth 32 &&& 0x0000000F#32)

/-- LMSW (R416). -/
def execLmsw (c : Ctx) (src : RM Reg) (s : State) : Host.Outcome State Fault Refusal :=
  runInstr (do
    privileged
    let v ← rmRead16 c src
    update fun t => { t with ctl := { t.ctl with cr0 := lmswValue t.ctl.cr0 v } }.advance c
    pure .plain) s

/-- CLTS (R418). -/
def execClts (c : Ctx) (s : State) : Host.Outcome State Fault Refusal :=
  runInstr (do
    privileged
    update fun t => { t with ctl := { t.ctl with cr0 := t.ctl.cr0 &&& 0xFFFFFFF7#32 } }.advance c
    pure .plain) s

/-- The control register a number names; the other numbers are invalid operands (R410; 93_implementation_defined.md
U4). -/
def readControl (n : BitVec 3) : M Dword := do
  let s ← getState
  match n with
  | 0#3 => pure s.ctl.cr0
  | 2#3 => pure s.ctl.cr2
  | 3#3 => pure s.ctl.cr3
  | _ => raiseUD

/-- MOV from CRn (R410). -/
def execMovFromCr (c : Ctx) (dst : Reg) (n : BitVec 3) (s : State) : Host.Outcome State Fault Refusal :=
  runInstr (do
    privileged
    let v ← readControl n
    update fun t => (t.setReg dst v).advance c
    pure .plain) s

/-- A write of a control register (R411): PG = 1 with PE = 0 is #GP(0); CR3 flushes the TLB (20_memory.md R201). -/
def writeControl (n : BitVec 3) (v : Dword) : M Unit :=
  match n with
  | 0#3 => do
    require (!(v.getLsbD 31 && !v.getLsbD 0)) (raiseGP 0x0000#16)
    update fun t => { t with ctl := { t.ctl with cr0 := v } }
  | 2#3 => update fun t => { t with ctl := { t.ctl with cr2 := v } }
  | 3#3 => update fun t => { t with ctl := { t.ctl with cr3 := v }, tlb := t.tlb.flush }
  | _ => raiseUD

/-- MOV to CRn (R411). -/
def execMovToCr (c : Ctx) (n : BitVec 3) (src : Reg) (s : State) : Host.Outcome State Fault Refusal :=
  runInstr (do
    privileged
    writeControl n (s.reg src)
    update fun t => t.advance c
    pure .plain) s

/-- The general detect fault (48_debug.md R648): when in-circuit emulation owns the debug registers, a MOV to or from one
of them sets BD of DR6, and every Bn whose condition the instruction meets (R630), and raises #DB; with RF set it does not
(R650). The boundary lets it come before NMI and INTR (R645). DESIGN CHOICE (log entry 51): the boundary after a MOV or POP
to SS does not hold it off, as R660 names only the pending traps and the instruction breakpoints. -/
def generalDetect : M Unit := do
  let s ← getState
  if s.params.iceInUse && !s.flags.rf then do
    update fun t => { t with dbg := { t.dbg with dr6 := t.dbg.dr6 ||| dr6BD ||| s.codeOccurred.setWidth 32 } }
    raise 0x01#8
  else pure ()

/-- The debug register a number names (R412); DR4 and DR5 are reserved (48_debug.md R629; 93_implementation_defined.md
U12; log entry 26). -/
def readDebug (n : BitVec 3) : M Dword := do
  let s ← getState
  match n with
  | 0#3 => pure s.dbg.dr0
  | 1#3 => pure s.dbg.dr1
  | 2#3 => pure s.dbg.dr2
  | 3#3 => pure s.dbg.dr3
  | 6#3 => pure s.dbg.dr6
  | 7#3 => pure s.dbg.dr7
  | _ => stop (.refusal .reservedDebugRegister)

/-- A write of a debug register (R413). -/
def writeDebug (n : BitVec 3) (v : Dword) : M Unit :=
  match n with
  | 0#3 => update fun t => { t with dbg := { t.dbg with dr0 := v } }
  | 1#3 => update fun t => { t with dbg := { t.dbg with dr1 := v } }
  | 2#3 => update fun t => { t with dbg := { t.dbg with dr2 := v } }
  | 3#3 => update fun t => { t with dbg := { t.dbg with dr3 := v } }
  | 6#3 => update fun t => { t with dbg := { t.dbg with dr6 := v } }
  | 7#3 => update fun t => { t with dbg := { t.dbg with dr7 := v } }
  | _ => stop (.refusal .reservedDebugRegister)

/-- MOV from DRn (R412). -/
def execMovFromDr (c : Ctx) (dst : Reg) (n : BitVec 3) (s : State) : Host.Outcome State Fault Refusal :=
  runInstr (do
    privileged
    generalDetect
    let v ← readDebug n
    update fun t => (t.setReg dst v).advance c
    pure .plain) s

/-- MOV to DRn (R413). -/
def execMovToDr (c : Ctx) (n : BitVec 3) (src : Reg) (s : State) : Host.Outcome State Fault Refusal :=
  runInstr (do
    privileged
    generalDetect
    writeDebug n (s.reg src)
    update fun t => t.advance c
    pure .plain) s

/-- MOV from TRn (R414); numbers other than 6 and 7 are invalid operands (93_implementation_defined.md U4). -/
def execMovFromTr (c : Ctx) (dst : Reg) (n : BitVec 3) (s : State) : Host.Outcome State Fault Refusal :=
  runInstr (do
    privileged
    require (n = 6#3 || n = 7#3) raiseUD
    update fun t => (t.setReg dst (if n = 6#3 then t.tlb.tr6 else t.tlb.tr7)).advance c
    pure .plain) s

/-- The value a bit pair gives a bit of an entry that is written (49_tlb_test.md R675): undefined for 00 and 11, a free
value (log entry 33). -/
def pairValue (x nx : Bool) : M Bool :=
  if x != nx then pure x
  else do
    let f ← takeFree
    pure (f.getLsbD 0)

/-- The TLB write command (49_tlb_test.md R676). -/
def tlbWrite (v : Dword) : M Unit := do
  let s ← getState
  if !s.tlb.tr7.getLsbD 4 then stop (.fault .tlbWriteWithoutHit)
  else do
    let d ← pairValue (v.getLsbD 10) (v.getLsbD 9)
    let u ← pairValue (v.getLsbD 8) (v.getLsbD 7)
    let w ← pairValue (v.getLsbD 6) (v.getLsbD 5)
    let e : TlbEntry := { known := true, v := v.getLsbD 11, la := pageOf v, d := d, u := u, w := w,
                          pa := s.tlb.tr7.extractLsb' 12 20 }
    update fun t => { t with tlb :=
      { t.tlb.setEntry (s.tlb.tr7.extractLsb' 2 2).toNat (tlbIndex (pageOf v)) e with tr6 := v } }

/-- Whether a bit pair of a lookup request is one Table 10-1 defines (49_tlb_test.md R675). -/
def pairDefined (x nx : Bool) : Bool := x != nx

/-- Whether an entry meets a lookup request (49_tlb_test.md R677). -/
def TlbEntry.meets (e : TlbEntry) (v : Dword) : Bool :=
  e.la = pageOf v && e.v = v.getLsbD 11 && e.d = v.getLsbD 10 && e.u = v.getLsbD 8 && e.w = v.getLsbD 6

/-- Whether the spec gives a lookup request no result: an undefined bit pair, V = 0 while some entry was never assigned, or
two valid entries for the address, whatever their D, U and W (49_tlb_test.md R675 to R677; 93_implementation_defined.md
U21). -/
def lookupUndefined (t : Tlb) (v : Dword) : Bool :=
  !(pairDefined (v.getLsbD 10) (v.getLsbD 9) && pairDefined (v.getLsbD 8) (v.getLsbD 7)
      && pairDefined (v.getLsbD 6) (v.getLsbD 5))
    || (!v.getLsbD 11 && t.entries.toList.any fun e => !e.known)
    || 2 ≤ (t.hits (pageOf v)).length

/-- TR7 with another physical address, HT and REP; its reserved bits as they are. -/
def tr7With (old : Dword) (pa : BitVec 20) (ht : Bool) (rep : BitVec 2) : Dword :=
  pa ++ old.extractLsb' 5 7 ++ BitVec.ofBool ht ++ rep ++ old.extractLsb' 0 2

/-- TR6 after a hit: V and the pairs from the entry (49_tlb_test.md R677). -/
def tr6Hit (v : Dword) (e : TlbEntry) : Dword :=
  v.extractLsb' 12 20 ++ BitVec.ofBool e.v ++ BitVec.ofBool e.d ++ BitVec.ofBool (!e.d) ++ BitVec.ofBool e.u
    ++ BitVec.ofBool (!e.u) ++ BitVec.ofBool e.w ++ BitVec.ofBool (!e.w) ++ v.extractLsb' 0 5

/-- The TLB lookup command (49_tlb_test.md R677): one match is reported; no match clears HT and leaves the rest of TR7
undefined; what the spec leaves undefined altogether gives free values in every result field (log entry 33). -/
def tlbLookup (v : Dword) : M Unit := do
  let s ← getState
  let i := tlbIndex (pageOf v)
  let hits := [0, 1, 2, 3].filter fun b => (s.tlb.entry b i).meets v
  if lookupUndefined s.tlb v then undefinedLookup
  else
    match hits with
    | [b] =>
      let e := s.tlb.entry b i
      update fun t => { t with tlb :=
        { t.tlb with tr6 := tr6Hit v e, tr7 := tr7With t.tlb.tr7 e.pa true (BitVec.ofNat 2 b) } }
    | [] => do
      let f ← takeFree
      update fun t => { t with tlb :=
        { t.tlb with tr6 := v, tr7 := tr7With t.tlb.tr7 (f.extractLsb' 12 20) false (f.extractLsb' 2 2) } }
    | _ => undefinedLookup
where
  undefinedLookup : M Unit := do
    let f ← takeFree
    let g ← takeFree
    update fun t => { t with tlb :=
      { t.tlb with
        tr6 := v.extractLsb' 12 20 ++ g.extractLsb' 5 7 ++ v.extractLsb' 0 5
        tr7 := tr7With t.tlb.tr7 (f.extractLsb' 12 20) (f.getLsbD 4) (f.extractLsb' 2 2) } }

/-- A write of a test register (R415): TR7 only stores, TR6 performs the command its bit 0 names. -/
def writeTest (n : BitVec 3) (v : Dword) : M Unit :=
  match n with
  | 6#3 => if v.getLsbD 0 then tlbLookup v else tlbWrite v
  | 7#3 => update fun t => { t with tlb := { t.tlb with tr7 := v } }
  | _ => raiseUD

/-- MOV to TRn (R415). -/
def execMovToTr (c : Ctx) (n : BitVec 3) (src : Reg) (s : State) : Host.Outcome State Fault Refusal :=
  runInstr (do
    privileged
    writeTest n (s.reg src)
    update fun t => t.advance c
    pure .plain) s

/-- HLT (R420). -/
def execHlt (c : Ctx) (s : State) : Host.Outcome State Fault Refusal :=
  runInstr (do
    privileged
    update fun t => { t with run := { t.run with runState := .halted } }.advance c
    pure .plain) s

end Sys2Proof.Machine
end

