-- ==== Sys2Proof/Machine/Dispatch.lean ====
section
/-! DEFINITION. The meaning of every instruction of spec/opcode_table.json, one arm per row. -/

namespace Sys2Proof.Machine

/-- What an instruction does to the machine (60_exceptions.md R706). -/
def exec (i : Instr) (s : State) : Host.Outcome State Fault Refusal :=
  match i with
  | .arpl c dst src => Sys2Proof.Machine.execArpl c dst src s
  | .lar c dst src => Sys2Proof.Machine.execLar c dst src s
  | .lsl c dst src => Sys2Proof.Machine.execLsl c dst src s
  | .verr c src => Sys2Proof.Machine.execVerr c src s
  | .verw c src => Sys2Proof.Machine.execVerw c src s
  | .sldt c dst => Sys2Proof.Machine.execSldt c dst s
  | .str c dst => Sys2Proof.Machine.execStr c dst s
  | .lldt c src => Sys2Proof.Machine.execLldt c src s
  | .ltr c src => Sys2Proof.Machine.execLtr c src s
  | .sgdt c dst => Sys2Proof.Machine.execSgdt c dst s
  | .sidt c dst => Sys2Proof.Machine.execSidt c dst s
  | .lgdt c src => Sys2Proof.Machine.execLgdt c src s
  | .lidt c src => Sys2Proof.Machine.execLidt c src s
  | .smsw c dst => Sys2Proof.Machine.execSmsw c dst s
  | .lmsw c src => Sys2Proof.Machine.execLmsw c src s
  | .clts c => Sys2Proof.Machine.execClts c s
  | .movFromCr c dst n _ => Sys2Proof.Machine.execMovFromCr c dst n s
  | .movFromDr c dst n _ => Sys2Proof.Machine.execMovFromDr c dst n s
  | .movToCr c n src _ => Sys2Proof.Machine.execMovToCr c n src s
  | .movToDr c n src _ => Sys2Proof.Machine.execMovToDr c n src s
  | .movFromTr c dst n _ => Sys2Proof.Machine.execMovFromTr c dst n s
  | .movToTr c n src _ => Sys2Proof.Machine.execMovToTr c n src s
  | .hlt c => Sys2Proof.Machine.execHlt c s
  | .movToSreg c n src => Sys2Proof.Machine.execMovToSreg c n src s
  | .movFromSreg c dst n => Sys2Proof.Machine.execMovFromSreg c dst n s
  | .pushEs c => Sys2Proof.Machine.execPushEs c s
  | .pushCs c => Sys2Proof.Machine.execPushCs c s
  | .pushSs c => Sys2Proof.Machine.execPushSs c s
  | .pushDs c => Sys2Proof.Machine.execPushDs c s
  | .pushFs c => Sys2Proof.Machine.execPushFs c s
  | .pushGs c => Sys2Proof.Machine.execPushGs c s
  | .popEs c => Sys2Proof.Machine.execPopEs c s
  | .popSs c => Sys2Proof.Machine.execPopSs c s
  | .popDs c => Sys2Proof.Machine.execPopDs c s
  | .popFs c => Sys2Proof.Machine.execPopFs c s
  | .popGs c => Sys2Proof.Machine.execPopGs c s
  | .lds c dst src => Sys2Proof.Machine.execLds c dst src s
  | .les c dst src => Sys2Proof.Machine.execLes c dst src s
  | .lss c dst src => Sys2Proof.Machine.execLss c dst src s
  | .lfs c dst src => Sys2Proof.Machine.execLfs c dst src s
  | .lgs c dst src => Sys2Proof.Machine.execLgs c dst src s
  | .jmpRel8 c d => Sys2Proof.Machine.execJmpRel8 c d s
  | .jmpRel c d => Sys2Proof.Machine.execJmpRel c d s
  | .jmpNear c t => Sys2Proof.Machine.execJmpNear c t s
  | .callRel c d => Sys2Proof.Machine.execCallRel c d s
  | .callNear c t => Sys2Proof.Machine.execCallNear c t s
  | .retNear c => Sys2Proof.Machine.execRetNear c s
  | .retNearImm c n => Sys2Proof.Machine.execRetNearImm c n s
  | .jmpFar c off sel => Sys2Proof.Machine.execJmpFar c off sel s
  | .jmpFarMem c t => Sys2Proof.Machine.execJmpFarMem c t s
  | .callFar c off sel => Sys2Proof.Machine.execCallFar c off sel s
  | .callFarMem c t => Sys2Proof.Machine.execCallFarMem c t s
  | .retFar c => Sys2Proof.Machine.execRetFar c s
  | .retFarImm c n => Sys2Proof.Machine.execRetFarImm c n s
  | .inAlImm c port => Sys2Proof.Machine.execInAlImm c port s
  | .inAxImm c port => Sys2Proof.Machine.execInAxImm c port s
  | .inAlDx c => Sys2Proof.Machine.execInAlDx c s
  | .inAxDx c => Sys2Proof.Machine.execInAxDx c s
  | .outImmAl c port => Sys2Proof.Machine.execOutImmAl c port s
  | .outImmAx c port => Sys2Proof.Machine.execOutImmAx c port s
  | .outDxAl c => Sys2Proof.Machine.execOutDxAl c s
  | .outDxAx c => Sys2Proof.Machine.execOutDxAx c s
  | .insb c => Sys2Proof.Machine.execInsb c s
  | .insw c => Sys2Proof.Machine.execInsw c s
  | .outsb c => Sys2Proof.Machine.execOutsb c s
  | .outsw c => Sys2Proof.Machine.execOutsw c s
  | .repPrefix c t => Sys2Proof.Machine.execRepPrefix c t s
  | .cli c => Sys2Proof.Machine.execCli c s
  | .sti c => Sys2Proof.Machine.execSti c s
  | .pushf c => Sys2Proof.Machine.execPushf c s
  | .popf c => Sys2Proof.Machine.execPopf c s
  | .int3 c => Sys2Proof.Machine.execInt3 c s
  | .intImm c v => Sys2Proof.Machine.execIntImm c v s
  | .into c => Sys2Proof.Machine.execInto c s
  | .bound c r m => Sys2Proof.Machine.execBound c r m s
  | .iret c => Sys2Proof.Machine.execIret c s
  | .esc c op reg rm => Sys2Proof.Machine.execEsc c op reg rm s
  | .wait c => Sys2Proof.Machine.execWait c s
  | .lockPrefix c t => Sys2Proof.Machine.execLockPrefix c t s
  | .xchgByte c rm r => Sys2Proof.Machine.execXchgByte c rm r s
  | .xchg c rm r => Sys2Proof.Machine.execXchg c rm r s

end Sys2Proof.Machine
end

