-- ==== Sys2Proof/Machine/Fetch.lean ====
section
/-! DEFINITION. Between instructions: the boundary checks and their order (60_exceptions.md R703 to R706), and fetching an
instruction's bytes (30_encoding.md R232; 40_protection_and_segment_loads.md R276; 70_reset_and_hazards.md R802). -/

namespace Sys2Proof.Machine

/-- Whether the default operand and address size is 32 bits (30_encoding.md R241): the D bit of CS in protected mode, 16
bits in real-address mode (70_reset_and_hazards.md R812; log entry 15). -/
def State.default32 (s : State) : Bool := s.pe && s.seg.cs.attr.db

/-- One byte of an instruction, at an offset in CS; a fetch is no data access (48_debug.md R638). A byte that may have been
prefetched before it was stored into is refused (20_memory.md R229). -/
def fetchByte (off : Dword) : M Byte := do
  let sp ← checkedSpan .cs off 1 .fetch
  let s ← getState
  if s.run.prefetch.stale.contains (sp.addr 0) then stop (.refusal .prefetchedStore)
  else pure (Memory.read s.mem (sp.addr 0))

/-- The next instruction: bytes are fetched, lowest first, as long as the decoder asks for more; #GP(0) for more than 15
bytes (60_exceptions.md R769 item 15), #UD for an invalid opcode, which prefetching alone does not raise (R759; 30_encoding.md
R236). DESIGN CHOICE (log entry 49): each byte is a reference of its own, and the byte after
offset FFFFFFFFH is the one at offset 0. The first argument bounds the bytes still to fetch. -/
def fetchFrom : Nat → List Byte → M Instr
  | 0, _ => raiseGP 0x0000#16
  | n + 1, bs => do
    let s ← getState
    match decode s.default32 bs with
    | .instr i => pure i
    | .unlisted op => stop (.refusal (.opcodeOutsideSpec op))
    | .invalid _ => raiseUD
    | .tooLong => raiseGP 0x0000#16
    | .needMore => do
      let b ← fetchByte (s.pc + BitVec.ofNat 32 bs.length)
      fetchFrom n (bs ++ [b])

/-- The instruction at CS:EIP; in virtual 8086 mode, which the spec leaves out, none (60_exceptions.md R781). -/
def fetchInstr : M Instr := do
  let s ← getState
  if s.flags.vm then stop (.refusal .virtual8086) else fetchFrom (Config.maxLength + 1) []

/-- What the processor does next (R706). -/
inductive Boundary where
  /-- an interrupt or a debug exception is delivered -/
  | take (e : Event) (s : State)
  /-- nothing is executed -/
  | rest (s : State)
  /-- an instruction is executed -/
  | run (s : State)
  /-- the spec leaves the state out -/
  | refuse (r : Refusal)
deriving DecidableEq, Repr

/-- A nonmaskable interrupt (60_exceptions.md R755). -/
def nmiEvent : Event := { vector := 0x02#8, kind := .external, code := none }

/-- A debug exception (60_exceptions.md R754). -/
def debugEvent (kind : EventKind) : Event := { vector := 0x01#8, kind := kind, code := none }

/-- A maskable interrupt (60_exceptions.md R707). -/
def intrEvent (vector : Byte) : Event := { vector := vector, kind := .external, code := none }

/-- The state with other contents of DR6. -/
def State.setDr6 (s : State) (v : Dword) : State := { s with dbg := { s.dbg with dr6 := v } }

/-- The state in which an NMI has been accepted (60_exceptions.md R701). -/
def State.acceptNmi (s : State) : State := { s with run := { s.run with nmiPending := false, nmiMasked := true } }

/-- The state in which the interrupt controller has seen the acknowledge: it drops its request (R707; log entry 38). -/
def State.acceptIntr (s : State) : State := { s with pins := { s.pins with intrLine := false } }

/-- The state in which the processor is executing instructions again. -/
def State.resume (s : State) : State := { s with run := { s.run with runState := .running } }

/-- The state as the next instruction finds it: no trap is pending, the instruction breakpoints whose condition it meets are
noted for a report it may lead to (48_debug.md R630), the inhibitions of the boundary are over (R703, R706), and no event has
been delivered. -/
def State.beginInstr (s : State) : State :=
  { s with run := { s.run with pendingDb := { PendingDebug.none with occurred := s.codeOccurred }, ssInhibit := false,
                               stiInhibit := false, prefetch := { s.run.prefetch with emptied := false } } }

/-- A MOV to or from a debug register. -/
def isDebugMove : Instr → Bool
  | .movFromDr _ _ _ _ => true
  | .movToDr _ _ _ _ => true
  | _ => false

/-- Whether the next instruction raises the general-detect fault (48_debug.md R648): a MOV to or from a debug register that
may run, while in-circuit emulation owns them and RF is clear. -/
def State.detects (s : State) : Bool :=
  s.params.iceInUse && !s.flags.rf && (!s.pe || s.cpl = 0#2) &&
    match fetchInstr s.beginInstr with
    | .ok i _ => isDebugMove i
    | .error _ _ => false

/-- The boundary checks a to d of R706, in the order of Table 9-2. The general-detect fault stands before NMI and INTR
(48_debug.md R645 item 4): where the next instruction raises it, that instruction runs. -/
def boundaryChecks (s : State) : Boundary :=
  if s.run.ssInhibit then .run s.beginInstr
  else if s.run.pendingDb.any then
    .take (debugEvent .trap) ((s.setDr6 (s.run.pendingDb.report s.dbg.dr6)).setPending .none)
  else if !s.flags.rf && s.codeHit ≠ 0#4 then
    .take (debugEvent .fault) ((s.setDr6 (s.dbg.dr6 ||| s.codeOccurred.setWidth 32)).setPending .none)
  else if s.detects then .run s.beginInstr
  else if s.run.nmiPending && !s.run.nmiMasked then .take nmiEvent (s.acceptNmi.setPending .none)
  else if s.pins.intrLine && s.flags.ifl && !s.run.stiInhibit then
    .take (intrEvent s.pins.intrVector) (s.acceptIntr.setPending .none)
  else .run s.beginInstr

/-- What the processor does next (R706): RESET before all else; in shutdown only an NMI; halted, until an interrupt that
is not masked (43_system_registers.md R420; 60_exceptions.md R752; log entry 47). In virtual 8086 mode the spec states nothing
of a processor that does not run (10_state.md R51). -/
def boundary (s : State) : Boundary :=
  if s.pins.reset then .rest s.resetPin
  else if s.flags.vm && s.run.runState ≠ .running then .refuse .virtual8086
  else
    match s.run.runState with
    | .shutdown => if s.run.nmiPending then .take nmiEvent s.resume.acceptNmi else .rest s
    | .halted =>
      if (s.run.nmiPending && !s.run.nmiMasked) || (s.pins.intrLine && s.flags.ifl) then boundaryChecks s.resume
      else .rest s
    | .running => boundaryChecks s

/-- The physical address of the k-th byte that a fetch at CS:EIP reads, if its page can be translated. -/
def State.fetchAddr (s : State) (k : Nat) : Option Nat :=
  match translate (s.linear .cs (s.pc + BitVec.ofNat 32 k)) 1 false s.user s with
  | .ok sp _ => some (sp.addr 0)
  | .error _ _ => none

/-- The control transfers that are always taken (20_memory.md R229), but for the software interrupts, which deliver an
event. -/
def transfers : Instr → Bool
  | .jmpRel8 _ _ => true
  | .jmpRel _ _ => true
  | .jmpNear _ _ => true
  | .callRel _ _ => true
  | .callNear _ _ => true
  | .retNear _ => true
  | .retNearImm _ _ => true
  | .jmpFar _ _ _ => true
  | .jmpFarMem _ _ => true
  | .callFar _ _ _ => true
  | .callFarMem _ _ => true
  | .retFar _ => true
  | .retFarImm _ _ => true
  | .iret _ => true
  | _ => false

/-- The bytes that may be prefetched while an instruction of n bytes runs and that differ after it: its own, which an iteration
of a repeated instruction leaves next, and the `prefetchDepth` bytes behind them. A store of the value that a byte holds
leaves nothing stale (log entry 7). -/
def State.overwritten (s : State) (n : Nat) (t : State) : List Nat :=
  ((List.range (n + s.params.prefetchDepth)).filterMap s.fetchAddr).filter fun a =>
    Memory.cell s.mem.cells a ≠ Memory.cell t.mem.cells a

/-- The prefetch queue after an instruction (20_memory.md R229), from the states before and after it: a control transfer
leaves it empty, any other instruction may have stored into it. -/
def prefetchAfter (i : Instr) (s t : State) : Prefetch :=
  if transfers i then { t.run.prefetch with stale := [] }
  else if t.run.prefetch.emptied then t.run.prefetch
  else { t.run.prefetch with stale := t.run.prefetch.stale ++ s.overwritten i.ctx.len t }

/-- What became of an instruction run from a state, with the prefetch queue brought up to date. -/
def settle (i : Instr) (s : State) : Host.Outcome State Fault Refusal → Host.Outcome State Fault Refusal
  | .next t => .next { t with run := { t.run with prefetch := prefetchAfter i s t } }
  | .fault r => .fault r
  | .refused r => .refused r

/-- The physical address where the k-th byte of a program is placed for the next fetch. -/
def State.fetchPlace (s : State) (k : Nat) : Nat :=
  (s.fetchAddr k).getD (s.linear .cs (s.pc + BitVec.ofNat 32 k)).toNat

/-- Memory with some bytes placed where the next instruction is fetched, from the k-th on. -/
def State.placeProgram (s : State) : Nat → List Byte → PhysMem → PhysMem
  | _, [], m => m
  | k, b :: r, m => s.placeProgram (k + 1) r (Memory.place m (s.fetchPlace k) b)

end Sys2Proof.Machine
end

