-- ==== Sys2Proof/Machine/Step.lean ====
section
/-! DEFINITION. One step of the processor (60_exceptions.md R706), and the placing of an instruction where it fetches. -/

namespace Sys2Proof.Machine

/-- One instruction: it is fetched and executed, and the prefetch queue follows; a fetch that raises an exception delivers it. -/
def runNext (s : State) : Host.Outcome State Fault Refusal :=
  match fetchInstr s with
  | .ok i t => settle i t (exec i t)
  | .error e t => finish false (.error e t)

/-- One step: an event at the boundary, or nothing, or one instruction (60_exceptions.md R706). -/
def step (s : State) : Host.Outcome State Fault Refusal :=
  match boundary s with
  | .take e t => deliver deliverBound e t
  | .rest t => .next t
  | .run t => runNext t
  | .refuse r => .refused r

/-- The state with an instruction of the opcode table placed where step fetches (log entry 42). -/
def State.withFetchWord (s : State) (nbits w : Nat) : State :=
  { s with mem := s.placeProgram 0 (tableBytes nbits w) s.mem }

end Sys2Proof.Machine
end

