-- ==== Sys2Proof/Safety.lean ====
section
/-! DEFINITION. The terms that statements about the machine use: which bytes an access may change, which states are sound,
how an instruction ends. -/

namespace Sys2Proof.Machine

/-- The byte of physical memory at an address. -/
def State.byte (s : State) (a : Nat) : Byte := Memory.read s.mem a

/-- Whether an address holds one of an operand's first n bytes. -/
def Span.covers (sp : Span) (n a : Nat) : Prop := ∃ k, k < n ∧ sp.addr k = a

/-- Whether an address holds a byte that some stores change. -/
def storesCover (sts : List Store) (a : Nat) : Prop := ∃ st, st ∈ sts ∧ st.span.covers st.bytes.length a

/-- Whether an address holds a byte of the directory entry or the table entry of a linear address, with paging on
(20_memory.md R185): the only bytes that a translation may change (R186). -/
def State.entryByte (s : State) (la : Dword) (a : Nat) : Prop :=
  s.pg = true ∧
    ((Span.flat (pdeAddr s.ctl.cr3 la) 4).covers 4 a
      ∨ (Span.flat (pteAddr (physRead s.mem (pdeAddr s.ctl.cr3 la)) la) 4).covers 4 a)

/-- The same for an access of n bytes, which lies in one page or in two (20_memory.md R190). -/
def State.accessByte (s : State) (la : Dword) (n a : Nat) : Prop :=
  s.entryByte la a ∨ (pageRest la < n ∧ s.entryByte (la + BitVec.ofNat 32 (pageRest la)) a)

/-- The same for several accesses, each a linear address and a length. -/
def State.accessedByte (s : State) (l : List (Dword × Nat)) (a : Nat) : Prop := ∃ x, x ∈ l ∧ s.accessByte x.1 x.2 a

/-- Where the descriptor that a selector names lies (20_memory.md R160). -/
def State.descriptorAddr (s : State) (sel : Word) : Dword :=
  (if selTi sel then s.ldtr.base else s.gdtr.base) + BitVec.ofNat 32 (selIndex sel * 8)

/-- Whether a selector names no descriptor: it lies outside its table, or the LDT is not there (20_memory.md R160,
R161). -/
def State.lacksDescriptor (s : State) (sel : Word) : Bool :=
  (selTi sel && !s.ldtr.valid)
    || selIndex sel * 8 + 7 > (if selTi sel then s.ldtr.limit.toNat else s.gdtr.limit.toNat)

/-- What a checked access may change (20_memory.md R186, R200; 48_debug.md R646): accessed and dirty bits in memory, the
TLB, and the pending data breakpoints; everything else is the same in both states. -/
def Touched (s t : State) : Prop :=
  t = { s with mem := { s.mem with cells := t.mem.cells }, tlb := t.tlb,
               run := { s.run with pendingDb := t.run.pendingDb } }

/-- Memory outside a set of bytes reads as before, and before its stores the instruction did nothing but checked accesses:
`t` is the state after them, `u` the state in the end. Memory is taken in its canonical form, which every step keeps. -/
def Frame (s t u : State) (changed : Nat → Prop) : Prop :=
  Memory.wf s.mem = true → Touched s t ∧ ∀ a, ¬changed a → u.byte a = s.byte a

/-- The access of a register-or-memory operand of n bytes: none for a register. -/
def State.rmAccess (s : State) (c : Ctx) (rm : RM Reg) (n : Nat) : List (Dword × Nat) :=
  match rm with
  | .reg _ => []
  | .mem ea => [(s.linear (c.eaSegment ea) (s.eaOffset ea), n)]

/-- The access of the descriptor a selector names. -/
def State.descriptorAccess (s : State) (sel : Word) : List (Dword × Nat) := [(s.descriptorAddr sel, 8)]

/-- Whether the segment checks let a reference of n bytes pass (40_protection_and_segment_loads.md R276, R280;
70_reset_and_hazards.md R812). -/
def State.segOk (s : State) (r : Sreg) (off : Dword) (n : Nat) (k : Access) : Bool :=
  if s.pe then (s.seg.get r).valid && !(s.seg.get r).typeForbids k && (s.seg.get r).inLimit off n
  else off.toNat + n ≤ 65536

/-- The exception of a reference that the segment checks do not let pass (R276, R277): #SS(0) when bytes lie outside the
segment in SS, #GP(0) otherwise. -/
def State.segVector (s : State) (r : Sreg) (k : Access) : Byte :=
  if r = .ss && (!s.pe || ((s.seg.get r).valid && !(s.seg.get r).typeForbids k)) then 0x0C#8 else 0x0D#8

/-- The vector of the exception of bytes past a segment's limit (R277): #SS through SS, #GP through the others. -/
def limitVector (r : Sreg) : Byte := if r = .ss then 0x0C#8 else 0x0D#8

/-- The state after an instruction that completed (60_exceptions.md R706; 48_debug.md R652, R657): RF is clear, and the
single-step trap is pending if TF was set at the start. -/
def State.ended (s t : State) : State := t.complete s.flags.tf .plain

/-- What becomes of an exception that an instruction raises (60_exceptions.md R706): it is delivered, the traps the
instruction had accumulated dropped. -/
def raised (e : Event) (t : State) : Host.Outcome State Fault Refusal := deliver deliverBound e (t.setPending .none)

/-- A fault without an error code. -/
def faultOf (vector : Byte) : Event := { vector := vector, kind := .fault, code := none }

/-- A fault with an error code, its undefined bits 31:16 the next free value (60_exceptions.md R735; log entry 19). -/
def faultWith (s : State) (vector : Byte) (code : Word) : Event :=
  { vector := vector, kind := .fault, code := some (withLowWord s.free.head code) }

/-- The state after one free value was taken. -/
def State.freed (s : State) : State := { s with free := s.free.next }

/-- A selector in a stack slot of n bytes: a word, or the low word of a doubleword whose upper half is the next free value
(41_control_transfer.md R332; log entry 17). -/
def State.selectorBytes (s : State) (n : Nat) (sel : Word) : List Byte :=
  if n = 2 then toBytes 2 (sel.setWidth 32) else toBytes 4 (withLowWord s.free.head sel)

/-- The state after such a slot took its free value. -/
def State.afterSlot (s : State) (n : Nat) : State := if n = 2 then s else s.freed

/-- The state after a far JMP or CALL: A31 to A20 are forced no longer (70_reset_and_hazards.md R802). -/
def State.a31Freed (s : State) : State := { s with run := { s.run with a31Forced := false } }

/-- The state after an instruction that loads RF (48_debug.md R652): RF stays as loaded. -/
def State.endedRf (s t : State) : State := t.complete s.flags.tf .keepsRf

/-- How a far JMP or CALL gets its pointer (41_control_transfer.md R336, R337): from its own bytes, or from memory, the
offset below the selector (20_memory.md R211). `reads` are the accesses that takes, `t` the state after them. -/
def farOperand (c : Ctx) (direct : Imm → Word → Instr) (indirect : RM Reg → Instr) (i : Instr) (off : Dword) (sel : Word)
    (reads : List (Dword × Nat)) (s t : State) : Prop :=
  (∃ o, i = direct o sel ∧ off = o.unsigned ∧ reads = [] ∧ t = s)
    ∨ ∃ ea, i = indirect (.mem ea) ∧ farPointer c (.mem ea) s = .ok (off, sel) t
        ∧ reads = [(s.linear (c.eaSegment ea) (s.eaOffset ea), c.opBytes),
                   (s.linear (c.eaSegment ea) (s.eaOffset ea + BitVec.ofNat 32 c.opBytes), 2)]

/-- How an instruction gets the selector that it loads into a segment register: MOV from its operand, POP from the stack's top,
LDS, LES, LSS, LFS and LGS from a far pointer in memory (40_protection_and_segment_loads.md R297, R298). `t` is the state after
the reads. -/
def selectorOperand (c : Ctx) (i : Instr) (r : Sreg) (sel : Word) (s t : State) : Prop :=
  (∃ n src, i = .movToSreg c n src ∧ sregOf n = some r ∧ rmRead16 c src s = .ok sel t)
    ∨ ((i, r) ∈ [(.popEs c, .es), (.popSs c, .ss), (.popDs c, .ds), (.popFs c, .fs), (.popGs c, .gs)]
        ∧ ∃ v, stackRead 0 c.opBytes s = .ok v t ∧ sel = lowWord v)
    ∨ ∃ dst ea off,
        (i, r) ∈ [(.lds c dst (.mem ea), .ds), (.les c dst (.mem ea), .es), (.lss c dst (.mem ea), .ss),
                  (.lfs c dst (.mem ea), .fs), (.lgs c dst (.mem ea), .gs)]
          ∧ farPointer c (.mem ea) s = .ok (off, sel) t

/-- What the next read of a port of n bytes gives: what the platform answers, or a free value (log entry 6). -/
def State.portValue (s : State) (n : Nat) : Dword :=
  match s.io.inputs with
  | v :: _ => lowBytes n v
  | [] => lowBytes n s.free.head

/-- The state after that read. -/
def State.afterInput (s : State) (port : Word) (n : Nat) : State :=
  State.logIo
    (match s.io.inputs with
    | _ :: r => { s with io := { s.io with inputs := r } }
    | [] => s.freed)
    { write := false, port := port, size := n, value := s.portValue n }

/-- The offset of the I/O permission map in the current TSS (45_io.md R522). -/
def State.ioMapBase (s : State) : Nat :=
  match sysRead (s.tr.base + 0x66#32) 2 s with
  | .ok v _ => v.toNat
  | .error _ _ => 0

/-- The accesses of the test of an I/O instruction's permission (45_io.md R521 to R523): none where IOPL permits it. -/
def State.ioMapAccess (s : State) (port : Word) (n : Nat) : List (Dword × Nat) :=
  if s.pe = false ∨ (s.flags.vm = false ∧ s.cpl ≤ s.flags.iopl) then []
  else
    (s.tr.base + 0x66#32, 2)
      :: (List.range n).map fun k => (s.tr.base + BitVec.ofNat 32 (s.ioMapBase + (port.toNat + k) / 8), 1)

/-- The flags that POPF and IRET give from an image of n bytes at a privilege level (45_io.md R534;
46_interrupt_instructions.md R560, R563). -/
def EFlags.popped (old : EFlags) (image : Dword) (n : Nat) (level : BitVec 2) : EFlags :=
  { EFlags.unpack image with
    iopl := if level = 0#2 then image.extractLsb' 12 2 else old.iopl
    ifl := if level ≤ old.iopl then image.getLsbD 9 else old.ifl
    rf := if n = 4 then image.getLsbD 16 else old.rf
    vm := old.vm }

/-- The states that the processor can be in: memory in its canonical form, paging only in protected mode
(10_state.md R82), privilege level 0 in real-address mode (70_reset_and_hazards.md R822), not in virtual 8086 mode
(60_exceptions.md R781), no delivery unfinished (10_state.md R108). -/
def State.sound (s : State) : Prop :=
  Memory.wf s.mem = true ∧ (s.pg = true → s.pe = true) ∧ (s.pe = false → s.cpl = 0#2) ∧ s.flags.vm = false
    ∧ s.run.delivering = none

end Sys2Proof.Machine
end

