-- ==== Sys2Proof/Certificates/Slice0/Obligations.lean ====
section
/-! DEFINITION. The statements about the model, for the provers. -/

section Statements

open Sys2Proof Sys2Proof.Machine

/-- Decoding an encoded instruction gives it back, whatever bytes follow (30_encoding.md R232, R240 to R250). -/
def Obligations.DecodeEncode : Prop :=
  ∀ (i : Instr) (rest : List Byte), i.wf = true → decode i.ctx.d32 (encode i ++ rest) = .instr i

/-- What decodes is well formed, and its encoding is the bytes it was decoded from: no bit of an instruction is dropped and
no two instructions share bytes (30_encoding.md R232, R240 to R250). -/
def Obligations.DecodedIsEncoded : Prop :=
  ∀ (d32 : Bool) (bs : List Byte) (i : Instr), decode d32 bs = .instr i →
    i.wf = true ∧ i.ctx.d32 = d32 ∧ bs.take i.ctx.len = encode i

/-- Words written out from the encodings of 30_encoding.md (R242 to R249) decode to the instructions they stand for. -/
def Obligations.DecodeWords : Prop :=
  -- 63 /r, mod 11, reg 011 (BX), rm 000 (AX)
  decode true [0b01100011#8, 0b11011000#8] = .instr (.arpl ⟨[], true, 2⟩ (.reg .eax) .ebx)
  -- 0F 22 /r, reg 011 (CR3), rm 000 (EAX)
  ∧ decode true [0b00001111#8, 0b00100010#8, 0b11011000#8] = .instr (.movToCr ⟨[], true, 3⟩ 3#3 .eax 3#2)
  -- 0F 01 /2, mod 00, rm 101: a 32-bit address
  ∧ decode true [0b00001111#8, 0b00000001#8, 0b00010101#8, 0x78#8, 0x56#8, 0x34#8, 0x12#8]
      = .instr (.lgdt ⟨[], true, 7⟩ (.mem (.abs32 0x12345678#32)))
  -- 8E /r, reg 010 (SS), mod 01, rm 110: BP + disp8, 16-bit addressing
  ∧ decode false [0b10001110#8, 0b01010110#8, 0xFE#8]
      = .instr (.movToSreg ⟨[], false, 3⟩ 2#3 (.mem (.ea16 .bp (.d8 0xFE#8))))
  -- 0F B2 /r, reg 100 (ESP), a SIB byte: scale 10, index 001 (ECX), base 011 (EBX)
  ∧ decode true [0b00001111#8, 0b10110010#8, 0b00100100#8, 0b10001011#8]
      = .instr (.lss ⟨[], true, 4⟩ .esp (.mem (.sib 2#2 (some .ecx) .ebx .none)))
  -- EA: a 16-bit offset, then the selector
  ∧ decode false [0b11101010#8, 0x34#8, 0x12#8, 0xCD#8, 0xAB#8]
      = .instr (.jmpFar ⟨[], false, 5⟩ (.i16 0x1234#16) 0xABCD#16)
  -- F3 6D: REP INSW
  ∧ decode false [0b11110011#8, 0b01101101#8] = .instr (.repPrefix ⟨[.rep], false, 2⟩ .insw)
  -- F0 87 /r: LOCK XCHG
  ∧ decode true [0b11110000#8, 0b10000111#8, 0b00001110#8]
      = .instr (.lockPrefix ⟨[.lock], true, 3⟩ (.xchg (.mem (.ea32 .esi .none)) .ecx))
  -- CD ib
  ∧ decode true [0b11001101#8, 0x21#8] = .instr (.intImm ⟨[], true, 2⟩ 0x21#8)
  -- an ESC opcode 11011 011 with reg 100, mod 11, rm 011
  ∧ decode true [0b11011011#8, 0b11100011#8] = .instr (.esc ⟨[], true, 2⟩ 3#3 4#3 (.reg .ebx))

/-- A step runs the decoded instruction (60_exceptions.md R706): when the boundary lets an instruction run and the bytes at
CS:EIP decode to it, the step is its execution, and nothing else changes but the record of the prefetch queue (20_memory.md
R229): a control transfer or the delivery of an event empties it; any other instruction adds the bytes at CS:EIP on, as many as
its own and the depth of the queue, that it has changed (log entries 7 and 54). With paging off, when every byte of a
well-formed instruction's encoding stands at CS:EIP within CS, that is the instruction which runs, and the step is refused when
one of those bytes is in the record. The model's choice: the byte after offset FFFFFFFFH is the one at offset 0 (log entry 49).
Moving past the instruction is part of its execution. -/
def Obligations.StepRunsDecoded : Prop :=
  (∀ (s t u : State) (i : Instr), boundary s = .run t → fetchInstr t = .ok i u →
    (∀ r, exec i u = .fault r → step s = .fault r)
    ∧ (∀ r, exec i u = .refused r → step s = .refused r)
    ∧ ∀ v, exec i u = .next v →
        let emptied := transfers i = true ∨ v.run.prefetch.emptied = true
        ∃ w, step s = .next w ∧ w = { v with run := { v.run with prefetch := w.run.prefetch } }
          ∧ (transfers i = true → w.run.prefetch.stale = [])
          ∧ (transfers i = false → v.run.prefetch.emptied = true → w.run.prefetch = v.run.prefetch)
          ∧ (¬emptied → ∀ a, a ∈ w.run.prefetch.stale ↔ a ∈ v.run.prefetch.stale
              ∨ ((∃ k, k < i.ctx.len + u.params.prefetchDepth ∧ u.fetchAddr k = some a)
                ∧ Memory.cell u.mem.cells a ≠ Memory.cell v.mem.cells a)))
  ∧ ∀ (s t : State) (i : Instr), boundary s = .run t → t.pg = false → t.flags.vm = false →
      i.wf = true → i.ctx.d32 = t.default32 →
      let place := fun k => (t.linear .cs (t.pc + BitVec.ofNat 32 k)).toNat
      (∀ k, k < i.ctx.len →
        t.segOk .cs (t.pc + BitVec.ofNat 32 k) 1 .fetch = true ∧ (encode i)[k]? = some (t.byte (place k))) →
      ((∀ k, k < i.ctx.len → place k ∉ t.run.prefetch.stale) → step s = settle i t (exec i t))
      ∧ ((∃ k, k < i.ctx.len ∧ place k ∈ t.run.prefetch.stale) → step s = .refused .prefetchedStore)

/-- The boundary between instructions (60_exceptions.md R703, R705, R706; Table 9-2): after a MOV or POP to SS nothing is
taken; else pending debug traps come first, then an instruction breakpoint unless RF is set, then NMI unless it is masked,
then INTR where IF is set and the boundary is not the one after an STI; else an instruction runs. A MOV to or from a debug
register that is going to raise the general-detect fault comes before NMI and INTR (48_debug.md R645, R648). The model's
choice: an INTR that is taken clears the interrupt line (log entry 38), and DR6 takes the Bn of disabled breakpoints too
(log entry 31). -/
def Obligations.BoundaryOrder : Prop :=
  ∀ (s : State), s.pins.reset = false → s.run.runState = .running →
    let pending : PendingDebug := { bs := false, bt := false, hit := 0#4, occurred := s.codeOccurred }
    let queue := { s.run.prefetch with emptied := false }
    let begun :=
      { s with run := { s.run with pendingDb := pending, ssInhibit := false, stiInhibit := false, prefetch := queue } }
    let none := s.setPending .none
    let trap := s.run.pendingDb.any = true
    let breakpoint := s.flags.rf = false ∧ s.codeHit ≠ 0#4
    let detect := s.params.iceInUse = true ∧ s.flags.rf = false ∧ (s.pe = true → s.cpl = 0#2)
      ∧ ∃ i u, fetchInstr begun = .ok i u
          ∧ ((∃ c r n m, i = .movFromDr c r n m) ∨ ∃ c n r m, i = .movToDr c n r m)
    let nmi := ¬detect ∧ s.run.nmiPending = true ∧ s.run.nmiMasked = false
    let intr := ¬detect ∧ s.pins.intrLine = true ∧ s.flags.ifl = true ∧ s.run.stiInhibit = false
    (s.run.ssInhibit = true → step s = runNext begun)
    ∧ (s.run.ssInhibit = false →
        (trap → step s = deliver deliverBound { vector := 0x01#8, kind := .trap, code := Option.none }
          (none.setDr6 (s.run.pendingDb.report s.dbg.dr6)))
        ∧ (¬trap →
            (breakpoint → step s = deliver deliverBound { vector := 0x01#8, kind := .fault, code := Option.none }
              (none.setDr6 (s.dbg.dr6 ||| s.codeOccurred.setWidth 32)))
            ∧ (¬breakpoint →
                (nmi → step s = deliver deliverBound { vector := 0x02#8, kind := .external, code := Option.none }
                  { none with run := { none.run with nmiPending := false, nmiMasked := true } })
                ∧ (¬nmi →
                    (intr → step s
                      = deliver deliverBound { vector := s.pins.intrVector, kind := .external, code := Option.none }
                        { none with pins := { s.pins with intrLine := false } })
                    ∧ (¬intr → step s = runNext begun)))))

/-- HLT and the states in which nothing runs (43_system_registers.md R420; 60_exceptions.md R752; log entry 47): HLT at CPL 0
or in real-address mode halts with EIP at the next instruction; a halted processor stays as it is until an NMI that is not
masked or an INTR with IF set; in shutdown it stays until an NMI, which is delivered. -/
def Obligations.HaltAndShutdown : Prop :=
  (∀ (c : Ctx) (s : State), s.flags.vm = false → (s.pe = true → s.cpl = 0#2) →
    exec (.hlt c) s = .next (s.ended
      { s with run := { s.run with runState := .halted }, pc := s.pc + BitVec.ofNat 32 c.len }))
  ∧ ∀ (s : State), s.pins.reset = false → s.flags.vm = false →
      let wakes := (s.run.nmiPending = true ∧ s.run.nmiMasked = false) ∨ (s.pins.intrLine = true ∧ s.flags.ifl = true)
      (s.run.runState = .halted → ¬wakes → step s = .next s)
      ∧ (s.run.runState = .halted → wakes → step s = step { s with run := { s.run with runState := .running } })
      ∧ (s.run.runState = .shutdown → s.run.nmiPending = false → step s = .next s)
      ∧ (s.run.runState = .shutdown → s.run.nmiPending = true →
          step s = deliver deliverBound { vector := 0x02#8, kind := .external, code := none }
            { s with run := { s.run with runState := .running, nmiPending := false, nmiMasked := true } })

/-- What RESET leaves (10_state.md R113, R115, R117), in the state after reset and from every state with RESET asserted:
EFLAGS = 00000002H, EIP = 0000FFF0H with a CS base of FFFF0000H, so that with paging off the first fetch is from FFFFFFF0H,
and IDTR with base 0 and limit 03FFH. -/
def Obligations.ResetRegisters : Prop :=
  ∀ (t : State), (t = State.reset ∨ ∃ s, s.pins.reset = true ∧ step s = .next t) →
    t.flags.pack = 0x00000002#32 ∧ t.flags.ifl = false ∧ t.flags.tf = false ∧ t.flags.nt = false ∧ t.flags.iopl = 0#2
      ∧ t.flags.rf = false ∧ t.flags.vm = false ∧ t.flags.df = false
      ∧ t.pc = 0x0000FFF0#32 ∧ t.seg.cs.base = 0xFFFF0000#32 ∧ t.linear .cs t.pc = 0xFFFFFFF0#32 ∧ t.pg = false
      ∧ t.idtr.base = 0x00000000#32 ∧ t.idtr.limit = 0x03FF#16

/-- Every step keeps the sound states sound: memory in its canonical form, paging only in protected mode (10_state.md R82),
privilege level 0 in real-address mode (70_reset_and_hazards.md R822), never virtual 8086 mode (60_exceptions.md R781), no
delivery unfinished (10_state.md R108). -/
def Obligations.StepKeepsSound : Prop := ∀ (s t : State), s.sound → step s = .next t → t.sound

/-- The state after reset is sound, as StepKeepsSound says it: paging only in protected mode (10_state.md R82) and the rest. -/
def Obligations.ResetSound : Prop := State.reset.sound

/-- Isolation of the outer levels (40_protection_and_segment_loads.md R311): in protected mode at a CPL other than 0, no
step but RESET changes GDTR, IDTR, DR0 to DR3, TR6, TR7, the parameters, or any bit of CR0 but TS; interrupts and task
switches, which set TS (44_multitasking.md R470), are such steps too. -/
def Obligations.OuterIsolation : Prop :=
  ∀ (s t : State), s.sound → s.pe = true → s.cpl ≠ 0#2 → s.pins.reset = false → step s = .next t →
    t.gdtr = s.gdtr ∧ t.idtr = s.idtr ∧ t.dbg.dr0 = s.dbg.dr0 ∧ t.dbg.dr1 = s.dbg.dr1 ∧ t.dbg.dr2 = s.dbg.dr2
      ∧ t.dbg.dr3 = s.dbg.dr3 ∧ t.tlb.tr6 = s.tlb.tr6 ∧ t.tlb.tr7 = s.tlb.tr7 ∧ t.params = s.params
      ∧ t.mem.map = s.mem.map ∧ t.ctl.cr0 ||| 0x00000008#32 = s.ctl.cr0 ||| 0x00000008#32

/-- PUSH ES, CS, SS, DS, FS, GS (40_protection_and_segment_loads.md R299; 41_control_transfer.md R332): the selector goes
to the doubleword below the stack's top, and the stack pointer moves down; the upper half of the doubleword is a free value
(log entry 17). That is the 32-bit operand size, the one R299 and R332 give. The model's choice: with a 16-bit operand size the
slot is a word (log entry 13; 30_encoding.md R248 does not list PUSH Sreg). -/
def Obligations.PushSegmentRegister : Prop :=
  ∀ (c : Ctx) (x : Instr × Sreg) (s t : State) (sp : Span),
    x ∈ [(.pushEs c, .es), (.pushCs c, .cs), (.pushSs c, .ss), (.pushDs c, .ds), (.pushFs c, .fs), (.pushGs c, .gs)] →
    s.flags.vm = false →
    operandSpan .ss (s.stackBelow c.opBytes) c.opBytes .write s = .ok sp t →
    let sel := (s.seg.get x.2).sel
    let bytes := if c.op32 then toBytes 4 (withLowWord s.free.head sel) else toBytes 2 (sel.setWidth 32)
    let v := if c.op32 then t.freed else t
    let u := s.ended (((v.store { span := sp, bytes := bytes }).moveDown c.opBytes).advance c)
    exec x.1 s = .next u
      ∧ Frame s t u fun a =>
          s.accessByte (s.linear .ss (s.stackBelow c.opBytes)) c.opBytes a ∨ sp.covers c.opBytes a

/-- POP ES, SS, DS, FS, GS (40_protection_and_segment_loads.md R298): the register is loaded with the selector in the
doubleword at the stack's top, and the stack pointer moves up; after POP SS the next boundary is inhibited (60_exceptions.md
R703). That is the 32-bit operand size, the one R298 gives; with a 16-bit operand size, which 30_encoding.md R248 lets select
the form of POP Sreg, the slot is a word (log entry 13). -/
def Obligations.PopSegmentRegister : Prop :=
  ∀ (c : Ctx) (x : Instr × Sreg) (s t u : State) (sp : Span) (l : SegLoad),
    x ∈ [(.popEs c, .es), (.popSs c, .ss), (.popDs c, .ds), (.popFs c, .fs), (.popGs c, .gs)] →
    s.flags.vm = false →
    operandSpan .ss (s.stackOff 0) c.opBytes .read s = .ok sp t →
    let sel := lowWord (fromBytes (Memory.readSpan t.mem sp 0 c.opBytes))
    loadSeg x.2 sel t = .ok l u →
    let w := s.ended ((((u.load l).moveUp c.opBytes).inhibitAfter x.2).advance c)
    exec x.1 s = .next w
      ∧ Frame s u w fun a =>
          s.accessedByte ((s.linear .ss (s.stackOff 0), c.opBytes) :: s.descriptorAccess sel) a ∨ storesCover l.marks a

/-- LDS, LES, LSS, LFS, LGS with a memory operand (40_protection_and_segment_loads.md R298; 20_memory.md R211): the offset
goes to the general register, the selector above it to the segment register. A selector that would lie past offset FFFFFFFFH
is beyond the limit (R280): #GP(0), or #SS(0) through SS. -/
def Obligations.LoadFarPointer : Prop :=
  ∀ (c : Ctx) (ea : Ea) (dst : Reg) (x : Instr × Sreg) (s t : State) (sp : Span),
    x ∈ [(.lds c dst (.mem ea), .ds), (.les c dst (.mem ea), .es), (.lss c dst (.mem ea), .ss),
         (.lfs c dst (.mem ea), .fs), (.lgs c dst (.mem ea), .gs)] →
    s.flags.vm = false →
    let seg := c.eaSegment ea
    let off := s.eaOffset ea
    let above := off + BitVec.ofNat 32 c.opBytes
    operandSpan seg off c.opBytes .read s = .ok sp t →
    (4294967296 ≤ off.toNat + c.opBytes → exec x.1 s = raised (faultWith t (limitVector seg) 0x0000#16) t.freed)
    ∧ (off.toNat + c.opBytes < 4294967296 → ∀ (u v : State) (sp' : Span) (l : SegLoad),
        operandSpan seg above 2 .read t = .ok sp' u →
        let sel := lowWord (fromBytes (Memory.readSpan u.mem sp' 0 2))
        loadSeg x.2 sel u = .ok l v →
        let w := s.ended (((v.load l).setRegN dst c.opBytes (fromBytes (Memory.readSpan t.mem sp 0 c.opBytes))).advance c)
        exec x.1 s = .next w
          ∧ Frame s v w fun a =>
              s.accessedByte ((s.linear seg off, c.opBytes) :: (s.linear seg above, 2) :: s.descriptorAccess sel) a
                ∨ storesCover l.marks a)

/-- MOV to DS, ES, FS, GS, SS (40_protection_and_segment_loads.md R297): the register is loaded with the operand; after
MOV SS the next boundary is inhibited (60_exceptions.md R703). -/
def Obligations.MovToSegmentRegister : Prop :=
  ∀ (c : Ctx) (n : BitVec 3) (src : RM Reg) (r : Sreg) (s t u : State) (sel : Word) (l : SegLoad),
    s.flags.vm = false → sregOf n = some r → r ≠ .cs →
    rmRead16 c src s = .ok sel t → loadSeg r sel t = .ok l u →
    let w := s.ended (((u.load l).inhibitAfter r).advance c)
    exec (.movToSreg c n src) s = .next w
      ∧ Frame s u w fun a => s.accessedByte (s.rmAccess c src 2 ++ s.descriptorAccess sel) a ∨ storesCover l.marks a

/-- MOV from a segment register, SLDT and STR (40_protection_and_segment_loads.md R299; 43_system_registers.md R405, R407):
a word to memory whatever the operand size; to a register the low word, and with a 32-bit operand size a free upper half
(log entry 17). SLDT and STR run in protected mode at every level. -/
def Obligations.StoreSelector : Prop :=
  ∀ (c : Ctx) (n : BitVec 3) (r : Sreg) (dst : RM Reg) (x : Instr × Word) (s : State),
    s.flags.vm = false → sregOf n = some r →
    (x = (.movFromSreg c dst n, (s.seg.get r).sel)
      ∨ (s.pe = true ∧ (x = (.sldt c dst, s.ldtr.sel) ∨ x = (.str c dst, s.tr.sel)))) →
    match dst with
    | .reg q =>
      exec x.1 s = .next (s.ended
        (if c.op32 then (s.freed.setReg q (withLowWord s.free.head x.2)).advance c else (s.setReg16 q x.2).advance c))
    | .mem ea =>
      ∀ (t : State) (sp : Span), operandSpan (c.eaSegment ea) (s.eaOffset ea) 2 .write s = .ok sp t →
        let u := s.ended ((t.store { span := sp, bytes := toBytes 2 (x.2.setWidth 32) }).advance c)
        exec x.1 s = .next u
          ∧ Frame s t u fun a => s.accessByte (s.linear (c.eaSegment ea) (s.eaOffset ea)) 2 a ∨ sp.covers 2 a

/-- What a load of DS, ES, FS, GS or SS gives (40_protection_and_segment_loads.md R290, R293; 70_reset_and_hazards.md
R812): in real-address mode the base is the selector times 16; in protected mode a null selector makes DS, ES, FS or GS
unusable, and any other one brings the descriptor it names into the hidden part, with the accessed bit set. -/
def Obligations.SegmentLoadValue : Prop :=
  ∀ (r : Sreg) (sel : Word) (s : State), r ≠ .cs →
    (s.pe = false → loadSeg r sel s = .ok { reg := r, val := (s.seg.get r).realLoad sel, marks := [] } s)
    ∧ (s.pe = true → selNull sel = true → r ≠ .ss →
        loadSeg r sel s = .ok { reg := r, val := { s.seg.get r with sel := sel, valid := false }, marks := [] } s)
    ∧ (s.pe = true → selNull sel = false →
        ∀ (d : Descriptor) (t u : State) (marks : List Store),
          readDescriptor sel s = .ok (some d) t → d.present = true → markAccessed d t = .ok marks u →
          (if r = .ss then d.attr.writable = true ∧ selRpl sel = s.cpl ∧ d.dpl = s.cpl
           else d.attr.readable = true
             ∧ (d.attr.conforming = true ∨ (s.cpl ≤ d.dpl ∧ selRpl sel ≤ d.dpl))) →
          loadSeg r sel s = .ok { reg := r, val := d.segReg sel, marks := marks } u)

/-- The exceptions of a load of DS, ES, FS, GS or SS in protected mode (40_protection_and_segment_loads.md R290, R293, R295),
by MOV, by POP, and by LDS, LES, LSS, LFS and LGS: #GP with the selector for one that names no descriptor, for the wrong type
and for the wrong level; #NP with the selector for a segment that is not present, #SS when it is SS's; #GP(0) for a null
selector in SS. In the state in which the exception is delivered every general register, the stack pointer among them, every
segment register and EIP are as before the instruction. -/
def Obligations.SegmentLoadTraps : Prop :=
  ∀ (c : Ctx) (i : Instr) (r : Sreg) (s t : State) (sel : Word),
    s.flags.vm = false → r ≠ .cs → s.pe = true → selectorOperand c i r sel s t →
    let asBefore := fun x : State => x.freed.gpr = s.gpr ∧ x.freed.seg = s.seg ∧ x.freed.pc = s.pc
    asBefore t
    ∧ (selNull sel = true → r = .ss → exec i s = raised (faultWith t 0x0D#8 0x0000#16) t.freed)
    ∧ (selNull sel = false → t.lacksDescriptor sel = true →
        exec i s = raised (faultWith t 0x0D#8 (selErr sel false)) t.freed)
    ∧ (selNull sel = false → ∀ (d : Descriptor) (u : State), readDescriptor sel t = .ok (some d) u →
        asBefore u ∧
        let allowed := if r = .ss then d.attr.writable = true ∧ selRpl sel = s.cpl ∧ d.dpl = s.cpl
          else d.attr.readable = true ∧ (d.attr.conforming = true ∨ (s.cpl ≤ d.dpl ∧ selRpl sel ≤ d.dpl))
        (¬allowed → exec i s = raised (faultWith u 0x0D#8 (selErr sel false)) u.freed)
        ∧ (allowed → d.present = false →
            exec i s = raised (faultWith u (if r = .ss then 0x0C#8 else 0x0B#8) (selErr sel false)) u.freed))

/-- ARPL in protected mode (42_pointer_validation.md R382): where the destination's RPL is lower than the source's, it is
raised to it and ZF is 1; else ZF is 0 and nothing is written. A memory destination is checked as a write either way. The
model's choice: it is translated as a write either way too, which sets its page's dirty bit (log entry 53). -/
def Obligations.AdjustRpl : Prop :=
  ∀ (c : Ctx) (src : Reg) (s : State), s.flags.vm = false → s.pe = true →
    let rpl := selRpl (lowWord (s.reg src))
    (∀ r : Reg, exec (.arpl c (.reg r) src) s = .next (s.ended
        (if selRpl (lowWord (s.reg r)) < rpl then
          ((s.setReg16 r (withRpl (lowWord (s.reg r)) rpl)).setZf true).advance c
         else (s.setZf false).advance c)))
    ∧ ∀ (ea : Ea) (sp : Span) (t : State),
        checkedSpan (c.eaSegment ea) (s.eaOffset ea) 2 .write s = .ok sp t →
        let la := s.linear (c.eaSegment ea) (s.eaOffset ea)
        let d := lowWord (fromBytes (Memory.readSpan t.mem sp 0 2))
        let t1 := t.recordAccess la 2 false
        let u := s.ended
          (if selRpl d < rpl then
            (((t1.recordAccess la 2 true).store
              { span := sp, bytes := toBytes 2 ((withRpl d rpl).setWidth 32) }).setZf true).advance c
           else (t1.setZf false).advance c)
        exec (.arpl c (.mem ea) src) s = .next u
          ∧ Frame s t u fun a => s.accessByte la 2 a ∨ (selRpl d < rpl ∧ sp.covers 2 a)

/-- LAR and LSL of a selector that names a descriptor (42_pointer_validation.md R383, R384, R386): ZF is 1 and the
destination is written when the selector may be seen at the current level and the type is one the instruction accepts;
ZF is 0 and the destination stays otherwise. Bits 19:16 of LAR's result are a free value (log entry 18). The model's choice: LSL
with a 16-bit operand size writes the low word of the limit, and the register's upper half stays (log entry 13). -/
def Obligations.LoadRightsAndLimit : Prop :=
  ∀ (c : Ctx) (dst : Reg) (src : RM Reg) (s t u : State) (sel : Word) (d : Descriptor),
    s.flags.vm = false → s.pe = true → rmRead16 c src s = .ok sel t → selNull sel = false →
    readDescriptor sel t = .ok (some d) u →
    let seen := d.attr.conforming = true ∨ (s.cpl ≤ d.dpl ∧ selRpl sel ≤ d.dpl)
    let larOk := seen ∧ (d.attr.s = true ∨ d.attr.typ ∉ [0x0#4, 0x8#4, 0xA#4, 0xD#4])
    let lslOk := seen ∧ (d.attr.s = true ∨ d.attr.typ ∈ [0x1#4, 0x2#4, 0x3#4, 0x9#4, 0xB#4])
    (¬larOk → exec (.lar c dst src) s = .next (s.ended ((u.setZf false).advance c)))
    ∧ (¬lslOk → exec (.lsl c dst src) s = .next (s.ended ((u.setZf false).advance c)))
    ∧ ∀ (v : State) (marks : List Store), testMarks d u = .ok marks v →
        let rights := (d.hi &&& 0x00D0FF00#32) ||| (s.free.head &&& 0x000F0000#32)
        let wr := s.ended ((((v.freed.storeAll marks).setRegN dst c.opBytes rights).setZf true).advance c)
        let wl := s.ended ((((v.storeAll marks).setRegN dst c.opBytes d.limit).setZf true).advance c)
        let changed := fun a =>
          s.accessedByte (s.rmAccess c src 2 ++ s.descriptorAccess sel) a ∨ storesCover marks a
        (larOk → exec (.lar c dst src) s = .next wr ∧ Frame s v wr changed)
        ∧ (lslOk → exec (.lsl c dst src) s = .next wl ∧ Frame s v wl changed)

/-- VERR and VERW of a selector that names a descriptor (42_pointer_validation.md R383, R388, R389): ZF says whether the
segment may be seen at the current level and is readable, or writable. -/
def Obligations.VerifyAccess : Prop :=
  ∀ (c : Ctx) (src : RM Reg) (x : Instr × (Descriptor → Bool)) (s t u : State) (sel : Word) (d : Descriptor),
    x ∈ [(.verr c src, fun d => d.attr.readable), (.verw c src, fun d => d.attr.writable)] →
    s.flags.vm = false → s.pe = true → rmRead16 c src s = .ok sel t → selNull sel = false →
    readDescriptor sel t = .ok (some d) u →
    let ok := (d.attr.conforming = true ∨ (s.cpl ≤ d.dpl ∧ selRpl sel ≤ d.dpl)) ∧ x.2 d = true
    (¬ok → exec x.1 s = .next (s.ended ((u.setZf false).advance c)))
    ∧ (ok → ∀ (v : State) (marks : List Store), testMarks d u = .ok marks v →
        let w := s.ended (((v.storeAll marks).setZf true).advance c)
        exec x.1 s = .next w
          ∧ Frame s v w fun a =>
              s.accessedByte (s.rmAccess c src 2 ++ s.descriptorAccess sel) a ∨ storesCover marks a)

/-- LAR, LSL, VERR and VERW of a selector that names no descriptor (42_pointer_validation.md R383): ZF is 0, no exception,
nothing else changes. -/
def Obligations.SelectorTestOfNothing : Prop :=
  ∀ (c : Ctx) (dst : Reg) (src : RM Reg) (i : Instr) (s t : State) (sel : Word),
    i ∈ [.lar c dst src, .lsl c dst src, .verr c src, .verw c src] →
    s.flags.vm = false → s.pe = true → rmRead16 c src s = .ok sel t →
    (selNull sel = true ∨ t.lacksDescriptor sel = true) →
    let u := s.ended ((t.setZf false).advance c)
    exec i s = .next u ∧ Frame s t u fun a => s.accessedByte (s.rmAccess c src 2) a

/-- LLDT at privilege level 0 (43_system_registers.md R404): a null selector makes LDTR unusable; an LDT descriptor of the
GDT is loaded; #GP with the selector for one in an LDT, one that names no descriptor and one of another type; #NP with
the selector for an LDT that is not present. -/
def Obligations.LoadLdtRegister : Prop :=
  ∀ (c : Ctx) (src : RM Reg) (s t : State) (sel : Word),
    s.flags.vm = false → s.pe = true → s.cpl = 0#2 → rmRead16 c src s = .ok sel t →
    (selNull sel = true →
      exec (.lldt c src) s = .next (s.ended (State.advance { t with ldtr := { t.ldtr with sel := sel, valid := false } } c)))
    ∧ (selNull sel = false → (selTi sel = true ∨ t.lacksDescriptor sel = true) →
        exec (.lldt c src) s = raised (faultWith t 0x0D#8 (selErr sel false)) t.freed)
    ∧ (selNull sel = false → selTi sel = false → ∀ (d : Descriptor) (u : State), readDescriptor sel t = .ok (some d) u →
        let w := s.ended
          (State.advance { u with ldtr := { sel := sel, base := d.base, limit := d.limit, valid := true } } c)
        (d.kind ≠ 0b00010#5 → exec (.lldt c src) s = raised (faultWith u 0x0D#8 (selErr sel false)) u.freed)
        ∧ (d.kind = 0b00010#5 → d.present = false →
            exec (.lldt c src) s = raised (faultWith u 0x0B#8 (selErr sel false)) u.freed)
        ∧ (d.kind = 0b00010#5 → d.present = true →
            exec (.lldt c src) s = .next w
              ∧ Frame s u w fun a => s.accessedByte (s.rmAccess c src 2 ++ s.descriptorAccess sel) a))

/-- LTR at privilege level 0 (43_system_registers.md R406): the descriptor of an available TSS of the GDT is loaded into
TR and marked busy; no task switch happens. #GP(0) for a null selector; #GP with the selector for one in an LDT, one that
names no descriptor, and a busy TSS or another type; #NP with the selector for a TSS that is not present. -/
def Obligations.LoadTaskRegister : Prop :=
  ∀ (c : Ctx) (src : RM Reg) (s t : State) (sel : Word),
    s.flags.vm = false → s.pe = true → s.cpl = 0#2 → rmRead16 c src s = .ok sel t →
    (selNull sel = true → exec (.ltr c src) s = raised (faultWith t 0x0D#8 0x0000#16) t.freed)
    ∧ (selNull sel = false → (selTi sel = true ∨ t.lacksDescriptor sel = true) →
        exec (.ltr c src) s = raised (faultWith t 0x0D#8 (selErr sel false)) t.freed)
    ∧ (selNull sel = false → selTi sel = false → ∀ (d : Descriptor) (u : State), readDescriptor sel t = .ok (some d) u →
        (d.kind ∉ [0b01001#5, 0b00001#5, 0b00011#5] →
          exec (.ltr c src) s = raised (faultWith u 0x0D#8 (selErr sel false)) u.freed)
        ∧ (d.kind = 0b01001#5 → d.present = false →
            exec (.ltr c src) s = raised (faultWith u 0x0B#8 (selErr sel false)) u.freed)
        ∧ (d.kind = 0b01001#5 → d.present = true → ∀ (st : Store) (v : State),
            sysPrepare (d.addr + 4#32) (toBytes 4 (d.hi ||| 0x00000200#32)) u = .ok st v →
            let w := s.ended
              (State.advance { v.store st with tr := { sel := sel, base := d.base, limit := d.limit, valid := true } } c)
            exec (.ltr c src) s = .next w
              ∧ Frame s v w fun a =>
                  s.accessedByte (s.rmAccess c src 2 ++ s.descriptorAccess sel) a ∨ st.span.covers 4 a))

/-- SGDT and SIDT (43_system_registers.md R401, R403): the limit goes to the word at the operand, the base to the
doubleword above it; they are not privileged. A base that would lie past offset FFFFFFFFH is beyond the limit
(40_protection_and_segment_loads.md R280): #GP(0), or #SS(0) through SS, and nothing is stored. -/
def Obligations.StoreTableRegister : Prop :=
  ∀ (c : Ctx) (ea : Ea) (s t : State) (sp : Span) (x : Instr × TableReg),
    x ∈ [(.sgdt c (.mem ea), s.gdtr), (.sidt c (.mem ea), s.idtr)] → s.flags.vm = false →
    let seg := c.eaSegment ea
    let off := s.eaOffset ea
    operandSpan seg off 2 .write s = .ok sp t →
    (4294967296 ≤ off.toNat + 2 → exec x.1 s = raised (faultWith t (limitVector seg) 0x0000#16) t.freed)
    ∧ (off.toNat + 2 < 4294967296 → ∀ (u : State) (sp' : Span),
        operandSpan seg (off + 2#32) 4 .write t = .ok sp' u →
        let w := s.ended ((u.storeAll [{ span := sp, bytes := toBytes 2 (x.2.limit.setWidth 32) },
          { span := sp', bytes := toBytes 4 x.2.base }]).advance c)
        exec x.1 s = .next w
          ∧ Frame s u w fun a =>
              s.accessedByte [(s.linear seg off, 2), (s.linear seg (off + 2#32), 4)] a
                ∨ sp.covers 2 a ∨ sp'.covers 4 a)

/-- LGDT and LIDT at privilege level 0 or in real-address mode (43_system_registers.md R400, R402): the word at the operand
is the limit, the doubleword above it the base, of which a 16-bit operand size takes 24 bits. A base that would lie past
offset FFFFFFFFH is beyond the limit (40_protection_and_segment_loads.md R280): #GP(0), or #SS(0) through SS. -/
def Obligations.LoadTableRegister : Prop :=
  ∀ (c : Ctx) (ea : Ea) (s t : State) (sp : Span) (x : Instr × (State → TableReg → State)),
    x ∈ [(.lgdt c (.mem ea), fun v g => { v with gdtr := g }), (.lidt c (.mem ea), fun v g => { v with idtr := g })] →
    s.flags.vm = false → (s.pe = true → s.cpl = 0#2) →
    let seg := c.eaSegment ea
    let off := s.eaOffset ea
    operandSpan seg off 2 .read s = .ok sp t →
    (4294967296 ≤ off.toNat + 2 → exec x.1 s = raised (faultWith t (limitVector seg) 0x0000#16) t.freed)
    ∧ (off.toNat + 2 < 4294967296 → ∀ (u : State) (sp' : Span),
        operandSpan seg (off + 2#32) 4 .read t = .ok sp' u →
        let limit := lowWord (fromBytes (Memory.readSpan t.mem sp 0 2))
        let base := fromBytes (Memory.readSpan u.mem sp' 0 4)
        let w := s.ended
          ((x.2 u { base := if c.op32 then base else base &&& 0x00FFFFFF#32, limit := limit }).advance c)
        exec x.1 s = .next w
          ∧ Frame s u w fun a => s.accessedByte [(s.linear seg off, 2), (s.linear seg (off + 2#32), 4)] a)

/-- SMSW at every level, and LMSW at privilege level 0 or in real-address mode (43_system_registers.md R416, R417): SMSW
stores CR0[15:0]; LMSW replaces MP, EM and TS, sets PE if it is given, never clears it, and leaves every other bit. -/
def Obligations.MachineStatusWord : Prop :=
  ∀ (c : Ctx) (s : State), s.flags.vm = false →
    (∀ r : Reg, exec (.smsw c (.reg r)) s = .next (s.ended ((s.setReg16 r (lowWord s.ctl.cr0)).advance c)))
    ∧ (∀ (ea : Ea) (sp : Span) (t : State),
        operandSpan (c.eaSegment ea) (s.eaOffset ea) 2 .write s = .ok sp t →
        let u := s.ended ((t.store { span := sp, bytes := toBytes 2 ((lowWord s.ctl.cr0).setWidth 32) }).advance c)
        exec (.smsw c (.mem ea)) s = .next u
          ∧ Frame s t u fun a => s.accessByte (s.linear (c.eaSegment ea) (s.eaOffset ea)) 2 a ∨ sp.covers 2 a)
    ∧ (∀ (src : RM Reg) (v : Word) (t : State), (s.pe = true → s.cpl = 0#2) → rmRead16 c src s = .ok v t →
        ∃ cr0 : Dword,
          exec (.lmsw c src) s = .next (s.ended (State.advance { t with ctl := { t.ctl with cr0 := cr0 } } c))
            ∧ cr0.getLsbD 0 = (s.pe || v.getLsbD 0) ∧ cr0.getLsbD 1 = v.getLsbD 1 ∧ cr0.getLsbD 2 = v.getLsbD 2
            ∧ cr0.getLsbD 3 = v.getLsbD 3 ∧ (∀ k, 4 ≤ k → cr0.getLsbD k = s.ctl.cr0.getLsbD k))

/-- CLTS (43_system_registers.md R418): #GP(0) at a CPL other than 0; at CPL 0, the level of real-address mode too, TS is
cleared and no other bit of CR0, EIP moves past the instruction, and EFLAGS stays but for RF, which every instruction's end
clears. -/
def Obligations.ClearTaskSwitched : Prop :=
  ∀ (c : Ctx) (s : State), s.flags.vm = false →
    (s.pe = true → s.cpl ≠ 0#2 → exec (.clts c) s = raised (faultWith s 0x0D#8 0x0000#16) s.freed)
    ∧ ((s.pe = true → s.cpl = 0#2) →
        exec (.clts c) s = .next (s.ended
          { s with ctl := { s.ctl with cr0 := s.ctl.cr0 &&& 0xFFFFFFF7#32 }, pc := s.pc + BitVec.ofNat 32 c.len }))

/-- MOV from a control, debug or test register at privilege level 0 or in real-address mode (43_system_registers.md R410,
R412, R414): the whole register goes to the general register, whatever the operand size; the debug registers are read
unless in-circuit emulation owns them (48_debug.md R648). The model's choice: the flags, which the spec leaves undefined, stay
(log entry 21), and reserved bits read back as they were written (log entry 22). -/
def Obligations.ReadSpecialRegister : Prop :=
  ∀ (c : Ctx) (dst : Reg) (mb : BitVec 2) (s : State) (x : Instr × Dword),
    s.flags.vm = false → (s.pe = true → s.cpl = 0#2) →
    (x ∈ [(.movFromCr c dst 0#3 mb, s.ctl.cr0), (.movFromCr c dst 2#3 mb, s.ctl.cr2), (.movFromCr c dst 3#3 mb, s.ctl.cr3),
          (.movFromTr c dst 6#3 mb, s.tlb.tr6), (.movFromTr c dst 7#3 mb, s.tlb.tr7)]
      ∨ ((s.params.iceInUse = false ∨ s.flags.rf = true) ∧
          x ∈ [(.movFromDr c dst 0#3 mb, s.dbg.dr0), (.movFromDr c dst 1#3 mb, s.dbg.dr1),
               (.movFromDr c dst 2#3 mb, s.dbg.dr2), (.movFromDr c dst 3#3 mb, s.dbg.dr3),
               (.movFromDr c dst 6#3 mb, s.dbg.dr6), (.movFromDr c dst 7#3 mb, s.dbg.dr7)])) →
    exec x.1 s = .next (s.ended ((s.setReg dst x.2).advance c))

/-- MOV to a control register, a debug register or TR7 at privilege level 0 or in real-address mode
(43_system_registers.md R411, R413, R415): the whole register is written and no other changes, but that a write of CR3
makes every TLB entry invalid (20_memory.md R201); CR0 with PG = 1 and PE = 0 raises #GP(0) and is not written. The model's
choice: the flags, which the spec leaves undefined, stay (log entry 21), and reserved bits are stored as given (log entry
22). -/
def Obligations.WriteSpecialRegister : Prop :=
  ∀ (c : Ctx) (src : Reg) (mb : BitVec 2) (s : State) (x : Instr × State),
    s.flags.vm = false → (s.pe = true → s.cpl = 0#2) →
    let v := s.reg src
    let legal := ¬(v.getLsbD 31 = true ∧ v.getLsbD 0 = false)
    (¬legal → exec (.movToCr c 0#3 src mb) s = raised (faultWith s 0x0D#8 0x0000#16) s.freed)
    ∧ ((legal ∧ x = (.movToCr c 0#3 src mb, { s with ctl := { s.ctl with cr0 := v } })
        ∨ x ∈ [(.movToCr c 2#3 src mb, { s with ctl := { s.ctl with cr2 := v } }),
               (.movToCr c 3#3 src mb, { s with ctl := { s.ctl with cr3 := v }, tlb := s.tlb.flush }),
               (.movToTr c 7#3 src mb, { s with tlb := { s.tlb with tr7 := v } })]
        ∨ ((s.params.iceInUse = false ∨ s.flags.rf = true) ∧
            x ∈ [(.movToDr c 0#3 src mb, { s with dbg := { s.dbg with dr0 := v } }),
                 (.movToDr c 1#3 src mb, { s with dbg := { s.dbg with dr1 := v } }),
                 (.movToDr c 2#3 src mb, { s with dbg := { s.dbg with dr2 := v } }),
                 (.movToDr c 3#3 src mb, { s with dbg := { s.dbg with dr3 := v } }),
                 (.movToDr c 6#3 src mb, { s with dbg := { s.dbg with dr6 := v } }),
                 (.movToDr c 7#3 src mb, { s with dbg := { s.dbg with dr7 := v } })])) →
      exec x.1 s = .next (s.ended (x.2.advance c)))

/-- The TLB commands of a MOV to TR6 (49_tlb_test.md R675 to R677), the three bit pairs defined. C = 0 with HT = 1 writes
the entry that TR7 and the linear address select; C = 1 with V = 1, where no two valid entries hold the address, finds it:
one match sets HT, gives its block and its physical address, and no match clears HT. The model's choice: the flags, which the
spec leaves undefined, stay (log entry 21), the reserved bits of TR6 are stored as given (log entry 22), and a lookup that
finds nothing takes a free value for the rest of TR7 (log entry 33). -/
def Obligations.TlbTestCommands : Prop :=
  ∀ (c : Ctx) (src : Reg) (mb : BitVec 2) (s : State),
    s.flags.vm = false → (s.pe = true → s.cpl = 0#2) →
    let v := s.reg src
    v.getLsbD 9 = !v.getLsbD 10 → v.getLsbD 7 = !v.getLsbD 8 → v.getLsbD 5 = !v.getLsbD 6 →
    let i := tlbIndex (pageOf v)
    let e : TlbEntry := { known := true, v := v.getLsbD 11, la := pageOf v, d := v.getLsbD 10, u := v.getLsbD 8,
                          w := v.getLsbD 6, pa := s.tlb.tr7.extractLsb' 12 20 }
    let found := fun b => (s.tlb.entry b i).la = pageOf v ∧ (s.tlb.entry b i).v = true
      ∧ (s.tlb.entry b i).d = v.getLsbD 10 ∧ (s.tlb.entry b i).u = v.getLsbD 8 ∧ (s.tlb.entry b i).w = v.getLsbD 6
    let held := fun b => (s.tlb.entry b i).la = pageOf v ∧ (s.tlb.entry b i).v = true
    (v.getLsbD 0 = false → s.tlb.tr7.getLsbD 4 = true →
      exec (.movToTr c 6#3 src mb) s = .next (s.ended (State.advance
        { s with tlb := { s.tlb.setEntry (s.tlb.tr7.extractLsb' 2 2).toNat i e with tr6 := v } } c)))
    ∧ (v.getLsbD 0 = true → v.getLsbD 11 = true → (∀ b b', b < 4 → b' < 4 → held b → held b' → b' = b) →
        (∀ b, b < 4 → found b →
          ∃ t : State, exec (.movToTr c 6#3 src mb) s = .next (s.ended (t.advance c))
            ∧ t = { s with tlb := { s.tlb with tr6 := t.tlb.tr6, tr7 := t.tlb.tr7 } } ∧ t.tlb.tr6 = v
            ∧ t.tlb.tr7.getLsbD 4 = true ∧ t.tlb.tr7.extractLsb' 2 2 = BitVec.ofNat 2 b
            ∧ t.tlb.tr7.extractLsb' 12 20 = (s.tlb.entry b i).pa)
        ∧ ((∀ b, b < 4 → ¬found b) →
          ∃ t : State, exec (.movToTr c 6#3 src mb) s = .next (s.ended (t.advance c))
            ∧ t = { s with tlb := { s.tlb with tr6 := t.tlb.tr6, tr7 := t.tlb.tr7 }, free := s.free.next }
            ∧ t.tlb.tr6 = v ∧ t.tlb.tr7.getLsbD 4 = false))

/-- JMP rel8, rel16/32, r/m16/32 (41_control_transfer.md R333): EIP becomes the target, cut to the operand size (log
entry 13), when it lies within CS; else #GP(0). -/
def Obligations.NearJump : Prop :=
  ∀ (c : Ctx) (i : Instr) (target : Dword) (reads : List (Dword × Nat)) (s t : State), s.flags.vm = false →
    ((∃ d, i = .jmpRel8 c d ∧ target = c.cutTarget (s.pc + BitVec.ofNat 32 c.len + d.signExtend 32) ∧ reads = [] ∧ t = s)
      ∨ (∃ d, i = .jmpRel c d ∧ target = c.cutTarget (s.pc + BitVec.ofNat 32 c.len + d.signed) ∧ reads = [] ∧ t = s)
      ∨ ∃ rm, i = .jmpNear c rm ∧ rmRead c rm c.opBytes s = .ok target t ∧ reads = s.rmAccess c rm c.opBytes) →
    (t.segOk .cs target 1 .fetch = false → exec i s = raised (faultWith t 0x0D#8 0x0000#16) t.freed)
    ∧ (t.segOk .cs target 1 .fetch = true →
        let u := s.ended { t with pc := target }
        exec i s = .next u ∧ Frame s t u fun a => s.accessedByte reads a)

/-- CALL rel16/32, r/m16/32 (41_control_transfer.md R334): the target, cut to the operand size (log entry 13), is checked first,
then the next instruction's EIP, of which a 16-bit operand size takes the low word (log entry 13), is pushed and EIP becomes
the target. -/
def Obligations.NearCall : Prop :=
  ∀ (c : Ctx) (i : Instr) (target : Dword) (reads : List (Dword × Nat)) (s t : State), s.flags.vm = false →
    ((∃ d, i = .callRel c d ∧ target = c.cutTarget (s.pc + BitVec.ofNat 32 c.len + d.signed) ∧ reads = [] ∧ t = s)
      ∨ ∃ rm, i = .callNear c rm ∧ rmRead c rm c.opBytes s = .ok target t ∧ reads = s.rmAccess c rm c.opBytes) →
    (t.segOk .cs target 1 .fetch = false → exec i s = raised (faultWith t 0x0D#8 0x0000#16) t.freed)
    ∧ (t.segOk .cs target 1 .fetch = true → ∀ (sp : Span) (u : State),
        operandSpan .ss (s.stackBelow c.opBytes) c.opBytes .write t = .ok sp u →
        let ret := toBytes c.opBytes (s.pc + BitVec.ofNat 32 c.len)
        let v := s.ended { (u.store { span := sp, bytes := ret }).moveDown c.opBytes with pc := target }
        exec i s = .next v
          ∧ Frame s u v fun a =>
              s.accessedByte ((s.linear .ss (s.stackBelow c.opBytes), c.opBytes) :: reads) a ∨ sp.covers c.opBytes a)

/-- RET near, with or without an immediate (41_control_transfer.md R335): EIP is popped when it lies within CS, else #GP(0);
the stack pointer moves up past it and past the immediate's number of bytes. With a 16-bit operand size a word is popped and
EIP is that word (log entry 13). -/
def Obligations.NearReturn : Prop :=
  ∀ (c : Ctx) (m : Word) (x : Instr × Nat) (s t : State) (target : Dword),
    x ∈ [(.retNear c, 0), (.retNearImm c m, m.toNat)] → s.flags.vm = false →
    stackRead 0 c.opBytes s = .ok target t →
    (t.segOk .cs target 1 .fetch = false → exec x.1 s = raised (faultWith t 0x0D#8 0x0000#16) t.freed)
    ∧ (t.segOk .cs target 1 .fetch = true →
        let u := s.ended { t.moveUp (c.opBytes + x.2) with pc := target }
        exec x.1 s = .next u ∧ Frame s t u fun a => s.accessByte (s.linear .ss (s.stackOff 0)) c.opBytes a)

/-- JMP and CALL far in real-address mode (41_control_transfer.md R336, R337, R356; 70_reset_and_hazards.md R802, R812): CS
takes the selector with a base 16 times it, EIP the offset, with no check; CALL pushes CS and the next instruction's EIP
first. A pointer in memory holds the selector right above the offset (20_memory.md R211); a 16-bit operand size makes the
slots words (log entry 13), and the upper half of a doubleword that holds CS is a free value (log entry 17). -/
def Obligations.FarTransferReal : Prop :=
  ∀ (c : Ctx) (i : Instr) (off : Dword) (sel : Word) (reads : List (Dword × Nat)) (s t : State),
    s.flags.vm = false → s.pe = false →
    (farOperand c (.jmpFar c) (.jmpFarMem c) i off sel reads s t →
      let u := s.ended { (t.setSeg .cs (t.seg.cs.realLoad sel)).a31Freed with pc := off }
      exec i s = .next u ∧ Frame s t u fun a => s.accessedByte reads a)
    ∧ (farOperand c (.callFar c) (.callFarMem c) i off sel reads s t →
        ∀ (sp sp' : Span) (u v : State),
          let n := c.opBytes
          operandSpan .ss (s.stackBelow n) n .write t = .ok sp u →
          operandSpan .ss (s.stackBelow (2 * n)) n .write u = .ok sp' v →
          let w := s.ended
            { (((v.afterSlot n).storeAll [{ span := sp, bytes := s.selectorBytes n s.seg.cs.sel },
                { span := sp', bytes := toBytes n (s.pc + BitVec.ofNat 32 c.len) }]).moveDown (2 * n)).setSeg .cs
                  (s.seg.cs.realLoad sel) with
              pc := off, run := { v.run with a31Forced := false } }
          exec i s = .next w
            ∧ Frame s v w fun a =>
                s.accessedByte ((s.linear .ss (s.stackBelow n), n) :: (s.linear .ss (s.stackBelow (2 * n)), n) :: reads) a
                  ∨ sp.covers n a ∨ sp'.covers n a)

/-- RET far in real-address mode, with or without an immediate (41_control_transfer.md R350, R356; 70_reset_and_hazards.md
R812): EIP and CS are popped, CS with a base 16 times the selector. With a 16-bit operand size the slots are words (log entry
13). The model's choice: the frame is tested as a whole, and one with a byte beyond FFFFH raises #SS (log entry 14). -/
def Obligations.FarReturnReal : Prop :=
  ∀ (c : Ctx) (m : Word) (x : Instr × Nat) (s : State),
    x ∈ [(.retFar c, 0), (.retFarImm c m, m.toNat)] → s.flags.vm = false → s.pe = false →
    let n := c.opBytes
    (65536 < (s.stackOff 0).toNat + 2 * n → exec x.1 s = raised (faultWith s 0x0C#8 0x0000#16) s.freed)
    ∧ ((s.stackOff 0).toNat + 2 * n ≤ 65536 → ∀ (t u : State) (eip vcs : Dword),
        stackRead 0 n s = .ok eip t → stackRead n n t = .ok vcs u →
        let w := s.ended
          { (u.moveUp (2 * n + x.2)).setSeg .cs (s.seg.cs.realLoad (lowWord vcs)) with pc := eip }
        exec x.1 s = .next w
          ∧ Frame s u w fun a => s.accessedByte [(s.linear .ss (s.stackOff 0), n), (s.linear .ss (s.stackOff n), n)] a)

/-- JMP and CALL far in protected mode to a code segment (41_control_transfer.md R336 to R338), and their exceptions: #GP(0)
for a null selector; #GP with the selector for one that names no descriptor, for a segment that is not code or a system
descriptor that is no gate and no TSS, and for a segment of another level; #NP with the selector for one that is not present;
#GP(0) for an offset past its limit. Else CS takes the descriptor, with CPL as its RPL, and EIP the offset; CALL pushes CS and
the next instruction's EIP first. A pointer in memory holds the selector right above the offset (20_memory.md R211); a 16-bit
operand size makes the slots words (log entry 13), and the upper half of a doubleword that holds CS is a free value (log entry
17). -/
def Obligations.FarTransferSameLevel : Prop :=
  ∀ (c : Ctx) (i : Instr) (off : Dword) (sel : Word) (reads : List (Dword × Nat)) (s t : State),
    s.flags.vm = false → s.pe = true →
    (farOperand c (.jmpFar c) (.jmpFarMem c) i off sel reads s t
      ∨ farOperand c (.callFar c) (.callFarMem c) i off sel reads s t) →
    (selNull sel = true → exec i s = raised (faultWith t 0x0D#8 0x0000#16) t.freed)
    ∧ (selNull sel = false → t.lacksDescriptor sel = true →
        exec i s = raised (faultWith t 0x0D#8 (selErr sel false)) t.freed)
    ∧ (selNull sel = false → ∀ (d : Descriptor) (u : State), readDescriptor sel t = .ok (some d) u →
        let other := d.attr.code = false
          ∧ d.kind ∉ [0b01100#5, 0b00101#5, 0b01001#5, 0b00001#5, 0b00011#5, 0b00100#5]
        let level := d.attr.code = true ∧ (d.dpl = s.cpl ∨ (d.attr.conforming = true ∧ d.dpl ≤ s.cpl))
        (other → exec i s = raised (faultWith u 0x0D#8 (selErr sel false)) u.freed)
        ∧ (d.attr.code = true → ¬level → exec i s = raised (faultWith u 0x0D#8 (selErr sel false)) u.freed)
        ∧ (level → d.present = false → exec i s = raised (faultWith u 0x0B#8 (selErr sel false)) u.freed)
        ∧ (level → d.present = true → d.holds off = false →
            exec i s = raised (faultWith u 0x0D#8 0x0000#16) u.freed)
        ∧ (level → d.present = true → d.holds off = true →
            let cs := d.segReg (withRpl sel s.cpl)
            (farOperand c (.jmpFar c) (.jmpFarMem c) i off sel reads s t →
              ∀ (marks : List Store) (v : State), markAccessed d u = .ok marks v →
                let w := s.ended { ((v.storeAll marks).setSeg .cs cs).a31Freed with pc := off }
                exec i s = .next w
                  ∧ Frame s v w fun a => s.accessedByte (reads ++ s.descriptorAccess sel) a ∨ storesCover marks a)
            ∧ (farOperand c (.callFar c) (.callFarMem c) i off sel reads s t →
                ∀ (sp sp' : Span) (u1 u2 v : State) (marks : List Store),
                  let n := c.opBytes
                  operandSpan .ss (s.stackBelow n) n .write u = .ok sp u1 →
                  operandSpan .ss (s.stackBelow (2 * n)) n .write u1 = .ok sp' u2 →
                  markAccessed d (u2.afterSlot n) = .ok marks v →
                  let pushes : List Store := [{ span := sp, bytes := s.selectorBytes n s.seg.cs.sel },
                    { span := sp', bytes := toBytes n (s.pc + BitVec.ofNat 32 c.len) }]
                  let w := s.ended
                    { ((((v.storeAll pushes).moveDown (2 * n)).storeAll marks).setSeg .cs cs).a31Freed with pc := off }
                  exec i s = .next w
                    ∧ Frame (s.afterSlot n) v w fun a =>
                        s.accessedByte ((s.linear .ss (s.stackBelow n), n) :: (s.linear .ss (s.stackBelow (2 * n)), n)
                          :: (reads ++ s.descriptorAccess sel)) a
                          ∨ storesCover (pushes ++ marks) a)))

/-- JMP and CALL far through a 386 call gate (41_control_transfer.md R341): #GP with the gate's selector where its DPL forbids
it, #NP with it for a gate that is not present; for the gate's own selector #GP(0) where it is null, #GP with it where it names
no descriptor, no code segment or one of a forbidden level, #NP with it where the segment is not present; #GP(0) for an offset
past the limit. Without a change of level CS takes the segment, with CPL as its RPL, and EIP the gate's offset; CALL pushes CS
and the next instruction's EIP as doublewords first. CALL to a more privileged nonconforming segment (R344, R345): the new
level's stack comes from the TSS; onto it go the old SS and ESP, the gate's count of doublewords from the old stack
in their order, the old CS and the next instruction's EIP; CS:EIP are the gate's, CPL is the segment's DPL. #TS with TR's
selector for a TSS that does not hold the level's stack; #TS with the stack's selector where it is null, names no descriptor or
no writable data segment, or has another RPL; #SS(0) for another DPL, #SS with the selector where the segment is not present or
has no room. The upper half of a doubleword that holds a selector is a free value (log entry 17); a gate's slots are
doublewords (log entry 13). The model's choice: the room is counted down from the new stack's pointer modulo 2^32 (log entry
49). -/
def Obligations.InterlevelCall : Prop :=
  (∀ (c : Ctx) (i : Instr) (isCall : Bool) (off : Dword) (gsel : Word) (reads : List (Dword × Nat)) (gate : Descriptor)
      (s t s1 : State),
    s.flags.vm = false → s.pe = true →
    farOperand c (if isCall then .callFar c else .jmpFar c) (if isCall then .callFarMem c else .jmpFarMem c) i off gsel reads
      s t →
    selNull gsel = false → readDescriptor gsel t = .ok (some gate) s1 → gate.kind = 0b01100#5 →
    let tsel := gate.gateSel
    let gp := fun (v : State) (code : Word) => raised (faultWith v 0x0D#8 code) v.freed
    let np := fun (v : State) (code : Word) => raised (faultWith v 0x0B#8 code) v.freed
    let open_ := s.cpl ≤ gate.dpl ∧ selRpl gsel ≤ gate.dpl
    (¬open_ → exec i s = gp s1 (selErr gsel false))
    ∧ (open_ → gate.present = false → exec i s = np s1 (selErr gsel false))
    ∧ (open_ → gate.present = true →
        (selNull tsel = true → exec i s = gp s1 0x0000#16)
        ∧ (selNull tsel = false → s1.lacksDescriptor tsel = true → exec i s = gp s1 (selErr tsel false))
        ∧ (selNull tsel = false → ∀ (d : Descriptor) (s2 : State), readDescriptor tsel s1 = .ok (some d) s2 →
            let level := d.attr.code = true ∧ d.dpl ≤ s.cpl
              ∧ (isCall = true ∨ d.attr.conforming = true ∨ d.dpl = s.cpl)
            let same := level ∧ d.present = true ∧ (d.attr.conforming = true ∨ d.dpl = s.cpl)
            let cs := d.segReg (withRpl tsel s.cpl)
            let accesses := reads ++ s.descriptorAccess gsel ++ s.descriptorAccess tsel
            (¬level → exec i s = gp s2 (selErr tsel false))
            ∧ (level → d.present = false → exec i s = np s2 (selErr tsel false))
            ∧ (same → d.holds gate.gateOff = false → exec i s = gp s2 0x0000#16)
            ∧ (same → d.holds gate.gateOff = true → isCall = false →
                ∀ (marks : List Store) (v : State), markAccessed d s2 = .ok marks v →
                  let w := s.ended { ((v.storeAll marks).setSeg .cs cs).a31Freed with pc := gate.gateOff }
                  exec i s = .next w ∧ Frame s v w fun a => s.accessedByte accesses a ∨ storesCover marks a)
            ∧ (same → d.holds gate.gateOff = true → isCall = true →
                ∀ (sp sp' : Span) (u1 u2 v : State) (marks : List Store),
                  operandSpan .ss (s.stackBelow 4) 4 .write s2 = .ok sp u1 →
                  operandSpan .ss (s.stackBelow 8) 4 .write u1 = .ok sp' u2 →
                  markAccessed d u2.freed = .ok marks v →
                  let pushes : List Store := [{ span := sp, bytes := s.selectorBytes 4 s.seg.cs.sel },
                    { span := sp', bytes := toBytes 4 (s.pc + BitVec.ofNat 32 c.len) }]
                  let w := s.ended
                    { ((((v.storeAll pushes).moveDown 8).storeAll marks).setSeg .cs cs).a31Freed with
                      pc := gate.gateOff }
                  exec i s = .next w
                    ∧ Frame s.freed v w fun a =>
                        s.accessedByte ((s.linear .ss (s.stackBelow 4), 4) :: (s.linear .ss (s.stackBelow 8), 4)
                          :: accesses) a ∨ storesCover (pushes ++ marks) a))))
  ∧ ∀ (c : Ctx) (i : Instr) (off : Dword) (gsel : Word) (reads : List (Dword × Nat)) (s t s1 s2 : State) (gate d : Descriptor),
    s.flags.vm = false → s.pe = true → farOperand c (.callFar c) (.callFarMem c) i off gsel reads s t →
    selNull gsel = false → readDescriptor gsel t = .ok (some gate) s1 → gate.kind = 0b01100#5 → gate.present = true →
    s.cpl ≤ gate.dpl → selRpl gsel ≤ gate.dpl →
    selNull gate.gateSel = false → readDescriptor gate.gateSel s1 = .ok (some d) s2 →
    d.attr.code = true → d.attr.conforming = false → d.dpl < s.cpl → d.present = true →
    let ts := fun (v : State) (code : Word) => raised (faultWith v 0x0A#8 code) v.freed
    let sf := fun (v : State) (code : Word) => raised (faultWith v 0x0C#8 code) v.freed
    let need := 16 + 4 * gate.gateCount
    (s.tr.limit.toNat < 8 * d.dpl.toNat + 9 → exec i s = ts s2 (selErr s.tr.sel false))
    ∧ ∀ (nesp : Dword) (nss : Word) (s3 : State), innerStack d.dpl false s2 = .ok (nesp, nss) s3 →
        ((selNull nss = true ∨ s3.lacksDescriptor nss = true) → exec i s = ts s3 (selErr nss false))
        ∧ ∀ (sd : Descriptor) (s4 : State), selNull nss = false → readDescriptor nss s3 = .ok (some sd) s4 →
          let room := (sd.segReg nss).inLimit (nesp - BitVec.ofNat 32 need) need
          ((selRpl nss ≠ d.dpl ∨ sd.attr.writable = false) → exec i s = ts s4 (selErr nss false))
          ∧ (selRpl nss = d.dpl → sd.attr.writable = true → sd.dpl ≠ d.dpl → exec i s = sf s4 0x0000#16)
          ∧ (selRpl nss = d.dpl → sd.attr.writable = true → sd.dpl = d.dpl → (sd.present = false ∨ room = false) →
              exec i s = sf s4 (selErr nss false))
          ∧ (selRpl nss = d.dpl → sd.attr.writable = true → sd.dpl = d.dpl → sd.present = true → room = true →
              (d.holds gate.gateOff = false → exec i s = raised (faultWith s4 0x0D#8 0x0000#16) s4.freed)
              ∧ (d.holds gate.gateOff = true →
                  ∀ (s5 s6 s7 s8 : State) (params : List Dword) (ssMarks csMarks pushes : List Store),
                  readParams 0 gate.gateCount s4 = .ok params s5 →
                  markAccessed sd s5.freed.freed = .ok ssMarks s6 → markAccessed d s6 = .ok csMarks s7 →
                  innerPushes (sd.segReg nss) nesp
                      ([toBytes 4 (withLowWord s.free.head s.seg.ss.sel), toBytes 4 s.gpr.esp]
                        ++ params.reverse.map (toBytes 4)
                        ++ [toBytes 4 (withLowWord s.free.next.head s.seg.cs.sel),
                            toBytes 4 (s.pc + BitVec.ofNat 32 c.len)]) s7 = .ok pushes s8 →
                  let w := s.ended
                    { ((((s8.storeAll (ssMarks ++ csMarks ++ pushes)).setSeg .ss (sd.segReg nss)).setSeg .cs
                        (d.segReg (withRpl gate.gateSel d.dpl))).setReg .esp (nesp - BitVec.ofNat 32 need)).a31Freed with
                      cpl := d.dpl, pc := gate.gateOff }
                  let tss := s.tr.base + BitVec.ofNat 32 (8 * d.dpl.toNat)
                  exec i s = .next w
                    ∧ Frame s.freed.freed s8 w fun a =>
                        s.accessedByte (reads ++ s.descriptorAccess gsel ++ s.descriptorAccess gate.gateSel
                          ++ [(tss + 0x00000004#32, 4), (tss + 0x00000008#32, 2)] ++ s.descriptorAccess nss
                          ++ ((List.range gate.gateCount).map fun k => (s.linear .ss (s.stackOff (4 * k)), 4))
                          ++ ((List.range (need / 4)).map fun k => (sd.base + (nesp - BitVec.ofNat 32 (4 * (k + 1))), 4))) a
                          ∨ storesCover (ssMarks ++ csMarks ++ pushes) a))

/-- RET far in protected mode, with or without an immediate (41_control_transfer.md R350, R353): a return selector of a
more privileged level raises #GP with the selector; to the same level EIP and CS are popped; to an outer level SS and ESP
are popped too, the immediate's bytes are released from both stacks, and DS, ES, FS, GS lose what the new level may not
use. With a 16-bit operand size the slots are words and SP is popped, the upper half of ESP staying as it was (log entry
41). -/
def Obligations.FarReturnProtected : Prop :=
  ∀ (c : Ctx) (m : Word) (x : Instr × Nat) (s t u : State) (eip vcs : Dword),
    x ∈ [(.retFar c, 0), (.retFarImm c m, m.toNat)] → s.flags.vm = false → s.pe = true →
    let n := c.opBytes
    s.segOk .ss (s.stackOff 0) (2 * n) .read = true →
    stackRead 0 n s = .ok eip t → stackRead n n t = .ok vcs u →
    let ncs := lowWord vcs
    let level := selRpl ncs
    (level < s.cpl → exec x.1 s = raised (faultWith u 0x0D#8 (selErr ncs false)) u.freed)
    ∧ (selNull ncs = false → ∀ (d : Descriptor) (v : State), readDescriptor ncs u = .ok (some d) v →
        d.attr.code = true → (d.dpl = level ∨ (d.attr.conforming = true ∧ d.dpl ≤ level)) → d.present = true →
        d.holds eip = true →
        let cs := d.segReg (withRpl ncs level)
        let reads := [(s.linear .ss (s.stackOff 0), n), (s.linear .ss (s.stackOff n), n)] ++ s.descriptorAccess ncs
        (level = s.cpl → ∀ (marks : List Store) (v1 : State), markAccessed d v = .ok marks v1 →
          let w := s.ended { ((v1.moveUp (2 * n + x.2)).storeAll marks).setSeg .cs cs with pc := eip }
          exec x.1 s = .next w ∧ Frame s v1 w fun a => s.accessedByte reads a ∨ storesCover marks a)
        ∧ (s.cpl < level → ∀ (vsp vss : Dword) (sd : Descriptor) (marks ssMarks : List Store) (v1 v2 v3 v4 v5 : State),
            let k := x.2 + 2 * n
            let nss := lowWord vss
            v.segOk .ss (s.stackOff 0) (k + 2 * n) .read = true →
            stackRead k n v = .ok vsp v1 → stackRead (k + n) n v1 = .ok vss v2 →
            selNull nss = false → readDescriptor nss v2 = .ok (some sd) v3 →
            sd.attr.writable = true → sd.dpl = level → selRpl nss = level → sd.present = true →
            markAccessed d v3 = .ok marks v4 → markAccessed sd v4 = .ok ssMarks v5 →
            let esp := if n = 2 then withLowWord s.gpr.esp (lowWord vsp + BitVec.ofNat 16 x.2) else vsp + BitVec.ofNat 32 x.2
            let w := s.ended
              { State.nullOuter ((((v5.storeAll (marks ++ ssMarks)).setSeg .cs cs).setSeg .ss (sd.segReg nss)).setReg .esp
                  esp) level with cpl := level, pc := eip }
            exec x.1 s = .next w
              ∧ Frame s v5 w fun a =>
                  s.accessedByte (reads ++ [(s.linear .ss (s.stackOff k), n), (s.linear .ss (s.stackOff (k + n)), n)]
                    ++ s.descriptorAccess nss) a ∨ storesCover (marks ++ ssMarks) a))

/-- IN (45_io.md R510, R511, R513), the port from the instruction or DX, where the permission test of R521 passes: AL, AX or
EAX takes what the port gives, and the rest of EAX stays. The model's choice: an access past port FFFFH, which R510 does not
describe, is a fault (log entry 27). -/
def Obligations.InputPort : Prop :=
  ∀ (c : Ctx) (p : Byte) (x : Instr × Word × Nat) (s t : State),
    x ∈ [(.inAlImm c p, p.setWidth 16, 1), (.inAxImm c p, p.setWidth 16, c.opBytes), (.inAlDx c, lowWord s.gpr.edx, 1),
         (.inAxDx c, lowWord s.gpr.edx, c.opBytes)] →
    let port := x.2.1
    let n := x.2.2
    ioPermit port n s = .ok () t →
    (port.toNat + n > 65536 → exec x.1 s = .fault .portBeyondSpace)
    ∧ (port.toNat + n ≤ 65536 →
        let v := s.portValue n
        let eax := if n = 1 then s.gpr.eax.extractLsb' 8 24 ++ (v.setWidth 8 : Byte)
          else if n = 2 then s.gpr.eax.extractLsb' 16 16 ++ (v.setWidth 16 : Word) else v
        let w := s.ended (((t.afterInput port n).setReg .eax eax).advance c)
        exec x.1 s = .next w ∧ Frame s t w fun a => s.accessedByte (s.ioMapAccess port n) a)

/-- OUT (45_io.md R510, R512, R513), the port from the instruction or DX, where the permission test of R521 passes: AL, AX
or EAX goes to the port, and no register changes. The model's choice: an access past port FFFFH, which R510 does not
describe, is a fault (log entry 27). -/
def Obligations.OutputPort : Prop :=
  ∀ (c : Ctx) (p : Byte) (x : Instr × Word × Nat) (s t : State),
    x ∈ [(.outImmAl c p, p.setWidth 16, 1), (.outImmAx c p, p.setWidth 16, c.opBytes), (.outDxAl c, lowWord s.gpr.edx, 1),
         (.outDxAx c, lowWord s.gpr.edx, c.opBytes)] →
    let port := x.2.1
    let n := x.2.2
    ioPermit port n s = .ok () t →
    (port.toNat + n > 65536 → exec x.1 s = .fault .portBeyondSpace)
    ∧ (port.toNat + n ≤ 65536 →
        let w := s.ended
          ((t.logIo { write := true, port := port, size := n, value := lowBytes n s.gpr.eax }).advance c)
        exec x.1 s = .next w ∧ Frame s t w fun a => s.accessedByte (s.ioMapAccess port n) a)

/-- INS and OUTS without a repeat prefix, and their steps (45_io.md R514, R515), where the permission test of R521 passes:
INS stores what the port DX gives at ES:EDI, OUTS sends the operand at DS:ESI (or an override's segment) to it; the string
register moves up by the size, or down when DF is set. -/
def Obligations.StringPorts : Prop :=
  ∀ (c : Ctx) (s t u : State) (sp : Span) (n : Nat), s.flags.vm = false →
    let port := lowWord s.gpr.edx
    let access := s.ioMapAccess port n
    ioPermit port n s = .ok () t → port.toNat + n ≤ 65536 →
    (∀ i, (n, i) ∈ [(1, Instr.insb c), (c.opBytes, .insw c)] →
      operandSpan .es (s.stringOff c .edi) n .write t = .ok sp u →
      let w := ((u.afterInput port n).store { span := sp, bytes := toBytes n (s.portValue n) }).bumpReg c .edi
        (s.stringStep n)
      insStep c n s = .ok () w ∧ exec i s = .next (s.ended (w.advance c))
        ∧ Frame s u w fun a =>
            s.accessedByte ((s.linear .es (s.stringOff c .edi), n) :: access) a ∨ sp.covers n a)
    ∧ (∀ i, (n, i) ∈ [(1, Instr.outsb c), (c.opBytes, .outsw c)] →
        operandSpan (c.segment .ds) (s.stringOff c .esi) n .read t = .ok sp u →
        let v := fromBytes (Memory.readSpan u.mem sp 0 n)
        let w := (u.logIo { write := true, port := port, size := n, value := v }).bumpReg c .esi (s.stringStep n)
        outsStep c n s = .ok () w ∧ exec i s = .next (s.ended (w.advance c))
          ∧ Frame s u w fun a =>
              s.accessedByte ((s.linear (c.segment .ds) (s.stringOff c .esi), n) :: access) a)

/-- REP with INS and OUTS (45_io.md R517; 60_exceptions.md R704): nothing but the advance when the count is 0; else one step
and the count down by one, with EIP past the instruction after the last iteration and at its first prefix before it. Before
an opcode that the spec does not hold it is refused (log entry 10). The model's choice: an iteration that is not the last
leaves RF and reports a single step (log entry 39). -/
def Obligations.RepeatedString : Prop :=
  ∀ (c : Ctx) (x : RepTarget × M Unit) (s : State), s.flags.vm = false →
    x ∈ [(.insb, insStep c 1), (.insw, insStep c c.opBytes), (.outsb, outsStep c 1), (.outsw, outsStep c c.opBytes)] →
    let count := s.stringOff c .ecx
    (count = 0x00000000#32 → exec (.repPrefix c x.1) s = .next (s.ended (s.advance c)))
    ∧ (∀ t, count ≠ 0x00000000#32 → x.2 s = .ok () t →
        let u := t.bumpReg c .ecx 0xFFFFFFFF#32
        (count = 0x00000001#32 → exec (.repPrefix c x.1) s = .next (s.ended (u.advance c)))
        ∧ (count ≠ 0x00000001#32 →
            exec (.repPrefix c x.1) s = .next (u.stepTrap s.flags.tf) ∧ u.pc = s.pc ∧ u.flags.rf = s.flags.rf))
    ∧ ∀ op, exec (.repPrefix c (.other op)) s = .refused (.repeatOutsideSpec op)

/-- No I/O permission map (45_io.md R525): in protected mode with CPL > IOPL, when the map base is at or past the TSS limit,
every I/O instruction, and every repeated one whose count is not 0, raises #GP(0). -/
def Obligations.NoIoMap : Prop :=
  ∀ (c : Ctx) (p : Byte) (i : Instr) (s t : State) (base : Dword),
    (i ∈ [.inAlImm c p, .inAxImm c p, .inAlDx c, .inAxDx c, .outImmAl c p, .outImmAx c p, .outDxAl c, .outDxAx c, .insb c,
          .insw c, .outsb c, .outsw c]
      ∨ (s.stringOff c .ecx ≠ 0x00000000#32
          ∧ i ∈ [.repPrefix c .insb, .repPrefix c .insw, .repPrefix c .outsb, .repPrefix c .outsw])) →
    s.flags.vm = false → s.pe = true → s.flags.iopl < s.cpl → s.tr.valid = true →
    sysRead (s.tr.base + 0x66#32) 2 s = .ok base t → s.tr.limit.toNat ≤ base.toNat →
    exec i s = raised (faultWith t 0x0D#8 0x0000#16) t.freed

/-- The I/O permission map (45_io.md R521 to R524), with paging off: an access is permitted when every one of its ports'
bits lies within the TSS limit and is 0, and raises #GP(0) otherwise. -/
def Obligations.IoMap : Prop :=
  ∀ (port : Word) (n : Nat) (s : State), s.pe = true → (s.flags.vm = true ∨ s.flags.iopl < s.cpl) → s.pg = false →
    s.tr.valid = true →
    let word := Memory.readSpan s.mem (Span.flat (s.tr.base + 0x66#32) 2) 0 2
    let base := (fromBytes word).toNat
    base < s.tr.limit.toNat →
    let open_ := fun k => base + (port.toNat + k) / 8 ≤ s.tr.limit.toNat
      ∧ (s.byte (s.tr.base + BitVec.ofNat 32 (base + (port.toNat + k) / 8)).toNat).getLsbD ((port.toNat + k) % 8) = false
    ((∀ k, k < n → open_ k) → ioPermit port n s = .ok () s)
    ∧ (¬(∀ k, k < n → open_ k) → ioPermit port n s = .error (.exc (faultWith s 0x0D#8 0x0000#16)) s.freed)

/-- CLI (45_io.md R530): #GP(0) in protected mode with CPL > IOPL, IF unchanged in the state the exception is taken from;
else IF is 0, and no other flag changes but RF, which every instruction's end clears. -/
def Obligations.ClearInterrupts : Prop :=
  ∀ (c : Ctx) (s : State), s.flags.vm = false →
    (s.pe = true → s.flags.iopl < s.cpl → exec (.cli c) s = raised (faultWith s 0x0D#8 0x0000#16) s.freed)
    ∧ ((s.pe = true → s.cpl ≤ s.flags.iopl) →
        exec (.cli c) s = .next (s.ended
          { s with flags := { s.flags with ifl := false }, pc := s.pc + BitVec.ofNat 32 c.len }))

/-- STI, PUSHF, POPF (45_io.md R531, R533 to R535): STI sets IF where CPL <= IOPL, and holds off INTR at the next boundary
when IF was 0; PUSHF pushes the flags with VM and RF as 0; POPF pops them, IOPL only at CPL 0, IF only where CPL <= IOPL, RF
only from a doubleword, VM never. -/
def Obligations.FlagInstructions : Prop :=
  ∀ (c : Ctx) (s t : State), s.flags.vm = false →
    (s.pe = true → s.flags.iopl < s.cpl → exec (.sti c) s = raised (faultWith s 0x0D#8 0x0000#16) s.freed)
    ∧ ((s.pe = true → s.cpl ≤ s.flags.iopl) →
        exec (.sti c) s = .next (s.ended
          { s with flags := { s.flags with ifl := true }, pc := s.pc + BitVec.ofNat 32 c.len,
                   run := { s.run with stiInhibit := s.run.stiInhibit || !s.flags.ifl } }))
    ∧ (∀ sp, operandSpan .ss (s.stackBelow c.opBytes) c.opBytes .write s = .ok sp t →
        let image := toBytes c.opBytes (s.flags.pack &&& 0x00FCFFFF#32)
        let u := s.ended (((t.store { span := sp, bytes := image }).moveDown c.opBytes).advance c)
        exec (.pushf c) s = .next u
          ∧ Frame s t u fun a =>
              s.accessByte (s.linear .ss (s.stackBelow c.opBytes)) c.opBytes a ∨ sp.covers c.opBytes a)
    ∧ (∀ image, stackRead 0 c.opBytes s = .ok image t →
        let u := s.endedRf
          { (t.moveUp c.opBytes).advance c with
            flags := s.flags.popped image c.opBytes (if s.pe then s.cpl else 0#2) }
        exec (.popf c) s = .next u
          ∧ Frame s t u fun a => s.accessByte (s.linear .ss (s.stackOff 0)) c.opBytes a)

/-- INT 3, INT n and INTO (46_interrupt_instructions.md R550 to R552): INTO with OF = 0 does nothing; else the interrupt is
delivered with the EIP after the instruction, as a software interrupt (DeliverSameLevel and DeliverInnerLevel say what that
does in protected mode). In real-address mode (60_exceptions.md R730) FLAGS, CS and IP are pushed as words, IF and TF are
cleared, and CS:IP come from the vector's entry of the table. -/
def Obligations.SoftwareInterrupts : Prop :=
  ∀ (c : Ctx) (v : Byte) (x : Instr × Byte) (s : State), s.flags.vm = false →
    (s.flags.ovf = false → exec (.into c) s = .next (s.ended (s.advance c)))
    ∧ ((x ∈ [(.int3 c, 0x03#8), (.intImm c v, v)] ∨ (s.flags.ovf = true ∧ x = (.into c, 0x04#8))) →
        (s.pe = true → exec x.1 s
          = deliver deliverBound { vector := x.2, kind := .software, code := none } (s.advance c))
        ∧ (s.pe = false → s.pg = false → 4 * x.2.toNat + 3 ≤ s.idtr.limit.toNat →
            (∀ k ∈ [2, 4, 6], (s.stackBelow k).toNat + 2 ≤ 65536) →
            let entry := fromBytes (Memory.readSpan s.mem
              (Span.flat (s.idtr.base + BitVec.ofNat 32 (4 * x.2.toNat)) 4) 0 4)
            let slot := fun k => s.linear .ss (s.stackBelow k)
            let t := ((s.recordAccess (slot 2) 2 true).recordAccess (slot 4) 2 true).recordAccess (slot 6) 2 true
            let pushes : List Store := [{ span := Span.flat (slot 2) 2, bytes := toBytes 2 s.flags.pack },
              { span := Span.flat (slot 4) 2, bytes := toBytes 2 (s.seg.cs.sel.setWidth 32) },
              { span := Span.flat (slot 6) 2, bytes := toBytes 2 (s.pc + BitVec.ofNat 32 c.len) }]
            let w := State.delivered
              { ((t.storeAll pushes).moveDown 6).setSeg .cs (s.seg.cs.realLoad (entry.extractLsb' 16 16)) with
                pc := (lowWord entry).setWidth 32,
                flags := { s.flags with ifl := false, tf := false, rf := false } }
            exec x.1 s = .next w ∧ Frame s t w fun a => storesCover pushes a))

/-- An interrupt or exception delivered through an interrupt or trap gate at the current level, in protected mode
(60_exceptions.md R720, R722, R727): EFLAGS (RF set for a fault), CS, EIP and the error code if there is one are pushed on
the current stack; CS:EIP are the gate's; TF, NT and RF are cleared, and IF through an interrupt gate. The model's choices: the
upper half of the doubleword that holds CS is a free value (log entry 17), the room is counted down from ESP modulo 2^32 (log
entry 49), and the EIP that the coprocessor segment overrun saves is a free value (log entry 29). -/
def Obligations.DeliverSameLevel : Prop :=
  ∀ (n : Nat) (e : Event) (lo hi : Dword) (d : Descriptor) (pushes marks : List Store) (s0 s1 s2 s3 s4 s5 : State),
    s0.flags.vm = false → s0.pe = true →
    let s := s0.savedEip e
    let k := 8 * e.vector.toNat
    let at_ := s.idtr.base + BitVec.ofNat 32 k
    let gate : Descriptor := { lo := lo, hi := hi, addr := at_ }
    k + 7 ≤ s.idtr.limit.toNat →
    sysRead at_ 4 (s.setDelivering (some e.excClass)) = .ok lo s1 → sysRead (at_ + 4#32) 4 s1 = .ok hi s2 →
    gate.kind ∈ [0b01110#5, 0b01111#5] → (e.kind = .software → s.cpl ≤ gate.dpl) → gate.present = true →
    selNull gate.gateSel = false → readDescriptor gate.gateSel s2 = .ok (some d) s3 →
    d.attr.code = true → (d.dpl = s.cpl ∨ (d.attr.conforming = true ∧ d.dpl ≤ s.cpl)) → d.present = true →
    d.holds gate.gateOff = true →
    let need := 12 + 4 * (codePush e).length
    s.seg.ss.valid = true → s.seg.ss.inLimit (s.gpr.esp - BitVec.ofNat 32 need) need = true →
    pushAll 0 ([toBytes 4 { s.flags with rf := s.flags.rf || decide (e.kind = EventKind.fault) }.pack,
        toBytes 4 (withLowWord s.free.head s.seg.cs.sel), toBytes 4 s.pc] ++ codePush e) s3.freed = .ok pushes s4 →
    markAccessed d s4 = .ok marks s5 →
    let w := State.delivered
      { ((s5.storeAll (pushes ++ marks)).setReg .esp (s.gpr.esp - BitVec.ofNat 32 need)).setSeg .cs
          (d.segReg (withRpl gate.gateSel s.cpl)) with
        pc := gate.gateOff,
        flags := { s.flags with tf := false, nt := false, rf := false,
                                ifl := s.flags.ifl && !decide (gate.kind = 0b01110#5) } }
    deliver (n + 1) e s0 = .next w
      ∧ Frame (s.freed.setDelivering (some e.excClass)) s5 w fun a =>
          s.accessedByte ([(at_, 4), (at_ + 4#32, 4)] ++ s.descriptorAccess gate.gateSel
            ++ ((List.range (need / 4)).map fun k => (s.linear .ss (s.stackBelow (4 * (k + 1))), 4))) a
            ∨ storesCover (pushes ++ marks) a

/-- An interrupt or exception delivered through an interrupt or trap gate to a more privileged level (60_exceptions.md R720,
R722, R727): on the stack that the TSS names for that level go the old SS and ESP, EFLAGS (RF set for a fault), CS, EIP and
the error code if there is one; CPL becomes the segment's DPL. The model's choices: the upper halves of the doublewords that
hold SS and CS are free values (log entry 17), the room is counted down from the new stack's pointer modulo 2^32 (log entry 49),
and the EIP that the coprocessor segment overrun saves is a free value (log entry 29). -/
def Obligations.DeliverInnerLevel : Prop :=
  ∀ (n : Nat) (e : Event) (lo hi nesp : Dword) (nss : Word) (d sd : Descriptor) (ssMarks csMarks pushes : List Store)
      (s0 s1 s2 s3 s4 s5 s6 s7 s8 : State),
    s0.flags.vm = false → s0.pe = true →
    let s := s0.savedEip e
    let k := 8 * e.vector.toNat
    let at_ := s.idtr.base + BitVec.ofNat 32 k
    let gate : Descriptor := { lo := lo, hi := hi, addr := at_ }
    k + 7 ≤ s.idtr.limit.toNat →
    sysRead at_ 4 (s.setDelivering (some e.excClass)) = .ok lo s1 → sysRead (at_ + 4#32) 4 s1 = .ok hi s2 →
    gate.kind ∈ [0b01110#5, 0b01111#5] → (e.kind = .software → s.cpl ≤ gate.dpl) → gate.present = true →
    selNull gate.gateSel = false → readDescriptor gate.gateSel s2 = .ok (some d) s3 →
    d.attr.code = true → d.attr.conforming = false → d.dpl < s.cpl → d.present = true → d.holds gate.gateOff = true →
    innerStack d.dpl e.ext s3 = .ok (nesp, nss) s4 →
    selNull nss = false → readDescriptor nss s4 = .ok (some sd) s5 →
    selRpl nss = d.dpl → sd.dpl = d.dpl → sd.attr.writable = true → sd.present = true →
    let need := 20 + 4 * (codePush e).length
    (sd.segReg nss).inLimit (nesp - BitVec.ofNat 32 need) need = true →
    markAccessed sd s5.freed.freed = .ok ssMarks s6 → markAccessed d s6 = .ok csMarks s7 →
    innerPushes (sd.segReg nss) nesp
        ([toBytes 4 (withLowWord s.free.head s.seg.ss.sel), toBytes 4 s.gpr.esp,
          toBytes 4 { s.flags with rf := s.flags.rf || decide (e.kind = EventKind.fault) }.pack,
          toBytes 4 (withLowWord s.free.next.head s.seg.cs.sel), toBytes 4 s.pc] ++ codePush e) s7 = .ok pushes s8 →
    let w := State.delivered
      { (((s8.storeAll (ssMarks ++ csMarks ++ pushes)).setSeg .ss (sd.segReg nss)).setSeg .cs
          (d.segReg (withRpl gate.gateSel d.dpl))).setReg .esp (nesp - BitVec.ofNat 32 need) with
        cpl := d.dpl, pc := gate.gateOff,
        flags := { s.flags with tf := false, nt := false, rf := false,
                                ifl := s.flags.ifl && !decide (gate.kind = 0b01110#5) } }
    let tss := s.tr.base + BitVec.ofNat 32 (8 * d.dpl.toNat)
    deliver (n + 1) e s0 = .next w
      ∧ Frame (s.freed.freed.setDelivering (some e.excClass)) s8 w fun a =>
          s.accessedByte ([(at_, 4), (at_ + 4#32, 4)] ++ s.descriptorAccess gate.gateSel
            ++ [(tss + 0x00000004#32, 4), (tss + 0x00000008#32, 2)] ++ s.descriptorAccess nss
            ++ ((List.range (need / 4)).map fun k => (sd.base + (nesp - BitVec.ofNat 32 (4 * (k + 1))), 4))) a
            ∨ storesCover (ssMarks ++ csMarks ++ pushes) a

/-- An exception while another event is delivered (60_exceptions.md R750 to R752): two contributory ones, or a page fault and
then a page fault or a contributory one, make a double fault with error code 0; while the double fault itself is delivered the
processor shuts down; every other second exception is delivered in turn, and so is every exception while an interrupt or a
software interrupt is delivered. With an IDTR limit of 0 every event ends in shutdown. The model's choice: the debug traps that
the failed delivery has left pending are dropped (log entry 52). -/
def Obligations.DoubleFault : Prop :=
  (∀ (n : Nat) (e e2 : Event) (s t : State), e2.kind = .fault →
    deliverOnce e ((s.savedEip e).setDelivering (some e.excClass)) = .error (.exc e2) t →
    let exception := e.kind ≠ .external ∧ e.kind ≠ .software
    let contributory : List Byte := [0x00#8, 0x09#8, 0x0A#8, 0x0B#8, 0x0C#8, 0x0D#8]
    let double := exception ∧ ((e.vector ∈ contributory ∧ e2.vector ∈ contributory)
      ∨ (e.vector = 0x0E#8 ∧ (e2.vector ∈ contributory ∨ e2.vector = 0x0E#8)))
    let df : Event := { vector := 0x08#8, kind := .abort, code := some 0x00000000#32 }
    let u := t.setPending .none
    (double → deliver (n + 1) e s = deliver n df u)
    ∧ (exception → e.vector = 0x08#8 →
        deliver (n + 1) e s = .next { u with run := { u.run with runState := .shutdown, delivering := none } })
    ∧ (exception → ¬double → e.vector ≠ 0x08#8 → e2.vector ≠ 0x08#8 → deliver (n + 1) e s = deliver n e2 u)
    ∧ (¬exception → deliver (n + 1) e s = deliver n e2 u))
  ∧ ∀ (e : Event) (s : State), s.idtr.limit = 0x0000#16 → s.flags.vm = false →
      ∃ t, deliver deliverBound e s = .next t ∧ t.run.runState = .shutdown ∧ t.run.delivering = none

/-- BOUND with a memory operand (46_interrupt_instructions.md R553; 30_encoding.md R250): nothing happens when the register
lies between the two signed bounds, both inclusive; else #BR, a fault. An upper bound that would lie past offset FFFFFFFFH is
beyond the limit (40_protection_and_segment_loads.md R280): #GP(0), or #SS(0) through SS. -/
def Obligations.Bound : Prop :=
  ∀ (c : Ctx) (r : Reg) (ea : Ea) (s t : State) (sp : Span), s.flags.vm = false →
    let n := c.opBytes
    let seg := c.eaSegment ea
    let off := s.eaOffset ea
    let above := off + BitVec.ofNat 32 n
    let signed := fun v : Dword => if c.op32 then v.toInt else (lowWord v).toInt
    operandSpan seg off n .read s = .ok sp t →
    (4294967296 ≤ off.toNat + n →
      exec (.bound c r (.mem ea)) s = raised (faultWith t (limitVector seg) 0x0000#16) t.freed)
    ∧ (off.toNat + n < 4294967296 → ∀ (u : State) (sp' : Span), operandSpan seg above n .read t = .ok sp' u →
        let lo := signed (fromBytes (Memory.readSpan t.mem sp 0 n))
        let hi := signed (fromBytes (Memory.readSpan u.mem sp' 0 n))
        let within := lo ≤ signed (s.reg r) ∧ signed (s.reg r) ≤ hi
        (¬within → exec (.bound c r (.mem ea)) s = raised (faultOf 0x05#8) u)
        ∧ (within →
            let w := s.ended (u.advance c)
            exec (.bound c r (.mem ea)) s = .next w
              ∧ Frame s u w fun a => s.accessedByte [(s.linear seg off, n), (s.linear seg above, n)] a))

/-- IRET without a nested task (46_interrupt_instructions.md R560 to R565): EIP, CS and the flags are popped, and SS and ESP
for an outer level; the flags are loaded as by POPF at the old level, RF stays as loaded, and NMI is unmasked. Real-address
mode, the same level, and an outer level; with a 16-bit operand size the slots are words and SP is popped for an outer level,
the upper half of ESP staying as it was (R563; 10_state.md R32). The model's choice: in real-address mode bit 17 of the image
is dropped (log entry 16). -/
def Obligations.InterruptReturn : Prop :=
  ∀ (c : Ctx) (s t u v : State) (eip vcs image : Dword), s.flags.vm = false → (s.pe = true → s.flags.nt = false) →
    let n := c.opBytes
    s.segOk .ss (s.stackOff 0) (3 * n) .read = true →
    stackRead 0 n s = .ok eip t → stackRead n n t = .ok vcs u → stackRead (2 * n) n u = .ok image v →
    let ncs := lowWord vcs
    let flags := s.flags.popped image n (if s.pe then s.cpl else 0#2)
    let reads := [(s.linear .ss (s.stackOff 0), n), (s.linear .ss (s.stackOff n), n), (s.linear .ss (s.stackOff (2 * n)), n)]
    (s.pe = false →
      let w := s.endedRf (State.unmaskNmi
        { (v.moveUp (3 * n)).setSeg .cs (s.seg.cs.realLoad ncs) with pc := eip, flags := flags })
      exec (.iret c) s = .next w ∧ Frame s v w fun a => s.accessedByte reads a)
    ∧ (s.pe = true → ¬(n = 4 ∧ s.cpl = 0#2 ∧ image.getLsbD 17 = true) → selNull ncs = false →
        let level := selRpl ncs
        ∀ (d : Descriptor) (v0 : State), readDescriptor ncs v = .ok (some d) v0 →
        d.attr.code = true → (d.dpl = level ∨ (d.attr.conforming = true ∧ d.dpl ≤ level)) → d.present = true →
        d.holds eip = true →
        let cs := d.segReg (withRpl ncs level)
        (level = s.cpl → ∀ (marks : List Store) (v1 : State), markAccessed d v0 = .ok marks v1 →
          let w := s.endedRf (State.unmaskNmi
            { ((v1.moveUp (3 * n)).storeAll marks).setSeg .cs cs with pc := eip, flags := flags })
          exec (.iret c) s = .next w
            ∧ Frame s v1 w fun a => s.accessedByte (reads ++ s.descriptorAccess ncs) a ∨ storesCover marks a)
        ∧ (s.cpl < level → ∀ (vsp vss : Dword) (sd : Descriptor) (marks ssMarks : List Store) (v1 v2 v3 v4 v5 : State),
            let nss := lowWord vss
            v0.segOk .ss (s.stackOff 0) (5 * n) .read = true →
            stackRead (3 * n) n v0 = .ok vsp v1 → stackRead (4 * n) n v1 = .ok vss v2 →
            selNull nss = false → readDescriptor nss v2 = .ok (some sd) v3 →
            sd.attr.writable = true → sd.dpl = level → selRpl nss = level → sd.present = true →
            markAccessed d v3 = .ok marks v4 → markAccessed sd v4 = .ok ssMarks v5 →
            let esp := if n = 2 then withLowWord s.gpr.esp (lowWord vsp) else vsp
            let w := s.endedRf (State.unmaskNmi
              { State.nullOuter ((((v5.storeAll (marks ++ ssMarks)).setSeg .cs cs).setSeg .ss (sd.segReg nss)).setReg .esp
                  esp) level with cpl := level, pc := eip, flags := flags })
            exec (.iret c) s = .next w
              ∧ Frame s v5 w fun a =>
                  s.accessedByte (reads ++ s.descriptorAccess ncs
                    ++ [(s.linear .ss (s.stackOff (3 * n)), n), (s.linear .ss (s.stackOff (4 * n)), n)]
                    ++ s.descriptorAccess nss) a ∨ storesCover (marks ++ ssMarks) a))

/-- ESC (47_coprocessor_and_lock.md R585, R587, R588; log entry 28): EM or TS raises #NM, a tested ERROR# raises #MF, without
a coprocessor it is refused; else the opcode goes to the coprocessor, the rm bits of a register form among it, with the memory
operand that the coprocessor reads or stores. An operand that wraps around the addressing limit of its segment (R590, R591;
log entry 29), with paging off: bytes outside the segment raise the ordinary exception of a reference when the first or the
last is among them, and else the coprocessor segment overrun; with every byte inside, the transfer is made. -/
def Obligations.CoprocessorEscape : Prop :=
  ∀ (c : Ctx) (op reg : BitVec 3) (rm : RM Reg) (s : State), s.flags.vm = false →
    ((s.em = true ∨ s.ts = true) → exec (.esc c op reg rm) s = raised (faultOf 0x07#8) s)
    ∧ (s.em = false → s.ts = false →
        (s.params.copKind = .none → exec (.esc c op reg rm) s = .refused .noCoprocessor)
        ∧ (s.params.copKind ≠ .none →
            let reply := s.cop.reply
            (reply.testsError = true → s.pins.error = true → exec (.esc c op reg rm) s = raised (faultOf 0x10#8) s)
            ∧ ((reply.testsError = false ∨ s.pins.error = false) →
                match rm with
                | .reg r =>
                  exec (.esc c op reg rm) s
                    = .next (s.ended ((s.handOver { op := op, reg := reg, operand := .opcode r.bits }).advance c))
                | .mem ea =>
                  let seg := c.eaSegment ea
                  let off := s.eaOffset ea
                  let n := reply.size
                  (s.wraps seg off n = false → ∀ (sp : Span) (t : State), reply.store = false →
                    operandSpan seg off n .read s = .ok sp t →
                    let bytes := Memory.readSpan t.mem sp 0 n
                    let w := s.ended ((t.handOver
                      { op := op, reg := reg, operand := .memory (s.seg.get seg).sel off bytes }).advance c)
                    exec (.esc c op reg rm) s = .next w
                      ∧ Frame s t w fun a => s.accessByte (s.linear seg off) n a)
                  ∧ (s.wraps seg off n = false → ∀ (sp : Span) (t : State), reply.store = true → n ≤ reply.data.length →
                      operandSpan seg off n .write s = .ok sp t →
                      let bytes := reply.data.take n
                      let w := s.ended (((t.store { span := sp, bytes := bytes }).handOver
                        { op := op, reg := reg, operand := .memory (s.seg.get seg).sel off bytes }).advance c)
                      exec (.esc c op reg rm) s = .next w
                        ∧ Frame s t w fun a => s.accessByte (s.linear seg off) n a ∨ sp.covers n a)
                  ∧ (s.wraps seg off n = true → s.pg = false →
                      let kind : Access := if reply.store then .write else .read
                      let place := fun k => BitVec.ofNat 32 ((off.toNat + k) % (s.seg.get seg).addressSpan)
                      let inside := fun k => s.segOk seg (place k) 1 kind = true
                      let la := fun k => s.linear seg (place k)
                      (¬(inside 0 ∧ inside (n - 1)) →
                        exec (.esc c op reg rm) s = raised (faultWith s (s.segVector seg kind) 0x0000#16) s.freed)
                      ∧ (inside 0 → inside (n - 1) → (∃ k, k < n ∧ ¬inside k) →
                          exec (.esc c op reg rm) s
                            = raised { vector := 0x09#8, kind := .abort, code := Option.none } s.freed)
                      ∧ ((∀ k, k < n → inside k) → reply.store = false →
                          let bytes := (List.range n).map fun k => s.byte (la k).toNat
                          ∃ t, Touched s t ∧ t.mem = s.mem ∧ exec (.esc c op reg rm) s = .next (s.ended ((t.handOver
                            { op := op, reg := reg, operand := .memory (s.seg.get seg).sel off bytes }).advance c)))
                      ∧ ((∀ k, k < n → inside k) → reply.store = true → n ≤ reply.data.length →
                          let bytes := reply.data.take n
                          let stores : List Store := ((List.range n).zip bytes).map fun x =>
                            { span := Span.flat (la x.1) 1, bytes := [x.2] }
                          ∃ t, Touched s t ∧ t.mem = s.mem
                            ∧ exec (.esc c op reg rm) s = .next (s.ended (((t.storeAll stores).handOver
                                { op := op, reg := reg, operand := .memory (s.seg.get seg).sel off bytes }).advance c)))))))

/-- WAIT (47_coprocessor_and_lock.md R586 to R589): MP and TS raise #NM; while BUSY# is active nothing happens and EIP stays
(log entry 48); then ERROR# raises #MF unless EM is set; else WAIT ends. -/
def Obligations.CoprocessorWait : Prop :=
  ∀ (c : Ctx) (s : State), s.flags.vm = false →
    (s.mp = true → s.ts = true → exec (.wait c) s = raised (faultOf 0x07#8) s)
    ∧ ((s.mp = false ∨ s.ts = false) →
        let attached := s.params.copKind ≠ .none
        (attached → s.pins.busy = true → exec (.wait c) s = .next s)
        ∧ ((¬attached ∨ s.pins.busy = false) →
            (attached → s.pins.error = true → s.em = false → exec (.wait c) s = raised (faultOf 0x10#8) s)
            ∧ ((¬attached ∨ s.pins.error = false ∨ s.em = true) → exec (.wait c) s = .next (s.ended (s.advance c)))))

/-- XCHG, and LOCK before it (47_coprocessor_and_lock.md R600, R603): the operands are exchanged; LOCK changes nothing of
that with a memory operand, and raises #UD with a register operand and before every opcode that R600's list does not hold, of
the spec or not, 90H to 97H and the invalid opcodes included. Before the other instructions of the list it raises #UD with a
register destination; with a memory destination it is refused, as what they do is not in the spec (30_encoding.md R252). The
model's presumption: which opcodes are the list's, lockFields and lockFields2 (log entry 11). -/
def Obligations.ExchangeAndLock : Prop :=
  ∀ (c : Ctx) (s : State), s.flags.vm = false →
    (∀ (q r : Reg8), exec (.xchgByte c (.reg q) r) s
        = .next (s.ended (((s.setReg8 q (s.reg8 r)).setReg8 r (s.reg8 q)).advance c))
      ∧ exec (.lockPrefix c (.xchgByte (.reg q) r)) s = raised (faultOf 0x06#8) s)
    ∧ (∀ (q r : Reg), exec (.xchg c (.reg q) r) s
        = .next (s.ended (((s.setRegN q c.opBytes (s.reg r)).setRegN r c.opBytes (s.reg q)).advance c))
      ∧ exec (.lockPrefix c (.xchg (.reg q) r)) s = raised (faultOf 0x06#8) s)
    ∧ (∀ (i : Instr) (ea : Ea) (r : Reg8) (sp : Span) (t : State),
        i ∈ [.xchgByte c (.mem ea) r, .lockPrefix c (.xchgByte (.mem ea) r)] →
        let la := s.linear (c.eaSegment ea) (s.eaOffset ea)
        operandSpan (c.eaSegment ea) (s.eaOffset ea) 1 .write s = .ok sp t →
        let w := s.ended (((t.store { span := sp, bytes := [s.reg8 r] }).setReg8 r (t.byte (sp.addr 0))).advance c)
        exec i s = .next w ∧ Frame s t w fun a => s.accessByte la 1 a ∨ sp.covers 1 a)
    ∧ (∀ (i : Instr) (ea : Ea) (r : Reg) (sp : Span) (t : State),
        i ∈ [.xchg c (.mem ea) r, .lockPrefix c (.xchg (.mem ea) r)] →
        let n := c.opBytes
        let la := s.linear (c.eaSegment ea) (s.eaOffset ea)
        operandSpan (c.eaSegment ea) (s.eaOffset ea) n .write s = .ok sp t →
        let w := s.ended (((t.store { span := sp, bytes := toBytes n (s.reg r) }).setRegN r n
          (fromBytes (Memory.readSpan t.mem sp 0 n))).advance c)
        exec i s = .next w ∧ Frame s t w fun a => s.accessByte la n a ∨ sp.covers n a)
    ∧ (∀ op : Byte, exec (.lockPrefix c (.oneByte op)) s = raised (faultOf 0x06#8) s
      ∧ exec (.lockPrefix c (.twoByte op)) s = raised (faultOf 0x06#8) s)
    ∧ (∀ (x : LockTarget × List (BitVec 3) × List Byte) (op b : Byte),
        x ∈ [(.oneByteRm op b, lockFields op, [op, b]), (.twoByteRm op b, lockFields2 op, [0x0F#8, op, b])] →
        let locks := b.extractLsb' 6 2 ≠ 3#2 ∧ b.extractLsb' 3 3 ∈ x.2.1
        (¬locks → exec (.lockPrefix c x.1) s = raised (faultOf 0x06#8) s)
        ∧ (locks → exec (.lockPrefix c x.1) s = .refused (.lockOutsideSpec x.2.2)))

/-- The privileged instructions in protected mode at a CPL other than 0 (40_protection_and_segment_loads.md R311): #GP(0),
before anything else. -/
def Obligations.PrivilegedTraps : Prop :=
  ∀ (c : Ctx) (r : Reg) (rm : RM Reg) (n : BitVec 3) (mb : BitVec 2) (i : Instr) (s : State),
    i ∈ [.clts c, .hlt c, .lgdt c rm, .lidt c rm, .lldt c rm, .ltr c rm, .lmsw c rm, .movFromCr c r n mb, .movToCr c n r mb,
         .movFromDr c r n mb, .movToDr c n r mb, .movFromTr c r n mb, .movToTr c n r mb] →
    s.flags.vm = false → s.pe = true → s.cpl ≠ 0#2 → exec i s = raised (faultWith s 0x0D#8 0x0000#16) s.freed

/-- Invalid operands and modes raise #UD (30_encoding.md R250; 40_protection_and_segment_loads.md R297; 43_system_registers.md
R408, R410, R414; 70_reset_and_hazards.md R813; 93_implementation_defined.md U4; log entry 23): protected-mode instructions
in real-address mode, register operands where memory is needed, MOV to CS, and register numbers that name no register; so do
invalid opcodes, when they are executed (30_encoding.md R236; 60_exceptions.md R759): where the bytes at CS:EIP are one and
paging is off, the step raises #UD. The model's presumption: which opcodes are invalid (log entry 56). The
debug registers (48_debug.md R629, R648; log entry 26): while in-circuit emulation owns them, a MOV to or from one raises
#DB with BD of DR6 set, and the Bn of the breakpoints whose condition the instruction meets (R630; log entry 31), unless RF is
set; DR4 and DR5 are reserved, and refused. -/
def Obligations.InvalidOperands : Prop :=
  (∀ (s t : State) (bs op : List Byte), boundary s = .run t → t.pg = false → t.flags.vm = false →
    let off := fun k => t.pc + BitVec.ofNat 32 k
    let place := fun k => (t.linear .cs (off k)).toNat
    (∀ k, k < bs.length → t.segOk .cs (off k) 1 .fetch = true ∧ bs[k]? = some (t.byte (place k))
      ∧ place k ∉ t.run.prefetch.stale) →
    (∀ k, k < bs.length → decode t.default32 (bs.take k) = .needMore) → decode t.default32 bs = .invalid op →
    step s = raised (faultOf 0x06#8) t)
  ∧ ∀ (c : Ctx) (r : Reg) (rm : RM Reg) (q : Reg) (n : BitVec 3) (mb : BitVec 2) (i : Instr) (s : State),
    s.flags.vm = false →
    (((s.pe = false ∧ i ∈ [.arpl c rm r, .lar c r rm, .lsl c r rm, .verr c rm, .verw c rm, .sldt c rm, .str c rm, .lldt c rm,
        .ltr c rm])
      ∨ i ∈ [.lds c r (.reg q), .les c r (.reg q), .lss c r (.reg q), .lfs c r (.reg q), .lgs c r (.reg q),
             .sgdt c (.reg q), .sidt c (.reg q), .jmpFarMem c (.reg q), .callFarMem c (.reg q), .bound c r (.reg q)]
      ∨ i = .movToSreg c 1#3 rm ∨ (n ∈ [6#3, 7#3] ∧ (i = .movToSreg c n rm ∨ i = .movFromSreg c rm n))
      ∨ ((s.pe = true → s.cpl = 0#2) ∧
          (i ∈ [.lgdt c (.reg q), .lidt c (.reg q)]
            ∨ (n ∈ [1#3, 4#3, 5#3, 6#3, 7#3] ∧ (i = .movFromCr c r n mb ∨ i = .movToCr c n r mb))
            ∨ (n ∈ [0#3, 1#3, 2#3, 3#3, 4#3, 5#3] ∧ (i = .movFromTr c r n mb ∨ i = .movToTr c n r mb))))) →
      exec i s = raised (faultOf 0x06#8) s)
    ∧ (i ∈ [.movFromDr c r n mb, .movToDr c n r mb] → (s.pe = true → s.cpl = 0#2) →
        (s.params.iceInUse = true → s.flags.rf = false →
          exec i s = raised (faultOf 0x01#8)
            { s with dbg := { s.dbg with dr6 := s.dbg.dr6 ||| 0x00002000#32 ||| s.codeOccurred.setWidth 32 } })
        ∧ ((s.params.iceInUse = false ∨ s.flags.rf = true) → n ∈ [4#3, 5#3] →
            exec i s = .refused .reservedDebugRegister))

/-- A data breakpoint (48_debug.md R635): with its R/W field 01 (writes) or 11 (reads and writes) and LEN not 10, the
condition of breakpoint n is met exactly by the accesses of those kinds that share a byte with its field, which is as long as
LEN says and aligned to that length; an access so made leaves a debug trap pending when n is enabled (R625, R646), whatever LE
and GE say (R625; log entry 31). -/
def Obligations.DataBreakpoint : Prop :=
  ∀ (s : State) (la : Dword) (size n : Nat) (write : Bool) (len : Nat), n < 4 → 0 < size →
    (s.dbg.rw n = 1#2 ∨ s.dbg.rw n = 3#2) →
    ((s.dbg.len n = 0#2 ∧ len = 1) ∨ (s.dbg.len n = 1#2 ∧ len = 2) ∨ (s.dbg.len n = 3#2 ∧ len = 4)) →
    let start := (s.dbg.address n).toNat / len * len
    (s.dbg.dataMatch la size write n = true
      ↔ (s.dbg.rw n = 3#2 ∨ write = true) ∧ ∃ a, (la.toNat ≤ a ∧ a < la.toNat + size) ∧ (start ≤ a ∧ a < start + len))
    ∧ (s.recordAccess la size write).run.pendingDb.hit.getLsbD n
        = (s.run.pendingDb.hit.getLsbD n
          || ((s.dbg.dr7.getLsbD (2 * n) || s.dbg.dr7.getLsbD (2 * n + 1)) && s.dbg.dataMatch la size write n))

/-- The two-level page walk (20_memory.md R185; 40_protection_and_segment_loads.md R322 to R324; 60_exceptions.md R775,
R776): a page that is not present, or whose rights forbid the access, raises #PF, with the address in CR2 and the cause in the
error code; a present entry with a reserved bit set is a fault (93_implementation_defined.md U6; log entry 24); else the
frame's address is combined with the offset, and in entries that lie in RAM the accessed bits of both are set, and the dirty
bit of the page's entry for a write. The model's choices: bits 31:3 of the error code are a free value (log entry 19), and the
dirty bit of a directory entry stays (log entry 22), unless that entry is the page's entry too. -/
def Obligations.PageWalk : Prop :=
  ∀ (la : Dword) (write user : Bool) (block : Option (BitVec 2)) (s : State), Memory.wf s.mem = true →
    let dirAddr := pdeAddr s.ctl.cr3 la
    let pde := physRead s.mem dirAddr
    let tabAddr := pteAddr pde la
    let pte := physRead s.mem tabAddr
    let code := fun present : Bool =>
      s.free.head.extractLsb' 3 29 ++ BitVec.ofBool user ++ BitVec.ofBool write ++ BitVec.ofBool present
    let fault := fun present => EStateM.Result.error
      (Err.exc { vector := 0x0E#8, kind := .fault, code := some (code present) })
      { s with ctl := { s.ctl with cr2 := la }, free := s.free.next }
    let supervisorOnly := pde.getLsbD 2 = false ∨ pte.getLsbD 2 = false
    let readOnly := pde.getLsbD 1 = false ∨ pte.getLsbD 1 = false
    let forbidden := user = true ∧ (supervisorOnly ∨ (write = true ∧ readOnly))
    let ram := fun a => ∀ x, (Span.flat a 4).covers 4 x → s.mem.kindAt x = .ram
    (pde.getLsbD 0 = false → walk la write user block s = fault false)
    ∧ (pde.getLsbD 0 = true → reservedEntry pde = true → walk la write user block s = .error (.fault .reservedPageEntry) s)
    ∧ (pde.getLsbD 0 = true → reservedEntry pde = false → pte.getLsbD 0 = true → reservedEntry pte = true →
        walk la write user block s = .error (.fault .reservedPageEntry) s)
    ∧ (pde.getLsbD 0 = true → reservedEntry pde = false →
        (pte.getLsbD 0 = false → walk la write user block s = fault false)
        ∧ (pte.getLsbD 0 = true → reservedEntry pte = false →
            (forbidden → walk la write user block s = fault true)
            ∧ (¬forbidden →
                ∃ t, walk la write user block s = .ok (pte.extractLsb' 12 20 ++ la.extractLsb' 0 12) t
                  ∧ Touched s t
                  ∧ (ram dirAddr → dirAddr ≠ tabAddr → physRead t.mem dirAddr = pde ||| 0x00000020#32)
                  ∧ (ram tabAddr →
                      physRead t.mem tabAddr = pte ||| (if write then 0x00000060#32 else 0x00000020#32))
                  ∧ ∀ a, ¬(Span.flat dirAddr 4).covers 4 a → ¬(Span.flat tabAddr 4).covers 4 a → t.byte a = s.byte a)))

/-- The task switch (44_multitasking.md R450, R451, R470 to R481), and what makes one.
The switch, the new task not in virtual 8086 mode: the old task's registers go to its TSS, the
selectors as words (log entry 20); the busy bit of the new TSS's descriptor is set, unless IRET returns to it; JMP and IRET
clear the busy bit of the old one, if TR is not null (log entry 36); a CALL or interrupt leaves the back link; with paging off
nothing else of memory changes but accessed bits; every register comes from the new TSS, TS is set, NT says whether the switch
nests, and L0 to L3 and LE of DR7 are cleared.
JMP and CALL to an available TSS or a task gate (R465, R466) are such switches, #GP with the selector where its DPL forbids it
and #NP with it for a gate that is not present; so is an IRET with NT set, to the task that the back link names
(46_interrupt_instructions.md R561, R565); so is an event delivered through a task gate (60_exceptions.md R725), whose error
code goes on the new task's stack.
The tests (R471): 1 to 3 on the new TSS's descriptor, before anything changes; then 4 to 16, in their order, in the new task
(R477): the switch ends in the exception of the first that fails, in a state that has the new task's TR, registers, flags and
EIP. -/
def Obligations.TaskSwitch : Prop :=
  -- the switch
  (∀ (kind : SwitchKind) (sel : Word) (ext : Bool) (next fl : Dword) (d : Descriptor) (span : Span)
      (save clear busy link : List Store) (s s1 s2 s3 s4 s5 s6 : State),
    incomingTss kind sel ext s = .ok d s1 → saveTask next fl s1 = .ok save s2 → clearBusy kind s2 = .ok clear s3 →
    setBusy kind d s3 = .ok busy s4 → linkBack kind d.base s4 = .ok link s5 →
    translate d.base 104 false false s5 = .ok span s6 →
    let stores := save ++ clear ++ busy ++ link
    let u := s6.storeAll stores
    let image := Memory.readSpan u.mem span 0 104
    (tssField image 0x24).getLsbD 17 = false →
    let tests := taskTests ext (u.enterTask kind sel d image)
    let entered := fun t : State =>
      t.tr = { sel := sel, base := d.base, limit := d.limit, valid := true }
        ∧ t.ctl.cr0 = s.ctl.cr0 ||| 0x00000008#32
        ∧ t.ctl.cr3 = (if s.pg then tssField image 0x1C else s.ctl.cr3)
        ∧ t.pc = tssField image 0x20
        ∧ t.gpr = { eax := tssField image 0x28, ecx := tssField image 0x2C, edx := tssField image 0x30,
                    ebx := tssField image 0x34, esp := tssField image 0x38, ebp := tssField image 0x3C,
                    esi := tssField image 0x40, edi := tssField image 0x44 }
        ∧ t.flags = { EFlags.unpack (tssField image 0x24) with
            nt := if kind = .jmp then false else if kind = .iret then (tssField image 0x24).getLsbD 14 else true }
        ∧ t.seg.es.sel = tssSel image 0x48 ∧ t.seg.cs.sel = tssSel image 0x4C ∧ t.seg.ss.sel = tssSel image 0x50
        ∧ t.seg.ds.sel = tssSel image 0x54 ∧ t.seg.fs.sel = tssSel image 0x58 ∧ t.seg.gs.sel = tssSel image 0x5C
        ∧ t.ldtr.sel = tssSel image 0x60 ∧ t.cpl = selRpl (tssSel image 0x4C)
        ∧ t.dbg = { s.dbg with dr7 := s.dbg.dr7 &&& 0xFFFFFEAA#32 }
        ∧ t.gdtr = s.gdtr ∧ t.idtr = s.idtr ∧ t.tlb.tr6 = s.tlb.tr6 ∧ t.tlb.tr7 = s.tlb.tr7
        ∧ t.io = s.io ∧ t.cop = s.cop
    let g := s.gpr
    let nests := kind = .call ∨ kind = .int
    let oldEntry := s.gdtr.base + BitVec.ofNat 32 (8 * selIndex s.tr.sel) + 4#32
    let newBusy := toBytes 4 (d.hi ||| 0x00000200#32)
    let backLink := toBytes 2 (s.tr.sel.setWidth 32)
    (save.map Store.bytes
        = (toBytes 4 next ++ toBytes 4 fl ++ toBytes 4 g.eax ++ toBytes 4 g.ecx ++ toBytes 4 g.edx ++ toBytes 4 g.ebx
            ++ toBytes 4 g.esp ++ toBytes 4 g.ebp ++ toBytes 4 g.esi ++ toBytes 4 g.edi)
          :: [s.seg.es.sel, s.seg.cs.sel, s.seg.ss.sel, s.seg.ds.sel, s.seg.fs.sel, s.seg.gs.sel].map
              fun sel => toBytes 2 (sel.setWidth 32))
    ∧ (s.pg = false → save.map Store.span
        = Span.flat (s.tr.base + 0x20#32) 40
          :: [0x48#32, 0x4C#32, 0x50#32, 0x54#32, 0x58#32, 0x5C#32].map fun off => Span.flat (s.tr.base + off) 2)
    ∧ (kind = .iret → busy = [])
    ∧ (kind ≠ .iret → ∃ st, sysPrepare (d.addr + 4#32) newBusy s3 = .ok st s4 ∧ busy = [st])
    ∧ (¬nests → link = [])
    ∧ (nests → ∃ st, sysPrepare d.base backLink s4 = .ok st s5 ∧ link = [st])
    ∧ (nests ∨ selNull s.tr.sel = true → clear = [])
    ∧ (¬nests → selNull s.tr.sel = false → ∃ hi x, sysRead oldEntry 4 s2 = .ok hi x
        ∧ (hi.extractLsb' 8 5 ≠ 0b01011#5 → clear = [])
        ∧ (hi.extractLsb' 8 5 = 0b01011#5 →
            ∃ st, sysPrepare oldEntry (toBytes 4 (hi &&& 0xFFFFFDFF#32)) x = .ok st s3 ∧ clear = [st]))
    ∧ (s.pg = false → span = Span.flat d.base 104
        ∧ (kind ≠ .iret → busy = [{ span := Span.flat (d.addr + 4#32) 4, bytes := newBusy }])
        ∧ (nests → link = [{ span := Span.flat d.base 2, bytes := backLink }])
        ∧ ∀ st, st ∈ clear → st.span = Span.flat oldEntry 4)
    ∧ (∀ e v, tests = .error e v → taskSwitch kind sel ext next fl s = .error e v ∧ entered v)
    ∧ ∀ v, tests = .ok () v → ∃ t, taskSwitch kind sel ext next fl s = .ok () t ∧ entered t
        ∧ t.seg.cs.valid = true ∧ t.seg.ss.valid = true
        ∧ t.run.pendingDb.bt = (s.run.pendingDb.bt || (tssField image 0x64).getLsbD 0)
        ∧ t.ctl.cr2 = s.ctl.cr2
        ∧ (s.pg = false → Memory.wf s.mem = true → ∀ a, ¬storesCover stores a →
            (∀ r, ¬(Span.flat (t.descriptorAddr (t.seg.get r).sel + 4#32) 4).covers 4 a) → t.byte a = s.byte a))
  -- JMP and CALL
  ∧ (∀ (c : Ctx) (i : Instr) (isCall : Bool) (off : Dword) (sel : Word) (reads : List (Dword × Nat)) (d : Descriptor)
      (s t u : State),
      s.flags.vm = false → s.pe = true →
      farOperand c (if isCall then .callFar c else .jmpFar c) (if isCall then .callFarMem c else .jmpFarMem c) i off sel reads
        s t →
      selNull sel = false → readDescriptor sel t = .ok (some d) u → d.kind ∈ [0b01001#5, 0b00101#5] →
      let open_ := s.cpl ≤ d.dpl ∧ selRpl sel ≤ d.dpl
      let tss := if d.kind = 0b01001#5 then sel else d.gateSel
      let switch := taskSwitch (if isCall then .call else .jmp) tss false (s.pc + BitVec.ofNat 32 c.len) s.flags.pack u
      (¬open_ → exec i s = raised (faultWith u 0x0D#8 (selErr sel false)) u.freed)
      ∧ (open_ → d.kind = 0b00101#5 → d.present = false →
          exec i s = raised (faultWith u 0x0B#8 (selErr sel false)) u.freed)
      ∧ (open_ → (d.kind = 0b00101#5 → d.present = true) →
          (∀ v, switch = .ok () v → exec i s = .next (s.endedRf v.a31Freed))
          ∧ ∀ e v, switch = .error (.exc e) v → exec i s = raised e v))
  -- IRET
  ∧ (∀ (c : Ctx) (link : Dword) (s t : State), s.flags.vm = false → s.pe = true → s.flags.nt = true →
      sysRead s.tr.base 2 s = .ok link t →
      let switch :=
        taskSwitch .iret (lowWord link) false (s.pc + BitVec.ofNat 32 c.len) { s.flags with nt := false }.pack t
      (∀ u, switch = .ok () u → exec (.iret c) s = .next (s.endedRf u.unmaskNmi))
      ∧ ∀ e u, switch = .error (.exc e) u → exec (.iret c) s = raised e u)
  -- an event through a task gate
  ∧ (∀ (n : Nat) (e : Event) (lo hi : Dword) (s0 s1 s2 : State),
      s0.flags.vm = false → s0.pe = true →
      let s := s0.savedEip e
      let k := 8 * e.vector.toNat
      let at_ := s.idtr.base + BitVec.ofNat 32 k
      let gate : Descriptor := { lo := lo, hi := hi, addr := at_ }
      let begun := s.setDelivering (some e.excClass)
      k + 7 ≤ s.idtr.limit.toNat → sysRead at_ 4 begun = .ok lo s1 → sysRead (at_ + 4#32) 4 s1 = .ok hi s2 →
      gate.kind = 0b00101#5 → (e.kind = .software → s.cpl ≤ gate.dpl) →
      let saved := { s.flags with rf := s.flags.rf || decide (e.kind = EventKind.fault) }.pack
      let switch := taskSwitch .int gate.gateSel (decide (e.kind = EventKind.external)) s.pc saved s2
      (gate.present = false → deliverOnce e begun
        = .error (.exc (faultWith s2 0x0B#8 (idtErr e.vector (decide (e.kind = EventKind.external))))) s2.freed)
      ∧ (gate.present = true →
          (∀ u, switch = .ok () u → e.code = none → deliver (n + 1) e s0 = .next u.delivered)
          ∧ (∀ u code sp v, switch = .ok () u → e.code = some code →
              operandSpan .ss (u.stackBelow 4) 4 .write u = .ok sp v →
              let w := ((v.store { span := sp, bytes := toBytes 4 code }).moveDown 4).delivered
              deliver (n + 1) e s0 = .next w
                ∧ Frame u v w fun a => u.accessByte (u.linear .ss (u.stackBelow 4)) 4 a ∨ sp.covers 4 a)
          ∧ ∀ e2 u, switch = .error (.exc e2) u → deliverOnce e begun = .error (.exc e2) u))
  -- tests 1 to 3
  ∧ (∀ (kind : SwitchKind) (sel : Word) (ext : Bool) (next fl : Dword) (s : State),
      let failed := fun (vector : Byte) (t : State) =>
        taskSwitch kind sel ext next fl s = .error (.exc (faultWith t vector (selErr sel ext))) t.freed
      let bad : Byte := if kind = .iret then 0x0A#8 else 0x0D#8
      ((selNull sel = true ∨ selTi sel = true ∨ s.lacksDescriptor sel = true) → failed bad s)
      ∧ ∀ (d : Descriptor) (t : State), selNull sel = false → selTi sel = false →
          readDescriptor sel s = .ok (some d) t →
          let tss := d.kind = 0b01001#5 ∨ d.kind = 0b01011#5
          (d.kind ∉ [0b01001#5, 0b01011#5, 0b00001#5, 0b00011#5] → failed bad t)
          ∧ (tss → d.present = false → failed 0x0B#8 t)
          ∧ (d.kind = 0b01011#5 → d.present = true → kind ≠ .iret → failed 0x0D#8 t)
          ∧ (d.kind = 0b01001#5 → d.present = true → kind = .iret → failed 0x0A#8 t)
          ∧ (d.kind = (if kind = .iret then 0b01011#5 else 0b01001#5) → d.present = true → d.limit.toNat < 103 →
              failed 0x0A#8 t))
  -- tests 4 to 16
  ∧ ∀ (ext : Bool) (s : State),
      let failed := fun (m : M Unit) (vector : Byte) (sel : Word) (t : State) =>
        m s = .error (.exc (faultWith t vector (selErr sel ext))) t.freed
      let ldt := s.ldtr.sel
      let cs := s.seg.cs.sel
      let ss := s.seg.ss.sel
      (∀ (earlier later : List (M Unit)) (m : M Unit) (e : Err) (t u : State),
        [taskLdt ext, taskCs ext, taskSs ext, taskData .ds ext, taskData .es ext, taskData .fs ext, taskData .gs ext]
          = earlier ++ m :: later →
        earlier.forM id s = .ok () t → m t = .error e u → taskTests ext s = .error e u)
      ∧ (selNull ldt = false → (selTi ldt = true ∨ s.lacksDescriptor ldt = true) → failed (taskLdt ext) 0x0A#8 ldt s)
      ∧ (∀ d t, selNull ldt = false → selTi ldt = false → readDescriptor ldt s = .ok (some d) t →
          (d.kind ≠ 0b00010#5 ∨ d.present = false) → failed (taskLdt ext) 0x0A#8 ldt t)
      ∧ ((selNull cs = true ∨ s.lacksDescriptor cs = true) → failed (taskCs ext) 0x0A#8 cs s)
      ∧ (∀ d t, selNull cs = false → readDescriptor cs s = .ok (some d) t →
          let level := if d.attr.conforming then d.dpl ≤ selRpl cs else d.dpl = selRpl cs
          (d.attr.code = false → failed (taskCs ext) 0x0A#8 cs t)
          ∧ (d.attr.code = true → d.present = false → failed (taskCs ext) 0x0B#8 cs t)
          ∧ (d.attr.code = true → d.present = true → ¬level → failed (taskCs ext) 0x0A#8 cs t))
      ∧ ((selNull ss = true ∨ s.lacksDescriptor ss = true) → failed (taskSs ext) 0x0A#8 ss s)
      ∧ (∀ d t, selNull ss = false → readDescriptor ss s = .ok (some d) t →
          (d.attr.writable = false → failed (taskSs ext) 0x0A#8 ss t)
          ∧ (d.attr.writable = true → d.present = false → failed (taskSs ext) 0x0C#8 ss t)
          ∧ (d.attr.writable = true → d.present = true → (d.dpl ≠ s.cpl ∨ selRpl ss ≠ s.cpl) →
              failed (taskSs ext) 0x0A#8 ss t))
      ∧ ∀ r : Sreg,
          let sel := (s.seg.get r).sel
          (selNull sel = false → s.lacksDescriptor sel = true → failed (taskData r ext) 0x0A#8 sel s)
          ∧ ∀ d t, selNull sel = false → readDescriptor sel s = .ok (some d) t →
              (d.attr.readable = false → failed (taskData r ext) 0x0A#8 sel t)
              ∧ (d.attr.readable = true → d.present = false → failed (taskData r ext) 0x0B#8 sel t)
              ∧ (d.attr.readable = true → d.present = true → d.attr.conforming = false →
                  (d.dpl < s.cpl ∨ d.dpl < selRpl sel) → failed (taskData r ext) 0x0D#8 sel t)

end Statements
end

