-- ==== Sys2Proof/Laws/Memory.lean ====
section
/-! SUPPORT. Memory: every operation keeps its canonical form; a read after a write; little-endian bytes (20_memory.md
R210). -/

namespace Sys2Proof.Machine

/-- An address below every listed one reads as an unlisted byte. -/
theorem cell_below {m : List Host.Cell} {a : Nat} (h : Memory.below a m = true) :
    Memory.cell m a = Config.unwrittenByte := by
  cases m with
  | nil => rfl
  | cons c r => simp_all [Memory.below, Memory.cell]

theorem below_trans {m : List Host.Cell} {a b : Nat} (hab : a < b) (h : Memory.below b m = true) :
    Memory.below a m = true := by
  cases m with
  | nil => rfl
  | cons c r => simp_all [Memory.below]; omega

theorem below_setCell {m : List Host.Cell} {a b : Nat} {v : Byte} (hw : Memory.cellsWf m = true) (hab : a < b)
    (h : Memory.below a m = true) : Memory.below a (Memory.setCell m b v) = true := by
  cases m with
  | nil => unfold Memory.setCell; split <;> simp_all [Memory.below]
  | cons c r =>
    obtain ⟨k, w⟩ := c
    simp only [Memory.below, decide_eq_true_eq] at h
    simp only [Memory.cellsWf, Bool.and_eq_true, decide_eq_true_eq] at hw
    unfold Memory.setCell
    split
    · split <;> simp [Memory.below, h, hab]
    · split
      · split
        · exact below_trans h hw.1.2
        · simpa [Memory.below] using hab
      · simpa [Memory.below] using h

/-- A change of a cell keeps the canonical form. -/
theorem cellsWf_setCell {m : List Host.Cell} {a : Nat} {v : Byte} (h : Memory.cellsWf m = true) (ha : a < 4294967296) :
    Memory.cellsWf (Memory.setCell m a v) = true := by
  induction m with
  | nil => unfold Memory.setCell; split <;> simp_all [Memory.cellsWf, Memory.below]
  | cons c r ih =>
    obtain ⟨k, w⟩ := c
    have h' := h
    simp only [Memory.cellsWf, Bool.and_eq_true, decide_eq_true_eq] at h
    obtain ⟨⟨⟨hk, hw⟩, hb⟩, hr⟩ := h
    unfold Memory.setCell
    split
    · split
      · exact h'
      · simp_all [Memory.cellsWf, Memory.below]
    · split
      · subst_vars
        split
        · exact hr
        · simp_all [Memory.cellsWf]
      · have hka : k < a := by omega
        simp [Memory.cellsWf, hk, hw, ih hr, below_setCell hr hka hb]

/-- A cell read after a cell was changed. -/
theorem cell_setCell {m : List Host.Cell} {a b : Nat} {v : Byte} (h : Memory.cellsWf m = true) :
    Memory.cell (Memory.setCell m a v) b = if b = a then v else Memory.cell m b := by
  induction m with
  | nil =>
    unfold Memory.setCell
    split
    · simp_all [Memory.cell]
    · simp only [Memory.cell]
      split
      · rw [if_neg (by omega)]
      · rfl
  | cons c r ih =>
    obtain ⟨k, w⟩ := c
    simp only [Memory.cellsWf, Bool.and_eq_true, decide_eq_true_eq] at h
    obtain ⟨⟨⟨hk, hw⟩, hb⟩, hr⟩ := h
    have hlt : ∀ x, x ≤ k → Memory.cell r x = Config.unwrittenByte := fun x hx =>
      cell_below (by
        cases r with
        | nil => rfl
        | cons d q => simp only [Memory.below, decide_eq_true_eq] at hb ⊢; omega)
    unfold Memory.setCell
    split
    · rename_i hak
      split
      · subst_vars
        split
        · subst_vars; simp [Memory.cell, hak]
        · rfl
      · simp only [Memory.cell]
        split
        · rw [if_neg (by omega), if_pos (by omega)]
        · rfl
    · split
      · subst_vars
        split
        · subst_vars
          simp only [Memory.cell]
          by_cases hba : b ≤ k
          · rw [hlt b hba]
            split
            · rfl
            · rw [if_pos (by omega)]
          · rw [if_neg (by omega), if_neg (by omega), if_neg (by omega)]
        · simp only [Memory.cell]
          by_cases hba : b = k
          · simp [hba]
          · simp [hba]
      · simp only [Memory.cell, ih hr]
        by_cases hbk : b < k
        · rw [if_pos hbk, if_pos hbk, if_neg (by omega)]
        · by_cases hbe : b = k
          · subst_vars; simp; omega
          · simp [hbk, hbe]

/-- The cells after a change: the old ones and the new one. -/
theorem mem_setCell {m : List Host.Cell} {a : Nat} {v : Byte} {x : Host.Cell} (h : x ∈ Memory.setCell m a v) :
    x ∈ m ∨ x = (a, v) := by
  induction m with
  | nil => unfold Memory.setCell at h; split at h <;> simp_all
  | cons c r ih =>
    obtain ⟨k, w⟩ := c
    unfold Memory.setCell at h
    split at h
    · split at h
      · exact .inl h
      · rcases List.mem_cons.mp h with h | h
        · exact .inr h
        · exact .inl h
    · split at h
      · split at h
        · exact .inl (List.mem_cons_of_mem _ h)
        · rcases List.mem_cons.mp h with h | h
          · exact .inr h
          · exact .inl (List.mem_cons_of_mem _ h)
      · rcases List.mem_cons.mp h with h | h
        · exact .inl (h ▸ List.mem_cons_self)
        · rcases ih h with h | h
          · exact .inl (List.mem_cons_of_mem _ h)
          · exact .inr h

theorem wf_iff {m : PhysMem} :
    Memory.wf m = true ↔ Memory.cellsWf m.cells = true ∧ ∀ c ∈ m.cells, m.kindAt c.1 ≠ .absent := by
  simp [Memory.wf]

/-- A store leaves the platform's map. -/
@[simp] theorem write_map (m : PhysMem) (a : Nat) (v : Byte) : (Memory.write m a v).map = m.map := by
  unfold Memory.write
  split <;> rfl

@[simp] theorem writeSpan_map (m : PhysMem) (sp : Span) (k : Nat) (bs : List Byte) :
    (Memory.writeSpan m sp k bs).map = m.map := by
  induction bs generalizing m k with
  | nil => rfl
  | cons b r ih => rw [Memory.writeSpan, ih, write_map]

@[simp] theorem physWrite_map (m : PhysMem) (pa v : Dword) : (physWrite m pa v).map = m.map := writeSpan_map _ _ _ _

/-- A store that may be left out leaves the map. -/
theorem ite_physWrite_map {c : Prop} [Decidable c] {m n : PhysMem} {pa v : Dword} (h : m.map = n.map) :
    (if c then m else physWrite m pa v).map = n.map := by
  split
  · exact h
  · rw [physWrite_map, h]

/-- A store leaves what stands at every address. -/
@[simp] theorem write_kindAt (m : PhysMem) (a b : Nat) (v : Byte) : (Memory.write m a v).kindAt b = m.kindAt b := by
  unfold Memory.write
  split <;> rfl

/-- A store keeps the canonical form. -/
theorem Memory_wf_write {m : PhysMem} {a : Nat} {v : Byte} (h : Memory.wf m = true) (ha : a < 4294967296) :
    Memory.wf (Memory.write m a v) = true := by
  unfold Memory.write
  split
  · rename_i hk
    rw [wf_iff] at h ⊢
    refine ⟨cellsWf_setCell h.1 ha, fun c hc => ?_⟩
    rcases mem_setCell hc with hc | hc
    · exact h.2 c hc
    · subst hc
      show m.kindAt a ≠ .absent
      rw [hk]
      decide
  · exact h

/-- A read after a store: only RAM takes what is stored. -/
theorem Memory_read_write {m : PhysMem} {a b : Nat} {v : Byte} (h : Memory.wf m = true) :
    Memory.read (Memory.write m a v) b = if b = a ∧ m.kindAt a = .ram then v else Memory.read m b := by
  unfold Memory.read
  rw [write_kindAt]
  unfold Memory.write
  by_cases hk : m.kindAt a = .ram
  · simp only [hk, if_true, and_true, cell_setCell (wf_iff.mp h).1]
    by_cases hb : b = a
    · subst hb
      simp [hk]
    · simp [hb]
  · simp [hk]

/-- A store leaves every other byte. -/
theorem Memory_read_write_other {m : PhysMem} {a b : Nat} {v : Byte} (h : Memory.wf m = true) (hb : b ≠ a) :
    Memory.read (Memory.write m a v) b = Memory.read m b := by
  rw [Memory_read_write h, if_neg fun e => hb e.1]

theorem Span_addr_lt (sp : Span) (k : Nat) : sp.addr k < 4294967296 := by
  unfold Span.addr
  split <;> exact BitVec.isLt _

/-- A store of an operand keeps the canonical form. -/
theorem Memory_wf_writeSpan {m : PhysMem} {sp : Span} {bs : List Byte} {k : Nat} (h : Memory.wf m = true) :
    Memory.wf (Memory.writeSpan m sp k bs) = true := by
  induction bs generalizing m k with
  | nil => exact h
  | cons b r ih => exact ih (Memory_wf_write h (Span_addr_lt sp k))

/-- A store of an operand leaves every byte outside it. -/
theorem Memory_read_writeSpan_other {m : PhysMem} {sp : Span} {bs : List Byte} {k a : Nat}
    (h : Memory.wf m = true) (ha : ∀ i, k ≤ i → i < k + bs.length → sp.addr i ≠ a) :
    Memory.read (Memory.writeSpan m sp k bs) a = Memory.read m a := by
  induction bs generalizing m k with
  | nil => rfl
  | cons b r ih =>
    rw [Memory.writeSpan, ih (Memory_wf_write h (Span_addr_lt sp k)), Memory_read_write_other h]
    · exact fun e => ha k (le_refl k) (by simp) e.symm
    · intro i h1 h2
      exact ha i (by omega) (by simp only [List.length_cons]; omega)

/-- The bytes of a span that is one run of addresses, none of them past the top, are distinct. -/
theorem Span_flat_addr {a : Dword} {n k : Nat} (hk : k < n) (h : a.toNat + n ≤ 4294967296) :
    (Span.flat a n).addr k = a.toNat + k := by
  simp only [Span.addr, Span.flat, hk, if_true, BitVec.toNat_add, BitVec.toNat_ofNat]
  omega

/-- A stored operand reads back, when its places are distinct and in RAM. -/
theorem Memory_readSpan_writeSpan {m : PhysMem} {sp : Span} {bs : List Byte} {k : Nat}
    (h : Memory.wf m = true)
    (hd : ∀ i j, k ≤ i → i < k + bs.length → k ≤ j → j < k + bs.length → sp.addr i = sp.addr j → i = j)
    (hr : ∀ i, k ≤ i → i < k + bs.length → m.kindAt (sp.addr i) = .ram) :
    Memory.readSpan (Memory.writeSpan m sp k bs) sp k bs.length = bs := by
  induction bs generalizing m k with
  | nil => rfl
  | cons b r ih =>
    have hw := Memory_wf_write (v := b) h (Span_addr_lt sp k)
    simp only [Memory.writeSpan, List.length_cons, Memory.readSpan]
    rw [Memory_read_writeSpan_other hw, Memory_read_write h, if_pos ⟨rfl, hr k (le_refl k) (by simp)⟩,
      ih hw (fun i j h1 h2 h3 h4 => hd i j (by omega) (by simp; omega) (by omega) (by simp; omega)) (fun i h1 h2 => by
        rw [write_kindAt]; exact hr i (by omega) (by simp only [List.length_cons]; omega))]
    intro i h1 h2 e
    have := hd i k (by omega) (by simp only [List.length_cons]; omega) (le_refl k) (by simp) e
    omega

/-- The number of bytes a value splits into. -/
@[simp] theorem toBytes_length (n : Nat) (v : Dword) : (toBytes n v).length = n := by
  induction n generalizing v with
  | zero => rfl
  | succ n ih => simp [toBytes, ih]

@[simp] theorem readSpan_length (m : PhysMem) (sp : Span) (k n : Nat) :
    (Memory.readSpan m sp k n).length = n := by
  induction n generalizing k with
  | zero => rfl
  | succ n ih => simp [Memory.readSpan, ih]

/-- A doubleword put together from its bytes. -/
@[simp] theorem fromBytes_toBytes4 (v : Dword) : fromBytes (toBytes 4 v) = v := by
  simp only [toBytes, fromBytes]
  apply BitVec.eq_of_getLsbD_eq
  intro i hi
  interval_cases i <;> simp

/-- A word put together from its bytes. -/
@[simp] theorem fromBytes_toBytes2 (v : Dword) : fromBytes (toBytes 2 v) = (lowWord v).setWidth 32 := by
  simp only [toBytes, fromBytes, lowWord]
  apply BitVec.eq_of_getLsbD_eq
  intro i hi
  interval_cases i <;> simp

/-- Every store keeps the canonical form. -/
theorem State_wf_store {s : State} {st : Store} (h : Memory.wf s.mem = true) : Memory.wf (s.store st).mem = true :=
  Memory_wf_writeSpan h

/-- Several stores keep the canonical form. -/
theorem State_wf_storeAll {s : State} {sts : List Store} (h : Memory.wf s.mem = true) :
    Memory.wf (s.storeAll sts).mem = true := by
  unfold State.storeAll
  induction sts generalizing s with
  | nil => exact h
  | cons st r ih => exact ih (State_wf_store h)

/-- A write of a doubleword of physical memory keeps the canonical form. -/
theorem physWrite_wf {m : PhysMem} {pa v : Dword} (h : Memory.wf m = true) :
    Memory.wf (physWrite m pa v) = true := Memory_wf_writeSpan h

/-- Memory after RESET is in its canonical form. -/
theorem reset_mem_wf : Memory.wf State.reset.mem = true := rfl

end Sys2Proof.Machine
end

