-- ==== Sys2Proof/Laws/Monad.lean ====
section
/-! SUPPORT. How computations over the machine unfold: one lemma per way to build one, and the four ways an instruction
ends. -/

namespace Sys2Proof.Machine

@[simp] theorem M_bind_apply {α β : Type} (m : M α) (f : α → M β) (s : State) :
    (m >>= f) s = match m s with | .ok a t => f a t | .error e t => .error e t := by
  show EStateM.bind m f s = _
  unfold EStateM.bind
  cases m s <;> rfl

@[simp] theorem M_map_apply {α β : Type} (f : α → β) (m : M α) (s : State) :
    (f <$> m) s = match m s with | .ok a t => .ok (f a) t | .error e t => .error e t := by
  show EStateM.map f m s = _
  unfold EStateM.map
  cases m s <;> rfl

@[simp] theorem M_pure_apply {α : Type} (a : α) (s : State) : (pure a : M α) s = .ok a s := rfl

@[simp] theorem M_ite_apply {α : Type} (p : Prop) [Decidable p] (m n : M α) (s : State) :
    (if p then m else n) s = if p then m s else n s := by split <;> rfl

@[simp] theorem getState_apply (s : State) : getState s = .ok s s := rfl

@[simp] theorem update_apply (f : State → State) (s : State) : update f s = .ok () (f s) := rfl

@[simp] theorem stop_apply {α : Type} (e : Err) (s : State) : (stop e : M α) s = .error e s := rfl

@[simp] theorem takeFree_apply (s : State) : takeFree s = .ok s.free.head { s with free := s.free.next } := rfl

@[simp] theorem raise_apply {α : Type} (v : Byte) (s : State) :
    (raise v : M α) s = .error (.exc { vector := v, kind := .fault, code := none }) s := rfl

@[simp] theorem raiseCode_apply {α : Type} (v : Byte) (code : Word) (s : State) :
    (raiseCode v code : M α) s =
      .error (.exc { vector := v, kind := .fault, code := some (withLowWord s.free.head code) })
        { s with free := s.free.next } := rfl

@[simp] theorem raiseUD_apply {α : Type} (s : State) :
    (raiseUD : M α) s = .error (.exc { vector := 0x06#8, kind := .fault, code := none }) s := rfl

@[simp] theorem raiseNM_apply {α : Type} (s : State) :
    (raiseNM : M α) s = .error (.exc { vector := 0x07#8, kind := .fault, code := none }) s := rfl

@[simp] theorem raiseGP_apply {α : Type} (code : Word) (s : State) :
    (raiseGP code : M α) s = (raiseCode 0x0D#8 code : M α) s := rfl

@[simp] theorem raiseSS_apply {α : Type} (code : Word) (s : State) :
    (raiseSS code : M α) s = (raiseCode 0x0C#8 code : M α) s := rfl

@[simp] theorem raiseNP_apply {α : Type} (code : Word) (s : State) :
    (raiseNP code : M α) s = (raiseCode 0x0B#8 code : M α) s := rfl

@[simp] theorem raiseTS_apply {α : Type} (code : Word) (s : State) :
    (raiseTS code : M α) s = (raiseCode 0x0A#8 code : M α) s := rfl

@[simp] theorem require_true (m : M Unit) : require true m = pure () := rfl

@[simp] theorem require_false (m : M Unit) : require false m = m := rfl

/-- An instruction whose body completes. -/
theorem runInstr_ok {body : M Completion} {s t : State} {k : Completion} (hv : s.flags.vm = false)
    (h : body s = .ok k t) : runInstr body s = .next (t.complete s.flags.tf k) := by
  simp [runInstr, hv, h, finish]

/-- An instruction whose body raises an exception. -/
theorem runInstr_exc {body : M Completion} {s t : State} {e : Event} (hv : s.flags.vm = false)
    (h : body s = .error (.exc e) t) : runInstr body s = deliver deliverBound e (t.setPending .none) := by
  simp [runInstr, hv, h, finish]

/-- An instruction whose body stops with a fault. -/
theorem runInstr_fault {body : M Completion} {s t : State} {r : Fault} (hv : s.flags.vm = false)
    (h : body s = .error (.fault r) t) : runInstr body s = .fault r := by
  simp [runInstr, hv, h, finish]

/-- An instruction whose body is refused. -/
theorem runInstr_refusal {body : M Completion} {s t : State} {r : Refusal} (hv : s.flags.vm = false)
    (h : body s = .error (.refusal r) t) : runInstr body s = .refused r := by
  simp [runInstr, hv, h, finish]

/-- An instruction that answers a next state either completed or raised an exception that was delivered. -/
theorem runInstr_next {body : M Completion} {s u : State} (h : runInstr body s = .next u) :
    (∃ k t, body s = .ok k t ∧ u = t.complete s.flags.tf k)
      ∨ ∃ e t, body s = .error (.exc e) t ∧ deliver deliverBound e (t.setPending .none) = .next u := by
  unfold runInstr at h
  split at h
  · cases h
  · unfold finish at h
    split at h
    · rename_i k t hb
      exact .inl ⟨k, t, hb, by simpa using h.symm⟩
    · rename_i e t hb
      exact .inr ⟨e, t, hb, h⟩
    · cases h
    · cases h

/-- A delivery whose first attempt succeeds. -/
theorem deliver_ok {n : Nat} {e : Event} {s t : State}
    (h : deliverOnce e ((s.savedEip e).setDelivering (some e.excClass)) = .ok () t) :
    deliver (n + 1) e s = .next t.delivered := by
  simp [deliver, h]

/-- A delivery inside which a second exception arises (60_exceptions.md R751). -/
theorem deliver_exc {n : Nat} {e e2 : Event} {s t : State}
    (h : deliverOnce e ((s.savedEip e).setDelivering (some e.excClass)) = .error (.exc e2) t) :
    deliver (n + 1) e s =
      if e.excClass = .doubleFault then .next (t.setPending .none).shutDown
      else if doubles e.excClass e2.excClass then deliver n doubleFault (t.setPending .none)
      else deliver n e2 (t.setPending .none) := by
  simp [deliver, h]

/-- A step that executes an instruction. -/
theorem step_run {s t u : State} {i : Instr} (hb : boundary s = .run t) (hf : fetchInstr t = .ok i u) :
    step s = settle i u (exec i u) := by
  simp [step, hb, runNext, hf]

end Sys2Proof.Machine
end

