-- ==== Sys2Proof/Laws/State.lean ====
section
/-! SUPPORT. The field of an updated state, one lemma for each field and each update. -/

namespace Sys2Proof.Machine

@[simp] theorem State.setReg_gpr (s : State) (r : Reg) (v : Dword) : (s.setReg r v).gpr = s.gpr.set r v := rfl
@[simp] theorem State.setReg_pc (s : State) (r : Reg) (v : Dword) : (s.setReg r v).pc = s.pc := rfl
@[simp] theorem State.setReg_flags (s : State) (r : Reg) (v : Dword) : (s.setReg r v).flags = s.flags := rfl
@[simp] theorem State.setReg_cpl (s : State) (r : Reg) (v : Dword) : (s.setReg r v).cpl = s.cpl := rfl
@[simp] theorem State.setReg_seg (s : State) (r : Reg) (v : Dword) : (s.setReg r v).seg = s.seg := rfl
@[simp] theorem State.setReg_gdtr (s : State) (r : Reg) (v : Dword) : (s.setReg r v).gdtr = s.gdtr := rfl
@[simp] theorem State.setReg_idtr (s : State) (r : Reg) (v : Dword) : (s.setReg r v).idtr = s.idtr := rfl
@[simp] theorem State.setReg_ldtr (s : State) (r : Reg) (v : Dword) : (s.setReg r v).ldtr = s.ldtr := rfl
@[simp] theorem State.setReg_tr (s : State) (r : Reg) (v : Dword) : (s.setReg r v).tr = s.tr := rfl
@[simp] theorem State.setReg_ctl (s : State) (r : Reg) (v : Dword) : (s.setReg r v).ctl = s.ctl := rfl
@[simp] theorem State.setReg_dbg (s : State) (r : Reg) (v : Dword) : (s.setReg r v).dbg = s.dbg := rfl
@[simp] theorem State.setReg_tlb (s : State) (r : Reg) (v : Dword) : (s.setReg r v).tlb = s.tlb := rfl
@[simp] theorem State.setReg_run (s : State) (r : Reg) (v : Dword) : (s.setReg r v).run = s.run := rfl
@[simp] theorem State.setReg_pins (s : State) (r : Reg) (v : Dword) : (s.setReg r v).pins = s.pins := rfl
@[simp] theorem State.setReg_io (s : State) (r : Reg) (v : Dword) : (s.setReg r v).io = s.io := rfl
@[simp] theorem State.setReg_cop (s : State) (r : Reg) (v : Dword) : (s.setReg r v).cop = s.cop := rfl
@[simp] theorem State.setReg_params (s : State) (r : Reg) (v : Dword) : (s.setReg r v).params = s.params := rfl
@[simp] theorem State.setReg_free (s : State) (r : Reg) (v : Dword) : (s.setReg r v).free = s.free := rfl
@[simp] theorem State.setReg_mem (s : State) (r : Reg) (v : Dword) : (s.setReg r v).mem = s.mem := rfl

@[simp] theorem State.setReg16_gpr (s : State) (r : Reg) (v : Word) : (s.setReg16 r v).gpr = s.gpr.set r (withLowWord (s.gpr.get r) v) := rfl
@[simp] theorem State.setReg16_pc (s : State) (r : Reg) (v : Word) : (s.setReg16 r v).pc = s.pc := rfl
@[simp] theorem State.setReg16_flags (s : State) (r : Reg) (v : Word) : (s.setReg16 r v).flags = s.flags := rfl
@[simp] theorem State.setReg16_cpl (s : State) (r : Reg) (v : Word) : (s.setReg16 r v).cpl = s.cpl := rfl
@[simp] theorem State.setReg16_seg (s : State) (r : Reg) (v : Word) : (s.setReg16 r v).seg = s.seg := rfl
@[simp] theorem State.setReg16_gdtr (s : State) (r : Reg) (v : Word) : (s.setReg16 r v).gdtr = s.gdtr := rfl
@[simp] theorem State.setReg16_idtr (s : State) (r : Reg) (v : Word) : (s.setReg16 r v).idtr = s.idtr := rfl
@[simp] theorem State.setReg16_ldtr (s : State) (r : Reg) (v : Word) : (s.setReg16 r v).ldtr = s.ldtr := rfl
@[simp] theorem State.setReg16_tr (s : State) (r : Reg) (v : Word) : (s.setReg16 r v).tr = s.tr := rfl
@[simp] theorem State.setReg16_ctl (s : State) (r : Reg) (v : Word) : (s.setReg16 r v).ctl = s.ctl := rfl
@[simp] theorem State.setReg16_dbg (s : State) (r : Reg) (v : Word) : (s.setReg16 r v).dbg = s.dbg := rfl
@[simp] theorem State.setReg16_tlb (s : State) (r : Reg) (v : Word) : (s.setReg16 r v).tlb = s.tlb := rfl
@[simp] theorem State.setReg16_run (s : State) (r : Reg) (v : Word) : (s.setReg16 r v).run = s.run := rfl
@[simp] theorem State.setReg16_pins (s : State) (r : Reg) (v : Word) : (s.setReg16 r v).pins = s.pins := rfl
@[simp] theorem State.setReg16_io (s : State) (r : Reg) (v : Word) : (s.setReg16 r v).io = s.io := rfl
@[simp] theorem State.setReg16_cop (s : State) (r : Reg) (v : Word) : (s.setReg16 r v).cop = s.cop := rfl
@[simp] theorem State.setReg16_params (s : State) (r : Reg) (v : Word) : (s.setReg16 r v).params = s.params := rfl
@[simp] theorem State.setReg16_free (s : State) (r : Reg) (v : Word) : (s.setReg16 r v).free = s.free := rfl
@[simp] theorem State.setReg16_mem (s : State) (r : Reg) (v : Word) : (s.setReg16 r v).mem = s.mem := rfl

@[simp] theorem State.setReg8_pc (s : State) (r : Reg8) (v : Byte) : (s.setReg8 r v).pc = s.pc := rfl
@[simp] theorem State.setReg8_flags (s : State) (r : Reg8) (v : Byte) : (s.setReg8 r v).flags = s.flags := rfl
@[simp] theorem State.setReg8_cpl (s : State) (r : Reg8) (v : Byte) : (s.setReg8 r v).cpl = s.cpl := rfl
@[simp] theorem State.setReg8_seg (s : State) (r : Reg8) (v : Byte) : (s.setReg8 r v).seg = s.seg := rfl
@[simp] theorem State.setReg8_gdtr (s : State) (r : Reg8) (v : Byte) : (s.setReg8 r v).gdtr = s.gdtr := rfl
@[simp] theorem State.setReg8_idtr (s : State) (r : Reg8) (v : Byte) : (s.setReg8 r v).idtr = s.idtr := rfl
@[simp] theorem State.setReg8_ldtr (s : State) (r : Reg8) (v : Byte) : (s.setReg8 r v).ldtr = s.ldtr := rfl
@[simp] theorem State.setReg8_tr (s : State) (r : Reg8) (v : Byte) : (s.setReg8 r v).tr = s.tr := rfl
@[simp] theorem State.setReg8_ctl (s : State) (r : Reg8) (v : Byte) : (s.setReg8 r v).ctl = s.ctl := rfl
@[simp] theorem State.setReg8_dbg (s : State) (r : Reg8) (v : Byte) : (s.setReg8 r v).dbg = s.dbg := rfl
@[simp] theorem State.setReg8_tlb (s : State) (r : Reg8) (v : Byte) : (s.setReg8 r v).tlb = s.tlb := rfl
@[simp] theorem State.setReg8_run (s : State) (r : Reg8) (v : Byte) : (s.setReg8 r v).run = s.run := rfl
@[simp] theorem State.setReg8_pins (s : State) (r : Reg8) (v : Byte) : (s.setReg8 r v).pins = s.pins := rfl
@[simp] theorem State.setReg8_io (s : State) (r : Reg8) (v : Byte) : (s.setReg8 r v).io = s.io := rfl
@[simp] theorem State.setReg8_cop (s : State) (r : Reg8) (v : Byte) : (s.setReg8 r v).cop = s.cop := rfl
@[simp] theorem State.setReg8_params (s : State) (r : Reg8) (v : Byte) : (s.setReg8 r v).params = s.params := rfl
@[simp] theorem State.setReg8_free (s : State) (r : Reg8) (v : Byte) : (s.setReg8 r v).free = s.free := rfl
@[simp] theorem State.setReg8_mem (s : State) (r : Reg8) (v : Byte) : (s.setReg8 r v).mem = s.mem := rfl

@[simp] theorem State.setZf_gpr (s : State) (b : Bool) : (s.setZf b).gpr = s.gpr := rfl
@[simp] theorem State.setZf_pc (s : State) (b : Bool) : (s.setZf b).pc = s.pc := rfl
@[simp] theorem State.setZf_flags (s : State) (b : Bool) : (s.setZf b).flags = { s.flags with zf := b } := rfl
@[simp] theorem State.setZf_cpl (s : State) (b : Bool) : (s.setZf b).cpl = s.cpl := rfl
@[simp] theorem State.setZf_seg (s : State) (b : Bool) : (s.setZf b).seg = s.seg := rfl
@[simp] theorem State.setZf_gdtr (s : State) (b : Bool) : (s.setZf b).gdtr = s.gdtr := rfl
@[simp] theorem State.setZf_idtr (s : State) (b : Bool) : (s.setZf b).idtr = s.idtr := rfl
@[simp] theorem State.setZf_ldtr (s : State) (b : Bool) : (s.setZf b).ldtr = s.ldtr := rfl
@[simp] theorem State.setZf_tr (s : State) (b : Bool) : (s.setZf b).tr = s.tr := rfl
@[simp] theorem State.setZf_ctl (s : State) (b : Bool) : (s.setZf b).ctl = s.ctl := rfl
@[simp] theorem State.setZf_dbg (s : State) (b : Bool) : (s.setZf b).dbg = s.dbg := rfl
@[simp] theorem State.setZf_tlb (s : State) (b : Bool) : (s.setZf b).tlb = s.tlb := rfl
@[simp] theorem State.setZf_run (s : State) (b : Bool) : (s.setZf b).run = s.run := rfl
@[simp] theorem State.setZf_pins (s : State) (b : Bool) : (s.setZf b).pins = s.pins := rfl
@[simp] theorem State.setZf_io (s : State) (b : Bool) : (s.setZf b).io = s.io := rfl
@[simp] theorem State.setZf_cop (s : State) (b : Bool) : (s.setZf b).cop = s.cop := rfl
@[simp] theorem State.setZf_params (s : State) (b : Bool) : (s.setZf b).params = s.params := rfl
@[simp] theorem State.setZf_free (s : State) (b : Bool) : (s.setZf b).free = s.free := rfl
@[simp] theorem State.setZf_mem (s : State) (b : Bool) : (s.setZf b).mem = s.mem := rfl

@[simp] theorem State.setIf_gpr (s : State) (b : Bool) : (s.setIf b).gpr = s.gpr := rfl
@[simp] theorem State.setIf_pc (s : State) (b : Bool) : (s.setIf b).pc = s.pc := rfl
@[simp] theorem State.setIf_flags (s : State) (b : Bool) : (s.setIf b).flags = { s.flags with ifl := b } := rfl
@[simp] theorem State.setIf_cpl (s : State) (b : Bool) : (s.setIf b).cpl = s.cpl := rfl
@[simp] theorem State.setIf_seg (s : State) (b : Bool) : (s.setIf b).seg = s.seg := rfl
@[simp] theorem State.setIf_gdtr (s : State) (b : Bool) : (s.setIf b).gdtr = s.gdtr := rfl
@[simp] theorem State.setIf_idtr (s : State) (b : Bool) : (s.setIf b).idtr = s.idtr := rfl
@[simp] theorem State.setIf_ldtr (s : State) (b : Bool) : (s.setIf b).ldtr = s.ldtr := rfl
@[simp] theorem State.setIf_tr (s : State) (b : Bool) : (s.setIf b).tr = s.tr := rfl
@[simp] theorem State.setIf_ctl (s : State) (b : Bool) : (s.setIf b).ctl = s.ctl := rfl
@[simp] theorem State.setIf_dbg (s : State) (b : Bool) : (s.setIf b).dbg = s.dbg := rfl
@[simp] theorem State.setIf_tlb (s : State) (b : Bool) : (s.setIf b).tlb = s.tlb := rfl
@[simp] theorem State.setIf_run (s : State) (b : Bool) : (s.setIf b).run = s.run := rfl
@[simp] theorem State.setIf_pins (s : State) (b : Bool) : (s.setIf b).pins = s.pins := rfl
@[simp] theorem State.setIf_io (s : State) (b : Bool) : (s.setIf b).io = s.io := rfl
@[simp] theorem State.setIf_cop (s : State) (b : Bool) : (s.setIf b).cop = s.cop := rfl
@[simp] theorem State.setIf_params (s : State) (b : Bool) : (s.setIf b).params = s.params := rfl
@[simp] theorem State.setIf_free (s : State) (b : Bool) : (s.setIf b).free = s.free := rfl
@[simp] theorem State.setIf_mem (s : State) (b : Bool) : (s.setIf b).mem = s.mem := rfl

@[simp] theorem State.setRf_gpr (s : State) (b : Bool) : (s.setRf b).gpr = s.gpr := rfl
@[simp] theorem State.setRf_pc (s : State) (b : Bool) : (s.setRf b).pc = s.pc := rfl
@[simp] theorem State.setRf_flags (s : State) (b : Bool) : (s.setRf b).flags = { s.flags with rf := b } := rfl
@[simp] theorem State.setRf_cpl (s : State) (b : Bool) : (s.setRf b).cpl = s.cpl := rfl
@[simp] theorem State.setRf_seg (s : State) (b : Bool) : (s.setRf b).seg = s.seg := rfl
@[simp] theorem State.setRf_gdtr (s : State) (b : Bool) : (s.setRf b).gdtr = s.gdtr := rfl
@[simp] theorem State.setRf_idtr (s : State) (b : Bool) : (s.setRf b).idtr = s.idtr := rfl
@[simp] theorem State.setRf_ldtr (s : State) (b : Bool) : (s.setRf b).ldtr = s.ldtr := rfl
@[simp] theorem State.setRf_tr (s : State) (b : Bool) : (s.setRf b).tr = s.tr := rfl
@[simp] theorem State.setRf_ctl (s : State) (b : Bool) : (s.setRf b).ctl = s.ctl := rfl
@[simp] theorem State.setRf_dbg (s : State) (b : Bool) : (s.setRf b).dbg = s.dbg := rfl
@[simp] theorem State.setRf_tlb (s : State) (b : Bool) : (s.setRf b).tlb = s.tlb := rfl
@[simp] theorem State.setRf_run (s : State) (b : Bool) : (s.setRf b).run = s.run := rfl
@[simp] theorem State.setRf_pins (s : State) (b : Bool) : (s.setRf b).pins = s.pins := rfl
@[simp] theorem State.setRf_io (s : State) (b : Bool) : (s.setRf b).io = s.io := rfl
@[simp] theorem State.setRf_cop (s : State) (b : Bool) : (s.setRf b).cop = s.cop := rfl
@[simp] theorem State.setRf_params (s : State) (b : Bool) : (s.setRf b).params = s.params := rfl
@[simp] theorem State.setRf_free (s : State) (b : Bool) : (s.setRf b).free = s.free := rfl
@[simp] theorem State.setRf_mem (s : State) (b : Bool) : (s.setRf b).mem = s.mem := rfl

@[simp] theorem State.store_gpr (s : State) (st : Store) : (s.store st).gpr = s.gpr := rfl
@[simp] theorem State.store_pc (s : State) (st : Store) : (s.store st).pc = s.pc := rfl
@[simp] theorem State.store_flags (s : State) (st : Store) : (s.store st).flags = s.flags := rfl
@[simp] theorem State.store_cpl (s : State) (st : Store) : (s.store st).cpl = s.cpl := rfl
@[simp] theorem State.store_seg (s : State) (st : Store) : (s.store st).seg = s.seg := rfl
@[simp] theorem State.store_gdtr (s : State) (st : Store) : (s.store st).gdtr = s.gdtr := rfl
@[simp] theorem State.store_idtr (s : State) (st : Store) : (s.store st).idtr = s.idtr := rfl
@[simp] theorem State.store_ldtr (s : State) (st : Store) : (s.store st).ldtr = s.ldtr := rfl
@[simp] theorem State.store_tr (s : State) (st : Store) : (s.store st).tr = s.tr := rfl
@[simp] theorem State.store_ctl (s : State) (st : Store) : (s.store st).ctl = s.ctl := rfl
@[simp] theorem State.store_dbg (s : State) (st : Store) : (s.store st).dbg = s.dbg := rfl
@[simp] theorem State.store_tlb (s : State) (st : Store) : (s.store st).tlb = s.tlb := rfl
@[simp] theorem State.store_run (s : State) (st : Store) : (s.store st).run = s.run := rfl
@[simp] theorem State.store_pins (s : State) (st : Store) : (s.store st).pins = s.pins := rfl
@[simp] theorem State.store_io (s : State) (st : Store) : (s.store st).io = s.io := rfl
@[simp] theorem State.store_cop (s : State) (st : Store) : (s.store st).cop = s.cop := rfl
@[simp] theorem State.store_params (s : State) (st : Store) : (s.store st).params = s.params := rfl
@[simp] theorem State.store_free (s : State) (st : Store) : (s.store st).free = s.free := rfl
@[simp] theorem State.store_mem (s : State) (st : Store) : (s.store st).mem = Memory.writeSpan s.mem st.span 0 st.bytes := rfl

@[simp] theorem State.setSeg_gpr (s : State) (r : Sreg) (v : SegReg) : (s.setSeg r v).gpr = s.gpr := rfl
@[simp] theorem State.setSeg_pc (s : State) (r : Sreg) (v : SegReg) : (s.setSeg r v).pc = s.pc := rfl
@[simp] theorem State.setSeg_flags (s : State) (r : Sreg) (v : SegReg) : (s.setSeg r v).flags = s.flags := rfl
@[simp] theorem State.setSeg_cpl (s : State) (r : Sreg) (v : SegReg) : (s.setSeg r v).cpl = s.cpl := rfl
@[simp] theorem State.setSeg_seg (s : State) (r : Sreg) (v : SegReg) : (s.setSeg r v).seg = s.seg.set r v := rfl
@[simp] theorem State.setSeg_gdtr (s : State) (r : Sreg) (v : SegReg) : (s.setSeg r v).gdtr = s.gdtr := rfl
@[simp] theorem State.setSeg_idtr (s : State) (r : Sreg) (v : SegReg) : (s.setSeg r v).idtr = s.idtr := rfl
@[simp] theorem State.setSeg_ldtr (s : State) (r : Sreg) (v : SegReg) : (s.setSeg r v).ldtr = s.ldtr := rfl
@[simp] theorem State.setSeg_tr (s : State) (r : Sreg) (v : SegReg) : (s.setSeg r v).tr = s.tr := rfl
@[simp] theorem State.setSeg_ctl (s : State) (r : Sreg) (v : SegReg) : (s.setSeg r v).ctl = s.ctl := rfl
@[simp] theorem State.setSeg_dbg (s : State) (r : Sreg) (v : SegReg) : (s.setSeg r v).dbg = s.dbg := rfl
@[simp] theorem State.setSeg_tlb (s : State) (r : Sreg) (v : SegReg) : (s.setSeg r v).tlb = s.tlb := rfl
@[simp] theorem State.setSeg_run (s : State) (r : Sreg) (v : SegReg) : (s.setSeg r v).run = s.run := rfl
@[simp] theorem State.setSeg_pins (s : State) (r : Sreg) (v : SegReg) : (s.setSeg r v).pins = s.pins := rfl
@[simp] theorem State.setSeg_io (s : State) (r : Sreg) (v : SegReg) : (s.setSeg r v).io = s.io := rfl
@[simp] theorem State.setSeg_cop (s : State) (r : Sreg) (v : SegReg) : (s.setSeg r v).cop = s.cop := rfl
@[simp] theorem State.setSeg_params (s : State) (r : Sreg) (v : SegReg) : (s.setSeg r v).params = s.params := rfl
@[simp] theorem State.setSeg_free (s : State) (r : Sreg) (v : SegReg) : (s.setSeg r v).free = s.free := rfl
@[simp] theorem State.setSeg_mem (s : State) (r : Sreg) (v : SegReg) : (s.setSeg r v).mem = s.mem := rfl

@[simp] theorem State.advance_gpr (s : State) (c : Ctx) : (s.advance c).gpr = s.gpr := rfl
@[simp] theorem State.advance_pc (s : State) (c : Ctx) : (s.advance c).pc = s.nextPc c := rfl
@[simp] theorem State.advance_flags (s : State) (c : Ctx) : (s.advance c).flags = s.flags := rfl
@[simp] theorem State.advance_cpl (s : State) (c : Ctx) : (s.advance c).cpl = s.cpl := rfl
@[simp] theorem State.advance_seg (s : State) (c : Ctx) : (s.advance c).seg = s.seg := rfl
@[simp] theorem State.advance_gdtr (s : State) (c : Ctx) : (s.advance c).gdtr = s.gdtr := rfl
@[simp] theorem State.advance_idtr (s : State) (c : Ctx) : (s.advance c).idtr = s.idtr := rfl
@[simp] theorem State.advance_ldtr (s : State) (c : Ctx) : (s.advance c).ldtr = s.ldtr := rfl
@[simp] theorem State.advance_tr (s : State) (c : Ctx) : (s.advance c).tr = s.tr := rfl
@[simp] theorem State.advance_ctl (s : State) (c : Ctx) : (s.advance c).ctl = s.ctl := rfl
@[simp] theorem State.advance_dbg (s : State) (c : Ctx) : (s.advance c).dbg = s.dbg := rfl
@[simp] theorem State.advance_tlb (s : State) (c : Ctx) : (s.advance c).tlb = s.tlb := rfl
@[simp] theorem State.advance_run (s : State) (c : Ctx) : (s.advance c).run = s.run := rfl
@[simp] theorem State.advance_pins (s : State) (c : Ctx) : (s.advance c).pins = s.pins := rfl
@[simp] theorem State.advance_io (s : State) (c : Ctx) : (s.advance c).io = s.io := rfl
@[simp] theorem State.advance_cop (s : State) (c : Ctx) : (s.advance c).cop = s.cop := rfl
@[simp] theorem State.advance_params (s : State) (c : Ctx) : (s.advance c).params = s.params := rfl
@[simp] theorem State.advance_free (s : State) (c : Ctx) : (s.advance c).free = s.free := rfl
@[simp] theorem State.advance_mem (s : State) (c : Ctx) : (s.advance c).mem = s.mem := rfl

@[simp] theorem State.setPending_gpr (s : State) (p : PendingDebug) : (s.setPending p).gpr = s.gpr := rfl
@[simp] theorem State.setPending_pc (s : State) (p : PendingDebug) : (s.setPending p).pc = s.pc := rfl
@[simp] theorem State.setPending_flags (s : State) (p : PendingDebug) : (s.setPending p).flags = s.flags := rfl
@[simp] theorem State.setPending_cpl (s : State) (p : PendingDebug) : (s.setPending p).cpl = s.cpl := rfl
@[simp] theorem State.setPending_seg (s : State) (p : PendingDebug) : (s.setPending p).seg = s.seg := rfl
@[simp] theorem State.setPending_gdtr (s : State) (p : PendingDebug) : (s.setPending p).gdtr = s.gdtr := rfl
@[simp] theorem State.setPending_idtr (s : State) (p : PendingDebug) : (s.setPending p).idtr = s.idtr := rfl
@[simp] theorem State.setPending_ldtr (s : State) (p : PendingDebug) : (s.setPending p).ldtr = s.ldtr := rfl
@[simp] theorem State.setPending_tr (s : State) (p : PendingDebug) : (s.setPending p).tr = s.tr := rfl
@[simp] theorem State.setPending_ctl (s : State) (p : PendingDebug) : (s.setPending p).ctl = s.ctl := rfl
@[simp] theorem State.setPending_dbg (s : State) (p : PendingDebug) : (s.setPending p).dbg = s.dbg := rfl
@[simp] theorem State.setPending_tlb (s : State) (p : PendingDebug) : (s.setPending p).tlb = s.tlb := rfl
@[simp] theorem State.setPending_run (s : State) (p : PendingDebug) : (s.setPending p).run = { s.run with pendingDb := p } := rfl
@[simp] theorem State.setPending_pins (s : State) (p : PendingDebug) : (s.setPending p).pins = s.pins := rfl
@[simp] theorem State.setPending_io (s : State) (p : PendingDebug) : (s.setPending p).io = s.io := rfl
@[simp] theorem State.setPending_cop (s : State) (p : PendingDebug) : (s.setPending p).cop = s.cop := rfl
@[simp] theorem State.setPending_params (s : State) (p : PendingDebug) : (s.setPending p).params = s.params := rfl
@[simp] theorem State.setPending_free (s : State) (p : PendingDebug) : (s.setPending p).free = s.free := rfl
@[simp] theorem State.setPending_mem (s : State) (p : PendingDebug) : (s.setPending p).mem = s.mem := rfl

@[simp] theorem State.setDelivering_gpr (s : State) (c : Option ExcClass) : (s.setDelivering c).gpr = s.gpr := rfl
@[simp] theorem State.setDelivering_pc (s : State) (c : Option ExcClass) : (s.setDelivering c).pc = s.pc := rfl
@[simp] theorem State.setDelivering_flags (s : State) (c : Option ExcClass) : (s.setDelivering c).flags = s.flags := rfl
@[simp] theorem State.setDelivering_cpl (s : State) (c : Option ExcClass) : (s.setDelivering c).cpl = s.cpl := rfl
@[simp] theorem State.setDelivering_seg (s : State) (c : Option ExcClass) : (s.setDelivering c).seg = s.seg := rfl
@[simp] theorem State.setDelivering_gdtr (s : State) (c : Option ExcClass) : (s.setDelivering c).gdtr = s.gdtr := rfl
@[simp] theorem State.setDelivering_idtr (s : State) (c : Option ExcClass) : (s.setDelivering c).idtr = s.idtr := rfl
@[simp] theorem State.setDelivering_ldtr (s : State) (c : Option ExcClass) : (s.setDelivering c).ldtr = s.ldtr := rfl
@[simp] theorem State.setDelivering_tr (s : State) (c : Option ExcClass) : (s.setDelivering c).tr = s.tr := rfl
@[simp] theorem State.setDelivering_ctl (s : State) (c : Option ExcClass) : (s.setDelivering c).ctl = s.ctl := rfl
@[simp] theorem State.setDelivering_dbg (s : State) (c : Option ExcClass) : (s.setDelivering c).dbg = s.dbg := rfl
@[simp] theorem State.setDelivering_tlb (s : State) (c : Option ExcClass) : (s.setDelivering c).tlb = s.tlb := rfl
@[simp] theorem State.setDelivering_run (s : State) (c : Option ExcClass) : (s.setDelivering c).run = { s.run with delivering := c } := rfl
@[simp] theorem State.setDelivering_pins (s : State) (c : Option ExcClass) : (s.setDelivering c).pins = s.pins := rfl
@[simp] theorem State.setDelivering_io (s : State) (c : Option ExcClass) : (s.setDelivering c).io = s.io := rfl
@[simp] theorem State.setDelivering_cop (s : State) (c : Option ExcClass) : (s.setDelivering c).cop = s.cop := rfl
@[simp] theorem State.setDelivering_params (s : State) (c : Option ExcClass) : (s.setDelivering c).params = s.params := rfl
@[simp] theorem State.setDelivering_free (s : State) (c : Option ExcClass) : (s.setDelivering c).free = s.free := rfl
@[simp] theorem State.setDelivering_mem (s : State) (c : Option ExcClass) : (s.setDelivering c).mem = s.mem := rfl

@[simp] theorem State.delivered_gpr (s : State) : (s.delivered).gpr = s.gpr := rfl
@[simp] theorem State.delivered_pc (s : State) : (s.delivered).pc = s.pc := rfl
@[simp] theorem State.delivered_flags (s : State) : (s.delivered).flags = s.flags := rfl
@[simp] theorem State.delivered_cpl (s : State) : (s.delivered).cpl = s.cpl := rfl
@[simp] theorem State.delivered_seg (s : State) : (s.delivered).seg = s.seg := rfl
@[simp] theorem State.delivered_gdtr (s : State) : (s.delivered).gdtr = s.gdtr := rfl
@[simp] theorem State.delivered_idtr (s : State) : (s.delivered).idtr = s.idtr := rfl
@[simp] theorem State.delivered_ldtr (s : State) : (s.delivered).ldtr = s.ldtr := rfl
@[simp] theorem State.delivered_tr (s : State) : (s.delivered).tr = s.tr := rfl
@[simp] theorem State.delivered_ctl (s : State) : (s.delivered).ctl = s.ctl := rfl
@[simp] theorem State.delivered_dbg (s : State) : (s.delivered).dbg = s.dbg := rfl
@[simp] theorem State.delivered_tlb (s : State) : (s.delivered).tlb = s.tlb := rfl
@[simp] theorem State.delivered_run (s : State) : (s.delivered).run = { s.run with delivering := none, prefetch := { stale := [], emptied := true } } := rfl
@[simp] theorem State.delivered_pins (s : State) : (s.delivered).pins = s.pins := rfl
@[simp] theorem State.delivered_io (s : State) : (s.delivered).io = s.io := rfl
@[simp] theorem State.delivered_cop (s : State) : (s.delivered).cop = s.cop := rfl
@[simp] theorem State.delivered_params (s : State) : (s.delivered).params = s.params := rfl
@[simp] theorem State.delivered_free (s : State) : (s.delivered).free = s.free := rfl
@[simp] theorem State.delivered_mem (s : State) : (s.delivered).mem = s.mem := rfl

@[simp] theorem State.recordAccess_gpr (s : State) (la : Dword) (n : Nat) (w : Bool) : (s.recordAccess la n w).gpr = s.gpr := rfl
@[simp] theorem State.recordAccess_pc (s : State) (la : Dword) (n : Nat) (w : Bool) : (s.recordAccess la n w).pc = s.pc := rfl
@[simp] theorem State.recordAccess_flags (s : State) (la : Dword) (n : Nat) (w : Bool) : (s.recordAccess la n w).flags = s.flags := rfl
@[simp] theorem State.recordAccess_cpl (s : State) (la : Dword) (n : Nat) (w : Bool) : (s.recordAccess la n w).cpl = s.cpl := rfl
@[simp] theorem State.recordAccess_seg (s : State) (la : Dword) (n : Nat) (w : Bool) : (s.recordAccess la n w).seg = s.seg := rfl
@[simp] theorem State.recordAccess_gdtr (s : State) (la : Dword) (n : Nat) (w : Bool) : (s.recordAccess la n w).gdtr = s.gdtr := rfl
@[simp] theorem State.recordAccess_idtr (s : State) (la : Dword) (n : Nat) (w : Bool) : (s.recordAccess la n w).idtr = s.idtr := rfl
@[simp] theorem State.recordAccess_ldtr (s : State) (la : Dword) (n : Nat) (w : Bool) : (s.recordAccess la n w).ldtr = s.ldtr := rfl
@[simp] theorem State.recordAccess_tr (s : State) (la : Dword) (n : Nat) (w : Bool) : (s.recordAccess la n w).tr = s.tr := rfl
@[simp] theorem State.recordAccess_ctl (s : State) (la : Dword) (n : Nat) (w : Bool) : (s.recordAccess la n w).ctl = s.ctl := rfl
@[simp] theorem State.recordAccess_dbg (s : State) (la : Dword) (n : Nat) (w : Bool) : (s.recordAccess la n w).dbg = s.dbg := rfl
@[simp] theorem State.recordAccess_tlb (s : State) (la : Dword) (n : Nat) (w : Bool) : (s.recordAccess la n w).tlb = s.tlb := rfl
@[simp] theorem State.recordAccess_pins (s : State) (la : Dword) (n : Nat) (w : Bool) : (s.recordAccess la n w).pins = s.pins := rfl
@[simp] theorem State.recordAccess_io (s : State) (la : Dword) (n : Nat) (w : Bool) : (s.recordAccess la n w).io = s.io := rfl
@[simp] theorem State.recordAccess_cop (s : State) (la : Dword) (n : Nat) (w : Bool) : (s.recordAccess la n w).cop = s.cop := rfl
@[simp] theorem State.recordAccess_params (s : State) (la : Dword) (n : Nat) (w : Bool) : (s.recordAccess la n w).params = s.params := rfl
@[simp] theorem State.recordAccess_free (s : State) (la : Dword) (n : Nat) (w : Bool) : (s.recordAccess la n w).free = s.free := rfl
@[simp] theorem State.recordAccess_mem (s : State) (la : Dword) (n : Nat) (w : Bool) : (s.recordAccess la n w).mem = s.mem := rfl

@[simp] theorem State.stepTrap_gpr (s : State) (b : Bool) : (s.stepTrap b).gpr = s.gpr := rfl
@[simp] theorem State.stepTrap_pc (s : State) (b : Bool) : (s.stepTrap b).pc = s.pc := rfl
@[simp] theorem State.stepTrap_flags (s : State) (b : Bool) : (s.stepTrap b).flags = s.flags := rfl
@[simp] theorem State.stepTrap_cpl (s : State) (b : Bool) : (s.stepTrap b).cpl = s.cpl := rfl
@[simp] theorem State.stepTrap_seg (s : State) (b : Bool) : (s.stepTrap b).seg = s.seg := rfl
@[simp] theorem State.stepTrap_gdtr (s : State) (b : Bool) : (s.stepTrap b).gdtr = s.gdtr := rfl
@[simp] theorem State.stepTrap_idtr (s : State) (b : Bool) : (s.stepTrap b).idtr = s.idtr := rfl
@[simp] theorem State.stepTrap_ldtr (s : State) (b : Bool) : (s.stepTrap b).ldtr = s.ldtr := rfl
@[simp] theorem State.stepTrap_tr (s : State) (b : Bool) : (s.stepTrap b).tr = s.tr := rfl
@[simp] theorem State.stepTrap_ctl (s : State) (b : Bool) : (s.stepTrap b).ctl = s.ctl := rfl
@[simp] theorem State.stepTrap_dbg (s : State) (b : Bool) : (s.stepTrap b).dbg = s.dbg := rfl
@[simp] theorem State.stepTrap_tlb (s : State) (b : Bool) : (s.stepTrap b).tlb = s.tlb := rfl
@[simp] theorem State.stepTrap_run (s : State) (b : Bool) : (s.stepTrap b).run = { s.run with pendingDb := { s.run.pendingDb with bs := s.run.pendingDb.bs || b } } := rfl
@[simp] theorem State.stepTrap_pins (s : State) (b : Bool) : (s.stepTrap b).pins = s.pins := rfl
@[simp] theorem State.stepTrap_io (s : State) (b : Bool) : (s.stepTrap b).io = s.io := rfl
@[simp] theorem State.stepTrap_cop (s : State) (b : Bool) : (s.stepTrap b).cop = s.cop := rfl
@[simp] theorem State.stepTrap_params (s : State) (b : Bool) : (s.stepTrap b).params = s.params := rfl
@[simp] theorem State.stepTrap_free (s : State) (b : Bool) : (s.stepTrap b).free = s.free := rfl
@[simp] theorem State.stepTrap_mem (s : State) (b : Bool) : (s.stepTrap b).mem = s.mem := rfl

@[simp] theorem State.setDr6_gpr (s : State) (v : Dword) : (s.setDr6 v).gpr = s.gpr := rfl
@[simp] theorem State.setDr6_pc (s : State) (v : Dword) : (s.setDr6 v).pc = s.pc := rfl
@[simp] theorem State.setDr6_flags (s : State) (v : Dword) : (s.setDr6 v).flags = s.flags := rfl
@[simp] theorem State.setDr6_cpl (s : State) (v : Dword) : (s.setDr6 v).cpl = s.cpl := rfl
@[simp] theorem State.setDr6_seg (s : State) (v : Dword) : (s.setDr6 v).seg = s.seg := rfl
@[simp] theorem State.setDr6_gdtr (s : State) (v : Dword) : (s.setDr6 v).gdtr = s.gdtr := rfl
@[simp] theorem State.setDr6_idtr (s : State) (v : Dword) : (s.setDr6 v).idtr = s.idtr := rfl
@[simp] theorem State.setDr6_ldtr (s : State) (v : Dword) : (s.setDr6 v).ldtr = s.ldtr := rfl
@[simp] theorem State.setDr6_tr (s : State) (v : Dword) : (s.setDr6 v).tr = s.tr := rfl
@[simp] theorem State.setDr6_ctl (s : State) (v : Dword) : (s.setDr6 v).ctl = s.ctl := rfl
@[simp] theorem State.setDr6_dbg (s : State) (v : Dword) : (s.setDr6 v).dbg = { s.dbg with dr6 := v } := rfl
@[simp] theorem State.setDr6_tlb (s : State) (v : Dword) : (s.setDr6 v).tlb = s.tlb := rfl
@[simp] theorem State.setDr6_run (s : State) (v : Dword) : (s.setDr6 v).run = s.run := rfl
@[simp] theorem State.setDr6_pins (s : State) (v : Dword) : (s.setDr6 v).pins = s.pins := rfl
@[simp] theorem State.setDr6_io (s : State) (v : Dword) : (s.setDr6 v).io = s.io := rfl
@[simp] theorem State.setDr6_cop (s : State) (v : Dword) : (s.setDr6 v).cop = s.cop := rfl
@[simp] theorem State.setDr6_params (s : State) (v : Dword) : (s.setDr6 v).params = s.params := rfl
@[simp] theorem State.setDr6_free (s : State) (v : Dword) : (s.setDr6 v).free = s.free := rfl
@[simp] theorem State.setDr6_mem (s : State) (v : Dword) : (s.setDr6 v).mem = s.mem := rfl

@[simp] theorem State.unmaskNmi_gpr (s : State) : (s.unmaskNmi).gpr = s.gpr := rfl
@[simp] theorem State.unmaskNmi_pc (s : State) : (s.unmaskNmi).pc = s.pc := rfl
@[simp] theorem State.unmaskNmi_flags (s : State) : (s.unmaskNmi).flags = s.flags := rfl
@[simp] theorem State.unmaskNmi_cpl (s : State) : (s.unmaskNmi).cpl = s.cpl := rfl
@[simp] theorem State.unmaskNmi_seg (s : State) : (s.unmaskNmi).seg = s.seg := rfl
@[simp] theorem State.unmaskNmi_gdtr (s : State) : (s.unmaskNmi).gdtr = s.gdtr := rfl
@[simp] theorem State.unmaskNmi_idtr (s : State) : (s.unmaskNmi).idtr = s.idtr := rfl
@[simp] theorem State.unmaskNmi_ldtr (s : State) : (s.unmaskNmi).ldtr = s.ldtr := rfl
@[simp] theorem State.unmaskNmi_tr (s : State) : (s.unmaskNmi).tr = s.tr := rfl
@[simp] theorem State.unmaskNmi_ctl (s : State) : (s.unmaskNmi).ctl = s.ctl := rfl
@[simp] theorem State.unmaskNmi_dbg (s : State) : (s.unmaskNmi).dbg = s.dbg := rfl
@[simp] theorem State.unmaskNmi_tlb (s : State) : (s.unmaskNmi).tlb = s.tlb := rfl
@[simp] theorem State.unmaskNmi_run (s : State) : (s.unmaskNmi).run = { s.run with nmiMasked := false } := rfl
@[simp] theorem State.unmaskNmi_pins (s : State) : (s.unmaskNmi).pins = s.pins := rfl
@[simp] theorem State.unmaskNmi_io (s : State) : (s.unmaskNmi).io = s.io := rfl
@[simp] theorem State.unmaskNmi_cop (s : State) : (s.unmaskNmi).cop = s.cop := rfl
@[simp] theorem State.unmaskNmi_params (s : State) : (s.unmaskNmi).params = s.params := rfl
@[simp] theorem State.unmaskNmi_free (s : State) : (s.unmaskNmi).free = s.free := rfl
@[simp] theorem State.unmaskNmi_mem (s : State) : (s.unmaskNmi).mem = s.mem := rfl

@[simp] theorem State.logIo_gpr (s : State) (e : IoEvent) : (s.logIo e).gpr = s.gpr := rfl
@[simp] theorem State.logIo_pc (s : State) (e : IoEvent) : (s.logIo e).pc = s.pc := rfl
@[simp] theorem State.logIo_flags (s : State) (e : IoEvent) : (s.logIo e).flags = s.flags := rfl
@[simp] theorem State.logIo_cpl (s : State) (e : IoEvent) : (s.logIo e).cpl = s.cpl := rfl
@[simp] theorem State.logIo_seg (s : State) (e : IoEvent) : (s.logIo e).seg = s.seg := rfl
@[simp] theorem State.logIo_gdtr (s : State) (e : IoEvent) : (s.logIo e).gdtr = s.gdtr := rfl
@[simp] theorem State.logIo_idtr (s : State) (e : IoEvent) : (s.logIo e).idtr = s.idtr := rfl
@[simp] theorem State.logIo_ldtr (s : State) (e : IoEvent) : (s.logIo e).ldtr = s.ldtr := rfl
@[simp] theorem State.logIo_tr (s : State) (e : IoEvent) : (s.logIo e).tr = s.tr := rfl
@[simp] theorem State.logIo_ctl (s : State) (e : IoEvent) : (s.logIo e).ctl = s.ctl := rfl
@[simp] theorem State.logIo_dbg (s : State) (e : IoEvent) : (s.logIo e).dbg = s.dbg := rfl
@[simp] theorem State.logIo_tlb (s : State) (e : IoEvent) : (s.logIo e).tlb = s.tlb := rfl
@[simp] theorem State.logIo_run (s : State) (e : IoEvent) : (s.logIo e).run = s.run := rfl
@[simp] theorem State.logIo_pins (s : State) (e : IoEvent) : (s.logIo e).pins = s.pins := rfl
@[simp] theorem State.logIo_io (s : State) (e : IoEvent) : (s.logIo e).io = { s.io with log := e :: s.io.log } := rfl
@[simp] theorem State.logIo_cop (s : State) (e : IoEvent) : (s.logIo e).cop = s.cop := rfl
@[simp] theorem State.logIo_params (s : State) (e : IoEvent) : (s.logIo e).params = s.params := rfl
@[simp] theorem State.logIo_free (s : State) (e : IoEvent) : (s.logIo e).free = s.free := rfl
@[simp] theorem State.logIo_mem (s : State) (e : IoEvent) : (s.logIo e).mem = s.mem := rfl

@[simp] theorem State.handOver_gpr (s : State) (e : CopEvent) : (s.handOver e).gpr = s.gpr := rfl
@[simp] theorem State.handOver_pc (s : State) (e : CopEvent) : (s.handOver e).pc = s.pc := rfl
@[simp] theorem State.handOver_flags (s : State) (e : CopEvent) : (s.handOver e).flags = s.flags := rfl
@[simp] theorem State.handOver_cpl (s : State) (e : CopEvent) : (s.handOver e).cpl = s.cpl := rfl
@[simp] theorem State.handOver_seg (s : State) (e : CopEvent) : (s.handOver e).seg = s.seg := rfl
@[simp] theorem State.handOver_gdtr (s : State) (e : CopEvent) : (s.handOver e).gdtr = s.gdtr := rfl
@[simp] theorem State.handOver_idtr (s : State) (e : CopEvent) : (s.handOver e).idtr = s.idtr := rfl
@[simp] theorem State.handOver_ldtr (s : State) (e : CopEvent) : (s.handOver e).ldtr = s.ldtr := rfl
@[simp] theorem State.handOver_tr (s : State) (e : CopEvent) : (s.handOver e).tr = s.tr := rfl
@[simp] theorem State.handOver_ctl (s : State) (e : CopEvent) : (s.handOver e).ctl = s.ctl := rfl
@[simp] theorem State.handOver_dbg (s : State) (e : CopEvent) : (s.handOver e).dbg = s.dbg := rfl
@[simp] theorem State.handOver_tlb (s : State) (e : CopEvent) : (s.handOver e).tlb = s.tlb := rfl
@[simp] theorem State.handOver_run (s : State) (e : CopEvent) : (s.handOver e).run = s.run := rfl
@[simp] theorem State.handOver_pins (s : State) (e : CopEvent) : (s.handOver e).pins = s.pins := rfl
@[simp] theorem State.handOver_io (s : State) (e : CopEvent) : (s.handOver e).io = s.io := rfl
@[simp] theorem State.handOver_cop (s : State) (e : CopEvent) : (s.handOver e).cop = s.cop.handOver e := rfl
@[simp] theorem State.handOver_params (s : State) (e : CopEvent) : (s.handOver e).params = s.params := rfl
@[simp] theorem State.handOver_free (s : State) (e : CopEvent) : (s.handOver e).free = s.free := rfl
@[simp] theorem State.handOver_mem (s : State) (e : CopEvent) : (s.handOver e).mem = s.mem := rfl

@[simp] theorem State.nullOuter_gpr (s : State) (l : BitVec 2) : (s.nullOuter l).gpr = s.gpr := rfl
@[simp] theorem State.nullOuter_pc (s : State) (l : BitVec 2) : (s.nullOuter l).pc = s.pc := rfl
@[simp] theorem State.nullOuter_flags (s : State) (l : BitVec 2) : (s.nullOuter l).flags = s.flags := rfl
@[simp] theorem State.nullOuter_cpl (s : State) (l : BitVec 2) : (s.nullOuter l).cpl = s.cpl := rfl
@[simp] theorem State.nullOuter_gdtr (s : State) (l : BitVec 2) : (s.nullOuter l).gdtr = s.gdtr := rfl
@[simp] theorem State.nullOuter_idtr (s : State) (l : BitVec 2) : (s.nullOuter l).idtr = s.idtr := rfl
@[simp] theorem State.nullOuter_ldtr (s : State) (l : BitVec 2) : (s.nullOuter l).ldtr = s.ldtr := rfl
@[simp] theorem State.nullOuter_tr (s : State) (l : BitVec 2) : (s.nullOuter l).tr = s.tr := rfl
@[simp] theorem State.nullOuter_ctl (s : State) (l : BitVec 2) : (s.nullOuter l).ctl = s.ctl := rfl
@[simp] theorem State.nullOuter_dbg (s : State) (l : BitVec 2) : (s.nullOuter l).dbg = s.dbg := rfl
@[simp] theorem State.nullOuter_tlb (s : State) (l : BitVec 2) : (s.nullOuter l).tlb = s.tlb := rfl
@[simp] theorem State.nullOuter_run (s : State) (l : BitVec 2) : (s.nullOuter l).run = s.run := rfl
@[simp] theorem State.nullOuter_pins (s : State) (l : BitVec 2) : (s.nullOuter l).pins = s.pins := rfl
@[simp] theorem State.nullOuter_io (s : State) (l : BitVec 2) : (s.nullOuter l).io = s.io := rfl
@[simp] theorem State.nullOuter_cop (s : State) (l : BitVec 2) : (s.nullOuter l).cop = s.cop := rfl
@[simp] theorem State.nullOuter_params (s : State) (l : BitVec 2) : (s.nullOuter l).params = s.params := rfl
@[simp] theorem State.nullOuter_free (s : State) (l : BitVec 2) : (s.nullOuter l).free = s.free := rfl
@[simp] theorem State.nullOuter_mem (s : State) (l : BitVec 2) : (s.nullOuter l).mem = s.mem := rfl

@[simp] theorem State.enterHandler_gpr (s : State) (g : Descriptor) : (s.enterHandler g).gpr = s.gpr := rfl
@[simp] theorem State.enterHandler_pc (s : State) (g : Descriptor) : (s.enterHandler g).pc = g.gateOff := rfl
@[simp] theorem State.enterHandler_flags (s : State) (g : Descriptor) : (s.enterHandler g).flags = s.flags.enterGate (g.kind = 0b01110#5) := rfl
@[simp] theorem State.enterHandler_cpl (s : State) (g : Descriptor) : (s.enterHandler g).cpl = s.cpl := rfl
@[simp] theorem State.enterHandler_seg (s : State) (g : Descriptor) : (s.enterHandler g).seg = s.seg := rfl
@[simp] theorem State.enterHandler_gdtr (s : State) (g : Descriptor) : (s.enterHandler g).gdtr = s.gdtr := rfl
@[simp] theorem State.enterHandler_idtr (s : State) (g : Descriptor) : (s.enterHandler g).idtr = s.idtr := rfl
@[simp] theorem State.enterHandler_ldtr (s : State) (g : Descriptor) : (s.enterHandler g).ldtr = s.ldtr := rfl
@[simp] theorem State.enterHandler_tr (s : State) (g : Descriptor) : (s.enterHandler g).tr = s.tr := rfl
@[simp] theorem State.enterHandler_ctl (s : State) (g : Descriptor) : (s.enterHandler g).ctl = s.ctl := rfl
@[simp] theorem State.enterHandler_dbg (s : State) (g : Descriptor) : (s.enterHandler g).dbg = s.dbg := rfl
@[simp] theorem State.enterHandler_tlb (s : State) (g : Descriptor) : (s.enterHandler g).tlb = s.tlb := rfl
@[simp] theorem State.enterHandler_run (s : State) (g : Descriptor) : (s.enterHandler g).run = s.run := rfl
@[simp] theorem State.enterHandler_pins (s : State) (g : Descriptor) : (s.enterHandler g).pins = s.pins := rfl
@[simp] theorem State.enterHandler_io (s : State) (g : Descriptor) : (s.enterHandler g).io = s.io := rfl
@[simp] theorem State.enterHandler_cop (s : State) (g : Descriptor) : (s.enterHandler g).cop = s.cop := rfl
@[simp] theorem State.enterHandler_params (s : State) (g : Descriptor) : (s.enterHandler g).params = s.params := rfl
@[simp] theorem State.enterHandler_free (s : State) (g : Descriptor) : (s.enterHandler g).free = s.free := rfl
@[simp] theorem State.enterHandler_mem (s : State) (g : Descriptor) : (s.enterHandler g).mem = s.mem := rfl

@[simp] theorem State.shutDown_gpr (s : State) : (s.shutDown).gpr = s.gpr := rfl
@[simp] theorem State.shutDown_pc (s : State) : (s.shutDown).pc = s.pc := rfl
@[simp] theorem State.shutDown_flags (s : State) : (s.shutDown).flags = s.flags := rfl
@[simp] theorem State.shutDown_cpl (s : State) : (s.shutDown).cpl = s.cpl := rfl
@[simp] theorem State.shutDown_seg (s : State) : (s.shutDown).seg = s.seg := rfl
@[simp] theorem State.shutDown_gdtr (s : State) : (s.shutDown).gdtr = s.gdtr := rfl
@[simp] theorem State.shutDown_idtr (s : State) : (s.shutDown).idtr = s.idtr := rfl
@[simp] theorem State.shutDown_ldtr (s : State) : (s.shutDown).ldtr = s.ldtr := rfl
@[simp] theorem State.shutDown_tr (s : State) : (s.shutDown).tr = s.tr := rfl
@[simp] theorem State.shutDown_ctl (s : State) : (s.shutDown).ctl = s.ctl := rfl
@[simp] theorem State.shutDown_dbg (s : State) : (s.shutDown).dbg = s.dbg := rfl
@[simp] theorem State.shutDown_tlb (s : State) : (s.shutDown).tlb = s.tlb := rfl
@[simp] theorem State.shutDown_run (s : State) : (s.shutDown).run = { s.run with runState := .shutdown, delivering := none } := rfl
@[simp] theorem State.shutDown_pins (s : State) : (s.shutDown).pins = s.pins := rfl
@[simp] theorem State.shutDown_io (s : State) : (s.shutDown).io = s.io := rfl
@[simp] theorem State.shutDown_cop (s : State) : (s.shutDown).cop = s.cop := rfl
@[simp] theorem State.shutDown_params (s : State) : (s.shutDown).params = s.params := rfl
@[simp] theorem State.shutDown_free (s : State) : (s.shutDown).free = s.free := rfl
@[simp] theorem State.shutDown_mem (s : State) : (s.shutDown).mem = s.mem := rfl

@[simp] theorem State.enableInterrupts_gpr (s : State) : (s.enableInterrupts).gpr = s.gpr := rfl
@[simp] theorem State.enableInterrupts_pc (s : State) : (s.enableInterrupts).pc = s.pc := rfl
@[simp] theorem State.enableInterrupts_flags (s : State) : (s.enableInterrupts).flags = { s.flags with ifl := true } := rfl
@[simp] theorem State.enableInterrupts_cpl (s : State) : (s.enableInterrupts).cpl = s.cpl := rfl
@[simp] theorem State.enableInterrupts_seg (s : State) : (s.enableInterrupts).seg = s.seg := rfl
@[simp] theorem State.enableInterrupts_gdtr (s : State) : (s.enableInterrupts).gdtr = s.gdtr := rfl
@[simp] theorem State.enableInterrupts_idtr (s : State) : (s.enableInterrupts).idtr = s.idtr := rfl
@[simp] theorem State.enableInterrupts_ldtr (s : State) : (s.enableInterrupts).ldtr = s.ldtr := rfl
@[simp] theorem State.enableInterrupts_tr (s : State) : (s.enableInterrupts).tr = s.tr := rfl
@[simp] theorem State.enableInterrupts_ctl (s : State) : (s.enableInterrupts).ctl = s.ctl := rfl
@[simp] theorem State.enableInterrupts_dbg (s : State) : (s.enableInterrupts).dbg = s.dbg := rfl
@[simp] theorem State.enableInterrupts_tlb (s : State) : (s.enableInterrupts).tlb = s.tlb := rfl
@[simp] theorem State.enableInterrupts_run (s : State) : (s.enableInterrupts).run = { s.run with stiInhibit := s.run.stiInhibit || !s.flags.ifl } := rfl
@[simp] theorem State.enableInterrupts_pins (s : State) : (s.enableInterrupts).pins = s.pins := rfl
@[simp] theorem State.enableInterrupts_io (s : State) : (s.enableInterrupts).io = s.io := rfl
@[simp] theorem State.enableInterrupts_cop (s : State) : (s.enableInterrupts).cop = s.cop := rfl
@[simp] theorem State.enableInterrupts_params (s : State) : (s.enableInterrupts).params = s.params := rfl
@[simp] theorem State.enableInterrupts_free (s : State) : (s.enableInterrupts).free = s.free := rfl
@[simp] theorem State.enableInterrupts_mem (s : State) : (s.enableInterrupts).mem = s.mem := rfl

@[simp] theorem State.beginInstr_gpr (s : State) : (s.beginInstr).gpr = s.gpr := rfl
@[simp] theorem State.beginInstr_pc (s : State) : (s.beginInstr).pc = s.pc := rfl
@[simp] theorem State.beginInstr_flags (s : State) : (s.beginInstr).flags = s.flags := rfl
@[simp] theorem State.beginInstr_cpl (s : State) : (s.beginInstr).cpl = s.cpl := rfl
@[simp] theorem State.beginInstr_seg (s : State) : (s.beginInstr).seg = s.seg := rfl
@[simp] theorem State.beginInstr_gdtr (s : State) : (s.beginInstr).gdtr = s.gdtr := rfl
@[simp] theorem State.beginInstr_idtr (s : State) : (s.beginInstr).idtr = s.idtr := rfl
@[simp] theorem State.beginInstr_ldtr (s : State) : (s.beginInstr).ldtr = s.ldtr := rfl
@[simp] theorem State.beginInstr_tr (s : State) : (s.beginInstr).tr = s.tr := rfl
@[simp] theorem State.beginInstr_ctl (s : State) : (s.beginInstr).ctl = s.ctl := rfl
@[simp] theorem State.beginInstr_dbg (s : State) : (s.beginInstr).dbg = s.dbg := rfl
@[simp] theorem State.beginInstr_tlb (s : State) : (s.beginInstr).tlb = s.tlb := rfl
@[simp] theorem State.beginInstr_run (s : State) : (s.beginInstr).run = { s.run with pendingDb := { PendingDebug.none with occurred := s.codeOccurred }, ssInhibit := false, stiInhibit := false, prefetch := { s.run.prefetch with emptied := false } } := rfl
@[simp] theorem State.beginInstr_pins (s : State) : (s.beginInstr).pins = s.pins := rfl
@[simp] theorem State.beginInstr_io (s : State) : (s.beginInstr).io = s.io := rfl
@[simp] theorem State.beginInstr_cop (s : State) : (s.beginInstr).cop = s.cop := rfl
@[simp] theorem State.beginInstr_params (s : State) : (s.beginInstr).params = s.params := rfl
@[simp] theorem State.beginInstr_free (s : State) : (s.beginInstr).free = s.free := rfl
@[simp] theorem State.beginInstr_mem (s : State) : (s.beginInstr).mem = s.mem := rfl

@[simp] theorem State.storeAll_gpr (s : State) (sts : List Store) : (s.storeAll sts).gpr = s.gpr := by
  unfold State.storeAll
  induction sts generalizing s with
  | nil => rfl
  | cons st r ih => exact (ih (s.store st)).trans (State.store_gpr s st)
@[simp] theorem State.storeAll_pc (s : State) (sts : List Store) : (s.storeAll sts).pc = s.pc := by
  unfold State.storeAll
  induction sts generalizing s with
  | nil => rfl
  | cons st r ih => exact (ih (s.store st)).trans (State.store_pc s st)
@[simp] theorem State.storeAll_flags (s : State) (sts : List Store) : (s.storeAll sts).flags = s.flags := by
  unfold State.storeAll
  induction sts generalizing s with
  | nil => rfl
  | cons st r ih => exact (ih (s.store st)).trans (State.store_flags s st)
@[simp] theorem State.storeAll_cpl (s : State) (sts : List Store) : (s.storeAll sts).cpl = s.cpl := by
  unfold State.storeAll
  induction sts generalizing s with
  | nil => rfl
  | cons st r ih => exact (ih (s.store st)).trans (State.store_cpl s st)
@[simp] theorem State.storeAll_seg (s : State) (sts : List Store) : (s.storeAll sts).seg = s.seg := by
  unfold State.storeAll
  induction sts generalizing s with
  | nil => rfl
  | cons st r ih => exact (ih (s.store st)).trans (State.store_seg s st)
@[simp] theorem State.storeAll_gdtr (s : State) (sts : List Store) : (s.storeAll sts).gdtr = s.gdtr := by
  unfold State.storeAll
  induction sts generalizing s with
  | nil => rfl
  | cons st r ih => exact (ih (s.store st)).trans (State.store_gdtr s st)
@[simp] theorem State.storeAll_idtr (s : State) (sts : List Store) : (s.storeAll sts).idtr = s.idtr := by
  unfold State.storeAll
  induction sts generalizing s with
  | nil => rfl
  | cons st r ih => exact (ih (s.store st)).trans (State.store_idtr s st)
@[simp] theorem State.storeAll_ldtr (s : State) (sts : List Store) : (s.storeAll sts).ldtr = s.ldtr := by
  unfold State.storeAll
  induction sts generalizing s with
  | nil => rfl
  | cons st r ih => exact (ih (s.store st)).trans (State.store_ldtr s st)
@[simp] theorem State.storeAll_tr (s : State) (sts : List Store) : (s.storeAll sts).tr = s.tr := by
  unfold State.storeAll
  induction sts generalizing s with
  | nil => rfl
  | cons st r ih => exact (ih (s.store st)).trans (State.store_tr s st)
@[simp] theorem State.storeAll_ctl (s : State) (sts : List Store) : (s.storeAll sts).ctl = s.ctl := by
  unfold State.storeAll
  induction sts generalizing s with
  | nil => rfl
  | cons st r ih => exact (ih (s.store st)).trans (State.store_ctl s st)
@[simp] theorem State.storeAll_dbg (s : State) (sts : List Store) : (s.storeAll sts).dbg = s.dbg := by
  unfold State.storeAll
  induction sts generalizing s with
  | nil => rfl
  | cons st r ih => exact (ih (s.store st)).trans (State.store_dbg s st)
@[simp] theorem State.storeAll_tlb (s : State) (sts : List Store) : (s.storeAll sts).tlb = s.tlb := by
  unfold State.storeAll
  induction sts generalizing s with
  | nil => rfl
  | cons st r ih => exact (ih (s.store st)).trans (State.store_tlb s st)
@[simp] theorem State.storeAll_run (s : State) (sts : List Store) : (s.storeAll sts).run = s.run := by
  unfold State.storeAll
  induction sts generalizing s with
  | nil => rfl
  | cons st r ih => exact (ih (s.store st)).trans (State.store_run s st)
@[simp] theorem State.storeAll_pins (s : State) (sts : List Store) : (s.storeAll sts).pins = s.pins := by
  unfold State.storeAll
  induction sts generalizing s with
  | nil => rfl
  | cons st r ih => exact (ih (s.store st)).trans (State.store_pins s st)
@[simp] theorem State.storeAll_io (s : State) (sts : List Store) : (s.storeAll sts).io = s.io := by
  unfold State.storeAll
  induction sts generalizing s with
  | nil => rfl
  | cons st r ih => exact (ih (s.store st)).trans (State.store_io s st)
@[simp] theorem State.storeAll_cop (s : State) (sts : List Store) : (s.storeAll sts).cop = s.cop := by
  unfold State.storeAll
  induction sts generalizing s with
  | nil => rfl
  | cons st r ih => exact (ih (s.store st)).trans (State.store_cop s st)
@[simp] theorem State.storeAll_params (s : State) (sts : List Store) : (s.storeAll sts).params = s.params := by
  unfold State.storeAll
  induction sts generalizing s with
  | nil => rfl
  | cons st r ih => exact (ih (s.store st)).trans (State.store_params s st)
@[simp] theorem State.storeAll_free (s : State) (sts : List Store) : (s.storeAll sts).free = s.free := by
  unfold State.storeAll
  induction sts generalizing s with
  | nil => rfl
  | cons st r ih => exact (ih (s.store st)).trans (State.store_free s st)

@[simp] theorem State.load_gpr (s : State) (l : SegLoad) : (s.load l).gpr = s.gpr := by simp [State.load]
@[simp] theorem State.load_pc (s : State) (l : SegLoad) : (s.load l).pc = s.pc := by simp [State.load]
@[simp] theorem State.load_flags (s : State) (l : SegLoad) : (s.load l).flags = s.flags := by simp [State.load]
@[simp] theorem State.load_cpl (s : State) (l : SegLoad) : (s.load l).cpl = s.cpl := by simp [State.load]
@[simp] theorem State.load_seg (s : State) (l : SegLoad) : (s.load l).seg = s.seg.set l.reg l.val := by simp [State.load]
@[simp] theorem State.load_gdtr (s : State) (l : SegLoad) : (s.load l).gdtr = s.gdtr := by simp [State.load]
@[simp] theorem State.load_idtr (s : State) (l : SegLoad) : (s.load l).idtr = s.idtr := by simp [State.load]
@[simp] theorem State.load_ldtr (s : State) (l : SegLoad) : (s.load l).ldtr = s.ldtr := by simp [State.load]
@[simp] theorem State.load_tr (s : State) (l : SegLoad) : (s.load l).tr = s.tr := by simp [State.load]
@[simp] theorem State.load_ctl (s : State) (l : SegLoad) : (s.load l).ctl = s.ctl := by simp [State.load]
@[simp] theorem State.load_dbg (s : State) (l : SegLoad) : (s.load l).dbg = s.dbg := by simp [State.load]
@[simp] theorem State.load_tlb (s : State) (l : SegLoad) : (s.load l).tlb = s.tlb := by simp [State.load]
@[simp] theorem State.load_run (s : State) (l : SegLoad) : (s.load l).run = s.run := by simp [State.load]
@[simp] theorem State.load_pins (s : State) (l : SegLoad) : (s.load l).pins = s.pins := by simp [State.load]
@[simp] theorem State.load_io (s : State) (l : SegLoad) : (s.load l).io = s.io := by simp [State.load]
@[simp] theorem State.load_cop (s : State) (l : SegLoad) : (s.load l).cop = s.cop := by simp [State.load]
@[simp] theorem State.load_params (s : State) (l : SegLoad) : (s.load l).params = s.params := by simp [State.load]
@[simp] theorem State.load_free (s : State) (l : SegLoad) : (s.load l).free = s.free := by simp [State.load]
@[simp] theorem State.load_mem (s : State) (l : SegLoad) : (s.load l).mem = (s.storeAll l.marks).mem := rfl

@[simp] theorem State.loadCs_gpr (s : State) (l : SegLoad) (p : BitVec 2) : (s.loadCs l p).gpr = (s.load l).gpr := rfl
@[simp] theorem State.loadCs_pc (s : State) (l : SegLoad) (p : BitVec 2) : (s.loadCs l p).pc = (s.load l).pc := rfl
@[simp] theorem State.loadCs_flags (s : State) (l : SegLoad) (p : BitVec 2) : (s.loadCs l p).flags = (s.load l).flags := rfl
@[simp] theorem State.loadCs_cpl (s : State) (l : SegLoad) (p : BitVec 2) : (s.loadCs l p).cpl = p := rfl
@[simp] theorem State.loadCs_seg (s : State) (l : SegLoad) (p : BitVec 2) : (s.loadCs l p).seg = (s.load l).seg := rfl
@[simp] theorem State.loadCs_gdtr (s : State) (l : SegLoad) (p : BitVec 2) : (s.loadCs l p).gdtr = (s.load l).gdtr := rfl
@[simp] theorem State.loadCs_idtr (s : State) (l : SegLoad) (p : BitVec 2) : (s.loadCs l p).idtr = (s.load l).idtr := rfl
@[simp] theorem State.loadCs_ldtr (s : State) (l : SegLoad) (p : BitVec 2) : (s.loadCs l p).ldtr = (s.load l).ldtr := rfl
@[simp] theorem State.loadCs_tr (s : State) (l : SegLoad) (p : BitVec 2) : (s.loadCs l p).tr = (s.load l).tr := rfl
@[simp] theorem State.loadCs_ctl (s : State) (l : SegLoad) (p : BitVec 2) : (s.loadCs l p).ctl = (s.load l).ctl := rfl
@[simp] theorem State.loadCs_dbg (s : State) (l : SegLoad) (p : BitVec 2) : (s.loadCs l p).dbg = (s.load l).dbg := rfl
@[simp] theorem State.loadCs_tlb (s : State) (l : SegLoad) (p : BitVec 2) : (s.loadCs l p).tlb = (s.load l).tlb := rfl
@[simp] theorem State.loadCs_run (s : State) (l : SegLoad) (p : BitVec 2) : (s.loadCs l p).run = (s.load l).run := rfl
@[simp] theorem State.loadCs_pins (s : State) (l : SegLoad) (p : BitVec 2) : (s.loadCs l p).pins = (s.load l).pins := rfl
@[simp] theorem State.loadCs_io (s : State) (l : SegLoad) (p : BitVec 2) : (s.loadCs l p).io = (s.load l).io := rfl
@[simp] theorem State.loadCs_cop (s : State) (l : SegLoad) (p : BitVec 2) : (s.loadCs l p).cop = (s.load l).cop := rfl
@[simp] theorem State.loadCs_params (s : State) (l : SegLoad) (p : BitVec 2) : (s.loadCs l p).params = (s.load l).params := rfl
@[simp] theorem State.loadCs_free (s : State) (l : SegLoad) (p : BitVec 2) : (s.loadCs l p).free = (s.load l).free := rfl
@[simp] theorem State.loadCs_mem (s : State) (l : SegLoad) (p : BitVec 2) : (s.loadCs l p).mem = (s.load l).mem := rfl

@[simp] theorem State.setRegN_pc (s : State) (r : Reg) (n : Nat) (v : Dword) : (s.setRegN r n v).pc = s.pc := by
  unfold State.setRegN; split <;> simp
@[simp] theorem State.setRegN_flags (s : State) (r : Reg) (n : Nat) (v : Dword) : (s.setRegN r n v).flags = s.flags := by
  unfold State.setRegN; split <;> simp
@[simp] theorem State.setRegN_cpl (s : State) (r : Reg) (n : Nat) (v : Dword) : (s.setRegN r n v).cpl = s.cpl := by
  unfold State.setRegN; split <;> simp
@[simp] theorem State.setRegN_seg (s : State) (r : Reg) (n : Nat) (v : Dword) : (s.setRegN r n v).seg = s.seg := by
  unfold State.setRegN; split <;> simp
@[simp] theorem State.setRegN_gdtr (s : State) (r : Reg) (n : Nat) (v : Dword) : (s.setRegN r n v).gdtr = s.gdtr := by
  unfold State.setRegN; split <;> simp
@[simp] theorem State.setRegN_idtr (s : State) (r : Reg) (n : Nat) (v : Dword) : (s.setRegN r n v).idtr = s.idtr := by
  unfold State.setRegN; split <;> simp
@[simp] theorem State.setRegN_ldtr (s : State) (r : Reg) (n : Nat) (v : Dword) : (s.setRegN r n v).ldtr = s.ldtr := by
  unfold State.setRegN; split <;> simp
@[simp] theorem State.setRegN_tr (s : State) (r : Reg) (n : Nat) (v : Dword) : (s.setRegN r n v).tr = s.tr := by
  unfold State.setRegN; split <;> simp
@[simp] theorem State.setRegN_ctl (s : State) (r : Reg) (n : Nat) (v : Dword) : (s.setRegN r n v).ctl = s.ctl := by
  unfold State.setRegN; split <;> simp
@[simp] theorem State.setRegN_dbg (s : State) (r : Reg) (n : Nat) (v : Dword) : (s.setRegN r n v).dbg = s.dbg := by
  unfold State.setRegN; split <;> simp
@[simp] theorem State.setRegN_tlb (s : State) (r : Reg) (n : Nat) (v : Dword) : (s.setRegN r n v).tlb = s.tlb := by
  unfold State.setRegN; split <;> simp
@[simp] theorem State.setRegN_run (s : State) (r : Reg) (n : Nat) (v : Dword) : (s.setRegN r n v).run = s.run := by
  unfold State.setRegN; split <;> simp
@[simp] theorem State.setRegN_pins (s : State) (r : Reg) (n : Nat) (v : Dword) : (s.setRegN r n v).pins = s.pins := by
  unfold State.setRegN; split <;> simp
@[simp] theorem State.setRegN_io (s : State) (r : Reg) (n : Nat) (v : Dword) : (s.setRegN r n v).io = s.io := by
  unfold State.setRegN; split <;> simp
@[simp] theorem State.setRegN_cop (s : State) (r : Reg) (n : Nat) (v : Dword) : (s.setRegN r n v).cop = s.cop := by
  unfold State.setRegN; split <;> simp
@[simp] theorem State.setRegN_params (s : State) (r : Reg) (n : Nat) (v : Dword) : (s.setRegN r n v).params = s.params := by
  unfold State.setRegN; split <;> simp
@[simp] theorem State.setRegN_free (s : State) (r : Reg) (n : Nat) (v : Dword) : (s.setRegN r n v).free = s.free := by
  unfold State.setRegN; split <;> simp
@[simp] theorem State.setRegN_mem (s : State) (r : Reg) (n : Nat) (v : Dword) : (s.setRegN r n v).mem = s.mem := by
  unfold State.setRegN; split <;> simp

@[simp] theorem State.moveUp_pc (s : State) (k : Nat) : (s.moveUp k).pc = s.pc := by
  unfold State.moveUp; split <;> simp
@[simp] theorem State.moveUp_flags (s : State) (k : Nat) : (s.moveUp k).flags = s.flags := by
  unfold State.moveUp; split <;> simp
@[simp] theorem State.moveUp_cpl (s : State) (k : Nat) : (s.moveUp k).cpl = s.cpl := by
  unfold State.moveUp; split <;> simp
@[simp] theorem State.moveUp_seg (s : State) (k : Nat) : (s.moveUp k).seg = s.seg := by
  unfold State.moveUp; split <;> simp
@[simp] theorem State.moveUp_gdtr (s : State) (k : Nat) : (s.moveUp k).gdtr = s.gdtr := by
  unfold State.moveUp; split <;> simp
@[simp] theorem State.moveUp_idtr (s : State) (k : Nat) : (s.moveUp k).idtr = s.idtr := by
  unfold State.moveUp; split <;> simp
@[simp] theorem State.moveUp_ldtr (s : State) (k : Nat) : (s.moveUp k).ldtr = s.ldtr := by
  unfold State.moveUp; split <;> simp
@[simp] theorem State.moveUp_tr (s : State) (k : Nat) : (s.moveUp k).tr = s.tr := by
  unfold State.moveUp; split <;> simp
@[simp] theorem State.moveUp_ctl (s : State) (k : Nat) : (s.moveUp k).ctl = s.ctl := by
  unfold State.moveUp; split <;> simp
@[simp] theorem State.moveUp_dbg (s : State) (k : Nat) : (s.moveUp k).dbg = s.dbg := by
  unfold State.moveUp; split <;> simp
@[simp] theorem State.moveUp_tlb (s : State) (k : Nat) : (s.moveUp k).tlb = s.tlb := by
  unfold State.moveUp; split <;> simp
@[simp] theorem State.moveUp_run (s : State) (k : Nat) : (s.moveUp k).run = s.run := by
  unfold State.moveUp; split <;> simp
@[simp] theorem State.moveUp_pins (s : State) (k : Nat) : (s.moveUp k).pins = s.pins := by
  unfold State.moveUp; split <;> simp
@[simp] theorem State.moveUp_io (s : State) (k : Nat) : (s.moveUp k).io = s.io := by
  unfold State.moveUp; split <;> simp
@[simp] theorem State.moveUp_cop (s : State) (k : Nat) : (s.moveUp k).cop = s.cop := by
  unfold State.moveUp; split <;> simp
@[simp] theorem State.moveUp_params (s : State) (k : Nat) : (s.moveUp k).params = s.params := by
  unfold State.moveUp; split <;> simp
@[simp] theorem State.moveUp_free (s : State) (k : Nat) : (s.moveUp k).free = s.free := by
  unfold State.moveUp; split <;> simp
@[simp] theorem State.moveUp_mem (s : State) (k : Nat) : (s.moveUp k).mem = s.mem := by
  unfold State.moveUp; split <;> simp

@[simp] theorem State.moveDown_pc (s : State) (k : Nat) : (s.moveDown k).pc = s.pc := by
  unfold State.moveDown; split <;> simp
@[simp] theorem State.moveDown_flags (s : State) (k : Nat) : (s.moveDown k).flags = s.flags := by
  unfold State.moveDown; split <;> simp
@[simp] theorem State.moveDown_cpl (s : State) (k : Nat) : (s.moveDown k).cpl = s.cpl := by
  unfold State.moveDown; split <;> simp
@[simp] theorem State.moveDown_seg (s : State) (k : Nat) : (s.moveDown k).seg = s.seg := by
  unfold State.moveDown; split <;> simp
@[simp] theorem State.moveDown_gdtr (s : State) (k : Nat) : (s.moveDown k).gdtr = s.gdtr := by
  unfold State.moveDown; split <;> simp
@[simp] theorem State.moveDown_idtr (s : State) (k : Nat) : (s.moveDown k).idtr = s.idtr := by
  unfold State.moveDown; split <;> simp
@[simp] theorem State.moveDown_ldtr (s : State) (k : Nat) : (s.moveDown k).ldtr = s.ldtr := by
  unfold State.moveDown; split <;> simp
@[simp] theorem State.moveDown_tr (s : State) (k : Nat) : (s.moveDown k).tr = s.tr := by
  unfold State.moveDown; split <;> simp
@[simp] theorem State.moveDown_ctl (s : State) (k : Nat) : (s.moveDown k).ctl = s.ctl := by
  unfold State.moveDown; split <;> simp
@[simp] theorem State.moveDown_dbg (s : State) (k : Nat) : (s.moveDown k).dbg = s.dbg := by
  unfold State.moveDown; split <;> simp
@[simp] theorem State.moveDown_tlb (s : State) (k : Nat) : (s.moveDown k).tlb = s.tlb := by
  unfold State.moveDown; split <;> simp
@[simp] theorem State.moveDown_run (s : State) (k : Nat) : (s.moveDown k).run = s.run := by
  unfold State.moveDown; split <;> simp
@[simp] theorem State.moveDown_pins (s : State) (k : Nat) : (s.moveDown k).pins = s.pins := by
  unfold State.moveDown; split <;> simp
@[simp] theorem State.moveDown_io (s : State) (k : Nat) : (s.moveDown k).io = s.io := by
  unfold State.moveDown; split <;> simp
@[simp] theorem State.moveDown_cop (s : State) (k : Nat) : (s.moveDown k).cop = s.cop := by
  unfold State.moveDown; split <;> simp
@[simp] theorem State.moveDown_params (s : State) (k : Nat) : (s.moveDown k).params = s.params := by
  unfold State.moveDown; split <;> simp
@[simp] theorem State.moveDown_free (s : State) (k : Nat) : (s.moveDown k).free = s.free := by
  unfold State.moveDown; split <;> simp
@[simp] theorem State.moveDown_mem (s : State) (k : Nat) : (s.moveDown k).mem = s.mem := by
  unfold State.moveDown; split <;> simp

@[simp] theorem State.bumpReg_pc (s : State) (c : Ctx) (r : Reg) (d : Dword) : (s.bumpReg c r d).pc = s.pc := by
  unfold State.bumpReg; split <;> simp
@[simp] theorem State.bumpReg_flags (s : State) (c : Ctx) (r : Reg) (d : Dword) : (s.bumpReg c r d).flags = s.flags := by
  unfold State.bumpReg; split <;> simp
@[simp] theorem State.bumpReg_cpl (s : State) (c : Ctx) (r : Reg) (d : Dword) : (s.bumpReg c r d).cpl = s.cpl := by
  unfold State.bumpReg; split <;> simp
@[simp] theorem State.bumpReg_seg (s : State) (c : Ctx) (r : Reg) (d : Dword) : (s.bumpReg c r d).seg = s.seg := by
  unfold State.bumpReg; split <;> simp
@[simp] theorem State.bumpReg_gdtr (s : State) (c : Ctx) (r : Reg) (d : Dword) : (s.bumpReg c r d).gdtr = s.gdtr := by
  unfold State.bumpReg; split <;> simp
@[simp] theorem State.bumpReg_idtr (s : State) (c : Ctx) (r : Reg) (d : Dword) : (s.bumpReg c r d).idtr = s.idtr := by
  unfold State.bumpReg; split <;> simp
@[simp] theorem State.bumpReg_ldtr (s : State) (c : Ctx) (r : Reg) (d : Dword) : (s.bumpReg c r d).ldtr = s.ldtr := by
  unfold State.bumpReg; split <;> simp
@[simp] theorem State.bumpReg_tr (s : State) (c : Ctx) (r : Reg) (d : Dword) : (s.bumpReg c r d).tr = s.tr := by
  unfold State.bumpReg; split <;> simp
@[simp] theorem State.bumpReg_ctl (s : State) (c : Ctx) (r : Reg) (d : Dword) : (s.bumpReg c r d).ctl = s.ctl := by
  unfold State.bumpReg; split <;> simp
@[simp] theorem State.bumpReg_dbg (s : State) (c : Ctx) (r : Reg) (d : Dword) : (s.bumpReg c r d).dbg = s.dbg := by
  unfold State.bumpReg; split <;> simp
@[simp] theorem State.bumpReg_tlb (s : State) (c : Ctx) (r : Reg) (d : Dword) : (s.bumpReg c r d).tlb = s.tlb := by
  unfold State.bumpReg; split <;> simp
@[simp] theorem State.bumpReg_run (s : State) (c : Ctx) (r : Reg) (d : Dword) : (s.bumpReg c r d).run = s.run := by
  unfold State.bumpReg; split <;> simp
@[simp] theorem State.bumpReg_pins (s : State) (c : Ctx) (r : Reg) (d : Dword) : (s.bumpReg c r d).pins = s.pins := by
  unfold State.bumpReg; split <;> simp
@[simp] theorem State.bumpReg_io (s : State) (c : Ctx) (r : Reg) (d : Dword) : (s.bumpReg c r d).io = s.io := by
  unfold State.bumpReg; split <;> simp
@[simp] theorem State.bumpReg_cop (s : State) (c : Ctx) (r : Reg) (d : Dword) : (s.bumpReg c r d).cop = s.cop := by
  unfold State.bumpReg; split <;> simp
@[simp] theorem State.bumpReg_params (s : State) (c : Ctx) (r : Reg) (d : Dword) : (s.bumpReg c r d).params = s.params := by
  unfold State.bumpReg; split <;> simp
@[simp] theorem State.bumpReg_free (s : State) (c : Ctx) (r : Reg) (d : Dword) : (s.bumpReg c r d).free = s.free := by
  unfold State.bumpReg; split <;> simp
@[simp] theorem State.bumpReg_mem (s : State) (c : Ctx) (r : Reg) (d : Dword) : (s.bumpReg c r d).mem = s.mem := by
  unfold State.bumpReg; split <;> simp

@[simp] theorem State.setAcc_pc (s : State) (n : Nat) (v : Dword) : (s.setAcc n v).pc = s.pc := by
  unfold State.setAcc; split <;> simp [State.setRegN]; try (split <;> simp)
@[simp] theorem State.setAcc_flags (s : State) (n : Nat) (v : Dword) : (s.setAcc n v).flags = s.flags := by
  unfold State.setAcc; split <;> simp [State.setRegN]; try (split <;> simp)
@[simp] theorem State.setAcc_cpl (s : State) (n : Nat) (v : Dword) : (s.setAcc n v).cpl = s.cpl := by
  unfold State.setAcc; split <;> simp [State.setRegN]; try (split <;> simp)
@[simp] theorem State.setAcc_seg (s : State) (n : Nat) (v : Dword) : (s.setAcc n v).seg = s.seg := by
  unfold State.setAcc; split <;> simp [State.setRegN]; try (split <;> simp)
@[simp] theorem State.setAcc_gdtr (s : State) (n : Nat) (v : Dword) : (s.setAcc n v).gdtr = s.gdtr := by
  unfold State.setAcc; split <;> simp [State.setRegN]; try (split <;> simp)
@[simp] theorem State.setAcc_idtr (s : State) (n : Nat) (v : Dword) : (s.setAcc n v).idtr = s.idtr := by
  unfold State.setAcc; split <;> simp [State.setRegN]; try (split <;> simp)
@[simp] theorem State.setAcc_ldtr (s : State) (n : Nat) (v : Dword) : (s.setAcc n v).ldtr = s.ldtr := by
  unfold State.setAcc; split <;> simp [State.setRegN]; try (split <;> simp)
@[simp] theorem State.setAcc_tr (s : State) (n : Nat) (v : Dword) : (s.setAcc n v).tr = s.tr := by
  unfold State.setAcc; split <;> simp [State.setRegN]; try (split <;> simp)
@[simp] theorem State.setAcc_ctl (s : State) (n : Nat) (v : Dword) : (s.setAcc n v).ctl = s.ctl := by
  unfold State.setAcc; split <;> simp [State.setRegN]; try (split <;> simp)
@[simp] theorem State.setAcc_dbg (s : State) (n : Nat) (v : Dword) : (s.setAcc n v).dbg = s.dbg := by
  unfold State.setAcc; split <;> simp [State.setRegN]; try (split <;> simp)
@[simp] theorem State.setAcc_tlb (s : State) (n : Nat) (v : Dword) : (s.setAcc n v).tlb = s.tlb := by
  unfold State.setAcc; split <;> simp [State.setRegN]; try (split <;> simp)
@[simp] theorem State.setAcc_run (s : State) (n : Nat) (v : Dword) : (s.setAcc n v).run = s.run := by
  unfold State.setAcc; split <;> simp [State.setRegN]; try (split <;> simp)
@[simp] theorem State.setAcc_pins (s : State) (n : Nat) (v : Dword) : (s.setAcc n v).pins = s.pins := by
  unfold State.setAcc; split <;> simp [State.setRegN]; try (split <;> simp)
@[simp] theorem State.setAcc_io (s : State) (n : Nat) (v : Dword) : (s.setAcc n v).io = s.io := by
  unfold State.setAcc; split <;> simp [State.setRegN]; try (split <;> simp)
@[simp] theorem State.setAcc_cop (s : State) (n : Nat) (v : Dword) : (s.setAcc n v).cop = s.cop := by
  unfold State.setAcc; split <;> simp [State.setRegN]; try (split <;> simp)
@[simp] theorem State.setAcc_params (s : State) (n : Nat) (v : Dword) : (s.setAcc n v).params = s.params := by
  unfold State.setAcc; split <;> simp [State.setRegN]; try (split <;> simp)
@[simp] theorem State.setAcc_free (s : State) (n : Nat) (v : Dword) : (s.setAcc n v).free = s.free := by
  unfold State.setAcc; split <;> simp [State.setRegN]; try (split <;> simp)
@[simp] theorem State.setAcc_mem (s : State) (n : Nat) (v : Dword) : (s.setAcc n v).mem = s.mem := by
  unfold State.setAcc; split <;> simp [State.setRegN]; try (split <;> simp)

@[simp] theorem State.inhibitAfter_gpr (s : State) (r : Sreg) : (s.inhibitAfter r).gpr = s.gpr := by
  unfold State.inhibitAfter; split <;> rfl
@[simp] theorem State.inhibitAfter_pc (s : State) (r : Sreg) : (s.inhibitAfter r).pc = s.pc := by
  unfold State.inhibitAfter; split <;> rfl
@[simp] theorem State.inhibitAfter_flags (s : State) (r : Sreg) : (s.inhibitAfter r).flags = s.flags := by
  unfold State.inhibitAfter; split <;> rfl
@[simp] theorem State.inhibitAfter_cpl (s : State) (r : Sreg) : (s.inhibitAfter r).cpl = s.cpl := by
  unfold State.inhibitAfter; split <;> rfl
@[simp] theorem State.inhibitAfter_seg (s : State) (r : Sreg) : (s.inhibitAfter r).seg = s.seg := by
  unfold State.inhibitAfter; split <;> rfl
@[simp] theorem State.inhibitAfter_gdtr (s : State) (r : Sreg) : (s.inhibitAfter r).gdtr = s.gdtr := by
  unfold State.inhibitAfter; split <;> rfl
@[simp] theorem State.inhibitAfter_idtr (s : State) (r : Sreg) : (s.inhibitAfter r).idtr = s.idtr := by
  unfold State.inhibitAfter; split <;> rfl
@[simp] theorem State.inhibitAfter_ldtr (s : State) (r : Sreg) : (s.inhibitAfter r).ldtr = s.ldtr := by
  unfold State.inhibitAfter; split <;> rfl
@[simp] theorem State.inhibitAfter_tr (s : State) (r : Sreg) : (s.inhibitAfter r).tr = s.tr := by
  unfold State.inhibitAfter; split <;> rfl
@[simp] theorem State.inhibitAfter_ctl (s : State) (r : Sreg) : (s.inhibitAfter r).ctl = s.ctl := by
  unfold State.inhibitAfter; split <;> rfl
@[simp] theorem State.inhibitAfter_dbg (s : State) (r : Sreg) : (s.inhibitAfter r).dbg = s.dbg := by
  unfold State.inhibitAfter; split <;> rfl
@[simp] theorem State.inhibitAfter_tlb (s : State) (r : Sreg) : (s.inhibitAfter r).tlb = s.tlb := by
  unfold State.inhibitAfter; split <;> rfl
@[simp] theorem State.inhibitAfter_pins (s : State) (r : Sreg) : (s.inhibitAfter r).pins = s.pins := by
  unfold State.inhibitAfter; split <;> rfl
@[simp] theorem State.inhibitAfter_io (s : State) (r : Sreg) : (s.inhibitAfter r).io = s.io := by
  unfold State.inhibitAfter; split <;> rfl
@[simp] theorem State.inhibitAfter_cop (s : State) (r : Sreg) : (s.inhibitAfter r).cop = s.cop := by
  unfold State.inhibitAfter; split <;> rfl
@[simp] theorem State.inhibitAfter_params (s : State) (r : Sreg) : (s.inhibitAfter r).params = s.params := by
  unfold State.inhibitAfter; split <;> rfl
@[simp] theorem State.inhibitAfter_free (s : State) (r : Sreg) : (s.inhibitAfter r).free = s.free := by
  unfold State.inhibitAfter; split <;> rfl
@[simp] theorem State.inhibitAfter_mem (s : State) (r : Sreg) : (s.inhibitAfter r).mem = s.mem := by
  unfold State.inhibitAfter; split <;> rfl

@[simp] theorem State.complete_gpr (s : State) (tf : Bool) (k : Completion) : (s.complete tf k).gpr = s.gpr := by
  cases k <;> rfl
@[simp] theorem State.complete_pc (s : State) (tf : Bool) (k : Completion) : (s.complete tf k).pc = s.pc := by
  cases k <;> rfl
@[simp] theorem State.complete_cpl (s : State) (tf : Bool) (k : Completion) : (s.complete tf k).cpl = s.cpl := by
  cases k <;> rfl
@[simp] theorem State.complete_seg (s : State) (tf : Bool) (k : Completion) : (s.complete tf k).seg = s.seg := by
  cases k <;> rfl
@[simp] theorem State.complete_gdtr (s : State) (tf : Bool) (k : Completion) : (s.complete tf k).gdtr = s.gdtr := by
  cases k <;> rfl
@[simp] theorem State.complete_idtr (s : State) (tf : Bool) (k : Completion) : (s.complete tf k).idtr = s.idtr := by
  cases k <;> rfl
@[simp] theorem State.complete_ldtr (s : State) (tf : Bool) (k : Completion) : (s.complete tf k).ldtr = s.ldtr := by
  cases k <;> rfl
@[simp] theorem State.complete_tr (s : State) (tf : Bool) (k : Completion) : (s.complete tf k).tr = s.tr := by
  cases k <;> rfl
@[simp] theorem State.complete_ctl (s : State) (tf : Bool) (k : Completion) : (s.complete tf k).ctl = s.ctl := by
  cases k <;> rfl
@[simp] theorem State.complete_dbg (s : State) (tf : Bool) (k : Completion) : (s.complete tf k).dbg = s.dbg := by
  cases k <;> rfl
@[simp] theorem State.complete_tlb (s : State) (tf : Bool) (k : Completion) : (s.complete tf k).tlb = s.tlb := by
  cases k <;> rfl
@[simp] theorem State.complete_pins (s : State) (tf : Bool) (k : Completion) : (s.complete tf k).pins = s.pins := by
  cases k <;> rfl
@[simp] theorem State.complete_io (s : State) (tf : Bool) (k : Completion) : (s.complete tf k).io = s.io := by
  cases k <;> rfl
@[simp] theorem State.complete_cop (s : State) (tf : Bool) (k : Completion) : (s.complete tf k).cop = s.cop := by
  cases k <;> rfl
@[simp] theorem State.complete_params (s : State) (tf : Bool) (k : Completion) : (s.complete tf k).params = s.params := by
  cases k <;> rfl
@[simp] theorem State.complete_free (s : State) (tf : Bool) (k : Completion) : (s.complete tf k).free = s.free := by
  cases k <;> rfl
@[simp] theorem State.complete_mem (s : State) (tf : Bool) (k : Completion) : (s.complete tf k).mem = s.mem := by
  cases k <;> rfl

@[simp] theorem Gpr.get_set (g : Gpr) (r q : Reg) (v : Dword) : (g.set r v).get q = if q = r then v else g.get q := by
  cases r <;> cases q <;> rfl

@[simp] theorem SegRegs.get_set (g : SegRegs) (r q : Sreg) (v : SegReg) :
    (g.set r v).get q = if q = r then v else g.get q := by
  cases r <;> cases q <;> rfl

@[simp] theorem State.reg_setReg (s : State) (r q : Reg) (v : Dword) :
    (s.setReg r v).reg q = if q = r then v else s.reg q := by
  simp [State.reg]

/-- A write of a general register that leaves it as it is changes nothing. -/
@[simp] theorem Gpr.set_get (g : Gpr) (r : Reg) : g.set r (g.get r) = g := by
  cases r <;> rfl

end Sys2Proof.Machine
end

