-- ==== Sys2Proof/Laws/Ops.lean ====
section
/-! SUPPORT. What the shared operations do: one lemma for each, to be cited instead of unfolding it. -/

namespace Sys2Proof.Machine

/-- The segment checks (40_protection_and_segment_loads.md R276). -/
theorem segCheck_eq (r : Sreg) (off : Dword) (n : Nat) (k : Access) (s : State) :
    segCheck r off n k s =
      if s.segOk r off n k then .ok () s
      else .error (.exc (faultWith s (s.segVector r k) 0x0000#16)) s.freed := by
  cases hp : s.pe <;> cases hv : (s.seg.get r).valid <;> cases ht : (s.seg.get r).typeForbids k <;>
    cases hl : (s.seg.get r).inLimit off n <;> by_cases hr : r = .ss <;>
    by_cases ho : off.toNat + n ≤ 65536 <;>
    simp [segCheck, State.segOk, State.segVector, hp, hv, ht, hl, hr, ho, limitFault, faultWith, State.freed] <;>
    (try subst hr) <;> simp_all

/-- With paging off a linear address is physical (20_memory.md R204). -/
theorem translate_flat {s : State} (h : s.pg = false) (la : Dword) (n : Nat) (w u : Bool) :
    translate la n w u s = .ok (Span.flat la n) s := by
  simp [translate, h]

/-- The places of an operand: the segment checks, then translation. -/
theorem checkedSpan_eq (r : Sreg) (off : Dword) (n : Nat) (k : Access) (s : State) :
    checkedSpan r off n k s =
      if s.segOk r off n k then translate (s.linear r off) n (k = .write) s.user s
      else .error (.exc (faultWith s (s.segVector r k) 0x0000#16)) s.freed := by
  by_cases h : s.segOk r off n k <;> simp [checkedSpan, segCheck_eq, h]

/-- An operand about to be accessed. -/
theorem operandSpan_eq (r : Sreg) (off : Dword) (n : Nat) (k : Access) (s : State) :
    operandSpan r off n k s =
      match checkedSpan r off n k s with
      | .ok sp t => .ok sp (t.recordAccess (t.linear r off) n (k = .write))
      | .error e t => .error e t := by
  simp only [operandSpan, M_bind_apply]
  cases checkedSpan r off n k s <;> simp [noteAccess]

/-- With paging off an operand that passes its checks lies at its linear address. -/
theorem operandSpan_flat {s : State} {r : Sreg} {off : Dword} {n : Nat} {k : Access} (hp : s.pg = false)
    (h : s.segOk r off n k = true) :
    operandSpan r off n k s =
      .ok (Span.flat (s.linear r off) n) (s.recordAccess (s.linear r off) n (k = .write)) := by
  simp [operandSpan_eq, checkedSpan_eq, h, translate_flat hp]

/-- MemRead: the bytes of the operand, in the state after its translation. -/
theorem memRead_ok {s t : State} {r : Sreg} {off : Dword} {n : Nat} {sp : Span}
    (h : operandSpan r off n .read s = .ok sp t) :
    memRead r off n s = .ok (fromBytes (Memory.readSpan t.mem sp 0 n)) t := by
  simp [memRead, memBytes, h]

/-- MemWrite prepared. -/
theorem memPrepare_ok {s t : State} {r : Sreg} {off : Dword} {bs : List Byte} {sp : Span}
    (h : operandSpan r off bs.length .write s = .ok sp t) :
    memPrepare r off bs s = .ok { span := sp, bytes := bs } t := by
  simp [memPrepare, h]

/-- A register operand, read. -/
@[simp] theorem rmRead_reg (c : Ctx) (r : Reg) (n : Nat) (s : State) :
    rmRead c (.reg r) n s = .ok (if n = 2 then (lowWord (s.reg r)).setWidth 32 else s.reg r) s := rfl

/-- A memory operand, read. -/
@[simp] theorem rmRead_mem (c : Ctx) (ea : Ea) (n : Nat) (s : State) :
    rmRead c (.mem ea) n s = memRead (c.eaSegment ea) (s.eaOffset ea) n s := rfl

/-- A register destination. -/
@[simp] theorem rmPlace_reg (c : Ctx) (r : Reg) (n : Nat) (s : State) :
    rmPlace c (.reg r) n s = .ok (.reg r) s := rfl

/-- A memory destination. -/
theorem rmPlace_mem_ok {c : Ctx} {ea : Ea} {n : Nat} {s t : State} {sp : Span}
    (h : operandSpan (c.eaSegment ea) (s.eaOffset ea) n .write s = .ok sp t) :
    rmPlace c (.mem ea) n s = .ok (.mem sp) t := by
  simp [rmPlace, h]

/-- Reading a descriptor (20_memory.md R160, R161): none outside its table or in an LDT that is not there, else the two
doublewords at its address. -/
theorem readDescriptor_eq (sel : Word) (s : State) :
    readDescriptor sel s =
      if s.lacksDescriptor sel then .ok none s
      else
        match sysRead (s.descriptorAddr sel) 4 s with
        | .ok lo t =>
          match sysRead (s.descriptorAddr sel + 4#32) 4 t with
          | .ok hi u => .ok (some { lo := lo, hi := hi, addr := s.descriptorAddr sel }) u
          | .error e u => .error e u
        | .error e t => .error e t := by
  simp only [readDescriptor, State.descriptorAddr, State.lacksDescriptor, M_bind_apply, getState_apply, M_ite_apply,
    M_pure_apply]
  refine ite_congr rfl (fun _ => rfl) fun _ => ?_
  generalize (if selTi sel = true then s.ldtr.base else s.gdtr.base) + BitVec.ofNat 32 (selIndex sel * 8) = a
  cases h1 : sysRead a 4 s with
  | error e t => simp only
  | ok lo t => cases h2 : sysRead (a + 4#32) 4 t <;> simp only [h2]

/-- A privileged instruction at a level that may run it (40_protection_and_segment_loads.md R311). -/
theorem privileged_ok {s : State} (h : s.pe = true → s.cpl = 0#2) : privileged s = .ok () s := by
  cases hp : s.pe
  · simp [privileged, hp]
  · simp [privileged, hp, h hp]

/-- A privileged instruction at any other level. -/
theorem privileged_exc {s : State} (hp : s.pe = true) (h : s.cpl ≠ 0#2) :
    privileged s = .error (.exc (faultWith s 0x0D#8 0x0000#16)) s.freed := by
  simp [privileged, hp, h, faultWith, State.freed]

/-- An instruction of protected mode only. -/
theorem protectedOnly_ok {s : State} (hp : s.pe = true) : protectedOnly s = .ok () s := by
  simp [protectedOnly, hp]

/-- A near target within CS. -/
theorem nearTarget_ok {s : State} {t : Dword} (h : s.segOk .cs t 1 .fetch = true) : nearTarget t s = .ok () s := by
  simp [nearTarget, segCheck_eq, h]

/-- The I/O permission test without a map (45_io.md R521). -/
theorem ioPermit_free {s : State} {port : Word} {n : Nat}
    (h : s.pe = false ∨ (s.flags.vm = false ∧ s.cpl ≤ s.flags.iopl)) : ioPermit port n s = .ok () s := by
  rcases h with h | ⟨h1, h2⟩
  · simp [ioPermit, h]
  · by_cases hp : s.pe <;> simp [ioPermit, hp, h1, h2]

/-- All that `orVirtual` can do: what the computation gives where it answers, the refusal of virtual 8086 mode elsewhere. -/
theorem orVirtual_cases {α : Type} (m : M α) (s : State) :
    (∃ a t, m s = .ok a t ∧ orVirtual m s = .ok a t) ∨
    (∃ e t, m s = .error e t ∧ orVirtual m s = .error (.refusal .virtual8086) t) := by
  cases h : m s with
  | ok a t => exact .inl ⟨a, t, rfl, by simp [orVirtual, h]⟩
  | error e t => exact .inr ⟨e, t, rfl, by simp [orVirtual, h]⟩

/-- All that delivery from virtual 8086 mode can do (60_exceptions.md R781): #GP with the handler's selector, or the
refusal of that mode. -/
theorem deliverVirtual_cases (e : Event) (s : State) :
    (∃ sel t, outerHandler e s = .ok sel t ∧ deliverVirtual e s = raiseGP (selErr sel e.ext) t) ∨
    (∃ t, deliverVirtual e s = .error (.refusal .virtual8086) t) := by
  rcases orVirtual_cases (outerHandler e) s with ⟨sel, t, h, h'⟩ | ⟨x, t, -, h'⟩
  · exact .inl ⟨sel, t, h, by simp [deliverVirtual, M_bind_apply, h']⟩
  · exact .inr ⟨t, by simp [deliverVirtual, M_bind_apply, h']⟩

/-- With paging off a byte of a wrapped operand that passes its check lies at its own linear address
(47_coprocessor_and_lock.md R590). -/
theorem wrappedByte_flat {s : State} {r : Sreg} {off k : Nat} {a : Access} (hp : s.pg = false)
    (h : s.segOk r (s.wrappedOff r off k) 1 a = true) :
    wrappedByte r off k a s =
      .ok (Span.flat (s.linear r (s.wrappedOff r off k)) 1)
        (s.recordAccess (s.linear r (s.wrappedOff r off k)) 1 (a = .write)) := by
  simp only [wrappedByte, M_bind_apply, getState_apply, segCheck_eq, h, if_true, translate_flat hp, noteAccess,
    update_apply, M_pure_apply]
  simp [Span.flat]

/-- A byte of a wrapped operand that does not pass its check. -/
theorem wrappedByte_exc {s : State} {r : Sreg} {off k : Nat} {a : Access}
    (h : s.segOk r (s.wrappedOff r off k) 1 a = false) :
    wrappedByte r off k a s
      = .error (.exc (faultWith s (s.segVector r a) 0x0000#16)) s.freed := by
  simp [wrappedByte, segCheck_eq, h]

/-- An invalid opcode raises #UD when it is fetched to be executed (30_encoding.md R236). -/
theorem fetchFrom_invalid {n : Nat} {bs op : List Byte} {s : State} (h : decode s.default32 bs = .invalid op) :
    fetchFrom (n + 1) bs s = .error (.exc (faultOf 0x06#8)) s := by
  simp [fetchFrom, h, raiseUD, raise, faultOf]

/-- All that LOCK before an opcode of the list can do (47_coprocessor_and_lock.md R600). -/
theorem lockOther_eq {α : Type} (fields : List (BitVec 3)) (opcode : List Byte) (b : Byte) (s : State) :
    lockOther (α := α) fields opcode b s =
      if b.extractLsb' 6 2 ≠ 3#2 ∧ b.extractLsb' 3 3 ∈ fields then
        .error (.refusal (.lockOutsideSpec (opcode ++ [b]))) s
      else .error (.exc (faultOf 0x06#8)) s := by
  by_cases h1 : b.extractLsb' 6 2 = 3#2 <;> by_cases h2 : b.extractLsb' 3 3 ∈ fields <;>
    simp [lockOther, fieldHi, fieldMid, raiseUD, raise, faultOf, h1, h2]

end Sys2Proof.Machine
end

