-- ==== Sys2Proof/Laws/Access.lean ====
section
/-! SUPPORT. What translations, checks and reads that succeed may change: accessed and dirty bits of the page entries they
use, the TLB, the pending data breakpoints (20_memory.md R186, R200; 48_debug.md R646). -/

namespace Sys2Proof.Machine

/-- A doubleword-aligned address. -/
def Aligned (a : Dword) : Prop := a.toNat % 4 = 0

theorem aligned_pdeAddr (cr3 la : Dword) : Aligned (pdeAddr cr3 la) := by
  unfold Aligned pdeAddr
  simp only [BitVec.toNat_add, BitVec.toNat_append, BitVec.toNat_setWidth, BitVec.toNat_ofNat]
  simp only [Nat.shiftLeft_eq, Nat.or_zero, Nat.zero_mod]
  omega

theorem aligned_pteAddr (pde la : Dword) : Aligned (pteAddr pde la) := by
  unfold Aligned pteAddr
  simp only [BitVec.toNat_add, BitVec.toNat_append, BitVec.toNat_setWidth, BitVec.toNat_ofNat]
  simp only [Nat.shiftLeft_eq, Nat.or_zero, Nat.zero_mod]
  omega

theorem aligned_flat {a : Dword} (h : Aligned a) {k : Nat} (hk : k < 4) : (Span.flat a 4).addr k = a.toNat + k := by
  have := a.isLt
  unfold Aligned at h
  exact Span_flat_addr hk (by omega)

/-- A byte outside a doubleword that is written reads as before. -/
theorem read_physWrite_other {m : PhysMem} {a v : Dword} {x : Nat} (h : Memory.wf m = true)
    (hx : ¬(Span.flat a 4).covers 4 x) : Memory.read (physWrite m a v) x = Memory.read m x := by
  refine Memory_read_writeSpan_other h fun i _ hi he => hx ⟨i, ?_, he⟩
  simpa using hi

/-- The frame address that an entry holds (20_memory.md R173). -/
def frameOf (e : Dword) : BitVec 20 := e.extractLsb' 12 20

theorem frameOf_or {e v : Dword} (h : frameOf v = 0#20) : frameOf (e ||| v) = frameOf e := by
  unfold frameOf at *
  apply BitVec.eq_of_getLsbD_eq
  intro i hi
  have := congrArg (fun x : BitVec 20 => x.getLsbD i) h
  simp only [BitVec.getLsbD_extractLsb', hi, decide_true, Bool.true_and, BitVec.getLsbD_zero] at this
  simp [BitVec.getLsbD_extractLsb', this]

/-- The frame address of a doubleword that was read, bit by bit. -/
theorem frameOf_fromBytes (b0 b1 b2 b3 : Byte) {i : Nat} (hi : i < 20) :
    (frameOf (fromBytes [b0, b1, b2, b3])).getLsbD i =
      if i < 4 then b1.getLsbD (i + 4) else if i < 12 then b2.getLsbD (i - 4) else b3.getLsbD (i - 12) := by
  simp only [frameOf, fromBytes]
  interval_cases i <;> simp

/-- The bytes of a doubleword of RAM after a store to it, and of any other place. -/
theorem read_physWrite {m : PhysMem} {a v : Dword} {k : Nat} (h : Memory.wf m = true) (ha : Aligned a) (hk : k < 4) :
    Memory.read (physWrite m a v) ((Span.flat a 4).addr k) =
      if m.kindAt ((Span.flat a 4).addr k) = .ram then (v >>> (8 * k)).setWidth 8
      else Memory.read m ((Span.flat a 4).addr k) := by
  have hd : ∀ i j, i < 4 → j < 4 → (Span.flat a 4).addr i = (Span.flat a 4).addr j → i = j := by
    intro i j hi hj he
    rw [aligned_flat ha hi, aligned_flat ha hj] at he
    omega
  have w : ∀ {m b : _} {i : Nat}, Memory.wf m = true → Memory.wf (Memory.write m ((Span.flat a 4).addr i) b) = true :=
    fun h => Memory_wf_write h (Span_addr_lt _ _)
  simp only [physWrite, toBytes, Memory.writeSpan]
  have e : ∀ i j, i < 4 → j < 4 → ((Span.flat a 4).addr i = (Span.flat a 4).addr j ↔ i = j) :=
    fun i j hi hj => ⟨hd i j hi hj, fun x => x ▸ rfl⟩
  rw [Memory_read_write (w (w (w h))), Memory_read_write (w (w h)), Memory_read_write (w h), Memory_read_write h]
  interval_cases k <;> simp [e, ← BitVec.shiftRight_add]

/-- A doubleword read after a store of a doubleword that keeps the frame address, both aligned. -/
theorem frameOf_physWrite {m : PhysMem} {a b v : Dword} (h : Memory.wf m = true) (ha : Aligned a) (hb : Aligned b)
    (hv : frameOf v = frameOf (physRead m a)) : frameOf (physRead (physWrite m a v) b) = frameOf (physRead m b) := by
  by_cases he : b = a
  · subst he
    have r := fun k (hk : k < 4) => read_physWrite (v := v) h hb hk
    simp only [physRead, Memory.readSpan] at hv ⊢
    rw [r 1 (by omega), r 2 (by omega), r 3 (by omega)]
    apply BitVec.eq_of_getLsbD_eq
    intro i hi
    have hvi := congrArg (fun x : BitVec 20 => x.getLsbD i) hv
    simp only [frameOf_fromBytes _ _ _ _ hi] at hvi ⊢
    have hl : (frameOf v).getLsbD i = v.getLsbD (12 + i) := by simp [frameOf, hi]
    rw [hl] at hvi
    clear hv r hl
    generalize Memory.read m ((Span.flat b 4).addr 1) = b1 at hvi ⊢
    generalize Memory.read m ((Span.flat b 4).addr 2) = b2 at hvi ⊢
    generalize Memory.read m ((Span.flat b 4).addr 3) = b3 at hvi ⊢
    interval_cases i <;> simp at hvi ⊢ <;> split <;> simp_all
  · have hn : b.toNat ≠ a.toNat := fun h => he (BitVec.eq_of_toNat_eq h)
    have hr : ∀ k, k < 4 →
        Memory.read (physWrite m a v) ((Span.flat b 4).addr k) = Memory.read m ((Span.flat b 4).addr k) := by
      intro k hk
      refine read_physWrite_other h ?_
      rintro ⟨i, hi, he⟩
      rw [aligned_flat ha hi, aligned_flat hb hk] at he
      unfold Aligned at ha hb
      omega
    simp only [physRead, Memory.readSpan, hr 0 (by omega), hr 1 (by omega), hr 2 (by omega), hr 3 (by omega)]

theorem pteAddr_frame {e f : Dword} (h : frameOf e = frameOf f) (la : Dword) : pteAddr e la = pteAddr f la := by
  unfold frameOf at h
  simp [pteAddr, h]

/-- One state follows another by translations, checks and reads alone, which changed no byte outside a set of bytes of
page entries, and no frame address in any aligned doubleword. -/
structure Quiet (P : Nat → Prop) (s t : State) : Prop where
  touched : Touched s t
  wf : Memory.wf s.mem = true → Memory.wf t.mem = true
  kept : Memory.wf s.mem = true → ∀ a, ¬P a → t.byte a = s.byte a
  frames : Memory.wf s.mem = true → ∀ a, Aligned a → frameOf (physRead t.mem a) = frameOf (physRead s.mem a)

/-- A change of cells and of the TLB. -/
theorem touched_mem {s : State} {m : PhysMem} {t : Tlb} (h : m.map = s.mem.map) : Touched s { s with mem := m, tlb := t } := by
  cases m
  cases h
  rfl

theorem touched_refl (s : State) : Touched s s := rfl

theorem touched_trans {s t u : State} (h1 : Touched s t) (h2 : Touched t u) : Touched s u := by
  unfold Touched at *
  rw [h2, h1]

theorem quiet_refl (P : Nat → Prop) (s : State) : Quiet P s s :=
  ⟨rfl, id, fun _ _ _ => rfl, fun _ _ _ => rfl⟩

theorem quiet_mono {P Q : Nat → Prop} {s t : State} (h : Quiet P s t) (hPQ : ∀ a, P a → Q a) : Quiet Q s t :=
  ⟨h.touched, h.wf, fun hw a ha => h.kept hw a fun hp => ha (hPQ a hp), h.frames⟩

theorem quiet_trans {P : Nat → Prop} {s t u : State} (h1 : Quiet P s t) (h2 : Quiet P t u) : Quiet P s u :=
  ⟨touched_trans h1.touched h2.touched, fun h => h2.wf (h1.wf h),
    fun h a ha => (h2.kept (h1.wf h) a ha).trans (h1.kept h a ha),
    fun h a ha => (h2.frames (h1.wf h) a ha).trans (h1.frames h a ha)⟩

/-- A change of the TLB or of the pending breakpoints is quiet. -/
theorem quiet_of_mem {P : Nat → Prop} {s t : State} (h : Touched s t) (hm : t.mem = s.mem) : Quiet P s t :=
  ⟨h, fun hw => by rw [hm]; exact hw, fun _ a _ => by simp [State.byte, hm], fun _ a _ => by rw [hm]⟩

theorem Touched.ctl {s t : State} (h : Touched s t) : t.ctl = s.ctl := by
  unfold Touched at h; rw [h]

theorem Touched.seg {s t : State} (h : Touched s t) : t.seg = s.seg := by
  unfold Touched at h; rw [h]

theorem Touched.gpr {s t : State} (h : Touched s t) : t.gpr = s.gpr := by
  unfold Touched at h; rw [h]

theorem Touched.flags {s t : State} (h : Touched s t) : t.flags = s.flags := by
  unfold Touched at h; rw [h]

theorem Touched.free {s t : State} (h : Touched s t) : t.free = s.free := by
  unfold Touched at h; rw [h]

theorem Touched.cpl {s t : State} (h : Touched s t) : t.cpl = s.cpl := by
  unfold Touched at h; rw [h]

theorem Touched.gdtr {s t : State} (h : Touched s t) : t.gdtr = s.gdtr := by
  unfold Touched at h; rw [h]

theorem Touched.ldtr {s t : State} (h : Touched s t) : t.ldtr = s.ldtr := by
  unfold Touched at h; rw [h]

theorem Touched.pe {s t : State} (h : Touched s t) : t.pe = s.pe := by simp [State.pe, h.ctl]

theorem Touched.pg {s t : State} (h : Touched s t) : t.pg = s.pg := by simp [State.pg, h.ctl]

theorem Touched.user {s t : State} (h : Touched s t) : t.user = s.user := by simp [State.user, h.cpl]

theorem Touched.linear {s t : State} (h : Touched s t) (r : Sreg) (off : Dword) : t.linear r off = s.linear r off := by
  simp [State.linear, h.seg]

/-- The page entries of a linear address lie where they lay before. -/
theorem entryByte_quiet {P : Nat → Prop} {s t : State} (h : Quiet P s t) (hw : Memory.wf s.mem = true) (la : Dword)
    (a : Nat) : t.entryByte la a ↔ s.entryByte la a := by
  have hf := h.frames hw _ (aligned_pdeAddr s.ctl.cr3 la)
  simp only [State.entryByte, h.touched.pg, h.touched.ctl, pteAddr_frame hf]

theorem accessByte_quiet {P : Nat → Prop} {s t : State} (h : Quiet P s t) (hw : Memory.wf s.mem = true) (la : Dword)
    (n a : Nat) : t.accessByte la n a ↔ s.accessByte la n a := by
  simp only [State.accessByte, entryByte_quiet h hw]

theorem takeChoice_quiet {P : Nat → Prop} {s t : State} {c : TlbChoice} (h : takeChoice s = .ok c t) : Quiet P s t := by
  unfold takeChoice at h
  split at h <;> cases h <;> exact quiet_of_mem rfl rfl

/-- The walk (20_memory.md R185, R186). -/
theorem walk_quiet {la pa : Dword} {w u : Bool} {b : Option (BitVec 2)} {s t : State} (hp : s.pg = true)
    (h : walk la w u b s = .ok pa t) : Quiet (s.entryByte la) s t := by
  simp only [walk, M_bind_apply, getState_apply, M_ite_apply, pageFault, update_apply, takeFree_apply, stop_apply,
    M_pure_apply] at h
  split at h
  · cases h
  split at h
  · cases h
  split at h
  · cases h
  split at h
  · cases h
  split at h
  · cases h
  have k2 : frameOf (if w = true then 0x00000060#32 else 0x00000020#32) = 0#20 := by cases w <;> decide
  generalize (if w = true then 0x00000060#32 else 0x00000020#32) = k at h k2
  cases h
  have hA := aligned_pdeAddr s.ctl.cr3 la
  have hB := aligned_pteAddr (physRead s.mem (pdeAddr s.ctl.cr3 la)) la
  have k1 : frameOf 0x00000020#32 = 0#20 := by decide
  have w1 : Memory.wf s.mem = true → ∀ c : Prop, ∀ [Decidable c], Memory.wf (if c then s.mem else
      physWrite s.mem (pdeAddr s.ctl.cr3 la) (physRead s.mem (pdeAddr s.ctl.cr3 la) ||| 0x00000020#32)) = true := by
    intro hw c _
    split
    · exact hw
    · exact physWrite_wf hw
  refine ⟨touched_mem (ite_physWrite_map (ite_physWrite_map rfl)), fun hw => ?_,
    fun hw a ha => ?_, fun hw a ha => ?_⟩
  · show Memory.wf (if _ then _ else _) = true
    split
    · exact w1 hw _
    · exact physWrite_wf (w1 hw _)
  · simp only [State.entryByte, hp, true_and, not_or] at ha
    simp only [State.byte]
    split
    · split
      · rfl
      · exact read_physWrite_other hw ha.1
    · rw [read_physWrite_other (w1 hw _) ha.2]
      split
      · rfl
      · exact read_physWrite_other hw ha.1
  · have f1 : ∀ x, Aligned x → ∀ c : Prop, ∀ [Decidable c], frameOf (physRead (if c then s.mem else
        physWrite s.mem (pdeAddr s.ctl.cr3 la) (physRead s.mem (pdeAddr s.ctl.cr3 la) ||| 0x00000020#32)) x) =
        frameOf (physRead s.mem x) := by
      intro x hx c _
      split
      · rfl
      · exact frameOf_physWrite hw hA hx (frameOf_or k1)
    simp only []
    split
    · exact f1 a ha _
    · rw [frameOf_physWrite (w1 hw _) hB ha ((frameOf_or k2).trans (f1 _ hB _).symm)]
      exact f1 a ha _

/-- A translation of one page (20_memory.md R200, R203). -/
theorem translatePage_quiet {la pa : Dword} {w u : Bool} {s t : State} (hp : s.pg = true)
    (hw : Memory.wf s.mem = true) (h : translatePage la w u s = .ok pa t) : Quiet (s.entryByte la) s t := by
  simp only [translatePage, M_bind_apply] at h
  cases hc : takeChoice s with
  | error e x => rw [hc] at h; cases h
  | ok c s1 =>
    rw [hc] at h
    have q1 : Quiet (s.entryByte la) s s1 := takeChoice_quiet hc
    simp only [update_apply, getState_apply] at h
    generalize hs2 : (if c.drop = true then { s1 with tlb := s1.tlb.forget (pageOf la) } else s1) = s2 at h
    have q2 : Quiet (s.entryByte la) s s2 := by
      refine quiet_trans q1 ?_
      rw [← hs2]
      split
      · exact quiet_of_mem rfl rfl
      · exact quiet_refl _ _
    have walked : ∀ s3, Quiet (s.entryByte la) s s3 → walk la w u c.fill s3 = .ok pa t → Quiet (s.entryByte la) s t := by
      intro s3 q3 hk
      refine quiet_trans q3 (quiet_mono (walk_quiet (by rw [q3.touched.pg]; exact hp) hk) fun a => ?_)
      exact (entryByte_quiet q3 hw la a).mp
    generalize s2.tlb.hits (pageOf la) = l at h
    rcases l with _ | ⟨b, _ | _⟩
    · exact walked s2 q2 h
    · simp only [M_ite_apply, pageFault, M_bind_apply, update_apply, takeFree_apply, stop_apply, M_pure_apply] at h
      split at h
      · cases h
      · split at h
        · have q3 : ∀ x, Quiet (s.entryByte la) s2 { s2 with tlb := x } := fun x => quiet_of_mem rfl rfl
          exact walked _ (quiet_trans q2 (q3 _)) h
        · cases h; exact q2
    · cases h

/-- A translation (20_memory.md R186, R190, R200). -/
theorem translate_quiet {la : Dword} {n : Nat} {w u : Bool} {s t : State} {sp : Span} (hw : Memory.wf s.mem = true)
    (h : translate la n w u s = .ok sp t) : Quiet (s.accessByte la n) s t := by
  simp only [translate, M_bind_apply, getState_apply, M_ite_apply, M_pure_apply] at h
  split at h
  · cases h; exact quiet_refl _ _
  · rename_i hp
    replace hp : s.pg = true := by simpa using hp
    cases h1 : translatePage la w u s with
    | error e x => rw [h1] at h; cases h
    | ok p s1 =>
      have q1 := translatePage_quiet hp hw h1
      rw [h1] at h
      simp only [] at h
      split at h
      · cases h; exact quiet_mono q1 fun a => .inl
      · rename_i hn
        cases h2 : translatePage (la + BitVec.ofNat 32 (pageRest la)) w u s1 with
        | error e x => rw [h2] at h; cases h
        | ok p2 s2 =>
          rw [h2] at h
          cases h
          have q2 := translatePage_quiet (by rw [q1.touched.pg]; exact hp) (q1.wf hw) h2
          refine quiet_trans (quiet_mono q1 fun a => .inl) (quiet_mono q2 fun a ha => .inr ⟨by omega, ?_⟩)
          exact (entryByte_quiet q1 hw _ a).mp ha

/-- An operand's checks. -/
theorem checkedSpan_quiet {r : Sreg} {off : Dword} {n : Nat} {k : Access} {s t : State} {sp : Span}
    (hw : Memory.wf s.mem = true) (h : checkedSpan r off n k s = .ok sp t) :
    Quiet (s.accessByte (s.linear r off) n) s t := by
  rw [checkedSpan_eq] at h
  split at h
  · exact translate_quiet hw h
  · cases h

/-- An operand about to be accessed. -/
theorem operandSpan_quiet {r : Sreg} {off : Dword} {n : Nat} {k : Access} {s t : State} {sp : Span}
    (hw : Memory.wf s.mem = true) (h : operandSpan r off n k s = .ok sp t) :
    Quiet (s.accessByte (s.linear r off) n) s t := by
  rw [operandSpan_eq] at h
  cases hc : checkedSpan r off n k s with
  | error e x => rw [hc] at h; cases h
  | ok sp1 s1 =>
    rw [hc] at h
    cases h
    exact quiet_trans (checkedSpan_quiet hw hc) (quiet_of_mem rfl rfl)

/-- A privilege-0 read (40_protection_and_segment_loads.md R327). -/
theorem sysRead_quiet {la v : Dword} {n : Nat} {s t : State} (hw : Memory.wf s.mem = true)
    (h : sysRead la n s = .ok v t) : Quiet (s.accessByte la n) s t := by
  simp only [sysRead, linBytes, M_bind_apply, getState_apply, M_pure_apply] at h
  cases h1 : translate la n false false s with
  | error e x => rw [h1] at h; cases h
  | ok sp s1 => rw [h1] at h; cases h; exact translate_quiet hw h1

/-- A privilege-0 store, prepared. -/
theorem sysPrepare_quiet {la : Dword} {bs : List Byte} {s t : State} {st : Store} (hw : Memory.wf s.mem = true)
    (h : sysPrepare la bs s = .ok st t) : Quiet (s.accessByte la bs.length) s t ∧ st.bytes = bs := by
  simp only [sysPrepare, M_bind_apply, M_pure_apply] at h
  cases h1 : translate la bs.length true false s with
  | error e x => rw [h1] at h; cases h
  | ok sp s1 => rw [h1] at h; cases h; exact ⟨translate_quiet hw h1, rfl⟩

/-- The bytes outside a store read as before. -/
theorem byte_store {s : State} {st : Store} {a : Nat} (hw : Memory.wf s.mem = true)
    (ha : ¬st.span.covers st.bytes.length a) : (s.store st).byte a = s.byte a :=
  Memory_read_writeSpan_other hw fun i _ hi he => ha ⟨i, by simpa using hi, he⟩

/-- The bytes outside several stores read as before. -/
theorem byte_storeAll {s : State} {sts : List Store} {a : Nat} (hw : Memory.wf s.mem = true)
    (ha : ¬storesCover sts a) : (s.storeAll sts).byte a = s.byte a := by
  induction sts generalizing s with
  | nil => rfl
  | cons st r ih =>
    show ((s.store st).storeAll r).byte a = s.byte a
    rw [ih (State_wf_store hw) fun ⟨x, hx, hc⟩ => ha ⟨x, List.mem_cons_of_mem _ hx, hc⟩]
    exact byte_store hw fun hc => ha ⟨st, List.mem_cons_self, hc⟩

theorem pageOf_toNat (la : Dword) : (pageOf la).toNat = la.toNat / 4096 := by
  have := la.isLt
  simp only [pageOf, BitVec.extractLsb'_toNat, Nat.shiftRight_eq_div_pow]
  omega

theorem pageRest_eq (la : Dword) : pageRest la = 4096 - la.toNat % 4096 := by
  simp [pageRest, pageOff, BitVec.toNat_setWidth]

/-- The page entries of a linear address are those of its page. -/
theorem entryByte_page {s : State} {la lb : Dword} (h : pageOf la = pageOf lb) (a : Nat) :
    s.entryByte la a ↔ s.entryByte lb a := by
  have hb : ∀ i, i < 20 → la.getLsbD (12 + i) = lb.getLsbD (12 + i) := by
    intro i hi
    have := congrArg (fun x : BitVec 20 => x.getLsbD i) h
    simpa [pageOf, BitVec.getLsbD_extractLsb', hi] using this
  have e1 : la.extractLsb' 22 10 = lb.extractLsb' 22 10 := by
    apply BitVec.eq_of_getLsbD_eq
    intro i hi
    have := hb (10 + i) (by omega)
    simpa [BitVec.getLsbD_extractLsb', hi, ← Nat.add_assoc] using this
  have e2 : la.extractLsb' 12 10 = lb.extractLsb' 12 10 := by
    apply BitVec.eq_of_getLsbD_eq
    intro i hi
    simpa [BitVec.getLsbD_extractLsb', hi] using hb i (by omega)
  simp only [State.entryByte, pdeAddr, pteAddr, e1, e2]

/-- A part of an operand uses no page entry that the operand does not use. -/
theorem accessByte_part {s : State} {la : Dword} {k m n a : Nat} (hk : k + m ≤ n) (hm : 0 < m) (hn : n ≤ 4096)
    (h : s.accessByte (la + BitVec.ofNat 32 k) m a) : s.accessByte la n a := by
  have hl := la.isLt
  have ha : (la + BitVec.ofNat 32 k).toNat = (la.toNat + k) % 4294967296 := by
    simp [BitVec.toNat_add, BitVec.toNat_ofNat]
  have hr := pageRest_eq la
  have hp : ∀ j, j < n → s.entryByte (la + BitVec.ofNat 32 j) a → s.accessByte la n a := by
    intro j hj he
    have hj' : (la + BitVec.ofNat 32 j).toNat = (la.toNat + j) % 4294967296 := by
      simp [BitVec.toNat_add, BitVec.toNat_ofNat]
    have hR : (la + BitVec.ofNat 32 (pageRest la)).toNat = (la.toNat + pageRest la) % 4294967296 := by
      simp [BitVec.toNat_add, BitVec.toNat_ofNat]
    by_cases hc : j < pageRest la
    · refine .inl ((entryByte_page (BitVec.eq_of_toNat_eq ?_) a).mp he)
      rw [pageOf_toNat, pageOf_toNat, hj']
      omega
    · refine .inr ⟨by omega, (entryByte_page (BitVec.eq_of_toNat_eq ?_) a).mp he⟩
      rw [pageOf_toNat, pageOf_toNat, hj', hR]
      omega
  rcases h with h | ⟨h1, h2⟩
  · exact hp k (by omega) h
  · have e : la + BitVec.ofNat 32 k + BitVec.ofNat 32 (pageRest (la + BitVec.ofNat 32 k))
        = la + BitVec.ofNat 32 (k + pageRest (la + BitVec.ofNat 32 k)) := by
      rw [BitVec.add_assoc, ← BitVec.ofNat_add]
    rw [e] at h2
    exact hp _ (by omega) h2

/-- Reading a descriptor (20_memory.md R160). -/
theorem readDescriptor_quiet {sel : Word} {s t : State} {d : Option Descriptor} (hw : Memory.wf s.mem = true)
    (h : readDescriptor sel s = .ok d t) :
    Quiet (s.accessByte (s.descriptorAddr sel) 8) s t ∧ (∀ x, d = some x → x.addr = s.descriptorAddr sel) := by
  rw [readDescriptor_eq] at h
  split at h
  · cases h; exact ⟨quiet_refl _ _, fun x hx => by cases hx⟩
  · cases h1 : sysRead (s.descriptorAddr sel) 4 s with
    | error e x => rw [h1] at h; cases h
    | ok lo s1 =>
      rw [h1] at h
      cases h2 : sysRead (s.descriptorAddr sel + 4#32) 4 s1 with
      | error e x => simp only [h2] at h; cases h
      | ok hi s2 =>
        simp only [h2] at h
        cases h
        have q1 := sysRead_quiet hw h1
        have q2 := sysRead_quiet (q1.wf hw) h2
        refine ⟨quiet_trans (quiet_mono q1 fun a ha => ?_) (quiet_mono q2 fun a ha => ?_), fun x hx => by cases hx; rfl⟩
        · have z : s.descriptorAddr sel = s.descriptorAddr sel + BitVec.ofNat 32 0 := by simp
          rw [z] at ha
          exact accessByte_part (by omega) (by omega) (by omega) ha
        · rw [accessByte_quiet q1 hw] at ha
          exact accessByte_part (k := 4) (by omega) (by omega) (by omega) ha

/-- Preparing the store of a descriptor's accessed bit (20_memory.md R147). -/
theorem markAccessed_quiet {d : Descriptor} {s t : State} {sts : List Store} (hw : Memory.wf s.mem = true)
    (h : markAccessed d s = .ok sts t) : Quiet (s.accessByte d.addr 8) s t := by
  simp only [markAccessed, M_ite_apply, M_bind_apply, M_pure_apply] at h
  split at h
  · cases h; exact quiet_refl _ _
  · cases h1 : sysPrepare (d.addr + 4#32) (toBytes 4 (d.hi ||| 0x00000100#32)) s with
    | error e x => rw [h1] at h; cases h
    | ok st s1 =>
      rw [h1] at h
      cases h
      refine quiet_mono (sysPrepare_quiet hw h1).1 fun a ha => ?_
      rw [toBytes_length] at ha
      exact accessByte_part (k := 4) (by omega) (by omega) (by omega) ha

end Sys2Proof.Machine
end

