-- ==== Sys2Proof/Laws/Decode.lean ====
section
/-! SUPPORT. The decoder's parts read what the encoder's parts write (30_encoding.md R240 to R250). -/

namespace Sys2Proof

@[simp] theorem Parse_bind_apply {α β : Type} (m : Parse α) (f : α → Parse β) (bs : List Byte) :
    (m >>= f) bs = match m bs with | .ok a r => f a r | .error e r => .error e r := by
  show EStateM.bind m f bs = _
  unfold EStateM.bind
  cases m bs <;> rfl

@[simp] theorem Parse_map_apply {α β : Type} (f : α → β) (m : Parse α) (bs : List Byte) :
    (f <$> m) bs = match m bs with | .ok a r => .ok (f a) r | .error e r => .error e r := by
  show EStateM.map f m bs = _
  unfold EStateM.map
  cases m bs <;> rfl

@[simp] theorem Parse_pure_apply {α : Type} (a : α) (bs : List Byte) : (pure a : Parse α) bs = .ok a bs := rfl

@[simp] theorem nextByte_cons (b : Byte) (r : List Byte) : nextByte (b :: r) = .ok b r := rfl

@[simp] theorem Reg_ofBits_bits (r : Reg) : Reg.ofBits r.bits = r := by cases r <;> rfl

@[simp] theorem Reg_bits_ofBits (b : BitVec 3) : (Reg.ofBits b).bits = b := by revert b; decide

@[simp] theorem Reg8_ofBits_bits (r : Reg8) : Reg8.ofBits r.bits = r := by cases r <;> rfl

@[simp] theorem Reg8_bits_ofBits (b : BitVec 3) : (Reg8.ofBits b).bits = b := by revert b; decide

@[simp] theorem Base16_ofBits_bits (b : Base16) : Base16.ofBits b.bits = b := by cases b <;> rfl

@[simp] theorem Base16_bits_ofBits (b : BitVec 3) : (Base16.ofBits b).bits = b := by revert b; decide

@[simp] theorem fieldHi_pack (h : BitVec 2) (m l : BitVec 3) : fieldHi (packFields h m l) = h := by
  revert h m l; decide

@[simp] theorem fieldMid_pack (h : BitVec 2) (m l : BitVec 3) : fieldMid (packFields h m l) = m := by
  revert h m l; decide

@[simp] theorem fieldLo_pack (h : BitVec 2) (m l : BitVec 3) : fieldLo (packFields h m l) = l := by
  revert h m l; decide

@[simp] theorem pack_fields (b : Byte) : packFields (fieldHi b) (fieldMid b) (fieldLo b) = b := by
  revert b; decide

@[simp] theorem indexOf_bits {i : Option Reg} (h : i ≠ some .esp) : indexOf (indexBits i) = i := by
  cases i with
  | none => rfl
  | some r => cases r <;> first | rfl | exact absurd rfl h

@[simp] theorem indexBits_of (b : BitVec 3) : indexBits (indexOf b) = b := by revert b; decide

theorem extract_word (v : Word) : (v.extractLsb' 8 8 ++ v.extractLsb' 0 8 : Word) = v := by
  apply BitVec.eq_of_getLsbD_eq
  intro i hi
  simp only [BitVec.getLsbD_append, BitVec.getLsbD_extractLsb']
  by_cases h : i < 8
  · simp [h]
  · have : i - 8 < 8 := by omega
    have h2 : 8 + (i - 8) = i := by omega
    simp [h, this, h2]

theorem extract_dword (v : Dword) : (v.extractLsb' 16 16 ++ v.extractLsb' 0 16 : Dword) = v := by
  apply BitVec.eq_of_getLsbD_eq
  intro i hi
  simp only [BitVec.getLsbD_append, BitVec.getLsbD_extractLsb']
  by_cases h : i < 16
  · simp [h]
  · have : i - 16 < 16 := by omega
    have h2 : 16 + (i - 16) = i := by omega
    simp [h, this, h2]

@[simp] theorem nextWord_bytes (v : Word) (r : List Byte) : nextWord (wordBytes v ++ r) = .ok v r := by
  simp [nextWord, wordBytes, extract_word]

@[simp] theorem nextDword_bytes (v : Dword) (r : List Byte) : nextDword (dwordBytes v ++ r) = .ok v r := by
  simp [nextDword, dwordBytes, List.append_assoc, extract_dword]

@[simp] theorem wordBytes_length (v : Word) : (wordBytes v).length = 2 := rfl

@[simp] theorem dwordBytes_length (v : Dword) : (dwordBytes v).length = 4 := rfl

@[simp] theorem Imm_bytes_length (d : Imm) : d.bytes.length = d.size := by cases d <;> rfl

@[simp] theorem Disp16_bytes_length (d : Disp16) : d.bytes.length = d.size := by cases d <;> rfl

@[simp] theorem Disp32_bytes_length (d : Disp32) : d.bytes.length = d.size := by cases d <;> rfl

/-- The bytes of an operand are as many as its size. -/
@[simp] theorem Ea_bytes_length (n : BitVec 3) (ea : Ea) : (ea.bytes n).length = ea.size := by
  cases ea <;> simp [Ea.bytes, Ea.size] <;> omega

@[simp] theorem RM_bytes_length {ρ : Type} (f : ρ → BitVec 3) (n : BitVec 3) (rm : RM ρ) :
    (rm.bytes f n).length = rm.size := by
  cases rm <;> simp [RM.bytes, RM.size]

/-- An immediate is read back. -/
theorem nextImm_bytes {op32 : Bool} {d : Imm} (h : d.wf op32 = true) (r : List Byte) :
    nextImm op32 (d.bytes ++ r) = .ok d r := by
  cases d <;> simp [Imm.wf] at h <;> simp [nextImm, h, Imm.bytes]

/-- A direct far pointer is read back. -/
theorem nextFar_bytes {op32 : Bool} {d : Imm} (h : d.wf op32 = true) (sel : Word) (r : List Byte) :
    nextFar op32 (d.bytes ++ (wordBytes sel ++ r)) = .ok (d, sel) r := by
  simp [nextFar, nextImm_bytes h]

theorem nextDisp16_bytes (d : Disp16) (r : List Byte) : nextDisp16 d.mod (d.bytes ++ r) = .ok d r := by
  cases d <;> simp [nextDisp16, Disp16.mod, Disp16.bytes]

theorem nextDisp32_bytes (d : Disp32) (r : List Byte) : nextDisp32 d.mod (d.bytes ++ r) = .ok d r := by
  cases d <;> simp [nextDisp32, Disp32.mod, Disp32.bytes]

theorem Disp16_mod_ne (d : Disp16) : d.mod ≠ 3#2 := by cases d <;> simp [Disp16.mod]

theorem Disp32_mod_ne (d : Disp32) : d.mod ≠ 3#2 := by cases d <;> simp [Disp32.mod]

theorem Disp16_mod_zero (d : Disp16) : d.mod = 0#2 ↔ d = .none := by cases d <;> simp [Disp16.mod]

theorem Disp32_mod_zero (d : Disp32) : d.mod = 0#2 ↔ d = .none := by cases d <;> simp [Disp32.mod]

theorem Base16_bits_six (b : Base16) : b.bits = 6#3 ↔ b = .bp := by cases b <;> simp [Base16.bits]

theorem Reg_bits_four (r : Reg) : r.bits = 4#3 ↔ r = .esp := by cases r <;> simp [Reg.bits]

theorem Reg_bits_five (r : Reg) : r.bits = 5#3 ↔ r = .ebp := by cases r <;> simp [Reg.bits]

/-- An operand is read back, whatever registers it may name. -/
theorem nextRmOf_bytes {ρ : Type} {regOf : BitVec 3 → ρ} {bitsOf : ρ → BitVec 3} (hr : ∀ r, regOf (bitsOf r) = r)
    {a32 : Bool} {rm : RM ρ} (h : rm.wf a32 = true) (n : BitVec 3) (r : List Byte) :
    ∃ b t, rm.bytes bitsOf n ++ r = b :: t ∧ fieldMid b = n ∧ nextRmOf regOf a32 b t = .ok rm r := by
  cases rm with
  | reg q => exact ⟨_, _, rfl, by simp, by simp [nextRmOf, hr]⟩
  | mem ea =>
    cases ea with
    | ea16 b d =>
      simp only [RM.wf, Ea.wf, Bool.and_eq_true, Bool.not_eq_true'] at h
      refine ⟨_, _, rfl, by simp, ?_⟩
      have : ¬(d.mod = 0#2 ∧ b.bits = 6#3) := by
        rw [Disp16_mod_zero, Base16_bits_six]
        rintro ⟨rfl, rfl⟩
        simp at h
      simp [nextRmOf, Disp16_mod_ne, h.1, nextEa16, this, nextDisp16_bytes]
    | abs16 v =>
      simp only [RM.wf, Ea.wf, Bool.not_eq_true'] at h
      exact ⟨_, _, rfl, by simp, by simp [nextRmOf, h, nextEa16]⟩
    | ea32 b d =>
      simp only [RM.wf, Ea.wf, Bool.and_eq_true, decide_eq_true_eq] at h
      refine ⟨_, _, rfl, by simp, ?_⟩
      have h4 : b.bits ≠ 4#3 := by rw [Ne, Reg_bits_four]; simpa using h.1.2
      have : ¬(d.mod = 0#2 ∧ b.bits = 5#3) := by
        rw [Disp32_mod_zero, Reg_bits_five]
        rintro ⟨rfl, rfl⟩
        simp at h
      simp [nextRmOf, Disp32_mod_ne, h.1.1, nextEa32, h4, this, nextDisp32_bytes]
    | abs32 v =>
      simp only [RM.wf, Ea.wf] at h
      exact ⟨_, _, rfl, by simp, by simp [nextRmOf, h, nextEa32]⟩
    | sib s i b d =>
      simp only [RM.wf, Ea.wf, Bool.and_eq_true, decide_eq_true_eq] at h
      refine ⟨_, _, rfl, by simp, ?_⟩
      have : ¬(d.mod = 0#2 ∧ b.bits = 5#3) := by
        rw [Disp32_mod_zero, Reg_bits_five]
        rintro ⟨rfl, rfl⟩
        simp at h
      have hi : i ≠ some .esp := by simpa using h.1.2
      simp [nextRmOf, Disp32_mod_ne, h.1.1, nextEa32, nextSib, this, nextDisp32_bytes, indexOf_bits hi]
    | sibAbs s i v =>
      simp only [RM.wf, Ea.wf, Bool.and_eq_true] at h
      have hi : i ≠ some .esp := by simpa using h.2
      exact ⟨_, _, rfl, by simp, by simp [nextRmOf, h.1, nextEa32, nextSib, indexOf_bits hi]⟩

/-- A ModRM byte and its operand are read back. -/
theorem nextModRM_bytes {a32 : Bool} {rm : RM Reg} (h : rm.wf a32 = true) (n : BitVec 3) (r : List Byte) :
    nextModRM a32 (rmBytes n rm ++ r) = .ok (n, rm) r := by
  obtain ⟨b, t, h1, h2, h3⟩ := nextRmOf_bytes Reg_ofBits_bits h n r
  rw [h1]
  simp [nextModRM, h2, h3]

/-- The same with byte registers. -/
theorem nextModRM8_bytes {a32 : Bool} {rm : RM Reg8} (h : rm.wf a32 = true) (n : BitVec 3) (r : List Byte) :
    nextModRM8 a32 (rm.bytes Reg8.bits n ++ r) = .ok (n, rm) r := by
  obtain ⟨b, t, h1, h2, h3⟩ := nextRmOf_bytes Reg8_ofBits_bits h n r
  rw [h1]
  simp [nextModRM8, h2, h3]

/-- The byte of a prefix is read as that prefix. -/
@[simp] theorem pfxOf_byte (p : Pfx) : pfxOf p.byte = some p := by
  cases p with
  | seg s => cases s <;> rfl
  | _ => rfl

/-- Prefixes are read back, up to a byte that is none. -/
theorem takePrefixes_bytes (ps : List Pfx) {b : Byte} {r : List Byte} (h : pfxOf b = none) :
    takePrefixes (ps.map Pfx.byte ++ b :: r) = (ps, b :: r) := by
  induction ps with
  | nil => simp [takePrefixes, h]
  | cons p q ih => simp [takePrefixes, ih]

/-- What prefixes select does not depend on the length. -/
@[simp] theorem Ctx_addr32_len (c : Ctx) (n : Nat) : Ctx.addr32 ⟨c.prefixes, c.d32, n⟩ = c.addr32 := rfl

@[simp] theorem Ctx_op32_len (c : Ctx) (n : Nat) : Ctx.op32 ⟨c.prefixes, c.d32, n⟩ = c.op32 := rfl

@[simp] theorem Ctx_hasLock_len (c : Ctx) (n : Nat) : Ctx.hasLock ⟨c.prefixes, c.d32, n⟩ = c.hasLock := rfl

@[simp] theorem Ctx_hasRep_len (c : Ctx) (n : Nat) : Ctx.hasRep ⟨c.prefixes, c.d32, n⟩ = c.hasRep := rfl

/-- The opcodes after which the decoder reads on and which a repeat prefix leaves as they are. -/
def plainOpcode (op : Byte) : Bool :=
  op != 0x6C#8 && op != 0x6D#8 && op != 0x6E#8 && op != 0x6F#8 && knownOneByte op

/-- An opcode of the table below 90H that a repeat prefix leaves as it is. -/
theorem parseOpcode_low {c : Ctx} {op : Byte} (hl : c.hasLock = false)
    (ho : (plainOpcode op && decide (op.toNat < 0x90)) = true) (r : List Byte) :
    parseOpcode c (op :: r) = parseLow c op r := by
  simp only [plainOpcode, Bool.and_eq_true, bne_iff_ne, decide_eq_true_eq] at ho
  obtain ⟨⟨⟨⟨⟨h1, h2⟩, h3⟩, h4⟩, ho⟩, h9⟩ := ho
  cases hr : c.hasRep <;> simp only [parseOpcode, Parse_bind_apply, nextByte_cons, hl, hr, h9, if_true] <;>
    simp only [Bool.false_eq_true, if_false, parseRepeated, ho, h9, if_true]

/-- An opcode of the table from 90H on. -/
theorem parseOpcode_high {c : Ctx} {op : Byte} (hl : c.hasLock = false)
    (ho : (plainOpcode op && !decide (op.toNat < 0x90)) = true) (r : List Byte) :
    parseOpcode c (op :: r) = parseHigh c op r := by
  simp only [plainOpcode, Bool.and_eq_true, bne_iff_ne, Bool.not_eq_true', decide_eq_false_iff_not] at ho
  obtain ⟨⟨⟨⟨⟨h1, h2⟩, h3⟩, h4⟩, ho⟩, h9⟩ := ho
  cases hr : c.hasRep <;> simp only [parseOpcode, Parse_bind_apply, nextByte_cons, hl, hr, h9, if_false] <;>
    simp only [Bool.false_eq_true, if_false, if_true, parseRepeated, ho, h9]

end Sys2Proof
end

