-- ==== Sys2Proof/Laws/Keeps.lean ====
section
/-! SUPPORT. Properties that a computation keeps, whether it completes or stops: how they go through every way to build a
computation, and every shared operation on memory that keeps each property such operations cannot touch. -/

namespace Sys2Proof.Machine

/-- A property holds in the state that a computation ends in, whether it completes or stops. -/
def KeepsAt {α : Type} (P : State → Prop) (m : M α) (s : State) : Prop :=
  match m s with
  | .ok _ t => P t
  | .error _ t => P t

/-- A computation keeps a property of the state. -/
def Keeps {α : Type} (P : State → Prop) (m : M α) : Prop := ∀ s, P s → KeepsAt P m s

variable {α β : Type} {P : State → Prop}

theorem keeps_pure (a : α) : Keeps P (pure a) := fun _ h => h

theorem keeps_stop (e : Err) : Keeps P (stop e : M α) := fun _ h => h

theorem keeps_getState : Keeps P getState := fun _ h => h

theorem keeps_update {f : State → State} (h : ∀ s, P s → P (f s)) : Keeps P (update f) := fun s hs => h s hs

theorem keeps_bind {m : M α} {f : α → M β} (hm : Keeps P m) (hf : ∀ a, Keeps P (f a)) : Keeps P (m >>= f) := by
  intro s hs
  have := hm s hs
  unfold KeepsAt at this ⊢
  rw [M_bind_apply]
  cases h : m s with
  | ok a t => rw [h] at this; exact hf a t this
  | error e t => rw [h] at this; exact this

theorem keeps_map {m : M α} {f : α → β} (hm : Keeps P m) : Keeps P (f <$> m) := by
  intro s hs
  have := hm s hs
  unfold KeepsAt at this ⊢
  rw [M_map_apply]
  cases h : m s <;> (rw [h] at this; exact this)

theorem keeps_ite {p : Prop} [Decidable p] {m n : M α} (hm : p → Keeps P m) (hn : ¬p → Keeps P n) :
    Keeps P (if p then m else n) := by
  split
  · exact hm ‹_›
  · exact hn ‹_›

theorem keeps_require {b : Bool} {m : M Unit} (h : Keeps P m) : Keeps P (require b m) := by
  cases b
  · exact h
  · exact keeps_pure ()

/-- A computation that reads the state first, and may use what it knows of it. -/
theorem keeps_getState_bind {f : State → M β}
    (h : ∀ s, P s → KeepsAt P (f s) s) : Keeps P (getState >>= f) := fun s hs => h s hs

theorem keepsAt_ite {p : Prop} [Decidable p] {m n : M α} {s : State} (hm : p → KeepsAt P m s)
    (hn : ¬p → KeepsAt P n s) : KeepsAt P (if p then m else n) s := by
  split
  · exact hm ‹_›
  · exact hn ‹_›

/-- The properties that translations, checks and reads cannot touch: they may depend on everything but the accessed and
dirty bits in memory (its canonical form and its map aside), the TLB, CR2, the free values and the pending debug traps. -/
def Neutral (P : State → Prop) : Prop :=
  ∀ s t, P s →
    t = { s with mem := { s.mem with cells := t.mem.cells }, tlb := t.tlb, ctl := { s.ctl with cr2 := t.ctl.cr2 }, free := t.free,
                 run := { s.run with pendingDb := t.run.pendingDb } } →
    (Memory.wf s.mem = true → Memory.wf t.mem = true) → P t

theorem keeps_takeFree (hN : Neutral P) : Keeps P takeFree := fun s hs => hN s _ hs rfl id

theorem keeps_raise (v : Byte) : Keeps P (raise v : M α) := keeps_stop _

theorem keeps_raiseCode (hN : Neutral P) (v : Byte) (c : Word) : Keeps P (raiseCode v c : M α) :=
  keeps_bind (keeps_takeFree hN) fun _ => keeps_stop _

theorem keeps_takeChoice (hN : Neutral P) : Keeps P takeChoice := by
  intro s hs
  unfold KeepsAt takeChoice
  cases s.tlb.choices <;> exact hN s _ hs rfl id

theorem keeps_pageFault (hN : Neutral P) (la : Dword) (p w u : Bool) : Keeps P (pageFault la p w u : M α) :=
  keeps_bind (keeps_update fun s hs => hN s _ hs rfl id) fun _ =>
    keeps_bind (keeps_takeFree hN) fun _ => keeps_stop _

theorem keeps_setMem (hN : Neutral P) {s : State} (hs : P s) {m : PhysMem} {t : Tlb}
    (hm : m.map = s.mem.map) (h : Memory.wf s.mem = true → Memory.wf m = true) : P { s with mem := m, tlb := t } := by
  cases m
  cases hm
  exact hN s _ hs rfl h

theorem wf_ite {c : Prop} [Decidable c] {a b : PhysMem} (ha : Memory.wf a = true) (hb : Memory.wf b = true) :
    Memory.wf (if c then a else b) = true := by
  split
  · exact ha
  · exact hb

theorem keeps_walk (hN : Neutral P) (la : Dword) (w u : Bool) (b : Option (BitVec 2)) : Keeps P (walk la w u b) := by
  refine keeps_getState_bind fun s hs => ?_
  refine keepsAt_ite (fun _ => keeps_pageFault hN la false w u s hs) fun _ => ?_
  refine keepsAt_ite (fun _ => hs) fun _ => ?_
  refine keepsAt_ite (fun _ => keeps_pageFault hN la false w u s hs) fun _ => ?_
  refine keepsAt_ite (fun _ => hs) fun _ => ?_
  refine keepsAt_ite (fun _ => keeps_pageFault hN la true w u s hs) fun _ => ?_
  refine keeps_setMem hN hs (ite_physWrite_map (ite_physWrite_map rfl)) fun hw => ?_
  exact wf_ite (wf_ite hw (physWrite_wf hw)) (physWrite_wf (wf_ite hw (physWrite_wf hw)))

theorem keeps_translatePage (hN : Neutral P) (la : Dword) (w u : Bool) : Keeps P (translatePage la w u) := by
  refine keeps_bind (keeps_takeChoice hN) fun c => keeps_bind ?_ fun _ => keeps_bind keeps_getState fun s => ?_
  · refine keeps_update fun s hs => ?_
    split
    · exact hN s _ hs rfl id
    · exact hs
  · split
    · exact keeps_walk hN la w u c.fill
    · refine keeps_ite (fun _ => keeps_pageFault hN la true w u) fun _ => keeps_ite (fun _ => ?_) fun _ => keeps_pure _
      exact keeps_bind (keeps_update fun s hs => hN s _ hs rfl id) fun _ => keeps_walk hN la w u c.fill
    · exact keeps_stop _

theorem keeps_translate (hN : Neutral P) (la : Dword) (n : Nat) (w u : Bool) : Keeps P (translate la n w u) := by
  refine keeps_bind keeps_getState fun s => keeps_ite (fun _ => keeps_pure _) fun _ => ?_
  refine keeps_bind (keeps_translatePage hN la w u) fun p => keeps_ite (fun _ => keeps_pure _) fun _ => ?_
  exact keeps_bind (keeps_translatePage hN _ w u) fun _ => keeps_pure _

theorem keeps_linBytes (hN : Neutral P) (la : Dword) (n : Nat) (u : Bool) : Keeps P (linBytes la n u) :=
  keeps_bind (keeps_translate hN la n false u) fun _ => keeps_bind keeps_getState fun _ => keeps_pure _

theorem keeps_sysRead (hN : Neutral P) (la : Dword) (n : Nat) : Keeps P (sysRead la n) :=
  keeps_bind (keeps_linBytes hN la n false) fun _ => keeps_pure _

theorem keeps_sysPrepare (hN : Neutral P) (la : Dword) (bs : List Byte) : Keeps P (sysPrepare la bs) :=
  keeps_bind (keeps_translate hN la bs.length true false) fun _ => keeps_pure _

theorem keeps_segCheck (hN : Neutral P) (r : Sreg) (off : Dword) (n : Nat) (k : Access) :
    Keeps P (segCheck r off n k) := by
  intro s hs
  unfold KeepsAt
  rw [segCheck_eq]
  by_cases h : s.segOk r off n k = true
  · simpa [h] using hs
  · simp only [h]
    exact hN s _ hs rfl id

theorem keeps_noteAccess (hN : Neutral P) (r : Sreg) (off : Dword) (n : Nat) (k : Access) :
    Keeps P (noteAccess r off n k) := keeps_update fun s hs => hN s _ hs rfl id

theorem keeps_checkedSpan (hN : Neutral P) (r : Sreg) (off : Dword) (n : Nat) (k : Access) :
    Keeps P (checkedSpan r off n k) :=
  keeps_bind (keeps_segCheck hN r off n k) fun _ => keeps_bind keeps_getState fun _ => keeps_translate hN _ _ _ _

theorem keeps_operandSpan (hN : Neutral P) (r : Sreg) (off : Dword) (n : Nat) (k : Access) :
    Keeps P (operandSpan r off n k) :=
  keeps_bind (keeps_checkedSpan hN r off n k) fun _ => keeps_bind (keeps_noteAccess hN r off n k) fun _ => keeps_pure _

theorem keeps_memBytes (hN : Neutral P) (r : Sreg) (off : Dword) (n : Nat) : Keeps P (memBytes r off n) :=
  keeps_bind (keeps_operandSpan hN r off n .read) fun _ => keeps_bind keeps_getState fun _ => keeps_pure _

theorem keeps_memRead (hN : Neutral P) (r : Sreg) (off : Dword) (n : Nat) : Keeps P (memRead r off n) :=
  keeps_bind (keeps_memBytes hN r off n) fun _ => keeps_pure _

theorem keeps_offsetAbove (hN : Neutral P) (r : Sreg) (off : Dword) (k : Nat) : Keeps P (offsetAbove r off k) :=
  keeps_ite (fun _ => keeps_pure _) fun _ =>
    keeps_ite (fun _ => keeps_raiseCode hN _ _) fun _ => keeps_raiseCode hN _ _

theorem keeps_memReadAbove (hN : Neutral P) (r : Sreg) (off : Dword) (k n : Nat) : Keeps P (memReadAbove r off k n) :=
  keeps_bind (keeps_offsetAbove hN r off k) fun _ => keeps_memRead hN r _ n

theorem keeps_memPrepare (hN : Neutral P) (r : Sreg) (off : Dword) (bs : List Byte) : Keeps P (memPrepare r off bs) :=
  keeps_bind (keeps_operandSpan hN r off bs.length .write) fun _ => keeps_pure _

theorem keeps_stackRead (hN : Neutral P) (k n : Nat) : Keeps P (stackRead k n) :=
  keeps_bind keeps_getState fun _ => keeps_memRead hN .ss _ n

theorem keeps_stackPrepare (hN : Neutral P) (k : Nat) (bs : List Byte) : Keeps P (stackPrepare k bs) :=
  keeps_bind keeps_getState fun _ => keeps_memPrepare hN .ss _ bs

theorem keeps_rmRead (hN : Neutral P) (c : Ctx) (rm : RM Reg) (n : Nat) : Keeps P (rmRead c rm n) :=
  keeps_bind keeps_getState fun _ => by
    split
    · exact keeps_pure _
    · exact keeps_memRead hN _ _ n

theorem keeps_rmRead16 (hN : Neutral P) (c : Ctx) (rm : RM Reg) : Keeps P (rmRead16 c rm) :=
  keeps_bind (keeps_rmRead hN c rm 2) fun _ => keeps_pure _

theorem keeps_rmPlace (hN : Neutral P) (c : Ctx) (rm : RM Reg) (n : Nat) : Keeps P (rmPlace c rm n) :=
  keeps_bind keeps_getState fun _ => by
    split
    · exact keeps_pure _
    · exact keeps_bind (keeps_operandSpan hN _ _ n .write) fun _ => keeps_pure _

theorem keeps_readDescriptor (hN : Neutral P) (sel : Word) : Keeps P (readDescriptor sel) :=
  keeps_bind keeps_getState fun _ => keeps_ite (fun _ => keeps_pure _) fun _ =>
    keeps_bind (keeps_sysRead hN _ 4) fun _ => keeps_bind (keeps_sysRead hN _ 4) fun _ => keeps_pure _

theorem keeps_needDescriptor (hN : Neutral P) (sel : Word) {m : M Descriptor} (hm : Keeps P m) :
    Keeps P (needDescriptor sel m) :=
  keeps_bind (keeps_readDescriptor hN sel) fun d => by
    cases d
    · exact hm
    · exact keeps_pure _

theorem keeps_markAccessed (hN : Neutral P) (d : Descriptor) : Keeps P (markAccessed d) :=
  keeps_ite (fun _ => keeps_pure _) fun _ => keeps_bind (keeps_sysPrepare hN _ _) fun _ => keeps_pure _

/-- A property that a whole delivery keeps, if each attempt does and the bookkeeping around it does. -/
theorem deliver_keeps {Q : State → Prop} (hs : ∀ e s, Q s → P ((s.savedEip e).setDelivering (some e.excClass)))
    (ho : ∀ e, Keeps P (deliverOnce e)) (hn : ∀ s, P s → Q s.delivered)
    (hp : ∀ s, P s → Q (s.setPending .none)) (hd : ∀ s, Q s → Q s.shutDown) {n : Nat} {e : Event} {s t : State}
    (h : Q s) (hr : deliver n e s = .next t) : Q t := by
  induction n generalizing e s with
  | zero => cases hr; exact hd s h
  | succ n ih =>
    have hk := ho e _ (hs e s h)
    unfold deliver at hr
    cases hx : deliverOnce e ((s.savedEip e).setDelivering (some e.excClass)) with
    | ok a u =>
      rw [hx] at hr
      simp only [KeepsAt, hx] at hk
      cases hr
      exact hn u hk
    | error x u =>
      rw [hx] at hr
      simp only [KeepsAt, hx] at hk
      cases x with
      | fault r => cases hr
      | refusal r => cases hr
      | exc e2 =>
        simp only at hr
        split at hr
        · cases hr
          exact hd _ (hp u hk)
        · split at hr
          · exact ih (hp u hk) hr
          · exact ih (hp u hk) hr

end Sys2Proof.Machine
end

