-- ==== Sys2Proof/Laws/PerInstr.lean ====
section
/-! SUPPORT. Facts about every instruction, one lemma for each constructor: the parser reads back the bytes after the
prefixes, and the bytes are as many as the instruction's length says. -/

namespace Sys2Proof.Laws.Parses

set_option Elab.async false

/-- A parser answered the instruction, and left the bytes after it. -/
def Reads (i : Instr) (r : List Byte) (x : EStateM.Result DecodeStop (List Byte) Shape) : Prop :=
  match x with
  | .ok f t => f i.ctx = i ∧ t = r
  | .error _ _ => False

/-- The parser reads back what follows the prefixes of a well-formed instruction, whatever bytes come after it. -/
def Statement (i : Instr) : Prop :=
  i.wf = true → ∀ r, Reads i r (parseOpcode ⟨i.ctx.prefixes, i.ctx.d32, 0⟩ (i.opcodeBytes ++ r))

theorem lock {c : Ctx} {n : Nat} (h : c.wf n = true) : Ctx.hasLock ⟨c.prefixes, c.d32, 0⟩ = false := by
  simp only [Ctx.wf, Bool.and_eq_true, Bool.not_eq_true'] at h
  exact h.1.1

theorem arpl (c : Ctx) (dst : RM Reg) (src : Reg) : Statement (.arpl c dst src) := by
  intro h r
  simp only [Instr.wf, Bool.and_eq_true] at h
  simp only [Instr.ctx, Instr.opcodeBytes, List.cons_append]
  rw [parseOpcode_low (lock h.1) rfl]
  simp [parseLow, nextModRM_bytes h.2, Reads, Instr.ctx]

theorem lar (c : Ctx) (dst : Reg) (src : RM Reg) : Statement (.lar c dst src) := by
  intro h r
  simp only [Instr.wf, Bool.and_eq_true] at h
  simp only [Instr.ctx, Instr.opcodeBytes, List.cons_append]
  rw [parseOpcode_low (lock h.1) rfl]
  simp [parseLow, parse0F, nextModRM_bytes h.2, Reads, Instr.ctx]

theorem lsl (c : Ctx) (dst : Reg) (src : RM Reg) : Statement (.lsl c dst src) := by
  intro h r
  simp only [Instr.wf, Bool.and_eq_true] at h
  simp only [Instr.ctx, Instr.opcodeBytes, List.cons_append]
  rw [parseOpcode_low (lock h.1) rfl]
  simp [parseLow, parse0F, nextModRM_bytes h.2, Reads, Instr.ctx]

theorem verr (c : Ctx) (src : RM Reg) : Statement (.verr c src) := by
  intro h r
  simp only [Instr.wf, Bool.and_eq_true] at h
  simp only [Instr.ctx, Instr.opcodeBytes, List.cons_append]
  rw [parseOpcode_low (lock h.1) rfl]
  simp [parseLow, parse0F, parse0F00, nextModRM_bytes h.2, Reads, Instr.ctx]

theorem verw (c : Ctx) (src : RM Reg) : Statement (.verw c src) := by
  intro h r
  simp only [Instr.wf, Bool.and_eq_true] at h
  simp only [Instr.ctx, Instr.opcodeBytes, List.cons_append]
  rw [parseOpcode_low (lock h.1) rfl]
  simp [parseLow, parse0F, parse0F00, nextModRM_bytes h.2, Reads, Instr.ctx]

theorem sldt (c : Ctx) (dst : RM Reg) : Statement (.sldt c dst) := by
  intro h r
  simp only [Instr.wf, Bool.and_eq_true] at h
  simp only [Instr.ctx, Instr.opcodeBytes, List.cons_append]
  rw [parseOpcode_low (lock h.1) rfl]
  simp [parseLow, parse0F, parse0F00, nextModRM_bytes h.2, Reads, Instr.ctx]

theorem str (c : Ctx) (dst : RM Reg) : Statement (.str c dst) := by
  intro h r
  simp only [Instr.wf, Bool.and_eq_true] at h
  simp only [Instr.ctx, Instr.opcodeBytes, List.cons_append]
  rw [parseOpcode_low (lock h.1) rfl]
  simp [parseLow, parse0F, parse0F00, nextModRM_bytes h.2, Reads, Instr.ctx]

theorem lldt (c : Ctx) (src : RM Reg) : Statement (.lldt c src) := by
  intro h r
  simp only [Instr.wf, Bool.and_eq_true] at h
  simp only [Instr.ctx, Instr.opcodeBytes, List.cons_append]
  rw [parseOpcode_low (lock h.1) rfl]
  simp [parseLow, parse0F, parse0F00, nextModRM_bytes h.2, Reads, Instr.ctx]

theorem ltr (c : Ctx) (src : RM Reg) : Statement (.ltr c src) := by
  intro h r
  simp only [Instr.wf, Bool.and_eq_true] at h
  simp only [Instr.ctx, Instr.opcodeBytes, List.cons_append]
  rw [parseOpcode_low (lock h.1) rfl]
  simp [parseLow, parse0F, parse0F00, nextModRM_bytes h.2, Reads, Instr.ctx]

theorem sgdt (c : Ctx) (dst : RM Reg) : Statement (.sgdt c dst) := by
  intro h r
  simp only [Instr.wf, Bool.and_eq_true] at h
  simp only [Instr.ctx, Instr.opcodeBytes, List.cons_append]
  rw [parseOpcode_low (lock h.1) rfl]
  simp [parseLow, parse0F, parse0F01, nextModRM_bytes h.2, Reads, Instr.ctx]

theorem sidt (c : Ctx) (dst : RM Reg) : Statement (.sidt c dst) := by
  intro h r
  simp only [Instr.wf, Bool.and_eq_true] at h
  simp only [Instr.ctx, Instr.opcodeBytes, List.cons_append]
  rw [parseOpcode_low (lock h.1) rfl]
  simp [parseLow, parse0F, parse0F01, nextModRM_bytes h.2, Reads, Instr.ctx]

theorem lgdt (c : Ctx) (src : RM Reg) : Statement (.lgdt c src) := by
  intro h r
  simp only [Instr.wf, Bool.and_eq_true] at h
  simp only [Instr.ctx, Instr.opcodeBytes, List.cons_append]
  rw [parseOpcode_low (lock h.1) rfl]
  simp [parseLow, parse0F, parse0F01, nextModRM_bytes h.2, Reads, Instr.ctx]

theorem lidt (c : Ctx) (src : RM Reg) : Statement (.lidt c src) := by
  intro h r
  simp only [Instr.wf, Bool.and_eq_true] at h
  simp only [Instr.ctx, Instr.opcodeBytes, List.cons_append]
  rw [parseOpcode_low (lock h.1) rfl]
  simp [parseLow, parse0F, parse0F01, nextModRM_bytes h.2, Reads, Instr.ctx]

theorem smsw (c : Ctx) (dst : RM Reg) : Statement (.smsw c dst) := by
  intro h r
  simp only [Instr.wf, Bool.and_eq_true] at h
  simp only [Instr.ctx, Instr.opcodeBytes, List.cons_append]
  rw [parseOpcode_low (lock h.1) rfl]
  simp [parseLow, parse0F, parse0F01, nextModRM_bytes h.2, Reads, Instr.ctx]

theorem lmsw (c : Ctx) (src : RM Reg) : Statement (.lmsw c src) := by
  intro h r
  simp only [Instr.wf, Bool.and_eq_true] at h
  simp only [Instr.ctx, Instr.opcodeBytes, List.cons_append]
  rw [parseOpcode_low (lock h.1) rfl]
  simp [parseLow, parse0F, parse0F01, nextModRM_bytes h.2, Reads, Instr.ctx]

theorem clts (c : Ctx) : Statement (.clts c) := by
  intro h r
  simp only [Instr.wf] at h
  simp only [Instr.ctx, Instr.opcodeBytes, List.cons_append, List.nil_append]
  rw [parseOpcode_low (lock h) rfl]
  simp [parseLow, parse0F, Reads, Instr.ctx]

theorem movFromCr (c : Ctx) (dst : Reg) (n : BitVec 3) (mb : BitVec 2) : Statement (.movFromCr c dst n mb) := by
  intro h r
  simp only [Instr.wf] at h
  simp only [Instr.ctx, Instr.opcodeBytes, List.cons_append, List.nil_append]
  rw [parseOpcode_low (lock h) rfl]
  simp [parseLow, parse0F, nextSpecial, Reads, Instr.ctx]

theorem movFromDr (c : Ctx) (dst : Reg) (n : BitVec 3) (mb : BitVec 2) : Statement (.movFromDr c dst n mb) := by
  intro h r
  simp only [Instr.wf] at h
  simp only [Instr.ctx, Instr.opcodeBytes, List.cons_append, List.nil_append]
  rw [parseOpcode_low (lock h) rfl]
  simp [parseLow, parse0F, nextSpecial, Reads, Instr.ctx]

theorem movToCr (c : Ctx) (n : BitVec 3) (src : Reg) (mb : BitVec 2) : Statement (.movToCr c n src mb) := by
  intro h r
  simp only [Instr.wf] at h
  simp only [Instr.ctx, Instr.opcodeBytes, List.cons_append, List.nil_append]
  rw [parseOpcode_low (lock h) rfl]
  simp [parseLow, parse0F, nextSpecial, Reads, Instr.ctx]

theorem movToDr (c : Ctx) (n : BitVec 3) (src : Reg) (mb : BitVec 2) : Statement (.movToDr c n src mb) := by
  intro h r
  simp only [Instr.wf] at h
  simp only [Instr.ctx, Instr.opcodeBytes, List.cons_append, List.nil_append]
  rw [parseOpcode_low (lock h) rfl]
  simp [parseLow, parse0F, nextSpecial, Reads, Instr.ctx]

theorem movFromTr (c : Ctx) (dst : Reg) (n : BitVec 3) (mb : BitVec 2) : Statement (.movFromTr c dst n mb) := by
  intro h r
  simp only [Instr.wf] at h
  simp only [Instr.ctx, Instr.opcodeBytes, List.cons_append, List.nil_append]
  rw [parseOpcode_low (lock h) rfl]
  simp [parseLow, parse0F, nextSpecial, Reads, Instr.ctx]

theorem movToTr (c : Ctx) (n : BitVec 3) (src : Reg) (mb : BitVec 2) : Statement (.movToTr c n src mb) := by
  intro h r
  simp only [Instr.wf] at h
  simp only [Instr.ctx, Instr.opcodeBytes, List.cons_append, List.nil_append]
  rw [parseOpcode_low (lock h) rfl]
  simp [parseLow, parse0F, nextSpecial, Reads, Instr.ctx]

theorem hlt (c : Ctx) : Statement (.hlt c) := by
  intro h r
  simp only [Instr.wf] at h
  simp only [Instr.ctx, Instr.opcodeBytes, List.cons_append, List.nil_append]
  rw [parseOpcode_high (lock h) rfl]
  simp [parseHigh, Reads, Instr.ctx]

theorem movToSreg (c : Ctx) (n : BitVec 3) (src : RM Reg) : Statement (.movToSreg c n src) := by
  intro h r
  simp only [Instr.wf, Bool.and_eq_true] at h
  simp only [Instr.ctx, Instr.opcodeBytes, List.cons_append]
  rw [parseOpcode_low (lock h.1) rfl]
  simp [parseLow, nextModRM_bytes h.2, Reads, Instr.ctx]

theorem movFromSreg (c : Ctx) (dst : RM Reg) (n : BitVec 3) : Statement (.movFromSreg c dst n) := by
  intro h r
  simp only [Instr.wf, Bool.and_eq_true] at h
  simp only [Instr.ctx, Instr.opcodeBytes, List.cons_append]
  rw [parseOpcode_low (lock h.1) rfl]
  simp [parseLow, nextModRM_bytes h.2, Reads, Instr.ctx]

theorem pushEs (c : Ctx) : Statement (.pushEs c) := by
  intro h r
  simp only [Instr.wf] at h
  simp only [Instr.ctx, Instr.opcodeBytes, List.cons_append, List.nil_append]
  rw [parseOpcode_low (lock h) rfl]
  simp [parseLow, Reads, Instr.ctx]

theorem pushCs (c : Ctx) : Statement (.pushCs c) := by
  intro h r
  simp only [Instr.wf] at h
  simp only [Instr.ctx, Instr.opcodeBytes, List.cons_append, List.nil_append]
  rw [parseOpcode_low (lock h) rfl]
  simp [parseLow, Reads, Instr.ctx]

theorem pushSs (c : Ctx) : Statement (.pushSs c) := by
  intro h r
  simp only [Instr.wf] at h
  simp only [Instr.ctx, Instr.opcodeBytes, List.cons_append, List.nil_append]
  rw [parseOpcode_low (lock h) rfl]
  simp [parseLow, Reads, Instr.ctx]

theorem pushDs (c : Ctx) : Statement (.pushDs c) := by
  intro h r
  simp only [Instr.wf] at h
  simp only [Instr.ctx, Instr.opcodeBytes, List.cons_append, List.nil_append]
  rw [parseOpcode_low (lock h) rfl]
  simp [parseLow, Reads, Instr.ctx]

theorem pushFs (c : Ctx) : Statement (.pushFs c) := by
  intro h r
  simp only [Instr.wf] at h
  simp only [Instr.ctx, Instr.opcodeBytes, List.cons_append, List.nil_append]
  rw [parseOpcode_low (lock h) rfl]
  simp [parseLow, parse0F, Reads, Instr.ctx]

theorem pushGs (c : Ctx) : Statement (.pushGs c) := by
  intro h r
  simp only [Instr.wf] at h
  simp only [Instr.ctx, Instr.opcodeBytes, List.cons_append, List.nil_append]
  rw [parseOpcode_low (lock h) rfl]
  simp [parseLow, parse0F, Reads, Instr.ctx]

theorem popEs (c : Ctx) : Statement (.popEs c) := by
  intro h r
  simp only [Instr.wf] at h
  simp only [Instr.ctx, Instr.opcodeBytes, List.cons_append, List.nil_append]
  rw [parseOpcode_low (lock h) rfl]
  simp [parseLow, Reads, Instr.ctx]

theorem popSs (c : Ctx) : Statement (.popSs c) := by
  intro h r
  simp only [Instr.wf] at h
  simp only [Instr.ctx, Instr.opcodeBytes, List.cons_append, List.nil_append]
  rw [parseOpcode_low (lock h) rfl]
  simp [parseLow, Reads, Instr.ctx]

theorem popDs (c : Ctx) : Statement (.popDs c) := by
  intro h r
  simp only [Instr.wf] at h
  simp only [Instr.ctx, Instr.opcodeBytes, List.cons_append, List.nil_append]
  rw [parseOpcode_low (lock h) rfl]
  simp [parseLow, Reads, Instr.ctx]

theorem popFs (c : Ctx) : Statement (.popFs c) := by
  intro h r
  simp only [Instr.wf] at h
  simp only [Instr.ctx, Instr.opcodeBytes, List.cons_append, List.nil_append]
  rw [parseOpcode_low (lock h) rfl]
  simp [parseLow, parse0F, Reads, Instr.ctx]

theorem popGs (c : Ctx) : Statement (.popGs c) := by
  intro h r
  simp only [Instr.wf] at h
  simp only [Instr.ctx, Instr.opcodeBytes, List.cons_append, List.nil_append]
  rw [parseOpcode_low (lock h) rfl]
  simp [parseLow, parse0F, Reads, Instr.ctx]

theorem lds (c : Ctx) (dst : Reg) (src : RM Reg) : Statement (.lds c dst src) := by
  intro h r
  simp only [Instr.wf, Bool.and_eq_true] at h
  simp only [Instr.ctx, Instr.opcodeBytes, List.cons_append]
  rw [parseOpcode_high (lock h.1) rfl]
  simp [parseHigh, nextModRM_bytes h.2, Reads, Instr.ctx]

theorem les (c : Ctx) (dst : Reg) (src : RM Reg) : Statement (.les c dst src) := by
  intro h r
  simp only [Instr.wf, Bool.and_eq_true] at h
  simp only [Instr.ctx, Instr.opcodeBytes, List.cons_append]
  rw [parseOpcode_high (lock h.1) rfl]
  simp [parseHigh, nextModRM_bytes h.2, Reads, Instr.ctx]

theorem lss (c : Ctx) (dst : Reg) (src : RM Reg) : Statement (.lss c dst src) := by
  intro h r
  simp only [Instr.wf, Bool.and_eq_true] at h
  simp only [Instr.ctx, Instr.opcodeBytes, List.cons_append]
  rw [parseOpcode_low (lock h.1) rfl]
  simp [parseLow, parse0F, nextModRM_bytes h.2, Reads, Instr.ctx]

theorem lfs (c : Ctx) (dst : Reg) (src : RM Reg) : Statement (.lfs c dst src) := by
  intro h r
  simp only [Instr.wf, Bool.and_eq_true] at h
  simp only [Instr.ctx, Instr.opcodeBytes, List.cons_append]
  rw [parseOpcode_low (lock h.1) rfl]
  simp [parseLow, parse0F, nextModRM_bytes h.2, Reads, Instr.ctx]

theorem lgs (c : Ctx) (dst : Reg) (src : RM Reg) : Statement (.lgs c dst src) := by
  intro h r
  simp only [Instr.wf, Bool.and_eq_true] at h
  simp only [Instr.ctx, Instr.opcodeBytes, List.cons_append]
  rw [parseOpcode_low (lock h.1) rfl]
  simp [parseLow, parse0F, nextModRM_bytes h.2, Reads, Instr.ctx]

theorem jmpRel8 (c : Ctx) (d : Byte) : Statement (.jmpRel8 c d) := by
  intro h r
  simp only [Instr.wf] at h
  simp only [Instr.ctx, Instr.opcodeBytes, List.cons_append, List.nil_append]
  rw [parseOpcode_high (lock h) rfl]
  simp [parseHigh, Reads, Instr.ctx]

theorem jmpRel (c : Ctx) (d : Imm) : Statement (.jmpRel c d) := by
  intro h r
  simp only [Instr.wf, Bool.and_eq_true] at h
  simp only [Instr.ctx, Instr.opcodeBytes, List.cons_append]
  rw [parseOpcode_high (lock h.1) rfl]
  simp [parseHigh, nextImm_bytes h.2, Reads, Instr.ctx]

theorem jmpNear (c : Ctx) (t : RM Reg) : Statement (.jmpNear c t) := by
  intro h r
  simp only [Instr.wf, Bool.and_eq_true] at h
  simp only [Instr.ctx, Instr.opcodeBytes, List.cons_append]
  rw [parseOpcode_high (lock h.1) rfl]
  simp [parseHigh, parseFF, nextModRM_bytes h.2, Reads, Instr.ctx]

theorem callRel (c : Ctx) (d : Imm) : Statement (.callRel c d) := by
  intro h r
  simp only [Instr.wf, Bool.and_eq_true] at h
  simp only [Instr.ctx, Instr.opcodeBytes, List.cons_append]
  rw [parseOpcode_high (lock h.1) rfl]
  simp [parseHigh, nextImm_bytes h.2, Reads, Instr.ctx]

theorem callNear (c : Ctx) (t : RM Reg) : Statement (.callNear c t) := by
  intro h r
  simp only [Instr.wf, Bool.and_eq_true] at h
  simp only [Instr.ctx, Instr.opcodeBytes, List.cons_append]
  rw [parseOpcode_high (lock h.1) rfl]
  simp [parseHigh, parseFF, nextModRM_bytes h.2, Reads, Instr.ctx]

theorem retNear (c : Ctx) : Statement (.retNear c) := by
  intro h r
  simp only [Instr.wf] at h
  simp only [Instr.ctx, Instr.opcodeBytes, List.cons_append, List.nil_append]
  rw [parseOpcode_high (lock h) rfl]
  simp [parseHigh, Reads, Instr.ctx]

theorem retNearImm (c : Ctx) (n : Word) : Statement (.retNearImm c n) := by
  intro h r
  simp only [Instr.wf] at h
  simp only [Instr.ctx, Instr.opcodeBytes, List.cons_append]
  rw [parseOpcode_high (lock h) rfl]
  simp [parseHigh, Reads, Instr.ctx]

theorem jmpFar (c : Ctx) (off : Imm) (sel : Word) : Statement (.jmpFar c off sel) := by
  intro h r
  simp only [Instr.wf, Bool.and_eq_true] at h
  simp only [Instr.ctx, Instr.opcodeBytes, List.cons_append]
  rw [parseOpcode_high (lock h.1) rfl]
  simp [parseHigh, List.append_assoc, nextFar_bytes h.2, Reads, Instr.ctx]

theorem jmpFarMem (c : Ctx) (t : RM Reg) : Statement (.jmpFarMem c t) := by
  intro h r
  simp only [Instr.wf, Bool.and_eq_true] at h
  simp only [Instr.ctx, Instr.opcodeBytes, List.cons_append]
  rw [parseOpcode_high (lock h.1) rfl]
  simp [parseHigh, parseFF, nextModRM_bytes h.2, Reads, Instr.ctx]

theorem callFar (c : Ctx) (off : Imm) (sel : Word) : Statement (.callFar c off sel) := by
  intro h r
  simp only [Instr.wf, Bool.and_eq_true] at h
  simp only [Instr.ctx, Instr.opcodeBytes, List.cons_append]
  rw [parseOpcode_high (lock h.1) rfl]
  simp [parseHigh, List.append_assoc, nextFar_bytes h.2, Reads, Instr.ctx]

theorem callFarMem (c : Ctx) (t : RM Reg) : Statement (.callFarMem c t) := by
  intro h r
  simp only [Instr.wf, Bool.and_eq_true] at h
  simp only [Instr.ctx, Instr.opcodeBytes, List.cons_append]
  rw [parseOpcode_high (lock h.1) rfl]
  simp [parseHigh, parseFF, nextModRM_bytes h.2, Reads, Instr.ctx]

theorem retFar (c : Ctx) : Statement (.retFar c) := by
  intro h r
  simp only [Instr.wf] at h
  simp only [Instr.ctx, Instr.opcodeBytes, List.cons_append, List.nil_append]
  rw [parseOpcode_high (lock h) rfl]
  simp [parseHigh, Reads, Instr.ctx]

theorem retFarImm (c : Ctx) (n : Word) : Statement (.retFarImm c n) := by
  intro h r
  simp only [Instr.wf] at h
  simp only [Instr.ctx, Instr.opcodeBytes, List.cons_append]
  rw [parseOpcode_high (lock h) rfl]
  simp [parseHigh, Reads, Instr.ctx]

theorem inAlImm (c : Ctx) (port : Byte) : Statement (.inAlImm c port) := by
  intro h r
  simp only [Instr.wf] at h
  simp only [Instr.ctx, Instr.opcodeBytes, List.cons_append, List.nil_append]
  rw [parseOpcode_high (lock h) rfl]
  simp [parseHigh, Reads, Instr.ctx]

theorem inAxImm (c : Ctx) (port : Byte) : Statement (.inAxImm c port) := by
  intro h r
  simp only [Instr.wf] at h
  simp only [Instr.ctx, Instr.opcodeBytes, List.cons_append, List.nil_append]
  rw [parseOpcode_high (lock h) rfl]
  simp [parseHigh, Reads, Instr.ctx]

theorem inAlDx (c : Ctx) : Statement (.inAlDx c) := by
  intro h r
  simp only [Instr.wf] at h
  simp only [Instr.ctx, Instr.opcodeBytes, List.cons_append, List.nil_append]
  rw [parseOpcode_high (lock h) rfl]
  simp [parseHigh, Reads, Instr.ctx]

theorem inAxDx (c : Ctx) : Statement (.inAxDx c) := by
  intro h r
  simp only [Instr.wf] at h
  simp only [Instr.ctx, Instr.opcodeBytes, List.cons_append, List.nil_append]
  rw [parseOpcode_high (lock h) rfl]
  simp [parseHigh, Reads, Instr.ctx]

theorem outImmAl (c : Ctx) (port : Byte) : Statement (.outImmAl c port) := by
  intro h r
  simp only [Instr.wf] at h
  simp only [Instr.ctx, Instr.opcodeBytes, List.cons_append, List.nil_append]
  rw [parseOpcode_high (lock h) rfl]
  simp [parseHigh, Reads, Instr.ctx]

theorem outImmAx (c : Ctx) (port : Byte) : Statement (.outImmAx c port) := by
  intro h r
  simp only [Instr.wf] at h
  simp only [Instr.ctx, Instr.opcodeBytes, List.cons_append, List.nil_append]
  rw [parseOpcode_high (lock h) rfl]
  simp [parseHigh, Reads, Instr.ctx]

theorem outDxAl (c : Ctx) : Statement (.outDxAl c) := by
  intro h r
  simp only [Instr.wf] at h
  simp only [Instr.ctx, Instr.opcodeBytes, List.cons_append, List.nil_append]
  rw [parseOpcode_high (lock h) rfl]
  simp [parseHigh, Reads, Instr.ctx]

theorem outDxAx (c : Ctx) : Statement (.outDxAx c) := by
  intro h r
  simp only [Instr.wf] at h
  simp only [Instr.ctx, Instr.opcodeBytes, List.cons_append, List.nil_append]
  rw [parseOpcode_high (lock h) rfl]
  simp [parseHigh, Reads, Instr.ctx]

theorem insb (c : Ctx) : Statement (.insb c) := by
  intro h r
  simp only [Instr.wf, Bool.and_eq_true, Bool.not_eq_true'] at h
  simp [Instr.ctx, Instr.opcodeBytes, parseOpcode, h.2, lock h.1, parseLow, Reads]

theorem insw (c : Ctx) : Statement (.insw c) := by
  intro h r
  simp only [Instr.wf, Bool.and_eq_true, Bool.not_eq_true'] at h
  simp [Instr.ctx, Instr.opcodeBytes, parseOpcode, h.2, lock h.1, parseLow, Reads]

theorem outsb (c : Ctx) : Statement (.outsb c) := by
  intro h r
  simp only [Instr.wf, Bool.and_eq_true, Bool.not_eq_true'] at h
  simp [Instr.ctx, Instr.opcodeBytes, parseOpcode, h.2, lock h.1, parseLow, Reads]

theorem outsw (c : Ctx) : Statement (.outsw c) := by
  intro h r
  simp only [Instr.wf, Bool.and_eq_true, Bool.not_eq_true'] at h
  simp [Instr.ctx, Instr.opcodeBytes, parseOpcode, h.2, lock h.1, parseLow, Reads]

theorem repPrefix (c : Ctx) (t : RepTarget) : Statement (.repPrefix c t) := by
  intro h r
  simp only [Instr.wf, Bool.and_eq_true] at h
  have hl := lock h.1.1
  have hr : Ctx.hasRep ⟨c.prefixes, c.d32, 0⟩ = true := h.1.2
  cases t with
  | other op =>
    have h2 := h.2
    simp only [RepTarget.wf, Bool.and_eq_true, decide_eq_true_eq, Bool.not_eq_true'] at h2
    have hs : op ≠ 0x6C#8 ∧ op ≠ 0x6D#8 ∧ op ≠ 0x6E#8 ∧ op ≠ 0x6F#8 := by
      refine ⟨?_, ?_, ?_, ?_⟩ <;> (rintro rfl; exact absurd h2.2 (by decide))
    obtain ⟨s1, s2, s3, s4⟩ := hs
    simp only [Instr.ctx, Instr.opcodeBytes, RepTarget.bytes, List.cons_append, List.nil_append, parseOpcode,
      Parse_bind_apply, nextByte_cons, hl, hr, if_true, Bool.false_eq_true, if_false, parseRepeated]
    simp [h2.2, Reads, Instr.ctx]
  | _ =>
    simp only [Instr.ctx, Instr.opcodeBytes, RepTarget.bytes, List.cons_append, List.nil_append, parseOpcode,
      Parse_bind_apply, nextByte_cons, hl, hr, if_true, Bool.false_eq_true, if_false, parseRepeated]
    simp [Reads, Instr.ctx]

theorem cli (c : Ctx) : Statement (.cli c) := by
  intro h r
  simp only [Instr.wf] at h
  simp only [Instr.ctx, Instr.opcodeBytes, List.cons_append, List.nil_append]
  rw [parseOpcode_high (lock h) rfl]
  simp [parseHigh, Reads, Instr.ctx]

theorem sti (c : Ctx) : Statement (.sti c) := by
  intro h r
  simp only [Instr.wf] at h
  simp only [Instr.ctx, Instr.opcodeBytes, List.cons_append, List.nil_append]
  rw [parseOpcode_high (lock h) rfl]
  simp [parseHigh, Reads, Instr.ctx]

theorem pushf (c : Ctx) : Statement (.pushf c) := by
  intro h r
  simp only [Instr.wf] at h
  simp only [Instr.ctx, Instr.opcodeBytes, List.cons_append, List.nil_append]
  rw [parseOpcode_high (lock h) rfl]
  simp [parseHigh, Reads, Instr.ctx]

theorem popf (c : Ctx) : Statement (.popf c) := by
  intro h r
  simp only [Instr.wf] at h
  simp only [Instr.ctx, Instr.opcodeBytes, List.cons_append, List.nil_append]
  rw [parseOpcode_high (lock h) rfl]
  simp [parseHigh, Reads, Instr.ctx]

theorem int3 (c : Ctx) : Statement (.int3 c) := by
  intro h r
  simp only [Instr.wf] at h
  simp only [Instr.ctx, Instr.opcodeBytes, List.cons_append, List.nil_append]
  rw [parseOpcode_high (lock h) rfl]
  simp [parseHigh, Reads, Instr.ctx]

theorem intImm (c : Ctx) (v : Byte) : Statement (.intImm c v) := by
  intro h r
  simp only [Instr.wf] at h
  simp only [Instr.ctx, Instr.opcodeBytes, List.cons_append, List.nil_append]
  rw [parseOpcode_high (lock h) rfl]
  simp [parseHigh, Reads, Instr.ctx]

theorem into (c : Ctx) : Statement (.into c) := by
  intro h r
  simp only [Instr.wf] at h
  simp only [Instr.ctx, Instr.opcodeBytes, List.cons_append, List.nil_append]
  rw [parseOpcode_high (lock h) rfl]
  simp [parseHigh, Reads, Instr.ctx]

theorem bound (c : Ctx) (r : Reg) (m : RM Reg) : Statement (.bound c r m) := by
  intro h r
  simp only [Instr.wf, Bool.and_eq_true] at h
  simp only [Instr.ctx, Instr.opcodeBytes, List.cons_append]
  rw [parseOpcode_low (lock h.1) rfl]
  simp [parseLow, nextModRM_bytes h.2, Reads, Instr.ctx]

theorem iret (c : Ctx) : Statement (.iret c) := by
  intro h r
  simp only [Instr.wf] at h
  simp only [Instr.ctx, Instr.opcodeBytes, List.cons_append, List.nil_append]
  rw [parseOpcode_high (lock h) rfl]
  simp [parseHigh, Reads, Instr.ctx]

theorem escByte (op : BitVec 3) :
    (plainOpcode (27#5 ++ op : Byte) && !decide ((27#5 ++ op : Byte).toNat < 0x90)) = true
      ∧ ∀ c : Ctx, parseHigh c (27#5 ++ op : Byte) = parseEsc c.addr32 (27#5 ++ op : Byte) := by
  have h : op = 0#3 ∨ op = 1#3 ∨ op = 2#3 ∨ op = 3#3 ∨ op = 4#3 ∨ op = 5#3 ∨ op = 6#3 ∨ op = 7#3 := by
    revert op; decide
  rcases h with rfl | rfl | rfl | rfl | rfl | rfl | rfl | rfl <;> exact ⟨rfl, fun _ => rfl⟩

theorem escField (op : BitVec 3) : fieldLo (27#5 ++ op : Byte) = op := by revert op; decide

theorem esc (c : Ctx) (op : BitVec 3) (reg : BitVec 3) (rm : RM Reg) : Statement (.esc c op reg rm) := by
  intro h r
  simp only [Instr.wf, Bool.and_eq_true] at h
  simp only [Instr.ctx, Instr.opcodeBytes, List.cons_append]
  obtain ⟨h1, h2⟩ := escByte op
  rw [parseOpcode_high (lock h.1) h1, h2]
  simp [parseEsc, nextModRM_bytes h.2, Reads, Instr.ctx, escField]

theorem wait (c : Ctx) : Statement (.wait c) := by
  intro h r
  simp only [Instr.wf] at h
  simp only [Instr.ctx, Instr.opcodeBytes, List.cons_append, List.nil_append]
  rw [parseOpcode_high (lock h) rfl]
  simp [parseHigh, Reads, Instr.ctx]

theorem lockPrefix (c : Ctx) (t : LockTarget) : Statement (.lockPrefix c t) := by
  intro h r
  simp only [Instr.wf, Bool.and_eq_true] at h
  have hl : Ctx.hasLock ⟨c.prefixes, c.d32, 0⟩ = true := h.1.1.1
  have hw := h.2
  cases t with
  | xchgByte rm q =>
    simp only [LockTarget.wf] at hw
    simp [Instr.ctx, Instr.opcodeBytes, LockTarget.bytes, parseOpcode, hl, parseLocked, nextModRM8_bytes hw, Reads]
  | xchg rm q =>
    simp only [LockTarget.wf] at hw
    simp [Instr.ctx, Instr.opcodeBytes, LockTarget.bytes, parseOpcode, hl, parseLocked, nextModRM_bytes hw, Reads]
  | oneByte op =>
    simp only [LockTarget.wf, Bool.and_eq_true, decide_eq_true_eq] at hw
    obtain ⟨⟨⟨⟨-, s1⟩, s2⟩, s3⟩, s4⟩ := hw
    simp only [Instr.ctx, Instr.opcodeBytes, LockTarget.bytes, List.cons_append, List.nil_append, parseOpcode,
      Parse_bind_apply, nextByte_cons, hl, if_true, parseLocked, s4]
    simp [Reads, Instr.ctx]
  | twoByte op =>
    simp only [LockTarget.wf] at hw
    simp [Instr.ctx, Instr.opcodeBytes, LockTarget.bytes, parseOpcode, hl, parseLocked, hw, Reads, -List.isEmpty_iff]
  | oneByteRm op b =>
    simp only [LockTarget.wf, Bool.not_eq_true'] at hw
    have hs : op ≠ 0x0F#8 ∧ op ≠ 0x86#8 ∧ op ≠ 0x87#8 := by
      refine ⟨?_, ?_, ?_⟩ <;> (rintro rfl; exact absurd hw (by decide))
    obtain ⟨s1, s2, s3⟩ := hs
    simp only [Instr.ctx, Instr.opcodeBytes, LockTarget.bytes, List.cons_append, List.nil_append, parseOpcode,
      Parse_bind_apply, nextByte_cons, hl, if_true, parseLocked, hw]
    simp [Reads, Instr.ctx]
  | twoByteRm op b =>
    simp only [LockTarget.wf, Bool.not_eq_true'] at hw
    simp [Instr.ctx, Instr.opcodeBytes, LockTarget.bytes, parseOpcode, hl, parseLocked, hw, Reads, -List.isEmpty_iff]

theorem xchgByte (c : Ctx) (rm : RM Reg8) (r : Reg8) : Statement (.xchgByte c rm r) := by
  intro h r
  simp only [Instr.wf, Bool.and_eq_true] at h
  simp only [Instr.ctx, Instr.opcodeBytes, List.cons_append]
  rw [parseOpcode_low (lock h.1) rfl]
  simp [parseLow, nextModRM8_bytes h.2, Reads, Instr.ctx]

theorem xchg (c : Ctx) (rm : RM Reg) (r : Reg) : Statement (.xchg c rm r) := by
  intro h r
  simp only [Instr.wf, Bool.and_eq_true] at h
  simp only [Instr.ctx, Instr.opcodeBytes, List.cons_append]
  rw [parseOpcode_low (lock h.1) rfl]
  simp [parseLow, nextModRM_bytes h.2, Reads, Instr.ctx]

end Sys2Proof.Laws.Parses

namespace Sys2Proof.Laws.Sized

set_option Elab.async false

/-- The prefixes and the bytes after them are as many as the instruction's length. -/
def Statement (i : Instr) : Prop :=
  i.wf = true → i.ctx.prefixes.length + i.opcodeBytes.length = i.ctx.len

theorem arpl (c : Ctx) (dst : RM Reg) (src : Reg) : Statement (.arpl c dst src) := by
  intro h
  simp only [Instr.wf, Ctx.wf, Bool.and_eq_true, decide_eq_true_eq] at h
  simp [Instr.opcodeBytes, Instr.ctx, h]
  omega

theorem lar (c : Ctx) (dst : Reg) (src : RM Reg) : Statement (.lar c dst src) := by
  intro h
  simp only [Instr.wf, Ctx.wf, Bool.and_eq_true, decide_eq_true_eq] at h
  simp [Instr.opcodeBytes, Instr.ctx, h]
  omega

theorem lsl (c : Ctx) (dst : Reg) (src : RM Reg) : Statement (.lsl c dst src) := by
  intro h
  simp only [Instr.wf, Ctx.wf, Bool.and_eq_true, decide_eq_true_eq] at h
  simp [Instr.opcodeBytes, Instr.ctx, h]
  omega

theorem verr (c : Ctx) (src : RM Reg) : Statement (.verr c src) := by
  intro h
  simp only [Instr.wf, Ctx.wf, Bool.and_eq_true, decide_eq_true_eq] at h
  simp [Instr.opcodeBytes, Instr.ctx, h]
  omega

theorem verw (c : Ctx) (src : RM Reg) : Statement (.verw c src) := by
  intro h
  simp only [Instr.wf, Ctx.wf, Bool.and_eq_true, decide_eq_true_eq] at h
  simp [Instr.opcodeBytes, Instr.ctx, h]
  omega

theorem sldt (c : Ctx) (dst : RM Reg) : Statement (.sldt c dst) := by
  intro h
  simp only [Instr.wf, Ctx.wf, Bool.and_eq_true, decide_eq_true_eq] at h
  simp [Instr.opcodeBytes, Instr.ctx, h]
  omega

theorem str (c : Ctx) (dst : RM Reg) : Statement (.str c dst) := by
  intro h
  simp only [Instr.wf, Ctx.wf, Bool.and_eq_true, decide_eq_true_eq] at h
  simp [Instr.opcodeBytes, Instr.ctx, h]
  omega

theorem lldt (c : Ctx) (src : RM Reg) : Statement (.lldt c src) := by
  intro h
  simp only [Instr.wf, Ctx.wf, Bool.and_eq_true, decide_eq_true_eq] at h
  simp [Instr.opcodeBytes, Instr.ctx, h]
  omega

theorem ltr (c : Ctx) (src : RM Reg) : Statement (.ltr c src) := by
  intro h
  simp only [Instr.wf, Ctx.wf, Bool.and_eq_true, decide_eq_true_eq] at h
  simp [Instr.opcodeBytes, Instr.ctx, h]
  omega

theorem sgdt (c : Ctx) (dst : RM Reg) : Statement (.sgdt c dst) := by
  intro h
  simp only [Instr.wf, Ctx.wf, Bool.and_eq_true, decide_eq_true_eq] at h
  simp [Instr.opcodeBytes, Instr.ctx, h]
  omega

theorem sidt (c : Ctx) (dst : RM Reg) : Statement (.sidt c dst) := by
  intro h
  simp only [Instr.wf, Ctx.wf, Bool.and_eq_true, decide_eq_true_eq] at h
  simp [Instr.opcodeBytes, Instr.ctx, h]
  omega

theorem lgdt (c : Ctx) (src : RM Reg) : Statement (.lgdt c src) := by
  intro h
  simp only [Instr.wf, Ctx.wf, Bool.and_eq_true, decide_eq_true_eq] at h
  simp [Instr.opcodeBytes, Instr.ctx, h]
  omega

theorem lidt (c : Ctx) (src : RM Reg) : Statement (.lidt c src) := by
  intro h
  simp only [Instr.wf, Ctx.wf, Bool.and_eq_true, decide_eq_true_eq] at h
  simp [Instr.opcodeBytes, Instr.ctx, h]
  omega

theorem smsw (c : Ctx) (dst : RM Reg) : Statement (.smsw c dst) := by
  intro h
  simp only [Instr.wf, Ctx.wf, Bool.and_eq_true, decide_eq_true_eq] at h
  simp [Instr.opcodeBytes, Instr.ctx, h]
  omega

theorem lmsw (c : Ctx) (src : RM Reg) : Statement (.lmsw c src) := by
  intro h
  simp only [Instr.wf, Ctx.wf, Bool.and_eq_true, decide_eq_true_eq] at h
  simp [Instr.opcodeBytes, Instr.ctx, h]
  omega

theorem clts (c : Ctx) : Statement (.clts c) := by
  intro h
  simp only [Instr.wf, Ctx.wf, Bool.and_eq_true, decide_eq_true_eq] at h
  simp [Instr.opcodeBytes, Instr.ctx, h]

theorem movFromCr (c : Ctx) (dst : Reg) (n : BitVec 3) (mb : BitVec 2) : Statement (.movFromCr c dst n mb) := by
  intro h
  simp only [Instr.wf, Ctx.wf, Bool.and_eq_true, decide_eq_true_eq] at h
  simp [Instr.opcodeBytes, Instr.ctx, h]

theorem movFromDr (c : Ctx) (dst : Reg) (n : BitVec 3) (mb : BitVec 2) : Statement (.movFromDr c dst n mb) := by
  intro h
  simp only [Instr.wf, Ctx.wf, Bool.and_eq_true, decide_eq_true_eq] at h
  simp [Instr.opcodeBytes, Instr.ctx, h]

theorem movToCr (c : Ctx) (n : BitVec 3) (src : Reg) (mb : BitVec 2) : Statement (.movToCr c n src mb) := by
  intro h
  simp only [Instr.wf, Ctx.wf, Bool.and_eq_true, decide_eq_true_eq] at h
  simp [Instr.opcodeBytes, Instr.ctx, h]

theorem movToDr (c : Ctx) (n : BitVec 3) (src : Reg) (mb : BitVec 2) : Statement (.movToDr c n src mb) := by
  intro h
  simp only [Instr.wf, Ctx.wf, Bool.and_eq_true, decide_eq_true_eq] at h
  simp [Instr.opcodeBytes, Instr.ctx, h]

theorem movFromTr (c : Ctx) (dst : Reg) (n : BitVec 3) (mb : BitVec 2) : Statement (.movFromTr c dst n mb) := by
  intro h
  simp only [Instr.wf, Ctx.wf, Bool.and_eq_true, decide_eq_true_eq] at h
  simp [Instr.opcodeBytes, Instr.ctx, h]

theorem movToTr (c : Ctx) (n : BitVec 3) (src : Reg) (mb : BitVec 2) : Statement (.movToTr c n src mb) := by
  intro h
  simp only [Instr.wf, Ctx.wf, Bool.and_eq_true, decide_eq_true_eq] at h
  simp [Instr.opcodeBytes, Instr.ctx, h]

theorem hlt (c : Ctx) : Statement (.hlt c) := by
  intro h
  simp only [Instr.wf, Ctx.wf, Bool.and_eq_true, decide_eq_true_eq] at h
  simp [Instr.opcodeBytes, Instr.ctx, h]

theorem movToSreg (c : Ctx) (n : BitVec 3) (src : RM Reg) : Statement (.movToSreg c n src) := by
  intro h
  simp only [Instr.wf, Ctx.wf, Bool.and_eq_true, decide_eq_true_eq] at h
  simp [Instr.opcodeBytes, Instr.ctx, h]
  omega

theorem movFromSreg (c : Ctx) (dst : RM Reg) (n : BitVec 3) : Statement (.movFromSreg c dst n) := by
  intro h
  simp only [Instr.wf, Ctx.wf, Bool.and_eq_true, decide_eq_true_eq] at h
  simp [Instr.opcodeBytes, Instr.ctx, h]
  omega

theorem pushEs (c : Ctx) : Statement (.pushEs c) := by
  intro h
  simp only [Instr.wf, Ctx.wf, Bool.and_eq_true, decide_eq_true_eq] at h
  simp [Instr.opcodeBytes, Instr.ctx, h]

theorem pushCs (c : Ctx) : Statement (.pushCs c) := by
  intro h
  simp only [Instr.wf, Ctx.wf, Bool.and_eq_true, decide_eq_true_eq] at h
  simp [Instr.opcodeBytes, Instr.ctx, h]

theorem pushSs (c : Ctx) : Statement (.pushSs c) := by
  intro h
  simp only [Instr.wf, Ctx.wf, Bool.and_eq_true, decide_eq_true_eq] at h
  simp [Instr.opcodeBytes, Instr.ctx, h]

theorem pushDs (c : Ctx) : Statement (.pushDs c) := by
  intro h
  simp only [Instr.wf, Ctx.wf, Bool.and_eq_true, decide_eq_true_eq] at h
  simp [Instr.opcodeBytes, Instr.ctx, h]

theorem pushFs (c : Ctx) : Statement (.pushFs c) := by
  intro h
  simp only [Instr.wf, Ctx.wf, Bool.and_eq_true, decide_eq_true_eq] at h
  simp [Instr.opcodeBytes, Instr.ctx, h]

theorem pushGs (c : Ctx) : Statement (.pushGs c) := by
  intro h
  simp only [Instr.wf, Ctx.wf, Bool.and_eq_true, decide_eq_true_eq] at h
  simp [Instr.opcodeBytes, Instr.ctx, h]

theorem popEs (c : Ctx) : Statement (.popEs c) := by
  intro h
  simp only [Instr.wf, Ctx.wf, Bool.and_eq_true, decide_eq_true_eq] at h
  simp [Instr.opcodeBytes, Instr.ctx, h]

theorem popSs (c : Ctx) : Statement (.popSs c) := by
  intro h
  simp only [Instr.wf, Ctx.wf, Bool.and_eq_true, decide_eq_true_eq] at h
  simp [Instr.opcodeBytes, Instr.ctx, h]

theorem popDs (c : Ctx) : Statement (.popDs c) := by
  intro h
  simp only [Instr.wf, Ctx.wf, Bool.and_eq_true, decide_eq_true_eq] at h
  simp [Instr.opcodeBytes, Instr.ctx, h]

theorem popFs (c : Ctx) : Statement (.popFs c) := by
  intro h
  simp only [Instr.wf, Ctx.wf, Bool.and_eq_true, decide_eq_true_eq] at h
  simp [Instr.opcodeBytes, Instr.ctx, h]

theorem popGs (c : Ctx) : Statement (.popGs c) := by
  intro h
  simp only [Instr.wf, Ctx.wf, Bool.and_eq_true, decide_eq_true_eq] at h
  simp [Instr.opcodeBytes, Instr.ctx, h]

theorem lds (c : Ctx) (dst : Reg) (src : RM Reg) : Statement (.lds c dst src) := by
  intro h
  simp only [Instr.wf, Ctx.wf, Bool.and_eq_true, decide_eq_true_eq] at h
  simp [Instr.opcodeBytes, Instr.ctx, h]
  omega

theorem les (c : Ctx) (dst : Reg) (src : RM Reg) : Statement (.les c dst src) := by
  intro h
  simp only [Instr.wf, Ctx.wf, Bool.and_eq_true, decide_eq_true_eq] at h
  simp [Instr.opcodeBytes, Instr.ctx, h]
  omega

theorem lss (c : Ctx) (dst : Reg) (src : RM Reg) : Statement (.lss c dst src) := by
  intro h
  simp only [Instr.wf, Ctx.wf, Bool.and_eq_true, decide_eq_true_eq] at h
  simp [Instr.opcodeBytes, Instr.ctx, h]
  omega

theorem lfs (c : Ctx) (dst : Reg) (src : RM Reg) : Statement (.lfs c dst src) := by
  intro h
  simp only [Instr.wf, Ctx.wf, Bool.and_eq_true, decide_eq_true_eq] at h
  simp [Instr.opcodeBytes, Instr.ctx, h]
  omega

theorem lgs (c : Ctx) (dst : Reg) (src : RM Reg) : Statement (.lgs c dst src) := by
  intro h
  simp only [Instr.wf, Ctx.wf, Bool.and_eq_true, decide_eq_true_eq] at h
  simp [Instr.opcodeBytes, Instr.ctx, h]
  omega

theorem jmpRel8 (c : Ctx) (d : Byte) : Statement (.jmpRel8 c d) := by
  intro h
  simp only [Instr.wf, Ctx.wf, Bool.and_eq_true, decide_eq_true_eq] at h
  simp [Instr.opcodeBytes, Instr.ctx, h]

theorem jmpRel (c : Ctx) (d : Imm) : Statement (.jmpRel c d) := by
  intro h
  simp only [Instr.wf, Ctx.wf, Bool.and_eq_true, decide_eq_true_eq] at h
  simp [Instr.opcodeBytes, Instr.ctx, h]
  omega

theorem jmpNear (c : Ctx) (t : RM Reg) : Statement (.jmpNear c t) := by
  intro h
  simp only [Instr.wf, Ctx.wf, Bool.and_eq_true, decide_eq_true_eq] at h
  simp [Instr.opcodeBytes, Instr.ctx, h]
  omega

theorem callRel (c : Ctx) (d : Imm) : Statement (.callRel c d) := by
  intro h
  simp only [Instr.wf, Ctx.wf, Bool.and_eq_true, decide_eq_true_eq] at h
  simp [Instr.opcodeBytes, Instr.ctx, h]
  omega

theorem callNear (c : Ctx) (t : RM Reg) : Statement (.callNear c t) := by
  intro h
  simp only [Instr.wf, Ctx.wf, Bool.and_eq_true, decide_eq_true_eq] at h
  simp [Instr.opcodeBytes, Instr.ctx, h]
  omega

theorem retNear (c : Ctx) : Statement (.retNear c) := by
  intro h
  simp only [Instr.wf, Ctx.wf, Bool.and_eq_true, decide_eq_true_eq] at h
  simp [Instr.opcodeBytes, Instr.ctx, h]

theorem retNearImm (c : Ctx) (n : Word) : Statement (.retNearImm c n) := by
  intro h
  simp only [Instr.wf, Ctx.wf, Bool.and_eq_true, decide_eq_true_eq] at h
  simp [Instr.opcodeBytes, Instr.ctx, h]

theorem jmpFar (c : Ctx) (off : Imm) (sel : Word) : Statement (.jmpFar c off sel) := by
  intro h
  simp only [Instr.wf, Ctx.wf, Bool.and_eq_true, decide_eq_true_eq] at h
  simp [Instr.opcodeBytes, Instr.ctx, h]
  omega

theorem jmpFarMem (c : Ctx) (t : RM Reg) : Statement (.jmpFarMem c t) := by
  intro h
  simp only [Instr.wf, Ctx.wf, Bool.and_eq_true, decide_eq_true_eq] at h
  simp [Instr.opcodeBytes, Instr.ctx, h]
  omega

theorem callFar (c : Ctx) (off : Imm) (sel : Word) : Statement (.callFar c off sel) := by
  intro h
  simp only [Instr.wf, Ctx.wf, Bool.and_eq_true, decide_eq_true_eq] at h
  simp [Instr.opcodeBytes, Instr.ctx, h]
  omega

theorem callFarMem (c : Ctx) (t : RM Reg) : Statement (.callFarMem c t) := by
  intro h
  simp only [Instr.wf, Ctx.wf, Bool.and_eq_true, decide_eq_true_eq] at h
  simp [Instr.opcodeBytes, Instr.ctx, h]
  omega

theorem retFar (c : Ctx) : Statement (.retFar c) := by
  intro h
  simp only [Instr.wf, Ctx.wf, Bool.and_eq_true, decide_eq_true_eq] at h
  simp [Instr.opcodeBytes, Instr.ctx, h]

theorem retFarImm (c : Ctx) (n : Word) : Statement (.retFarImm c n) := by
  intro h
  simp only [Instr.wf, Ctx.wf, Bool.and_eq_true, decide_eq_true_eq] at h
  simp [Instr.opcodeBytes, Instr.ctx, h]

theorem inAlImm (c : Ctx) (port : Byte) : Statement (.inAlImm c port) := by
  intro h
  simp only [Instr.wf, Ctx.wf, Bool.and_eq_true, decide_eq_true_eq] at h
  simp [Instr.opcodeBytes, Instr.ctx, h]

theorem inAxImm (c : Ctx) (port : Byte) : Statement (.inAxImm c port) := by
  intro h
  simp only [Instr.wf, Ctx.wf, Bool.and_eq_true, decide_eq_true_eq] at h
  simp [Instr.opcodeBytes, Instr.ctx, h]

theorem inAlDx (c : Ctx) : Statement (.inAlDx c) := by
  intro h
  simp only [Instr.wf, Ctx.wf, Bool.and_eq_true, decide_eq_true_eq] at h
  simp [Instr.opcodeBytes, Instr.ctx, h]

theorem inAxDx (c : Ctx) : Statement (.inAxDx c) := by
  intro h
  simp only [Instr.wf, Ctx.wf, Bool.and_eq_true, decide_eq_true_eq] at h
  simp [Instr.opcodeBytes, Instr.ctx, h]

theorem outImmAl (c : Ctx) (port : Byte) : Statement (.outImmAl c port) := by
  intro h
  simp only [Instr.wf, Ctx.wf, Bool.and_eq_true, decide_eq_true_eq] at h
  simp [Instr.opcodeBytes, Instr.ctx, h]

theorem outImmAx (c : Ctx) (port : Byte) : Statement (.outImmAx c port) := by
  intro h
  simp only [Instr.wf, Ctx.wf, Bool.and_eq_true, decide_eq_true_eq] at h
  simp [Instr.opcodeBytes, Instr.ctx, h]

theorem outDxAl (c : Ctx) : Statement (.outDxAl c) := by
  intro h
  simp only [Instr.wf, Ctx.wf, Bool.and_eq_true, decide_eq_true_eq] at h
  simp [Instr.opcodeBytes, Instr.ctx, h]

theorem outDxAx (c : Ctx) : Statement (.outDxAx c) := by
  intro h
  simp only [Instr.wf, Ctx.wf, Bool.and_eq_true, decide_eq_true_eq] at h
  simp [Instr.opcodeBytes, Instr.ctx, h]

theorem insb (c : Ctx) : Statement (.insb c) := by
  intro h
  simp only [Instr.wf, Ctx.wf, Bool.and_eq_true, decide_eq_true_eq] at h
  simp [Instr.opcodeBytes, Instr.ctx, h]

theorem insw (c : Ctx) : Statement (.insw c) := by
  intro h
  simp only [Instr.wf, Ctx.wf, Bool.and_eq_true, decide_eq_true_eq] at h
  simp [Instr.opcodeBytes, Instr.ctx, h]

theorem outsb (c : Ctx) : Statement (.outsb c) := by
  intro h
  simp only [Instr.wf, Ctx.wf, Bool.and_eq_true, decide_eq_true_eq] at h
  simp [Instr.opcodeBytes, Instr.ctx, h]

theorem outsw (c : Ctx) : Statement (.outsw c) := by
  intro h
  simp only [Instr.wf, Ctx.wf, Bool.and_eq_true, decide_eq_true_eq] at h
  simp [Instr.opcodeBytes, Instr.ctx, h]

theorem repPrefix (c : Ctx) (t : RepTarget) : Statement (.repPrefix c t) := by
  intro h
  simp only [Instr.wf, Ctx.wf, Bool.and_eq_true, decide_eq_true_eq] at h
  cases t <;> simp [Instr.opcodeBytes, Instr.ctx, RepTarget.bytes, h]

theorem cli (c : Ctx) : Statement (.cli c) := by
  intro h
  simp only [Instr.wf, Ctx.wf, Bool.and_eq_true, decide_eq_true_eq] at h
  simp [Instr.opcodeBytes, Instr.ctx, h]

theorem sti (c : Ctx) : Statement (.sti c) := by
  intro h
  simp only [Instr.wf, Ctx.wf, Bool.and_eq_true, decide_eq_true_eq] at h
  simp [Instr.opcodeBytes, Instr.ctx, h]

theorem pushf (c : Ctx) : Statement (.pushf c) := by
  intro h
  simp only [Instr.wf, Ctx.wf, Bool.and_eq_true, decide_eq_true_eq] at h
  simp [Instr.opcodeBytes, Instr.ctx, h]

theorem popf (c : Ctx) : Statement (.popf c) := by
  intro h
  simp only [Instr.wf, Ctx.wf, Bool.and_eq_true, decide_eq_true_eq] at h
  simp [Instr.opcodeBytes, Instr.ctx, h]

theorem int3 (c : Ctx) : Statement (.int3 c) := by
  intro h
  simp only [Instr.wf, Ctx.wf, Bool.and_eq_true, decide_eq_true_eq] at h
  simp [Instr.opcodeBytes, Instr.ctx, h]

theorem intImm (c : Ctx) (v : Byte) : Statement (.intImm c v) := by
  intro h
  simp only [Instr.wf, Ctx.wf, Bool.and_eq_true, decide_eq_true_eq] at h
  simp [Instr.opcodeBytes, Instr.ctx, h]

theorem into (c : Ctx) : Statement (.into c) := by
  intro h
  simp only [Instr.wf, Ctx.wf, Bool.and_eq_true, decide_eq_true_eq] at h
  simp [Instr.opcodeBytes, Instr.ctx, h]

theorem bound (c : Ctx) (r : Reg) (m : RM Reg) : Statement (.bound c r m) := by
  intro h
  simp only [Instr.wf, Ctx.wf, Bool.and_eq_true, decide_eq_true_eq] at h
  simp [Instr.opcodeBytes, Instr.ctx, h]
  omega

theorem iret (c : Ctx) : Statement (.iret c) := by
  intro h
  simp only [Instr.wf, Ctx.wf, Bool.and_eq_true, decide_eq_true_eq] at h
  simp [Instr.opcodeBytes, Instr.ctx, h]

theorem esc (c : Ctx) (op : BitVec 3) (reg : BitVec 3) (rm : RM Reg) : Statement (.esc c op reg rm) := by
  intro h
  simp only [Instr.wf, Ctx.wf, Bool.and_eq_true, decide_eq_true_eq] at h
  simp [Instr.opcodeBytes, Instr.ctx, h]
  omega

theorem wait (c : Ctx) : Statement (.wait c) := by
  intro h
  simp only [Instr.wf, Ctx.wf, Bool.and_eq_true, decide_eq_true_eq] at h
  simp [Instr.opcodeBytes, Instr.ctx, h]

theorem lockPrefix (c : Ctx) (t : LockTarget) : Statement (.lockPrefix c t) := by
  intro h
  simp only [Instr.wf, Bool.and_eq_true, decide_eq_true_eq] at h
  cases t <;> simp [Instr.opcodeBytes, Instr.ctx, LockTarget.bytes, LockTarget.size, h] <;> omega

theorem xchgByte (c : Ctx) (rm : RM Reg8) (r : Reg8) : Statement (.xchgByte c rm r) := by
  intro h
  simp only [Instr.wf, Ctx.wf, Bool.and_eq_true, decide_eq_true_eq] at h
  simp [Instr.opcodeBytes, Instr.ctx, h]
  omega

theorem xchg (c : Ctx) (rm : RM Reg) (r : Reg) : Statement (.xchg c rm r) := by
  intro h
  simp only [Instr.wf, Ctx.wf, Bool.and_eq_true, decide_eq_true_eq] at h
  simp [Instr.opcodeBytes, Instr.ctx, h]
  omega

end Sys2Proof.Laws.Sized
end

