-- ==== Sys2Proof/Laws/Touched.lean ====
section
/-! SUPPORT. The computations that, when they complete, have done nothing but checked accesses: how the property goes
through every way to build a computation, every shared operation that has it, and the frame of an instruction that ends
with stores. -/

namespace Sys2Proof.Machine

/-- When the computation completes, it has done nothing but checked accesses. -/
def Checked {α : Type} (m : M α) : Prop := ∀ s a t, m s = .ok a t → Touched s t

/-- The same, from one state. -/
def CheckedAt {α : Type} (m : M α) (s : State) : Prop := ∀ a t, m s = .ok a t → Touched s t

variable {α β : Type}

theorem checked_pure (a : α) : Checked (pure a) := by
  intro s b t h
  cases h
  exact touched_refl s

theorem checked_stop (e : Err) : Checked (stop e : M α) := by
  intro s b t h
  cases h

theorem checked_getState : Checked getState := by
  intro s b t h
  cases h
  exact touched_refl s

theorem checked_update {f : State → State} (h : ∀ s, Touched s (f s)) : Checked (update f) := by
  intro s b t hf
  cases hf
  exact h s

theorem checked_bind {m : M α} {f : α → M β} (hm : Checked m) (hf : ∀ a, Checked (f a)) : Checked (m >>= f) := by
  intro s b u h
  rw [M_bind_apply] at h
  cases h1 : m s with
  | ok a t => rw [h1] at h; exact touched_trans (hm s a t h1) (hf a t b u h)
  | error e t => rw [h1] at h; cases h

theorem checked_map {m : M α} {f : α → β} (hm : Checked m) : Checked (f <$> m) := by
  intro s b u h
  rw [M_map_apply] at h
  cases h1 : m s with
  | ok a t => rw [h1] at h; cases h; exact hm s a _ h1
  | error e t => rw [h1] at h; cases h

theorem checked_ite {p : Prop} [Decidable p] {m n : M α} (hm : Checked m) (hn : Checked n) :
    Checked (if p then m else n) := by
  split
  · exact hm
  · exact hn

theorem checked_require {b : Bool} {m : M Unit} (h : Checked m) : Checked (require b m) := by
  cases b
  · exact h
  · exact checked_pure ()

/-- A computation that never completes. -/
theorem checked_never {m : M α} (h : ∀ s, ∃ e t, m s = .error e t) : Checked m := by
  intro s a t h'
  obtain ⟨e, u, he⟩ := h s
  rw [he] at h'
  cases h'

theorem checked_raise (v : Byte) : Checked (raise v : M α) := checked_stop _

theorem checked_raiseCode (v : Byte) (c : Word) : Checked (raiseCode v c : M α) :=
  checked_never fun s => ⟨_, _, raiseCode_apply v c s⟩

theorem checked_pageFault (la : Dword) (p w u : Bool) : Checked (pageFault la p w u : M α) :=
  checked_never fun s => ⟨_, _, by simp only [pageFault, M_bind_apply, update_apply, takeFree_apply, stop_apply]; rfl⟩

theorem checked_takeChoice : Checked takeChoice := by
  intro s c t h
  unfold takeChoice at h
  split at h <;> cases h <;> rfl

theorem checked_walk (la : Dword) (w u : Bool) (b : Option (BitVec 2)) : Checked (walk la w u b) := by
  intro s a t h
  simp only [walk, M_bind_apply, getState_apply, M_ite_apply, pageFault, update_apply, takeFree_apply, stop_apply,
    M_pure_apply] at h
  split at h
  · cases h
  split at h
  · cases h
  split at h
  · cases h
  split at h
  · cases h
  split at h
  · cases h
  cases h
  exact touched_mem (ite_physWrite_map (ite_physWrite_map rfl))

theorem checked_translatePage (la : Dword) (w u : Bool) : Checked (translatePage la w u) := by
  refine checked_bind checked_takeChoice fun c => checked_bind (checked_update fun s => ?_) fun _ =>
    checked_bind checked_getState fun s => ?_
  · split <;> rfl
  · split
    · exact checked_walk la w u c.fill
    · refine checked_ite (checked_pageFault la true w u) (checked_ite ?_ (checked_pure _))
      exact checked_bind (checked_update fun s => rfl) fun _ => checked_walk la w u c.fill
    · exact checked_stop _

theorem checked_translate (la : Dword) (n : Nat) (w u : Bool) : Checked (translate la n w u) := by
  refine checked_bind checked_getState fun s => checked_ite (checked_pure _) ?_
  refine checked_bind (checked_translatePage la w u) fun p => checked_ite (checked_pure _) ?_
  exact checked_bind (checked_translatePage _ w u) fun _ => checked_pure _

theorem checked_linBytes (la : Dword) (n : Nat) (u : Bool) : Checked (linBytes la n u) :=
  checked_bind (checked_translate la n false u) fun _ => checked_bind checked_getState fun _ => checked_pure _

theorem checked_sysRead (la : Dword) (n : Nat) : Checked (sysRead la n) :=
  checked_bind (checked_linBytes la n false) fun _ => checked_pure _

theorem checked_sysPrepare (la : Dword) (bs : List Byte) : Checked (sysPrepare la bs) :=
  checked_bind (checked_translate la _ true false) fun _ => checked_pure _

theorem checked_segCheck (r : Sreg) (off : Dword) (n : Nat) (k : Access) : Checked (segCheck r off n k) := by
  intro s a t h
  rw [segCheck_eq] at h
  split at h <;> cases h
  rfl

theorem checked_noteAccess (r : Sreg) (off : Dword) (n : Nat) (k : Access) : Checked (noteAccess r off n k) :=
  checked_update fun _ => rfl

theorem checked_checkedSpan (r : Sreg) (off : Dword) (n : Nat) (k : Access) : Checked (checkedSpan r off n k) :=
  checked_bind (checked_segCheck r off n k) fun _ => checked_bind checked_getState fun _ => checked_translate _ n _ _

theorem checked_operandSpan (r : Sreg) (off : Dword) (n : Nat) (k : Access) : Checked (operandSpan r off n k) :=
  checked_bind (checked_checkedSpan r off n k) fun _ => checked_bind (checked_noteAccess r off n k) fun _ => checked_pure _

theorem checked_memRead (r : Sreg) (off : Dword) (n : Nat) : Checked (memRead r off n) :=
  checked_bind (checked_bind (checked_operandSpan r off n .read) fun _ => checked_bind checked_getState fun _ =>
    checked_pure _) fun _ => checked_pure _

/-- A later part of an operand, whose offset does not pass FFFFFFFFH. -/
theorem offsetAbove_ok {r : Sreg} {off : Dword} {k : Nat} {s : State} (h : off.toNat + k < 4294967296) :
    offsetAbove r off k s = .ok (off + BitVec.ofNat 32 k) s := by
  simp [offsetAbove, h]

/-- One whose offset does. -/
theorem offsetAbove_exc {r : Sreg} {off : Dword} {k : Nat} {s : State} (h : 4294967296 ≤ off.toNat + k) :
    offsetAbove r off k s = .error (.exc (faultWith s (limitVector r) 0x0000#16)) s.freed := by
  by_cases hr : r = .ss <;> simp [offsetAbove, h, hr, limitVector, limitFault, faultWith, State.freed, Nat.not_lt.mpr]

theorem checked_offsetAbove (r : Sreg) (off : Dword) (k : Nat) : Checked (offsetAbove r off k) :=
  checked_ite (checked_pure _) (checked_ite (checked_raiseCode _ _) (checked_raiseCode _ _))

theorem checked_memReadAbove (r : Sreg) (off : Dword) (k n : Nat) : Checked (memReadAbove r off k n) :=
  checked_bind (checked_offsetAbove r off k) fun _ => checked_memRead r _ n

theorem checked_memPrepare (r : Sreg) (off : Dword) (bs : List Byte) : Checked (memPrepare r off bs) :=
  checked_bind (checked_operandSpan r off _ .write) fun _ => checked_pure _

theorem checked_stackRead (k n : Nat) : Checked (stackRead k n) :=
  checked_bind checked_getState fun _ => checked_memRead _ _ n

theorem checked_stackPrepare (k : Nat) (bs : List Byte) : Checked (stackPrepare k bs) :=
  checked_bind checked_getState fun _ => checked_memPrepare _ _ bs

theorem checked_rmRead (c : Ctx) (rm : RM Reg) (n : Nat) : Checked (rmRead c rm n) := by
  refine checked_bind checked_getState fun _ => ?_
  cases rm
  · exact checked_pure _
  · exact checked_memRead _ _ n

theorem checked_rmRead16 (c : Ctx) (rm : RM Reg) : Checked (rmRead16 c rm) :=
  checked_bind (checked_rmRead c rm 2) fun _ => checked_pure _

theorem checked_readDescriptor (sel : Word) : Checked (readDescriptor sel) := by
  refine checked_bind checked_getState fun _ => checked_ite (checked_pure _) ?_
  exact checked_bind (checked_sysRead _ 4) fun _ => checked_bind (checked_sysRead _ 4) fun _ => checked_pure _

theorem checked_needDescriptor (sel : Word) {m : M Descriptor} (hm : Checked m) : Checked (needDescriptor sel m) := by
  refine checked_bind (checked_readDescriptor sel) fun d => ?_
  cases d
  · exact hm
  · exact checked_pure _

theorem checked_markAccessed (d : Descriptor) : Checked (markAccessed d) :=
  checked_ite (checked_pure _) (checked_bind (checked_sysPrepare _ _) fun _ => checked_pure _)

theorem checked_testMarks (d : Descriptor) : Checked (testMarks d) :=
  checked_bind checked_getState fun _ => checked_ite (checked_markAccessed d) (checked_pure _)

theorem checked_loadSeg (r : Sreg) (sel : Word) : Checked (loadSeg r sel) := by
  have hm : ∀ (d : Descriptor) (l : List Store → SegLoad), Checked (do let marks ← markAccessed d; pure (l marks)) :=
    fun d l => checked_bind (checked_markAccessed d) fun _ => checked_pure _
  refine checked_bind checked_getState fun s => checked_ite (checked_pure _) (checked_ite ?_ ?_)
  · refine checked_bind checked_getState fun _ => checked_ite (checked_raiseCode _ _) ?_
    refine checked_bind (checked_needDescriptor sel (checked_raiseCode _ _)) fun d => ?_
    refine checked_ite (checked_raiseCode _ _) (checked_ite (checked_raiseCode _ _) (checked_ite (checked_raiseCode _ _) ?_))
    exact hm d _
  · refine checked_bind checked_getState fun _ => checked_ite (checked_pure _) ?_
    refine checked_bind (checked_needDescriptor sel (checked_raiseCode _ _)) fun d => ?_
    refine checked_ite (checked_raiseCode _ _) (checked_ite (checked_raiseCode _ _) (checked_ite (checked_raiseCode _ _)
      (checked_ite (checked_raiseCode _ _) ?_)))
    exact hm d _

theorem checked_farPointer (c : Ctx) (rm : RM Reg) : Checked (farPointer c rm) := by
  cases rm
  · exact checked_raise _
  · exact checked_bind checked_getState fun _ => checked_bind (checked_memRead _ _ _) fun _ =>
      checked_bind (checked_memReadAbove _ _ _ _) fun _ => checked_pure _

theorem checked_ioMapBits (base port n : Nat) : Checked (ioMapBits base port n) := by
  induction n generalizing port with
  | zero => exact checked_pure ()
  | succ n ih =>
    refine checked_bind checked_getState fun _ => checked_bind (checked_require (checked_raiseCode _ _)) fun _ => ?_
    exact checked_bind (checked_sysRead _ 1) fun _ => checked_bind (checked_require (checked_raiseCode _ _)) fun _ => ih _

theorem checked_ioPermit (port : Word) (n : Nat) : Checked (ioPermit port n) := by
  refine checked_bind checked_getState fun _ => checked_ite (checked_pure _) (checked_ite (checked_pure _) ?_)
  refine checked_bind (checked_require (checked_raiseCode _ _)) fun _ => checked_bind (checked_sysRead _ 2) fun _ => ?_
  exact checked_bind (checked_require (checked_raiseCode _ _)) fun _ => checked_ioMapBits _ _ _

theorem checked_pushAll (k : Nat) (l : List (List Byte)) : Checked (pushAll k l) := by
  induction l generalizing k with
  | nil => exact checked_pure _
  | cons b r ih => exact checked_bind (checked_stackPrepare _ b) fun _ => checked_bind (ih _) fun _ => checked_pure _

theorem checked_innerPushes (g : SegReg) (top : Dword) (l : List (List Byte)) : Checked (innerPushes g top l) := by
  induction l generalizing top with
  | nil => exact checked_pure _
  | cons b r ih =>
    exact checked_bind (checked_translate _ _ _ _) fun _ => checked_bind (checked_update fun _ => rfl) fun _ =>
      checked_bind (ih _) fun _ => checked_pure _

theorem checked_innerStack (n : BitVec 2) (ext : Bool) : Checked (innerStack n ext) :=
  checked_bind checked_getState fun _ => checked_bind (checked_require (checked_raiseCode _ _)) fun _ =>
    checked_bind (checked_sysRead _ 4) fun _ => checked_bind (checked_sysRead _ 2) fun _ => checked_pure _

theorem checked_readParams (i n : Nat) : Checked (readParams i n) := by
  induction n generalizing i with
  | zero => exact checked_pure _
  | succ n ih => exact checked_bind checked_getState fun _ => checked_bind (checked_memReadAbove _ _ _ 4) fun _ =>
      checked_bind (ih _) fun _ => checked_pure _

theorem checked_frameCheck (n : Nat) : Checked (frameCheck n) :=
  checked_bind checked_getState fun _ => checked_segCheck _ _ _ _

theorem Touched.pc {s t : State} (h : Touched s t) : t.pc = s.pc := by
  unfold Touched at h; rw [h]

theorem Touched.idtr {s t : State} (h : Touched s t) : t.idtr = s.idtr := by
  unfold Touched at h; rw [h]

theorem Touched.tr {s t : State} (h : Touched s t) : t.tr = s.tr := by
  unfold Touched at h; rw [h]

theorem Touched.dbg {s t : State} (h : Touched s t) : t.dbg = s.dbg := by
  unfold Touched at h; rw [h]

theorem Touched.pins {s t : State} (h : Touched s t) : t.pins = s.pins := by
  unfold Touched at h; rw [h]

theorem Touched.io {s t : State} (h : Touched s t) : t.io = s.io := by
  unfold Touched at h; rw [h]

theorem Touched.cop {s t : State} (h : Touched s t) : t.cop = s.cop := by
  unfold Touched at h; rw [h]

theorem Touched.params {s t : State} (h : Touched s t) : t.params = s.params := by
  unfold Touched at h; rw [h]

theorem Touched.reg {s t : State} (h : Touched s t) (r : Reg) : t.reg r = s.reg r := by simp [State.reg, h.gpr]

theorem Touched.nextPc {s t : State} (h : Touched s t) (c : Ctx) : t.nextPc c = s.nextPc c := by
  simp [State.nextPc, h.pc]

theorem Touched.stackOff {s t : State} (h : Touched s t) (k : Nat) : t.stackOff k = s.stackOff k := by
  simp [State.stackOff, h.gpr, h.pe]

theorem Touched.stackBelow {s t : State} (h : Touched s t) (k : Nat) : t.stackBelow k = s.stackBelow k := by
  simp [State.stackBelow, h.gpr, h.pe]

theorem Touched.eaOffset {s t : State} (h : Touched s t) (ea : Ea) : t.eaOffset ea = s.eaOffset ea := by
  cases ea <;> simp [State.eaOffset, base16Value, indexValue, State.reg, h.gpr]

theorem Touched.segOk {s t : State} (h : Touched s t) (r : Sreg) (off : Dword) (n : Nat) (k : Access) :
    t.segOk r off n k = s.segOk r off n k := by
  simp [State.segOk, h.seg, h.pe]

/-- A read of a port: its value and the state after it. -/
theorem ioRead_eq (port : Word) (n : Nat) (s : State) :
    ioRead port n s =
      if port.toNat + n ≤ 65536 then .ok (s.portValue n) (s.afterInput port n)
      else .error (.fault .portBeyondSpace) s := by
  by_cases h : port.toNat + n ≤ 65536
  · cases hi : s.io.inputs <;> simp [ioRead, ioSpace, h, hi, State.portValue, State.afterInput, State.freed, State.logIo]
  · simp [ioRead, ioSpace, h]

/-- A write of a port. -/
theorem ioWrite_eq (port : Word) (n : Nat) (v : Dword) (s : State) :
    ioWrite port n v s =
      if port.toNat + n ≤ 65536 then
        .ok () (s.logIo { write := true, port := port, size := n, value := lowBytes n v })
      else .error (.fault .portBeyondSpace) s := by
  by_cases h : port.toNat + n ≤ 65536 <;> simp [ioWrite, ioSpace, h]

/-- A selector's slot on the stack. -/
theorem selectorSlot_eq (n : Nat) (sel : Word) (s : State) :
    selectorSlot n sel s = .ok (s.selectorBytes n sel) (s.afterSlot n) := by
  by_cases h : n = 2 <;> simp [selectorSlot, h, State.selectorBytes, State.afterSlot, State.freed]

/-- The frame of an instruction that ends with stores. -/
theorem frame_storeAll {s t u : State} {sts : List Store} {P : Nat → Prop}
    (q : Memory.wf s.mem = true → Quiet P s t) (hm : u.mem = (t.storeAll sts).mem) :
    Frame s t u fun a => P a ∨ storesCover sts a := by
  intro hw
  refine ⟨(q hw).touched, fun a ha => ?_⟩
  have h1 : u.byte a = (t.storeAll sts).byte a := by simp [State.byte, hm]
  rw [h1, byte_storeAll ((q hw).wf hw) fun h => ha (.inr h)]
  exact (q hw).kept hw a fun h => ha (.inl h)

/-- The frame of an instruction that ends with one store. -/
theorem frame_store {s t u : State} {st : Store} {P : Nat → Prop} (q : Memory.wf s.mem = true → Quiet P s t)
    (hm : u.mem = (t.store st).mem) : Frame s t u fun a => P a ∨ st.span.covers st.bytes.length a := by
  intro hw
  refine ⟨(q hw).touched, fun a ha => ?_⟩
  have h1 : u.byte a = (t.store st).byte a := by simp [State.byte, hm]
  rw [h1, byte_store ((q hw).wf hw) fun h => ha (.inr h)]
  exact (q hw).kept hw a fun h => ha (.inl h)

/-- The frame of an instruction that stores nothing. -/
theorem frame_read {s t u : State} {P : Nat → Prop} (q : Memory.wf s.mem = true → Quiet P s t) (hm : u.mem = t.mem) :
    Frame s t u P := by
  intro hw
  refine ⟨(q hw).touched, fun a ha => ?_⟩
  have h1 : u.byte a = t.byte a := by simp [State.byte, hm]
  rw [h1]
  exact (q hw).kept hw a ha

/-- The bytes of several accesses, one of them. -/
theorem accessedByte_mem {s : State} {la : Dword} {n : Nat} {l : List (Dword × Nat)} (h : (la, n) ∈ l) (a : Nat) :
    s.accessByte la n a → s.accessedByte l a := fun hy => ⟨_, h, hy⟩

/-- The bytes of several accesses, some of them. -/
theorem accessedByte_mono {s : State} {l l' : List (Dword × Nat)} (h : ∀ x ∈ l, x ∈ l') (a : Nat) :
    s.accessedByte l a → s.accessedByte l' a := fun ⟨x, hx, hy⟩ => ⟨x, h x hx, hy⟩

/-- The bytes of several accesses are the same after a quiet computation. -/
theorem accessedByte_quiet {P : Nat → Prop} {s t : State} {l : List (Dword × Nat)} {a : Nat} (q : Quiet P s t)
    (hw : Memory.wf s.mem = true) : t.accessedByte l a ↔ s.accessedByte l a := by
  simp only [State.accessedByte, accessByte_quiet q hw]

end Sys2Proof.Machine
end

