-- ==== Sys2Proof/Tests/Slice0.lean ====
section
/-! SUPPORT. The model's own tests: terms that well-formedness refuses, words written out from the encodings of
30_encoding.md, single steps whose results come from 95_test_vectors.md and the rules, and for each statement states and
operands that meet its hypotheses. -/

namespace Sys2Proof.Tests

open Sys2Proof.Machine

set_option Elab.async false

/-! ## Well-formedness -/

/-- No prefix, 32-bit code, the given length. -/
def c32 (n : Nat) : Ctx := ⟨[], true, n⟩

/-- No prefix, 16-bit code, the given length. -/
def c16 (n : Nat) : Ctx := ⟨[], false, n⟩

theorem test_wf_accepts : Instr.wf (.arpl (c32 3) (.mem (.ea32 .ebp (.d8 0x04#8))) .eax) = true := by decide

theorem test_wf_length : Instr.wf (.arpl (c32 4) (.mem (.ea32 .ebp (.d8 0x04#8))) .eax) = false := by decide

theorem test_wf_too_long : Instr.wf (.hlt ⟨List.replicate 15 .opSize, true, 16⟩) = false := by decide

theorem test_wf_lock : Instr.wf (.hlt ⟨[.lock], true, 2⟩) = false := by decide

theorem test_wf_lock_missing : Instr.wf (.lockPrefix (c32 2) (.xchg (.reg .eax) .ecx)) = false := by decide

theorem test_wf_lock_exchange_as_byte : Instr.wf (.lockPrefix ⟨[.lock], true, 2⟩ (.oneByte 0x87#8)) = false := by decide

theorem test_wf_lock_list_without_modrm :
    Instr.wf (.lockPrefix ⟨[.lock], true, 2⟩ (.oneByte 0x01#8)) = false
      ∧ Instr.wf (.lockPrefix ⟨[.lock], true, 3⟩ (.twoByte 0xAB#8)) = false := by decide

theorem test_wf_lock_other_with_modrm :
    Instr.wf (.lockPrefix ⟨[.lock], true, 3⟩ (.oneByteRm 0xB8#8 0x00#8)) = false
      ∧ Instr.wf (.lockPrefix ⟨[.lock], true, 4⟩ (.twoByteRm 0x01#8 0x00#8)) = false := by decide

theorem test_wf_bp_alone : Instr.wf (.lgdt (c16 3) (.mem (.ea16 .bp .none))) = false := by decide

theorem test_wf_ebp_alone : Instr.wf (.lgdt (c32 3) (.mem (.ea32 .ebp .none))) = false := by decide

theorem test_wf_esp_base : Instr.wf (.lgdt (c32 3) (.mem (.ea32 .esp .none))) = false := by decide

theorem test_wf_esp_index : Instr.wf (.lgdt (c32 4) (.mem (.sib 0#2 (some .esp) .eax .none))) = false := by decide

theorem test_wf_sib_ebp : Instr.wf (.lgdt (c32 4) (.mem (.sib 0#2 none .ebp .none))) = false := by decide

theorem test_wf_sibAbs_index : Instr.wf (.lgdt (c32 8) (.mem (.sibAbs 0#2 (some .esp) 0x00000000#32))) = false := by decide

theorem test_wf_address_size : Instr.wf (.lgdt (c16 3) (.mem (.ea32 .eax .none))) = false := by decide

theorem test_wf_address_size16 : Instr.wf (.lgdt (c32 5) (.mem (.abs16 0x0000#16))) = false := by decide

theorem test_wf_abs32 : Instr.wf (.lgdt (c16 7) (.mem (.abs32 0x00000000#32))) = false := by decide

theorem test_wf_immediate16 : Instr.wf (.jmpRel (c32 3) (.i16 0x0000#16)) = false := by decide

theorem test_wf_immediate32 : Instr.wf (.jmpRel (c16 5) (.i32 0x00000000#32)) = false := by decide

theorem test_wf_rep_on_insb : Instr.wf (.insb ⟨[.rep], true, 2⟩) = false := by decide

theorem test_wf_rep_missing : Instr.wf (.repPrefix (c32 1) .insb) = false := by decide

theorem test_wf_rep_listed : Instr.wf (.repPrefix ⟨[.rep], true, 2⟩ (.other 0xF4#8)) = false := by decide

theorem test_wf_rep_prefix_byte : Instr.wf (.repPrefix ⟨[.rep], true, 2⟩ (.other 0x66#8)) = false := by decide

theorem test_wf_rep_group_FE : Instr.wf (.repPrefix ⟨[.rep], true, 2⟩ (.other 0xFE#8)) = false := by decide

theorem test_wf_rep_escape : Instr.wf (.repPrefix ⟨[.rep], true, 2⟩ (.other 0x0F#8)) = false := by decide

/-! ## Decoding: words written out from 30_encoding.md -/

/-- Decoding in 32-bit code. -/
def d (bs : List Byte) : Decoded := decode true bs

theorem test_decode_arpl : d [0b01100011#8, 0b11011000#8] = .instr (.arpl (c32 2) (.reg .eax) .ebx) := by decide

-- 0F 02 /r, 0F 03 /r: reg is the destination
theorem test_decode_lar : d [0x0F#8, 0b00000010#8, 0b11000001#8] = .instr (.lar (c32 3) .eax (.reg .ecx)) := by decide

theorem test_decode_lsl : d [0x0F#8, 0b00000011#8, 0b11111001#8] = .instr (.lsl (c32 3) .edi (.reg .ecx)) := by decide

-- 0F 00 /0 to /5
theorem test_decode_group_0F00 :
    d [0x0F#8, 0x00#8, 0b11000011#8] = .instr (.sldt (c32 3) (.reg .ebx))
      ∧ d [0x0F#8, 0x00#8, 0b11001011#8] = .instr (.str (c32 3) (.reg .ebx))
      ∧ d [0x0F#8, 0x00#8, 0b11010011#8] = .instr (.lldt (c32 3) (.reg .ebx))
      ∧ d [0x0F#8, 0x00#8, 0b11011011#8] = .instr (.ltr (c32 3) (.reg .ebx))
      ∧ d [0x0F#8, 0x00#8, 0b11100011#8] = .instr (.verr (c32 3) (.reg .ebx))
      ∧ d [0x0F#8, 0x00#8, 0b11101011#8] = .instr (.verw (c32 3) (.reg .ebx))
      ∧ d [0x0F#8, 0x00#8, 0b11110011#8] = .invalid [0x0F#8, 0x00#8] := by decide

-- 0F 01 /0 to /4, /6; mod 00 rm 011 is [EBX]
theorem test_decode_group_0F01 :
    d [0x0F#8, 0x01#8, 0b00000011#8] = .instr (.sgdt (c32 3) (.mem (.ea32 .ebx .none)))
      ∧ d [0x0F#8, 0x01#8, 0b00001011#8] = .instr (.sidt (c32 3) (.mem (.ea32 .ebx .none)))
      ∧ d [0x0F#8, 0x01#8, 0b00010011#8] = .instr (.lgdt (c32 3) (.mem (.ea32 .ebx .none)))
      ∧ d [0x0F#8, 0x01#8, 0b00011011#8] = .instr (.lidt (c32 3) (.mem (.ea32 .ebx .none)))
      ∧ d [0x0F#8, 0x01#8, 0b11100011#8] = .instr (.smsw (c32 3) (.reg .ebx))
      ∧ d [0x0F#8, 0x01#8, 0b11110011#8] = .instr (.lmsw (c32 3) (.reg .ebx)) := by decide

-- 0F 20 to 0F 26: reg is the special register, rm the general one
theorem test_decode_special :
    d [0x0F#8, 0x06#8] = .instr (.clts (c32 2))
      ∧ d [0x0F#8, 0x20#8, 0b11010001#8] = .instr (.movFromCr (c32 3) .ecx 2#3 3#2)
      ∧ d [0x0F#8, 0x21#8, 0b11110001#8] = .instr (.movFromDr (c32 3) .ecx 6#3 3#2)
      ∧ d [0x0F#8, 0x22#8, 0b11011001#8] = .instr (.movToCr (c32 3) 3#3 .ecx 3#2)
      ∧ d [0x0F#8, 0x23#8, 0b11111001#8] = .instr (.movToDr (c32 3) 7#3 .ecx 3#2)
      ∧ d [0x0F#8, 0x24#8, 0b11110001#8] = .instr (.movFromTr (c32 3) .ecx 6#3 3#2)
      ∧ d [0x0F#8, 0x26#8, 0b11111001#8] = .instr (.movToTr (c32 3) 7#3 .ecx 3#2)
      ∧ d [0b11110100#8] = .instr (.hlt (c32 1)) := by decide

-- 8C /r, 8E /r: reg is the segment register (ES CS SS DS FS GS = 0 to 5)
theorem test_decode_mov_sreg :
    d [0x8C#8, 0b11011010#8] = .instr (.movFromSreg (c32 2) (.reg .edx) 3#3)
      ∧ d [0x8E#8, 0b11101010#8] = .instr (.movToSreg (c32 2) 5#3 (.reg .edx)) := by decide

theorem test_decode_push_sreg :
    d [0x06#8] = .instr (.pushEs (c32 1)) ∧ d [0x0E#8] = .instr (.pushCs (c32 1)) ∧ d [0x16#8] = .instr (.pushSs (c32 1))
      ∧ d [0x1E#8] = .instr (.pushDs (c32 1)) ∧ d [0x0F#8, 0xA0#8] = .instr (.pushFs (c32 2))
      ∧ d [0x0F#8, 0xA8#8] = .instr (.pushGs (c32 2)) := by decide

theorem test_decode_pop_sreg :
    d [0x07#8] = .instr (.popEs (c32 1)) ∧ d [0x17#8] = .instr (.popSs (c32 1)) ∧ d [0x1F#8] = .instr (.popDs (c32 1))
      ∧ d [0x0F#8, 0xA1#8] = .instr (.popFs (c32 2)) ∧ d [0x0F#8, 0xA9#8] = .instr (.popGs (c32 2)) := by decide

-- C5, C4, 0F B2, 0F B4, 0F B5; mod 10 rm 110 is [ESI + disp32]
theorem test_decode_far_pointers :
    d [0xC5#8, 0b10001110#8, 0x01#8, 0x02#8, 0x03#8, 0x04#8]
        = .instr (.lds (c32 6) .ecx (.mem (.ea32 .esi (.d32 0x04030201#32))))
      ∧ d [0xC4#8, 0b00001110#8] = .instr (.les (c32 2) .ecx (.mem (.ea32 .esi .none)))
      ∧ d [0x0F#8, 0xB2#8, 0b00100110#8] = .instr (.lss (c32 3) .esp (.mem (.ea32 .esi .none)))
      ∧ d [0x0F#8, 0xB4#8, 0b00001110#8] = .instr (.lfs (c32 3) .ecx (.mem (.ea32 .esi .none)))
      ∧ d [0x0F#8, 0xB5#8, 0b00001110#8] = .instr (.lgs (c32 3) .ecx (.mem (.ea32 .esi .none))) := by decide

-- EB cb, E9 cd, FF /4, E8 cd, FF /2, C3, C2 iw
theorem test_decode_near :
    d [0xEB#8, 0x8E#8] = .instr (.jmpRel8 (c32 2) 0x8E#8)
      ∧ d [0xE9#8, 0x01#8, 0x02#8, 0x03#8, 0x04#8] = .instr (.jmpRel (c32 5) (.i32 0x04030201#32))
      ∧ d [0xFF#8, 0b11100001#8] = .instr (.jmpNear (c32 2) (.reg .ecx))
      ∧ d [0xE8#8, 0x01#8, 0x02#8, 0x03#8, 0x04#8] = .instr (.callRel (c32 5) (.i32 0x04030201#32))
      ∧ d [0xFF#8, 0b11010001#8] = .instr (.callNear (c32 2) (.reg .ecx))
      ∧ d [0xC3#8] = .instr (.retNear (c32 1)) ∧ d [0xC2#8, 0x08#8, 0x00#8] = .instr (.retNearImm (c32 3) 0x0008#16) := by
  decide

-- EA cp, FF /5, 9A cp, FF /3, CB, CA iw
theorem test_decode_far :
    d [0xEA#8, 0x01#8, 0x02#8, 0x03#8, 0x04#8, 0x05#8, 0x06#8]
        = .instr (.jmpFar (c32 7) (.i32 0x04030201#32) 0x0605#16)
      ∧ d [0xFF#8, 0b00101001#8] = .instr (.jmpFarMem (c32 2) (.mem (.ea32 .ecx .none)))
      ∧ d [0x66#8, 0x9A#8, 0x01#8, 0x02#8, 0x03#8, 0x04#8]
        = .instr (.callFar ⟨[.opSize], true, 6⟩ (.i16 0x0201#16) 0x0403#16)
      ∧ d [0xFF#8, 0b00011001#8] = .instr (.callFarMem (c32 2) (.mem (.ea32 .ecx .none)))
      ∧ d [0xCB#8] = .instr (.retFar (c32 1)) ∧ d [0xCA#8, 0x08#8, 0x00#8] = .instr (.retFarImm (c32 3) 0x0008#16) := by
  decide

theorem test_decode_in_out :
    d [0xE4#8, 0x60#8] = .instr (.inAlImm (c32 2) 0x60#8) ∧ d [0xE5#8, 0x60#8] = .instr (.inAxImm (c32 2) 0x60#8)
      ∧ d [0xEC#8] = .instr (.inAlDx (c32 1)) ∧ d [0xED#8] = .instr (.inAxDx (c32 1))
      ∧ d [0xE6#8, 0x60#8] = .instr (.outImmAl (c32 2) 0x60#8) ∧ d [0xE7#8, 0x60#8] = .instr (.outImmAx (c32 2) 0x60#8)
      ∧ d [0xEE#8] = .instr (.outDxAl (c32 1)) ∧ d [0xEF#8] = .instr (.outDxAx (c32 1)) := by decide

theorem test_decode_strings :
    d [0x6C#8] = .instr (.insb (c32 1)) ∧ d [0x6D#8] = .instr (.insw (c32 1)) ∧ d [0x6E#8] = .instr (.outsb (c32 1))
      ∧ d [0x6F#8] = .instr (.outsw (c32 1)) ∧ d [0xF3#8, 0x6C#8] = .instr (.repPrefix ⟨[.rep], true, 2⟩ .insb)
      ∧ d [0xF3#8, 0xA4#8] = .instr (.repPrefix ⟨[.rep], true, 2⟩ (.other 0xA4#8)) := by decide

theorem test_decode_flags :
    d [0xFA#8] = .instr (.cli (c32 1)) ∧ d [0xFB#8] = .instr (.sti (c32 1)) ∧ d [0x9C#8] = .instr (.pushf (c32 1))
      ∧ d [0x9D#8] = .instr (.popf (c32 1)) := by decide

theorem test_decode_interrupts :
    d [0xCC#8] = .instr (.int3 (c32 1)) ∧ d [0xCD#8, 0x30#8] = .instr (.intImm (c32 2) 0x30#8)
      ∧ d [0xCE#8] = .instr (.into (c32 1)) ∧ d [0xCF#8] = .instr (.iret (c32 1))
      ∧ d [0x62#8, 0b00000011#8] = .instr (.bound (c32 2) .eax (.mem (.ea32 .ebx .none))) := by decide

theorem test_decode_coprocessor :
    d [0b11011001#8, 0b00000011#8] = .instr (.esc (c32 2) 1#3 0#3 (.mem (.ea32 .ebx .none)))
      ∧ d [0x9B#8] = .instr (.wait (c32 1))
      ∧ d [0xF0#8, 0x86#8, 0b00000011#8] = .instr (.lockPrefix ⟨[.lock], true, 3⟩ (.xchgByte (.mem (.ea32 .ebx .none)) .al))
      ∧ d [0xF0#8, 0xF4#8] = .instr (.lockPrefix ⟨[.lock], true, 2⟩ (.oneByte 0xF4#8))
      -- LOCK before INC r/m8 (FE /0) and BTS r/m, r (0F AB /r)
      ∧ d [0xF0#8, 0xFE#8, 0b00000011#8] = .instr (.lockPrefix ⟨[.lock], true, 3⟩ (.oneByteRm 0xFE#8 0b00000011#8))
      ∧ d [0xF0#8, 0x0F#8, 0xAB#8, 0b11000011#8]
        = .instr (.lockPrefix ⟨[.lock], true, 4⟩ (.twoByteRm 0xAB#8 0b11000011#8))
      ∧ d [0x86#8, 0b11100001#8] = .instr (.xchgByte (c32 2) (.reg .cl) .ah)
      ∧ d [0x87#8, 0b11001011#8] = .instr (.xchg (c32 2) (.reg .ebx) .ecx) := by decide

-- 16-bit addressing: mod 00 rm 110 is a 16-bit address; mod 10 rm 011 is [BP + DI + disp16]
theorem test_decode_ea16 :
    decode false [0x0F#8, 0x01#8, 0b00010110#8, 0x34#8, 0x12#8] = .instr (.lgdt (c16 5) (.mem (.abs16 0x1234#16)))
      ∧ decode false [0x0F#8, 0x01#8, 0b10010011#8, 0x34#8, 0x12#8]
        = .instr (.lgdt (c16 5) (.mem (.ea16 .bpDi (.d16 0x1234#16)))) := by decide

-- a SIB byte with base 101 and mod 00: a 32-bit address and an index
theorem test_decode_sibAbs :
    d [0x0F#8, 0x01#8, 0b00010100#8, 0b01001101#8, 0x78#8, 0x56#8, 0x34#8, 0x12#8]
      = .instr (.lgdt (c32 8) (.mem (.sibAbs 1#2 (some .ecx) 0x12345678#32))) := by decide

/-- V15.2: thirteen 66H toggle as one does; R241: two of them leave the default size, and so do two 67H. -/
theorem test_decode_toggles :
    (let c : Ctx := ⟨List.replicate 13 .opSize, true, 15⟩
     d (List.replicate 13 0x66#8 ++ [0x87#8, 0x03#8]) = .instr (.xchg c (.mem (.ea32 .ebx .none)) .eax) ∧ c.op32 = false)
      ∧ d [0x66#8, 0x66#8, 0xE9#8, 0x78#8, 0x56#8, 0x34#8, 0x12#8]
        = .instr (.jmpRel ⟨[.opSize, .opSize], true, 7⟩ (.i32 0x12345678#32))
      ∧ d [0x67#8, 0x67#8, 0x86#8, 0b00000011#8]
        = .instr (.xchgByte ⟨[.addrSize, .addrSize], true, 4⟩ (.mem (.ea32 .ebx .none)) .al) := by decide

theorem test_decode_stops :
    d [0x90#8] = .unlisted [0x90#8] ∧ d [0x0F#8, 0xFF#8] = .invalid [0x0F#8, 0xFF#8]
      ∧ d [0xFF#8, 0b11111000#8] = .invalid [0xFF#8] ∧ d [0xF3#8, 0xFE#8, 0b11010000#8] = .invalid [0xFE#8]
      ∧ d [0xFE#8, 0b11000000#8] = .unlisted [0xFE#8] ∧ d [0x0F#8] = .needMore ∧ d [] = .needMore
      ∧ d (List.replicate 15 0x66#8 ++ [0xF4#8]) = .tooLong := by decide

/-! ## States to test on -/

/-- Whether a computation completes with a value in a state. -/
def okIs {α : Type} [DecidableEq α] (r : EStateM.Result Err State α) (a : α) (t : State) : Bool :=
  match r with
  | .ok b u => decide (b = a) && decide (u = t)
  | .error _ _ => false

theorem ok_eq {α : Type} [DecidableEq α] {r : EStateM.Result Err State α} {a : α} {t : State}
    (h : okIs r a t = true) : r = .ok a t := by
  cases r with
  | ok b u => simp [okIs] at h; rw [h.1, h.2]
  | error e u => simp [okIs] at h

/-- Whether an instruction or a step answers a next state. -/
def nextIs (r : Host.Outcome State Fault Refusal) (t : State) : Bool :=
  match r with
  | .next u => decide (u = t)
  | .fault _ => false
  | .refused _ => false

/-- The next state it answers. -/
def nextOf (r : Host.Outcome State Fault Refusal) : Option State :=
  match r with
  | .next u => some u
  | .fault _ => none
  | .refused _ => none

/-- Whether it is refused with a name. -/
def refusedWith (r : Host.Outcome State Fault Refusal) (why : Refusal) : Bool :=
  match r with
  | .next _ => false
  | .fault _ => false
  | .refused w => decide (w = why)

/-- Whether it answers a next state of which something holds. -/
def nextHas (r : Host.Outcome State Fault Refusal) (p : State → Bool) : Bool :=
  match r with
  | .next u => p u
  | .fault _ => false
  | .refused _ => false

/-- Real-address mode: data segments with base 0, a stack at 1000H. -/
def real : State :=
  { State.reset with
    gpr := { Gpr.reset with eax := 0x11223344#32, ebx := 0x00000800#32, edx := 0x00000060#32, esp := 0x00001000#32,
                            esi := 0x00000800#32, edi := 0x00000900#32 }
    pc := 0x00001000#32
    seg := { State.reset.seg with cs := { SegReg.resetCode with sel := 0x0000#16, base := 0x00000000#32 } }
    free := { values := [0xAAAABBBB#32, 0xCCCCDDDD#32, 0x01234567#32], count := 0 } }

/-- Memory with RAM everywhere. -/
def ram (cells : List Host.Cell) : PhysMem := { map := [], cells := cells }

/-- A descriptor table at 10000H: the bytes that are not 0. -/
def tables : List Host.Cell :=
  -- 08H: code of level 0; 10H: data of level 0; 18H: code of level 3; 20H: data of level 3
  [(0x10008, 0xFF#8), (0x10009, 0xFF#8), (0x1000D, 0x9B#8), (0x1000E, 0xCF#8)]
  ++ [(0x10010, 0xFF#8), (0x10011, 0xFF#8), (0x10015, 0x93#8), (0x10016, 0xCF#8)]
  ++ [(0x10018, 0xFF#8), (0x10019, 0xFF#8), (0x1001D, 0xFB#8), (0x1001E, 0xCF#8)]
  ++ [(0x10020, 0xFF#8), (0x10021, 0xFF#8), (0x10025, 0xF3#8), (0x10026, 0xCF#8)]
  -- 28H: the busy TSS at 20000H; 30H: data of level 3, not accessed; 38H: the same, not present
  ++ [(0x10028, 0x67#8), (0x1002C, 0x02#8), (0x1002D, 0x8B#8)]
  ++ [(0x10030, 0xFF#8), (0x10031, 0x0F#8), (0x10034, 0x10#8), (0x10035, 0xF2#8), (0x10036, 0x40#8)]
  ++ [(0x10038, 0xFF#8), (0x10039, 0xFF#8), (0x1003D, 0x72#8), (0x1003E, 0xCF#8)]
  -- 40H: code of level 0, not present; 48H: conforming code of level 0
  ++ [(0x10040, 0xFF#8), (0x10041, 0xFF#8), (0x10045, 0x1B#8), (0x10046, 0xCF#8)]
  ++ [(0x10048, 0xFF#8), (0x10049, 0xFF#8), (0x1004D, 0x9E#8), (0x1004E, 0xCF#8)]
  -- 50H: an LDT, not present; 58H: a call gate to 0008:2000H with 1 doubleword; 60H: an available TSS at 21000H
  ++ [(0x10050, 0xFF#8), (0x10055, 0x02#8)]
  ++ [(0x10059, 0x20#8), (0x1005A, 0x08#8), (0x1005C, 0x01#8), (0x1005D, 0xEC#8)]
  ++ [(0x10060, 0x67#8), (0x10063, 0x10#8), (0x10064, 0x02#8), (0x10065, 0x89#8)]
  -- 68H: an LDT; 70H: an available TSS, not present
  ++ [(0x10068, 0xFF#8), (0x1006C, 0x03#8), (0x1006D, 0x82#8)]
  ++ [(0x10070, 0x67#8), (0x10075, 0x09#8)]
  -- the interrupt table at 11000H: vector 30H, an interrupt gate to 0008:2000H of level 3
  ++ [(0x11181, 0x20#8), (0x11182, 0x08#8), (0x11185, 0xEE#8)]
  -- the TSS at 20000H: ESP0 = 8000H, SS0 = 10H, the I/O map at 68H
  ++ [(0x20005, 0x80#8), (0x20008, 0x10#8), (0x20066, 0x68#8)]

/-- A flat segment of 4 gigabytes, from the high doubleword of its descriptor. -/
def flat (sel : Word) (hi : Dword) : SegReg := Descriptor.segReg { lo := 0x0000FFFF#32, hi := hi, addr := 0x00000000#32 } sel

/-- Protected mode at level 0 or 3, a stack at 1000H; `low` is the memory below the tables. -/
def prot (cpl : BitVec 2) (low : List Host.Cell) : State :=
  let data := if cpl = 0#2 then flat 0x0010#16 0x00CF9300#32 else flat 0x0023#16 0x00CFF300#32
  { real with
    cpl := cpl
    ctl := { cr0 := 0x00000011#32, cr2 := 0x00000000#32, cr3 := 0x00000000#32 }
    seg := { cs := if cpl = 0#2 then flat 0x0008#16 0x00CF9B00#32 else flat 0x001B#16 0x00CFFB00#32,
             ss := data, ds := data, es := data, fs := data, gs := data }
    gdtr := { base := 0x00010000#32, limit := 0x0077#16 }
    idtr := { base := 0x00011000#32, limit := 0x07FF#16 }
    tr := { sel := 0x0028#16, base := 0x00020000#32, limit := 0x00000067#32, valid := true }
    mem := ram (low ++ tables) }

/-- Protected mode at level 0. -/
def p0 : State := prot 0#2 []

/-- Protected mode at level 3. -/
def p3 : State := prot 3#2 []

/-- A state with another EAX. -/
def withEax (v : Dword) (s : State) : State := s.setReg .eax v

/-- A state with another EBX. -/
def withEbx (v : Dword) (s : State) : State := s.setReg .ebx v

/-- The cells of the descriptors of a table at an address, each a low and a high doubleword: the bytes that are not 0. -/
def entryCells : Nat → List (Dword × Dword) → List Host.Cell
  | _, [] => []
  | a, (lo, hi) :: r =>
    ((List.range 8).zip (toBytes 4 lo ++ toBytes 4 hi)).filterMap
        (fun x => if x.2 = 0x00#8 then none else some (a + x.1, x.2))
      ++ entryCells (a + 8) r

/-- A second descriptor table, for the exceptions of gates and tasks. -/
def entries2 : List (Dword × Dword) :=
  -- 08H: code of level 0 with limit 0FFFH; 10H: data of level 0
  [(0x00000000#32, 0x00000000#32), (0x00000FFF#32, 0x00409B00#32), (0x0000FFFF#32, 0x00CF9300#32)]
  -- call gates: 18H to 0008:2000H; 20H to 0008:0100H
  ++ [(0x00082000#32, 0x00008C00#32), (0x00080100#32, 0x00008C00#32)]
  -- 28H: the busy TSS at 20000H
  ++ [(0x00000067#32, 0x00008B02#32)]
  -- call gates: 30H to 0000; 38H to 00F8; 40H to 0010; 48H to 0058; 50H not present
  ++ [(0x00000100#32, 0x00008C00#32), (0x00F80100#32, 0x00008C00#32), (0x00100100#32, 0x00008C00#32)]
  ++ [(0x00580100#32, 0x00008C00#32), (0x00080100#32, 0x00000C00#32)]
  -- 58H: code of level 0, not present; 60H: an available TSS at 21000H; task gates to it: 68H, and 70H, not present
  ++ [(0x0000FFFF#32, 0x00CF1B00#32), (0x10000067#32, 0x00008902#32)]
  ++ [(0x00600000#32, 0x00008500#32), (0x00600000#32, 0x00000500#32)]
  -- available TSSs: 78H, not present; 80H, with limit 66H; 88H: an LDT; 90H: an LDT, not present
  ++ [(0x00000067#32, 0x00000900#32), (0x10000066#32, 0x00008902#32)]
  ++ [(0x000000FF#32, 0x00008203#32), (0x000000FF#32, 0x00000203#32)]
  -- 98H: code of level 3; A0H: data of level 0, not present; A8H: data of level 3
  ++ [(0x0000FFFF#32, 0x00CFFB00#32), (0x0000FFFF#32, 0x00CF1300#32), (0x0000FFFF#32, 0x00CFF300#32)]

/-- An interrupt table of task gates: vectors 00H and 0DH to 0060H, 01H not present, 02H to 0078H. -/
def vectors2 : List (Dword × Dword) :=
  [(0x00600000#32, 0x00008500#32), (0x00600000#32, 0x00000500#32), (0x00780000#32, 0x00008500#32)]
  ++ List.replicate 10 (0x00000000#32, 0x00000000#32) ++ [(0x00600000#32, 0x00008500#32)]

/-- Level 0 over these tables, and a task at 60H: EIP 3000H, flags 00000002H, CS 0008H, SS 0010H, the rest 0. -/
def p0x : State :=
  { p0 with
    gdtr := { base := 0x00022000#32, limit := 0x00AF#16 }
    idtr := { base := 0x00022100#32, limit := 0x006F#16 }
    mem := ram (tables ++ [(0x21021, 0x30#8), (0x21024, 0x02#8), (0x2104C, 0x08#8), (0x21050, 0x10#8)]
      ++ entryCells 0x22000 entries2 ++ entryCells 0x22100 vectors2) }

/-- The descriptor of an entry of the second table. -/
def descX (k : Nat) : Descriptor :=
  { lo := (entries2.getD k (0x00000000#32, 0x00000000#32)).1, hi := (entries2.getD k (0x00000000#32, 0x00000000#32)).2,
    addr := 0x00022000#32 + BitVec.ofNat 32 (8 * k) }

/-- The address in EBX, 32-bit addressing. -/
def atEbx : Ea := .ea32 .ebx .none

/-- The address in BX, 16-bit addressing. -/
def atBx : Ea := .ea16 .bx .none

/-! ## Witnesses: segment registers -/

theorem witness_PushSegmentRegister :
    real.flags.vm = false
      ∧ operandSpan .ss (real.stackBelow (c16 1).opBytes) (c16 1).opBytes .write real
          = .ok (Span.flat 0x00000FFE#32 2) real
      ∧ p3.flags.vm = false
      ∧ operandSpan .ss (p3.stackBelow (c32 1).opBytes) (c32 1).opBytes .write p3
          = .ok (Span.flat 0x00000FFC#32 4) p3 :=
  ⟨rfl, ok_eq (by decide), rfl, ok_eq (by decide)⟩

/-- The selectors 23H and 00H on the stack. -/
def popState : State := prot 3#2 [(0x01000, 0x23#8)]

theorem witness_PopSegmentRegister :
    popState.flags.vm = false
      ∧ operandSpan .ss (popState.stackOff 0) (c32 1).opBytes .read popState = .ok (Span.flat 0x00001000#32 4) popState
      ∧ loadSeg .ds (lowWord (fromBytes (Memory.readSpan popState.mem (Span.flat 0x00001000#32 4) 0 4))) popState
          = .ok { reg := .ds, val := flat 0x0023#16 0x00CFF300#32, marks := [] } popState
      ∧ loadSeg .ss (lowWord (fromBytes (Memory.readSpan popState.mem (Span.flat 0x00001000#32 4) 0 4))) popState
          = .ok { reg := .ss, val := flat 0x0023#16 0x00CFF300#32, marks := [] } popState :=
  ⟨rfl, ok_eq (by decide), ok_eq (by decide), ok_eq (by decide)⟩

/-- A far pointer to 0030H at 800H. -/
def farState : State := prot 3#2 [(0x00800, 0x11#8), (0x00804, 0x30#8)]

/-- The descriptor of entry 30H, not accessed. -/
def desc30 : Descriptor := { lo := 0x00000FFF#32, hi := 0x0040F210#32, addr := 0x00010030#32 }

/-- The store that sets its accessed bit. -/
def mark30 : Store := { span := Span.flat 0x00010034#32 4, bytes := [0x10#8, 0xF3#8, 0x40#8, 0x00#8] }

theorem witness_LoadFarPointer :
    farState.flags.vm = false
      ∧ operandSpan .ds (farState.eaOffset atEbx) 4 .read farState = .ok (Span.flat 0x00000800#32 4) farState
      ∧ operandSpan .ds (farState.eaOffset atEbx + BitVec.ofNat 32 4) 2 .read farState
          = .ok (Span.flat 0x00000804#32 2) farState
      ∧ loadSeg .es (lowWord (fromBytes (Memory.readSpan farState.mem (Span.flat 0x00000804#32 2) 0 2))) farState
          = .ok { reg := .es, val := desc30.segReg 0x0030#16, marks := [mark30] } farState :=
  ⟨rfl, ok_eq (by decide), ok_eq (by decide), ok_eq (by decide)⟩

theorem witness_MovToSegmentRegister :
    real.flags.vm = false ∧ sregOf 3#3 = some .ds ∧ rmRead16 (c16 2) (.reg .eax) real = .ok 0x3344#16 real
      ∧ loadSeg .ds 0x3344#16 real
          = .ok { reg := .ds, val := { real.seg.ds with sel := 0x3344#16, base := 0x00033440#32 }, marks := [] } real :=
  ⟨rfl, rfl, ok_eq (by decide), ok_eq (by decide)⟩

theorem witness_StoreSelector :
    real.flags.vm = false ∧ sregOf 5#3 = some .gs ∧ p3.pe = true
      ∧ operandSpan ((c16 2).eaSegment atBx) (real.eaOffset atBx) 2 .write real = .ok (Span.flat 0x00000800#32 2) real
      ∧ operandSpan ((c32 3).eaSegment atEbx) (p3.eaOffset atEbx) 2 .write p3 = .ok (Span.flat 0x00000800#32 2) p3 :=
  ⟨rfl, rfl, rfl, ok_eq (by decide), ok_eq (by decide)⟩

/-- The descriptor of entry 20H. -/
def desc20 : Descriptor := { lo := 0x0000FFFF#32, hi := 0x00CFF300#32, addr := 0x00010020#32 }

theorem witness_SegmentLoadValue :
    real.pe = false ∧ p3.pe = true ∧ selNull 0x0003#16 = true ∧ selNull 0x0023#16 = false
      ∧ readDescriptor 0x0033#16 p3 = .ok (some desc30) p3 ∧ markAccessed desc30 p3 = .ok [mark30] p3
      ∧ desc30.present = true ∧ desc30.attr.readable = true ∧ p3.cpl ≤ desc30.dpl ∧ selRpl 0x0033#16 ≤ desc30.dpl
      ∧ readDescriptor 0x0023#16 p3 = .ok (some desc20) p3 ∧ markAccessed desc20 p3 = .ok [] p3
      ∧ desc20.present = true ∧ desc20.attr.writable = true ∧ selRpl 0x0023#16 = p3.cpl ∧ desc20.dpl = p3.cpl :=
  ⟨by decide, by decide, by decide, by decide, ok_eq (by decide), ok_eq (by decide), by decide, by decide, by decide,
    by decide, ok_eq (by decide), ok_eq (by decide), by decide, by decide, by decide, by decide⟩

/-- The descriptor of entry 38H, not present. -/
def desc38 : Descriptor := { lo := 0x0000FFFF#32, hi := 0x00CF7200#32, addr := 0x00010038#32 }

/-- The descriptor of entry 10H. -/
def desc10 : Descriptor := { lo := 0x0000FFFF#32, hi := 0x00CF9300#32, addr := 0x00010010#32 }

theorem witness_SegmentLoadTraps :
    p3.flags.vm = false ∧ p3.pe = true ∧ sregOf 2#3 = some .ss ∧ sregOf 3#3 = some .ds
      ∧ (let s := withEax 0x00000003#32 p3; rmRead16 (c32 2) (.reg .eax) s = .ok 0x0003#16 s) ∧ selNull 0x0003#16 = true
      ∧ p3.lacksDescriptor 0x0078#16 = true ∧ p3.lacksDescriptor 0x0077#16 = true ∧ p3.lacksDescriptor 0x0073#16 = false
      ∧ readDescriptor 0x0010#16 p3 = .ok (some desc10) p3 ∧ ¬p3.cpl ≤ desc10.dpl
      ∧ readDescriptor 0x003B#16 p3 = .ok (some desc38) p3 ∧ desc38.present = false ∧ desc38.attr.writable = true
      ∧ selRpl 0x003B#16 = p3.cpl ∧ desc38.dpl = p3.cpl :=
  ⟨rfl, by decide, rfl, rfl, ok_eq (by decide), by decide, by decide, by decide, by decide, ok_eq (by decide), by decide,
    ok_eq (by decide), by decide, by decide, by decide, by decide⟩

/-- MOV, POP and LES get a selector: 38H in AX, on the stack, and above an offset. -/
theorem witness_SegmentLoadTraps_operands :
    (let s := withEax 0x0000003B#32 p3; selectorOperand (c32 2) (.movToSreg (c32 2) 2#3 (.reg .eax)) .ss 0x003B#16 s s)
      ∧ (let s := prot 3#2 [(0x01000, 0x3B#8)]; selectorOperand (c32 1) (.popDs (c32 1)) .ds 0x003B#16 s s)
      ∧ selectorOperand (c32 2) (.les (c32 2) .ecx (.mem atEbx)) .es 0x0030#16 farState farState :=
  ⟨.inl ⟨_, _, rfl, rfl, ok_eq (by decide)⟩, .inr (.inl ⟨by decide, 0x0000003B#32, ok_eq (by decide), rfl⟩),
    .inr (.inr ⟨.ecx, atEbx, 0x00000011#32, by simp, ok_eq (by decide)⟩)⟩

/-! ## Witnesses: pointer validation -/

theorem witness_AdjustRpl :
    p3.flags.vm = false ∧ p3.pe = true
      ∧ checkedSpan ((c32 2).eaSegment atEbx) (p3.eaOffset atEbx) 2 .write p3 = .ok (Span.flat 0x00000800#32 2) p3
      ∧ selRpl 0x0000#16 < selRpl 0x0003#16 ∧ ¬selRpl 0x0003#16 < selRpl 0x0003#16 :=
  ⟨rfl, by decide, ok_eq (by decide), by decide, by decide⟩

/-- The descriptor of entry 58H, a call gate. -/
def desc58 : Descriptor := { lo := 0x00082000#32, hi := 0x0000EC01#32, addr := 0x00010058#32 }

theorem witness_LoadRightsAndLimit :
    p3.flags.vm = false ∧ p3.pe = true
      ∧ (let s := withEax 0x00000033#32 p3; rmRead16 (c32 3) (.reg .eax) s = .ok 0x0033#16 s)
      ∧ readDescriptor 0x0033#16 p3 = .ok (some desc30) p3 ∧ testMarks desc30 p3 = .ok [mark30] p3
      ∧ desc30.attr.s = true ∧ selRpl 0x0033#16 ≤ desc30.dpl
      ∧ readDescriptor 0x0058#16 p3 = .ok (some desc58) p3 ∧ desc58.attr.s = false ∧ desc58.attr.typ = 0xC#4
      ∧ desc58.dpl = 3#2 ∧ testMarks desc58 p3 = .ok [] p3
      ∧ readDescriptor 0x0010#16 p3 = .ok (some desc10) p3 ∧ desc10.attr.conforming = false ∧ ¬p3.cpl ≤ desc10.dpl :=
  ⟨rfl, by decide, ok_eq (by decide), ok_eq (by decide), ok_eq (by decide), by decide, by decide, ok_eq (by decide),
    by decide, by decide, by decide, ok_eq (by decide), ok_eq (by decide), by decide, by decide⟩

/-- The descriptor of entry 18H, code of level 3. -/
def desc18 : Descriptor := { lo := 0x0000FFFF#32, hi := 0x00CFFB00#32, addr := 0x00010018#32 }

theorem witness_VerifyAccess :
    p3.flags.vm = false ∧ p3.pe = true
      ∧ (let s := withEax 0x0000001B#32 p3; rmRead16 (c32 3) (.reg .eax) s = .ok 0x001B#16 s)
      ∧ readDescriptor 0x001B#16 p3 = .ok (some desc18) p3 ∧ testMarks desc18 p3 = .ok [] p3
      ∧ p3.cpl ≤ desc18.dpl ∧ selRpl 0x001B#16 ≤ desc18.dpl ∧ desc18.attr.readable = true
      ∧ desc18.attr.writable = false :=
  ⟨rfl, by decide, ok_eq (by decide), ok_eq (by decide), ok_eq (by decide), by decide, by decide, by decide, by decide⟩

theorem witness_SelectorTestOfNothing :
    p3.flags.vm = false ∧ p3.pe = true
      ∧ (let s := withEax 0x00000078#32 p3; rmRead16 (c32 3) (.reg .eax) s = .ok 0x0078#16 s)
      ∧ selNull 0x0000#16 = true ∧ p3.lacksDescriptor 0x0078#16 = true ∧ p3.lacksDescriptor 0x000C#16 = true :=
  ⟨rfl, by decide, ok_eq (by decide), by decide, by decide, by decide⟩

/-! ## Witnesses: system registers -/

theorem witness_LoadLdtRegister :
    p0.flags.vm = false ∧ p0.pe = true ∧ p0.cpl = 0#2
      ∧ (let s := withEax 0x00000068#32 p0; rmRead16 (c32 3) (.reg .eax) s = .ok 0x0068#16 s)
      ∧ selNull 0x0000#16 = true ∧ selTi 0x006C#16 = true ∧ p0.lacksDescriptor 0x0078#16 = true
      ∧ readDescriptor 0x0010#16 p0 = .ok (some desc10) p0 ∧ desc10.kind ≠ 0b00010#5
      ∧ (let d : Descriptor := { lo := 0x000000FF#32, hi := 0x00000200#32, addr := 0x00010050#32 }
         readDescriptor 0x0050#16 p0 = .ok (some d) p0 ∧ d.kind = 0b00010#5 ∧ d.present = false)
      ∧ (let d : Descriptor := { lo := 0x000000FF#32, hi := 0x00008203#32, addr := 0x00010068#32 }
         readDescriptor 0x0068#16 p0 = .ok (some d) p0 ∧ d.kind = 0b00010#5 ∧ d.present = true) :=
  ⟨rfl, by decide, rfl, ok_eq (by decide), by decide, by decide, by decide, ok_eq (by decide), by decide,
    ⟨ok_eq (by decide), by decide, by decide⟩, ok_eq (by decide), by decide, by decide⟩

/-- The descriptor of entry 60H, an available TSS. -/
def desc60 : Descriptor := { lo := 0x10000067#32, hi := 0x00008902#32, addr := 0x00010060#32 }

theorem witness_LoadTaskRegister :
    p0.flags.vm = false ∧ p0.pe = true ∧ p0.cpl = 0#2
      ∧ (let s := withEax 0x00000060#32 p0; rmRead16 (c32 3) (.reg .eax) s = .ok 0x0060#16 s)
      ∧ selNull 0x0003#16 = true ∧ selTi 0x0064#16 = true ∧ p0.lacksDescriptor 0x0078#16 = true
      ∧ (let d : Descriptor := { lo := 0x00000067#32, hi := 0x00008B02#32, addr := 0x00010028#32 }
         readDescriptor 0x0028#16 p0 = .ok (some d) p0 ∧ d.kind ∉ [0b01001#5, 0b00001#5, 0b00011#5])
      ∧ (let d : Descriptor := { lo := 0x00000067#32, hi := 0x00000900#32, addr := 0x00010070#32 }
         readDescriptor 0x0070#16 p0 = .ok (some d) p0 ∧ d.kind = 0b01001#5 ∧ d.present = false)
      ∧ readDescriptor 0x0060#16 p0 = .ok (some desc60) p0 ∧ desc60.kind = 0b01001#5 ∧ desc60.present = true
      ∧ sysPrepare (desc60.addr + 4#32) (toBytes 4 (desc60.hi ||| 0x00000200#32)) p0
          = .ok { span := Span.flat 0x00010064#32 4, bytes := [0x02#8, 0x8B#8, 0x00#8, 0x00#8] } p0 :=
  ⟨rfl, by decide, rfl, ok_eq (by decide), by decide, by decide, by decide, ⟨ok_eq (by decide), by decide⟩,
    ⟨ok_eq (by decide), by decide, by decide⟩, ok_eq (by decide), by decide, by decide, ok_eq (by decide)⟩

theorem witness_StoreTableRegister :
    real.flags.vm = false
      ∧ operandSpan ((c16 3).eaSegment atBx) (real.eaOffset atBx) 2 .write real = .ok (Span.flat 0x00000800#32 2) real
      ∧ operandSpan ((c16 3).eaSegment atBx) (real.eaOffset atBx + 2#32) 4 .write real
          = .ok (Span.flat 0x00000802#32 4) real :=
  ⟨rfl, ok_eq (by decide), ok_eq (by decide)⟩

theorem witness_LoadTableRegister :
    real.flags.vm = false ∧ p0.flags.vm = false ∧ p0.cpl = 0#2
      ∧ operandSpan ((c16 3).eaSegment atBx) (real.eaOffset atBx) 2 .read real = .ok (Span.flat 0x00000800#32 2) real
      ∧ operandSpan ((c16 3).eaSegment atBx) (real.eaOffset atBx + 2#32) 4 .read real
          = .ok (Span.flat 0x00000802#32 4) real :=
  ⟨rfl, rfl, rfl, ok_eq (by decide), ok_eq (by decide)⟩

theorem witness_MachineStatusWord :
    p3.flags.vm = false ∧ p0.flags.vm = false ∧ p0.cpl = 0#2
      ∧ operandSpan ((c32 3).eaSegment atEbx) (p3.eaOffset atEbx) 2 .write p3 = .ok (Span.flat 0x00000800#32 2) p3
      ∧ rmRead16 (c32 3) (.reg .eax) p0 = .ok 0x3344#16 p0 :=
  ⟨rfl, rfl, rfl, ok_eq (by decide), ok_eq (by decide)⟩

theorem witness_ClearTaskSwitched :
    p3.flags.vm = false ∧ p3.pe = true ∧ p3.cpl ≠ 0#2 ∧ p0.cpl = 0#2 ∧ real.pe = false := by decide

theorem witness_ReadSpecialRegister :
    p0.flags.vm = false ∧ p0.cpl = 0#2 ∧ p0.params.iceInUse = false ∧ real.pe = false := by decide

theorem witness_WriteSpecialRegister :
    p0.flags.vm = false ∧ p0.cpl = 0#2
      ∧ (let v := (withEax 0x80000000#32 p0).reg .eax; v.getLsbD 31 = true ∧ v.getLsbD 0 = false)
      ∧ (let v := (withEax 0x80000001#32 p0).reg .eax; ¬(v.getLsbD 31 = true ∧ v.getLsbD 0 = false)) := by decide

/-- A lookup or write request in EAX, the pairs D = 0, U = 1, W = 1, V = 1. -/
def tlbState (command : Dword) (tr7 : Dword) : State :=
  let s := withEax (0x00005B40#32 ||| command) p0
  { s with tlb := { s.tlb with tr7 := tr7 } }

theorem witness_TlbTestCommands :
    (let s := tlbState 0x00000000#32 0x00077018#32
     let v := s.reg .eax
     v.getLsbD 9 = !v.getLsbD 10 ∧ v.getLsbD 7 = !v.getLsbD 8 ∧ v.getLsbD 5 = !v.getLsbD 6 ∧ v.getLsbD 0 = false
       ∧ s.tlb.tr7.getLsbD 4 = true)
      ∧ (let s := tlbState 0x00000001#32 0x00000000#32
         let v := s.reg .eax
         v.getLsbD 0 = true ∧ v.getLsbD 11 = true ∧ ∀ b, b < 4 → (s.tlb.entry b (tlbIndex (pageOf v))).v = false)
      ∧ (let s := tlbState 0x00000001#32 0x00000000#32
         let v := s.reg .eax
         let e : TlbEntry := { known := true, v := true, la := pageOf v, d := false, u := true, w := true, pa := 7#20 }
         let t := s.tlb.setEntry 2 (tlbIndex (pageOf v)) e
         t.entry 2 (tlbIndex (pageOf v)) = e ∧ ∀ b, b < 4 → b ≠ 2 → (t.entry b (tlbIndex (pageOf v))).v = false) := by
  decide

/-! ## Witnesses: control transfers -/

theorem witness_NearJump :
    real.flags.vm = false ∧ (∃ d, Instr.jmpRel8 (c16 2) 0x10#8 = .jmpRel8 (c16 2) d)
      ∧ rmRead (c32 2) (.reg .eax) (c32 2).opBytes real = .ok 0x11223344#32 real
      ∧ real.segOk .cs 0x0000FFFF#32 1 .fetch = true ∧ real.segOk .cs 0x00010000#32 1 .fetch = false :=
  ⟨rfl, ⟨_, rfl⟩, ok_eq (by decide), by decide, by decide⟩

theorem witness_NearCall :
    real.flags.vm = false ∧ rmRead (c16 2) (.reg .eax) (c16 2).opBytes real = .ok 0x00003344#32 real
      ∧ real.segOk .cs 0x00003344#32 1 .fetch = true ∧ real.segOk .cs 0x00010000#32 1 .fetch = false
      ∧ operandSpan .ss (real.stackBelow 2) 2 .write real = .ok (Span.flat 0x00000FFE#32 2) real :=
  ⟨rfl, ok_eq (by decide), by decide, by decide, ok_eq (by decide)⟩

/-- Real-address mode with the words 1234H, 5678H and 0202H on the stack. -/
def realStack : State :=
  { real with mem := ram [(0x01000, 0x34#8), (0x01001, 0x12#8), (0x01002, 0x78#8), (0x01003, 0x56#8), (0x01004, 0x02#8),
                      (0x01005, 0x02#8)] }

theorem witness_NearReturn :
    realStack.flags.vm = false ∧ stackRead 0 2 realStack = .ok 0x00001234#32 realStack
      ∧ realStack.segOk .cs 0x00001234#32 1 .fetch = true
      ∧ stackRead 0 4 realStack = .ok 0x56781234#32 realStack ∧ realStack.segOk .cs 0x56781234#32 1 .fetch = false :=
  ⟨rfl, ok_eq (by decide), by decide, ok_eq (by decide), by decide⟩

/-- Real-address mode with the far pointer 5678H:1234H at 800H. -/
def realPointer : State :=
  { real with mem := ram [(0x00800, 0x34#8), (0x00801, 0x12#8), (0x00802, 0x78#8), (0x00803, 0x56#8)] }

theorem witness_FarTransferReal :
    real.flags.vm = false ∧ real.pe = false
      ∧ farOperand (c16 5) (.jmpFar (c16 5)) (.jmpFarMem (c16 5)) (.jmpFar (c16 5) (.i16 0x1234#16) 0x5678#16)
          0x00001234#32 0x5678#16 [] real real
      ∧ farPointer (c16 2) (.mem atBx) realPointer = .ok (0x00001234#32, 0x5678#16) realPointer
      ∧ operandSpan .ss (real.stackBelow 2) 2 .write real = .ok (Span.flat 0x00000FFE#32 2) real
      ∧ operandSpan .ss (real.stackBelow (2 * 2)) 2 .write real = .ok (Span.flat 0x00000FFC#32 2) real :=
  ⟨rfl, by decide, .inl ⟨.i16 0x1234#16, rfl, by decide, rfl, rfl⟩, ok_eq (by decide), ok_eq (by decide),
    ok_eq (by decide)⟩

theorem witness_FarReturnReal :
    realStack.flags.vm = false ∧ realStack.pe = false ∧ (realStack.stackOff 0).toNat + 2 * 2 ≤ 65536
      ∧ stackRead 0 2 realStack = .ok 0x00001234#32 realStack ∧ stackRead 2 2 realStack = .ok 0x00005678#32 realStack
      ∧ (let s := real.setReg .esp 0x0000FFFC#32
         (s.stackOff 0).toNat + 2 * 2 ≤ 65536 ∧ stackRead 0 2 s = .ok 0x00000000#32 s
           ∧ stackRead 2 2 s = .ok 0x00000000#32 s)
      ∧ (let s := real.setReg .esp 0x0000FFFD#32; 65536 < (s.stackOff 0).toNat + 2 * 2) :=
  ⟨rfl, by decide, by decide, ok_eq (by decide), ok_eq (by decide), ⟨by decide, ok_eq (by decide), ok_eq (by decide)⟩,
    by decide⟩

/-- The descriptor of entry 08H, code of level 0. -/
def desc08 : Descriptor := { lo := 0x0000FFFF#32, hi := 0x00CF9B00#32, addr := 0x00010008#32 }

/-- The descriptor of entry 48H, conforming code of level 0, not accessed. -/
def desc48 : Descriptor := { lo := 0x0000FFFF#32, hi := 0x00CF9E00#32, addr := 0x00010048#32 }

theorem witness_FarTransferSameLevel :
    p0.flags.vm = false ∧ p0.pe = true ∧ selNull 0x0003#16 = true
      ∧ farOperand (c32 7) (.jmpFar (c32 7)) (.jmpFarMem (c32 7)) (.jmpFar (c32 7) (.i32 0x00002000#32) 0x0008#16)
          0x00002000#32 0x0008#16 [] p0 p0
      ∧ readDescriptor 0x0008#16 p0 = .ok (some desc08) p0 ∧ desc08.attr.code = true ∧ desc08.dpl = p0.cpl
      ∧ desc08.present = true ∧ desc08.holds 0x00002000#32 = true ∧ markAccessed desc08 p0 = .ok [] p0
      ∧ readDescriptor 0x001B#16 p0 = .ok (some desc18) p0 ∧ desc18.attr.conforming = false ∧ desc18.dpl ≠ p0.cpl
      ∧ (let d : Descriptor := { lo := 0x0000FFFF#32, hi := 0x00CF1B00#32, addr := 0x00010040#32 }
         readDescriptor 0x0040#16 p0 = .ok (some d) p0 ∧ d.attr.code = true ∧ d.dpl = p0.cpl ∧ d.present = false)
      ∧ readDescriptor 0x0048#16 p3 = .ok (some desc48) p3 ∧ desc48.attr.conforming = true ∧ desc48.dpl ≤ p3.cpl
      ∧ operandSpan .ss (p0.stackBelow 4) 4 .write p0 = .ok (Span.flat 0x00000FFC#32 4) p0
      ∧ operandSpan .ss (p0.stackBelow (2 * 4)) 4 .write p0 = .ok (Span.flat 0x00000FF8#32 4) p0
      ∧ markAccessed desc08 (p0.afterSlot 4) = .ok [] (p0.afterSlot 4) :=
  ⟨rfl, by decide, by decide, .inl ⟨.i32 0x00002000#32, rfl, rfl, rfl, rfl⟩, ok_eq (by decide), by decide, by decide,
    by decide, by decide, ok_eq (by decide), ok_eq (by decide), by decide, by decide,
    ⟨ok_eq (by decide), by decide, by decide, by decide⟩, ok_eq (by decide), by decide, by decide, ok_eq (by decide),
    ok_eq (by decide), ok_eq (by decide)⟩

/-- A doubleword's store at an address. -/
def store4 (a : Dword) (v : Dword) : Store := { span := Span.flat a 4, bytes := toBytes 4 v }

theorem witness_InterlevelCall :
    p3.flags.vm = false ∧ p3.pe = true
      ∧ farOperand (c32 7) (.callFar (c32 7)) (.callFarMem (c32 7)) (.callFar (c32 7) (.i32 0x00000000#32) 0x005B#16)
          0x00000000#32 0x005B#16 [] p3 p3
      ∧ selNull 0x005B#16 = false ∧ readDescriptor 0x005B#16 p3 = .ok (some desc58) p3 ∧ desc58.kind = 0b01100#5 ∧ desc58.present = true
      ∧ p3.cpl ≤ desc58.dpl ∧ selRpl 0x005B#16 ≤ desc58.dpl ∧ selNull desc58.gateSel = false
      ∧ readDescriptor desc58.gateSel p3 = .ok (some desc08) p3 ∧ desc08.attr.code = true
      ∧ desc08.attr.conforming = false ∧ desc08.dpl < p3.cpl ∧ desc08.present = true ∧ desc08.holds desc58.gateOff = true
      ∧ innerStack desc08.dpl false p3 = .ok (0x00008000#32, 0x0010#16) p3 ∧ selNull 0x0010#16 = false
      ∧ readDescriptor 0x0010#16 p3 = .ok (some desc10) p3 ∧ selRpl 0x0010#16 = desc08.dpl ∧ desc10.dpl = desc08.dpl
      ∧ desc10.attr.writable = true ∧ desc10.present = true
      ∧ (desc10.segReg 0x0010#16).inLimit (0x00008000#32 - BitVec.ofNat 32 20) (16 + 4 * desc58.gateCount) = true
      ∧ readParams 0 desc58.gateCount p3 = .ok [0x00000000#32] p3
      ∧ markAccessed desc10 p3.freed.freed = .ok [] p3.freed.freed
      ∧ markAccessed desc08 p3.freed.freed = .ok [] p3.freed.freed
      ∧ innerPushes (desc10.segReg 0x0010#16) 0x00008000#32
          ([toBytes 4 (withLowWord p3.free.head p3.seg.ss.sel), toBytes 4 p3.gpr.esp] ++ [toBytes 4 0x00000000#32]
            ++ [toBytes 4 (withLowWord p3.free.next.head p3.seg.cs.sel), toBytes 4 0x00001007#32]) p3.freed.freed
        = .ok [store4 0x00007FFC#32 0xAAAA0023#32, store4 0x00007FF8#32 0x00001000#32, store4 0x00007FF4#32 0x00000000#32,
            store4 0x00007FF0#32 0xCCCC001B#32, store4 0x00007FEC#32 0x00001007#32] p3.freed.freed :=
  ⟨rfl, by decide, .inl ⟨.i32 0x00000000#32, rfl, rfl, rfl, rfl⟩, by decide, ok_eq (by decide), by decide, by decide,
    by decide, by decide, by decide, ok_eq (by decide), by decide, by decide, by decide, by decide, by decide,
    ok_eq (by decide), by decide, ok_eq (by decide), by decide, by decide, by decide, by decide, by decide,
    ok_eq (by decide), ok_eq (by decide), ok_eq (by decide), ok_eq (by decide)⟩

/-- Level 0 with 2000H, 0008H and 00000202H on the stack. -/
def frameSame : State := prot 0#2 [(0x01001, 0x20#8), (0x01004, 0x08#8), (0x01008, 0x02#8), (0x01009, 0x02#8)]

/-- Level 0 with a return to level 3 on the stack: 001BH:2000H, then 0023H:0900H. -/
def frameOuter : State := prot 0#2 [(0x01001, 0x20#8), (0x01004, 0x1B#8), (0x01009, 0x09#8), (0x0100C, 0x23#8)]

theorem witness_FarReturnProtected :
    frameSame.flags.vm = false ∧ frameSame.pe = true
      ∧ frameSame.segOk .ss (frameSame.stackOff 0) (2 * 4) .read = true
      ∧ stackRead 0 4 frameSame = .ok 0x00002000#32 frameSame ∧ stackRead 4 4 frameSame = .ok 0x00000008#32 frameSame
      ∧ selRpl 0x0008#16 = frameSame.cpl ∧ selRpl 0x0008#16 < p3.cpl ∧ selNull 0x0008#16 = false
      ∧ readDescriptor 0x0008#16 frameSame = .ok (some desc08) frameSame ∧ desc08.holds 0x00002000#32 = true
      ∧ markAccessed desc08 frameSame = .ok [] frameSame
      ∧ frameOuter.segOk .ss (frameOuter.stackOff 0) (8 + 2 * 4) .read = true
      ∧ stackRead 0 4 frameOuter = .ok 0x00002000#32 frameOuter ∧ stackRead 4 4 frameOuter = .ok 0x0000001B#32 frameOuter
      ∧ readDescriptor 0x001B#16 frameOuter = .ok (some desc18) frameOuter ∧ desc18.dpl = selRpl 0x001B#16
      ∧ desc18.present = true ∧ desc18.attr.code = true ∧ frameOuter.cpl < selRpl 0x001B#16
      ∧ stackRead 8 4 frameOuter = .ok 0x00000900#32 frameOuter ∧ stackRead 12 4 frameOuter = .ok 0x00000023#32 frameOuter
      ∧ readDescriptor 0x0023#16 frameOuter = .ok (some desc20) frameOuter ∧ desc20.attr.writable = true
      ∧ desc20.dpl = 3#2 ∧ desc20.present = true ∧ markAccessed desc18 frameOuter = .ok [] frameOuter
      ∧ markAccessed desc20 frameOuter = .ok [] frameOuter :=
  ⟨rfl, by decide, by decide, ok_eq (by decide), ok_eq (by decide), by decide, by decide, by decide, ok_eq (by decide),
    by decide, ok_eq (by decide), by decide, ok_eq (by decide), ok_eq (by decide), ok_eq (by decide), by decide,
    by decide, by decide, by decide, ok_eq (by decide), ok_eq (by decide), ok_eq (by decide), by decide, by decide,
    by decide, ok_eq (by decide), ok_eq (by decide)⟩

/-! ## Witnesses: input and output, flags -/

theorem witness_InputPort :
    ioPermit (lowWord real.gpr.edx) 4 real = .ok () real ∧ (lowWord real.gpr.edx).toNat + 4 ≤ 65536
      ∧ (0xFFFC#16 : Word).toNat + 4 ≤ 65536 ∧ (0xFFFD#16 : Word).toNat + 4 > 65536
      ∧ ioPermit 0xFFFD#16 4 real = .ok () real :=
  ⟨ok_eq (by decide), by decide, by decide, by decide, ok_eq (by decide)⟩

/-- Level 3 with a map of I/O permissions: the TSS limit is 76H, so ports up to 77H are in the map, all 0. -/
def mapState : State := { p3 with tr := { p3.tr with limit := 0x00000076#32 } }

theorem witness_OutputPort :
    ioPermit 0x0060#16 1 mapState = .ok () mapState ∧ (0x0060#16 : Word).toNat + 1 ≤ 65536
      ∧ (0xFFFF#16 : Word).toNat + 1 ≤ 65536 ∧ (0xFFFF#16 : Word).toNat + 2 > 65536
      ∧ ioPermit 0xFFFF#16 2 real = .ok () real :=
  ⟨ok_eq (by decide), by decide, by decide, by decide, ok_eq (by decide)⟩

theorem witness_StringPorts :
    real.flags.vm = false ∧ ioPermit (lowWord real.gpr.edx) 2 real = .ok () real
      ∧ (lowWord real.gpr.edx).toNat + 2 ≤ 65536
      ∧ operandSpan .es (real.stringOff (c16 1) .edi) 2 .write real = .ok (Span.flat 0x00000900#32 2) real
      ∧ operandSpan ((c16 1).segment .ds) (real.stringOff (c16 1) .esi) 2 .read real
          = .ok (Span.flat 0x00000800#32 2) real :=
  ⟨rfl, ok_eq (by decide), by decide, ok_eq (by decide), ok_eq (by decide)⟩

theorem witness_RepeatedString :
    real.flags.vm = false ∧ real.stringOff (c16 2) .ecx = 0x00000000#32
      ∧ (let s := real.setReg .ecx 0x00010001#32
         s.stringOff (c16 2) .ecx = 0x00000001#32
           ∧ outsStep (c16 2) 1 s = .ok () ((s.logIo
              { write := true, port := 0x0060#16, size := 1, value := 0x00000000#32 }).setReg .esi 0x00000801#32))
      ∧ (let s := real.setReg .ecx 0x00000002#32
         s.stringOff (c16 2) .ecx = 0x00000002#32
           ∧ outsStep (c16 2) 1 s = .ok () ((s.logIo
              { write := true, port := 0x0060#16, size := 1, value := 0x00000000#32 }).setReg .esi 0x00000801#32)) :=
  ⟨rfl, by decide, ⟨by decide, ok_eq (by decide)⟩, by decide, ok_eq (by decide)⟩

theorem witness_NoIoMap :
    (p3.setReg .ecx 0x00000002#32).stringOff (c32 2) .ecx ≠ 0x00000000#32
      ∧ p3.flags.vm = false ∧ p3.pe = true ∧ p3.flags.iopl < p3.cpl ∧ p3.tr.valid = true
      ∧ sysRead (p3.tr.base + 0x66#32) 2 p3 = .ok 0x00000068#32 p3 ∧ p3.tr.limit.toNat ≤ (0x00000068#32 : Dword).toNat
      ∧ (0x00000067#32 : Dword).toNat ≤ (0x00000067#32 : Dword).toNat :=
  ⟨by decide, rfl, by decide, by decide, rfl, ok_eq (by decide), by decide, by decide⟩

theorem witness_IoMap :
    mapState.pe = true ∧ mapState.flags.iopl < mapState.cpl ∧ mapState.pg = false ∧ mapState.tr.valid = true
      ∧ (let base := (fromBytes (Memory.readSpan mapState.mem (Span.flat (mapState.tr.base + 0x66#32) 2) 0 2)).toNat
         base < mapState.tr.limit.toNat ∧ base + 0x77 / 8 ≤ mapState.tr.limit.toNat
           ∧ (mapState.byte (mapState.tr.base + BitVec.ofNat 32 (base + 0x77 / 8)).toNat).getLsbD (0x77 % 8) = false
           ∧ ¬base + 0x78 / 8 ≤ mapState.tr.limit.toNat) := by decide

theorem witness_ClearInterrupts :
    p3.flags.vm = false ∧ p3.pe = true ∧ p3.flags.iopl < p3.cpl ∧ p0.cpl ≤ p0.flags.iopl ∧ real.pe = false := by decide

theorem witness_FlagInstructions :
    p3.flags.vm = false ∧ p3.flags.iopl < p3.cpl ∧ p0.cpl ≤ p0.flags.iopl
      ∧ operandSpan .ss (p3.stackBelow 4) 4 .write p3 = .ok (Span.flat 0x00000FFC#32 4) p3
      ∧ stackRead 0 2 realStack = .ok 0x00001234#32 realStack ∧ stackRead 0 4 p3 = .ok 0x00000000#32 p3 :=
  ⟨rfl, by decide, by decide, ok_eq (by decide), ok_eq (by decide), ok_eq (by decide)⟩

/-! ## Witnesses: interrupts and exceptions -/

theorem witness_SoftwareInterrupts :
    real.flags.vm = false ∧ real.flags.ovf = false ∧ real.pe = false ∧ real.pg = false ∧ p0.pe = true
      ∧ 4 * (0x03#8 : Byte).toNat + 3 ≤ real.idtr.limit.toNat ∧ 4 * (0xFF#8 : Byte).toNat + 3 ≤ real.idtr.limit.toNat
      ∧ (∀ k ∈ [2, 4, 6], (real.stackBelow k).toNat + 2 ≤ 65536)
      ∧ (let s := { real with flags := { real.flags with ovf := true } }; s.flags.ovf = true ∧ s.flags.vm = false) := by
  decide

/-- The software interrupt 30H. -/
def int30 : Event := { vector := 0x30#8, kind := .software, code := none }

/-- Its gate. -/
def gate30 : Descriptor := { lo := 0x00082000#32, hi := 0x0000EE00#32, addr := 0x00011180#32 }

theorem witness_DeliverSameLevel :
    p0.flags.vm = false ∧ p0.pe = true ∧ p0.savedEip int30 = p0
      ∧ 8 * int30.vector.toNat + 7 ≤ p0.idtr.limit.toNat
      ∧ (let s := p0.setDelivering (some int30.excClass)
         sysRead (p0.idtr.base + BitVec.ofNat 32 (8 * int30.vector.toNat)) 4 s = .ok gate30.lo s
           ∧ sysRead (p0.idtr.base + BitVec.ofNat 32 (8 * int30.vector.toNat) + 4#32) 4 s = .ok gate30.hi s
           ∧ readDescriptor gate30.gateSel s = .ok (some desc08) s
           ∧ pushAll 0 ([toBytes 4 { p0.flags with rf := p0.flags.rf || decide (int30.kind = EventKind.fault) }.pack,
                toBytes 4 (withLowWord p0.free.head p0.seg.cs.sel), toBytes 4 p0.pc] ++ codePush int30) s.freed
              = .ok [store4 0x00000FFC#32 0x00000002#32, store4 0x00000FF8#32 0xAAAA0008#32,
                  store4 0x00000FF4#32 0x00001000#32] s.freed
           ∧ markAccessed desc08 s.freed = .ok [] s.freed)
      ∧ gate30.kind ∈ [0b01110#5, 0b01111#5] ∧ p0.cpl ≤ gate30.dpl ∧ gate30.present = true
      ∧ selNull gate30.gateSel = false ∧ desc08.attr.code = true ∧ desc08.dpl = p0.cpl ∧ desc08.present = true
      ∧ desc08.holds gate30.gateOff = true ∧ p0.seg.ss.valid = true
      ∧ p0.seg.ss.inLimit (p0.gpr.esp - BitVec.ofNat 32 12) (12 + 4 * (codePush int30).length) = true :=
  ⟨rfl, by decide, by decide, by decide,
    ⟨ok_eq (by decide), ok_eq (by decide), ok_eq (by decide), ok_eq (by decide), ok_eq (by decide)⟩,
    by decide, by decide, by decide, by decide, by decide, by decide, by decide, by decide, by decide, by decide⟩

theorem witness_DeliverInnerLevel :
    p3.flags.vm = false ∧ p3.pe = true ∧ p3.savedEip int30 = p3
      ∧ 8 * int30.vector.toNat + 7 ≤ p3.idtr.limit.toNat
      ∧ (let s := p3.setDelivering (some int30.excClass)
         sysRead (p3.idtr.base + BitVec.ofNat 32 (8 * int30.vector.toNat)) 4 s = .ok gate30.lo s
           ∧ sysRead (p3.idtr.base + BitVec.ofNat 32 (8 * int30.vector.toNat) + 4#32) 4 s = .ok gate30.hi s
           ∧ readDescriptor gate30.gateSel s = .ok (some desc08) s
           ∧ innerStack desc08.dpl int30.ext s = .ok (0x00008000#32, 0x0010#16) s
           ∧ readDescriptor 0x0010#16 s = .ok (some desc10) s
           ∧ markAccessed desc10 s.freed.freed = .ok [] s.freed.freed
           ∧ markAccessed desc08 s.freed.freed = .ok [] s.freed.freed
           ∧ innerPushes (desc10.segReg 0x0010#16) 0x00008000#32
              ([toBytes 4 (withLowWord p3.free.head p3.seg.ss.sel), toBytes 4 p3.gpr.esp,
                toBytes 4 { p3.flags with rf := p3.flags.rf || decide (int30.kind = EventKind.fault) }.pack,
                toBytes 4 (withLowWord p3.free.next.head p3.seg.cs.sel), toBytes 4 p3.pc] ++ codePush int30) s.freed.freed
              = .ok [store4 0x00007FFC#32 0xAAAA0023#32, store4 0x00007FF8#32 0x00001000#32,
                  store4 0x00007FF4#32 0x00000002#32, store4 0x00007FF0#32 0xCCCC001B#32,
                  store4 0x00007FEC#32 0x00001000#32] s.freed.freed)
      ∧ gate30.kind ∈ [0b01110#5, 0b01111#5] ∧ p3.cpl ≤ gate30.dpl ∧ gate30.present = true
      ∧ selNull gate30.gateSel = false ∧ desc08.attr.code = true ∧ desc08.attr.conforming = false ∧ desc08.dpl < p3.cpl
      ∧ desc08.present = true ∧ desc08.holds gate30.gateOff = true ∧ selNull 0x0010#16 = false
      ∧ selRpl 0x0010#16 = desc08.dpl ∧ desc10.dpl = desc08.dpl ∧ desc10.attr.writable = true ∧ desc10.present = true
      ∧ (desc10.segReg 0x0010#16).inLimit (0x00008000#32 - BitVec.ofNat 32 20) (20 + 4 * (codePush int30).length)
          = true :=
  ⟨rfl, by decide, by decide, by decide,
    ⟨ok_eq (by decide), ok_eq (by decide), ok_eq (by decide), ok_eq (by decide), ok_eq (by decide), ok_eq (by decide),
      ok_eq (by decide), ok_eq (by decide)⟩,
    by decide, by decide, by decide, by decide, by decide, by decide, by decide, by decide, by decide, by decide,
    by decide, by decide, by decide, by decide, by decide⟩

/-- Whether an attempt to deliver an event raises an exception with a vector. -/
def raises (r : EStateM.Result Err State Unit) (vector : Byte) : Bool :=
  match r with
  | .error (.exc e) _ => decide (e.vector = vector) && decide (e.kind = .fault)
  | .error (.fault _) _ => false
  | .error (.refusal _) _ => false
  | .ok _ _ => false

theorem raises_exc {r : EStateM.Result Err State Unit} {v : Byte} (h : raises r v = true) :
    ∃ e t, r = .error (.exc e) t ∧ e.vector = v ∧ e.kind = .fault := by
  unfold raises at h
  split at h
  · simp only [Bool.and_eq_true, decide_eq_true_eq] at h
    exact ⟨_, _, rfl, h.1, h.2⟩
  all_goals cases h

/-- Level 0 with an interrupt table that ends after vector 0BH. -/
def shortTable : State := { p0 with idtr := { p0.idtr with limit := 0x005F#16 } }

theorem witness_DoubleFault :
    -- #GP while #GP is delivered; while #PF is; while #BR (vector 5, no gate) is; while the double fault is
    (∃ e t, deliverOnce (faultOf 0x0D#8) (shortTable.setDelivering (some .contributory)) = .error (.exc e) t
        ∧ e.vector = 0x0D#8 ∧ e.kind = .fault)
      ∧ (∃ e t, deliverOnce (faultOf 0x0E#8) (shortTable.setDelivering (some .pageFault)) = .error (.exc e) t
          ∧ e.vector = 0x0D#8 ∧ e.kind = .fault)
      ∧ (∃ e t, deliverOnce (faultOf 0x05#8) (shortTable.setDelivering (some .benign)) = .error (.exc e) t
          ∧ e.vector = 0x0D#8 ∧ e.kind = .fault)
      ∧ (∃ e t, deliverOnce doubleFault (shortTable.setDelivering (some .doubleFault)) = .error (.exc e) t
          ∧ e.vector = 0x0D#8 ∧ e.kind = .fault)
      -- #GP while a software interrupt is delivered, and while an external one is
      ∧ (∃ e t, deliverOnce { vector := 0x40#8, kind := .software, code := none }
            (shortTable.setDelivering (some .benign)) = .error (.exc e) t ∧ e.vector = 0x0D#8 ∧ e.kind = .fault)
      ∧ (∃ e t, deliverOnce { vector := 0x0D#8, kind := .external, code := none }
            (shortTable.setDelivering (some .benign)) = .error (.exc e) t ∧ e.vector = 0x0D#8 ∧ e.kind = .fault)
      ∧ ∃ s : State, s.idtr.limit = 0x0000#16 ∧ s.flags.vm = false :=
  ⟨raises_exc (by decide), raises_exc (by decide), raises_exc (by decide), raises_exc (by decide),
    raises_exc (by decide), raises_exc (by decide),
    ⟨{ p0 with idtr := { p0.idtr with limit := 0x0000#16 } }, rfl, rfl⟩⟩

/-- Bounds 0 and 4 at 800H. -/
def boundState : State := { real with mem := ram [(0x00802, 0x04#8)] }

theorem witness_Bound :
    boundState.flags.vm = false
      ∧ operandSpan ((c16 2).eaSegment atBx) (boundState.eaOffset atBx) 2 .read boundState
          = .ok (Span.flat 0x00000800#32 2) boundState
      ∧ operandSpan ((c16 2).eaSegment atBx) (boundState.eaOffset atBx + BitVec.ofNat 32 2) 2 .read boundState
          = .ok (Span.flat 0x00000802#32 2) boundState
      ∧ (lowWord (fromBytes (Memory.readSpan boundState.mem (Span.flat 0x00000800#32 2) 0 2))).toInt = 0
      ∧ (lowWord (fromBytes (Memory.readSpan boundState.mem (Span.flat 0x00000802#32 2) 0 2))).toInt = 4
      ∧ (lowWord ((withEax 0x11220004#32 boundState).reg .eax)).toInt = 4
      ∧ (lowWord ((withEax 0x11220005#32 boundState).reg .eax)).toInt = 5
      ∧ (lowWord ((withEax 0x1122FFFF#32 boundState).reg .eax)).toInt = -1 :=
  ⟨rfl, ok_eq (by decide), ok_eq (by decide), by decide, by decide, by decide, by decide, by decide⟩

/-- Level 0 with an interrupt frame of level 3: 001BH:2000H, flags 00000202H, 0023H:0900H. -/
def intFrame : State :=
  prot 0#2 [(0x01001, 0x20#8), (0x01004, 0x1B#8), (0x01008, 0x02#8), (0x01009, 0x02#8), (0x0100D, 0x09#8),
            (0x01010, 0x23#8)]

theorem witness_InterruptReturn :
    realStack.flags.vm = false ∧ realStack.pe = false
      ∧ realStack.segOk .ss (realStack.stackOff 0) (3 * 2) .read = true
      ∧ stackRead 0 2 realStack = .ok 0x00001234#32 realStack ∧ stackRead 2 2 realStack = .ok 0x00005678#32 realStack
      ∧ stackRead (2 * 2) 2 realStack = .ok 0x00000202#32 realStack
      ∧ frameSame.pe = true ∧ frameSame.flags.nt = false
      ∧ frameSame.segOk .ss (frameSame.stackOff 0) (3 * 4) .read = true
      ∧ stackRead 0 4 frameSame = .ok 0x00002000#32 frameSame ∧ stackRead 4 4 frameSame = .ok 0x00000008#32 frameSame
      ∧ stackRead (2 * 4) 4 frameSame = .ok 0x00000202#32 frameSame ∧ (0x00000202#32 : Dword).getLsbD 17 = false
      ∧ readDescriptor 0x0008#16 frameSame = .ok (some desc08) frameSame
      ∧ markAccessed desc08 frameSame = .ok [] frameSame
      ∧ intFrame.segOk .ss (intFrame.stackOff 0) (5 * 4) .read = true
      ∧ stackRead 4 4 intFrame = .ok 0x0000001B#32 intFrame ∧ stackRead (2 * 4) 4 intFrame = .ok 0x00000202#32 intFrame
      ∧ readDescriptor 0x001B#16 intFrame = .ok (some desc18) intFrame
      ∧ stackRead (3 * 4) 4 intFrame = .ok 0x00000900#32 intFrame
      ∧ stackRead (4 * 4) 4 intFrame = .ok 0x00000023#32 intFrame
      ∧ readDescriptor 0x0023#16 intFrame = .ok (some desc20) intFrame
      ∧ markAccessed desc18 intFrame = .ok [] intFrame ∧ markAccessed desc20 intFrame = .ok [] intFrame :=
  ⟨rfl, by decide, by decide, ok_eq (by decide), ok_eq (by decide), ok_eq (by decide), by decide, by decide, by decide,
    ok_eq (by decide), ok_eq (by decide), ok_eq (by decide), by decide, ok_eq (by decide), ok_eq (by decide), by decide,
    ok_eq (by decide), ok_eq (by decide), ok_eq (by decide), ok_eq (by decide), ok_eq (by decide), ok_eq (by decide),
    ok_eq (by decide), ok_eq (by decide)⟩

/-! ## Witnesses: coprocessor and exchange -/

/-- A coprocessor that stores two bytes. -/
def storing : State :=
  { real with cop := { replies := [{ testsError := false, length := 2, store := true, data := [0x01#8, 0x02#8] }],
                       log := [] } }

theorem witness_CoprocessorEscape :
    real.flags.vm = false ∧ real.em = false ∧ real.ts = false ∧ real.params.copKind ≠ .none
      ∧ real.cop.reply.testsError = false ∧ real.cop.reply.store = false
      ∧ real.wraps ((c16 2).eaSegment atBx) (real.eaOffset atBx) real.cop.reply.size = false
      ∧ operandSpan ((c16 2).eaSegment atBx) (real.eaOffset atBx) real.cop.reply.size .read real
          = .ok (Span.flat 0x00000800#32 4) real
      ∧ storing.cop.reply.store = true ∧ storing.cop.reply.size ≤ storing.cop.reply.data.length
      ∧ operandSpan ((c16 2).eaSegment atBx) (storing.eaOffset atBx) storing.cop.reply.size .write storing
          = .ok (Span.flat 0x00000800#32 2) storing
      ∧ (∃ s : State, s.em = false ∧ s.ts = false ∧ s.params.copKind = .none)
      ∧ (∃ s : State, s.ts = true) ∧ ∃ s : State, s.params.copKind ≠ .none ∧ s.em = false ∧ s.ts = false
          ∧ s.cop.reply.testsError = true ∧ s.pins.error = true :=
  ⟨rfl, by decide, by decide, by decide, rfl, rfl, by decide, ok_eq (by decide), by decide, by decide,
    ok_eq (by decide), ⟨{ real with params := { real.params with copKind := .none } }, by decide⟩,
    ⟨{ real with ctl := { real.ctl with cr0 := 0x00000018#32 } }, by decide⟩,
    ⟨{ storing with pins := { real.pins with error := true },
                    cop := { storing.cop with replies := [{ CopReply.plain with testsError := true }] } }, by decide⟩⟩

theorem witness_CoprocessorWait :
    real.flags.vm = false ∧ real.mp = false ∧ real.params.copKind ≠ .none ∧ real.pins.busy = false
      ∧ real.pins.error = false
      ∧ (∃ s : State, s.mp = true ∧ s.ts = true) ∧ (∃ s : State, s.mp = false ∧ s.params.copKind ≠ .none ∧ s.pins.busy = true)
      ∧ ∃ s : State, s.mp = false ∧ s.params.copKind ≠ .none ∧ s.pins.busy = false ∧ s.pins.error = true ∧ s.em = false :=
  ⟨rfl, by decide, by decide, rfl, rfl, ⟨{ real with ctl := { real.ctl with cr0 := 0x0000001A#32 } }, by decide⟩,
    ⟨{ real with pins := { real.pins with busy := true } }, by decide⟩,
    ⟨{ real with pins := { real.pins with error := true } }, by decide⟩⟩

theorem witness_ExchangeAndLock :
    real.flags.vm = false
      ∧ operandSpan ((c16 2).eaSegment atBx) (real.eaOffset atBx) 1 .write real = .ok (Span.flat 0x00000800#32 1) real
      ∧ operandSpan ((c16 2).eaSegment atBx) (real.eaOffset atBx) 2 .write real = .ok (Span.flat 0x00000800#32 2) real
      -- NOT [EBX], NOT EBX and TEST; BTS [EBX], EAX and BT
      ∧ ((0x13#8 : Byte).extractLsb' 6 2 ≠ 3#2 ∧ (0x13#8 : Byte).extractLsb' 3 3 ∈ lockFields 0xF7#8)
      ∧ (0xD3#8 : Byte).extractLsb' 6 2 = 3#2 ∧ (0x03#8 : Byte).extractLsb' 3 3 ∉ lockFields 0xF7#8
      ∧ (0x03#8 : Byte).extractLsb' 3 3 ∈ lockFields2 0xAB#8 ∧ (0x23#8 : Byte).extractLsb' 3 3 ∉ lockFields2 0xBA#8 :=
  ⟨rfl, ok_eq (by decide), ok_eq (by decide), by decide, by decide, by decide, by decide, by decide⟩

theorem witness_PrivilegedTraps : p3.flags.vm = false ∧ p3.pe = true ∧ p3.cpl ≠ 0#2 := by decide

/-- The invalid opcode 0F FF at 0008:1000H. -/
def invalidState : State := prot 0#2 [(0x01000, 0x0F#8), (0x01001, 0xFF#8)]

theorem witness_InvalidOperands_opcode :
    boundary invalidState = .run invalidState ∧ invalidState.pg = false ∧ invalidState.flags.vm = false
      ∧ (∀ k, k < 2 → invalidState.segOk .cs (invalidState.pc + BitVec.ofNat 32 k) 1 .fetch = true
          ∧ [0x0F#8, 0xFF#8][k]?
            = some (invalidState.byte (invalidState.linear .cs (invalidState.pc + BitVec.ofNat 32 k)).toNat)
          ∧ decode invalidState.default32 ([0x0F#8, 0xFF#8].take k) = .needMore)
      ∧ invalidState.run.prefetch.stale = []
      ∧ decode invalidState.default32 [0x0F#8, 0xFF#8] = .invalid [0x0F#8, 0xFF#8] := by decide

theorem witness_InvalidOperands :
    real.flags.vm = false ∧ real.pe = false ∧ p0.cpl = 0#2 ∧ p0.params.iceInUse = false
      ∧ ∃ s : State, s.flags.vm = false ∧ s.pe = false ∧ s.params.iceInUse = true ∧ s.flags.rf = false :=
  ⟨rfl, by decide, rfl, rfl, ⟨{ real with params := { real.params with iceInUse := true } }, by decide⟩⟩

/-! ## Witnesses: paging and tasks -/

/-- A page directory at 3000H: entry 0 leads to the table at 4000H, entry 1 is absent. In the table, entry 0 is absent,
entry 1 is a supervisor's, entry 2 a user's page that may be written. -/
def pageState : State :=
  { p3 with
    ctl := { cr0 := 0x80000011#32, cr2 := 0x00000000#32, cr3 := 0x00003000#32 }
    mem := ram [(0x03000, 0x07#8), (0x03001, 0x40#8), (0x04004, 0x03#8), (0x04005, 0x50#8), (0x04008, 0x07#8),
            (0x04009, 0x60#8)] }

theorem witness_PageWalk :
    Memory.wf pageState.mem = true
      ∧ (physRead pageState.mem (pdeAddr pageState.ctl.cr3 0x00400000#32)).getLsbD 0 = false
      ∧ (let pde := physRead pageState.mem (pdeAddr pageState.ctl.cr3 0x00000000#32)
         pde.getLsbD 0 = true ∧ reservedEntry pde = false ∧ pde.getLsbD 2 = true ∧ pde.getLsbD 1 = true
           ∧ (physRead pageState.mem (pteAddr pde 0x00000FFF#32)).getLsbD 0 = false
           ∧ (let pte := physRead pageState.mem (pteAddr pde 0x00001000#32)
              pte.getLsbD 0 = true ∧ reservedEntry pte = false ∧ pte.getLsbD 2 = false)
           ∧ (let pte := physRead pageState.mem (pteAddr pde 0x00002FFF#32)
              pte.getLsbD 0 = true ∧ reservedEntry pte = false ∧ pte.getLsbD 2 = true ∧ pte.getLsbD 1 = true)
           ∧ pdeAddr pageState.ctl.cr3 0x00002FFF#32 ≠ pteAddr pde 0x00002FFF#32) := by decide

/-- The fourth breakpoint of 48_debug.md R666: four bytes at C0000H, reads and writes, enabled. -/
def breakState : State := { real with dbg := { real.dbg with dr3 := 0x000C0000#32, dr7 := 0xF0000280#32 } }

theorem witness_DataBreakpoint :
    breakState.dbg.rw 3 = 3#2 ∧ breakState.dbg.len 3 = 3#2
      ∧ (let d := { breakState.dbg with dr7 := 0x10000080#32 }; d.rw 3 = 1#2 ∧ d.len 3 = 0#2)
      ∧ (let d := { breakState.dbg with dr7 := 0x50000080#32 }; d.rw 3 = 1#2 ∧ d.len 3 = 1#2) := by decide

/-- Table 12-1 (48_debug.md R636), its last row of each half, and R666 with R/W3 = 01. -/
theorem test_data_breakpoint :
    breakState.dbg.dataMatch 0x000C0003#32 1 false 3 = true ∧ breakState.dbg.dataMatch 0x000C0004#32 4 false 3 = false
      ∧ ({ breakState.dbg with dr7 := 0xD0000280#32 } : DebugRegs).dataMatch 0x000C0003#32 1 false 3 = false := by decide

/-- Level 0 with a task at 60H: EIP 3000H, flags 00000002H, CS 0008H, SS 0010H, the rest 0. -/
def taskState : State :=
  { p0 with mem := ram (tables ++ [(0x21021, 0x30#8), (0x21024, 0x02#8), (0x2104C, 0x08#8), (0x21050, 0x10#8)]) }

/-- The state in which a computation ends. -/
def fin {α : Type} (r : EStateM.Result Err State α) : State :=
  match r with
  | .ok _ t => t
  | .error _ t => t

/-- The stores it gives. -/
def stores (r : EStateM.Result Err State (List Store)) : List Store :=
  match r with
  | .ok l _ => l
  | .error _ _ => []

/-- Whether it completes. -/
def completes {α : Type} (r : EStateM.Result Err State α) : Bool :=
  match r with
  | .ok _ _ => true
  | .error _ _ => false

theorem stores_eq {r : EStateM.Result Err State (List Store)} (h : completes r = true) : r = .ok (stores r) (fin r) := by
  cases r with
  | ok l t => rfl
  | error e t => cases h

theorem fin_eq {r : EStateM.Result Err State Unit} (h : completes r = true) : r = .ok () (fin r) := by
  cases r with
  | ok l t => rfl
  | error e t => cases h

/-- Level 0 in the task at 21000H, nested in the task 28H: CS 0008H, SS 0010H, the rest 0. -/
def nestedState : State :=
  { p0 with tr := { sel := 0x0060#16, base := 0x00021000#32, limit := 0x00000067#32, valid := true }
            flags := { EFlags.reset with nt := true }
            mem := Memory.write (Memory.write (ram (tables ++ [(0x21000, 0x28#8)])) 0x2004C 0x08#8) 0x20050 0x10#8 }

set_option maxRecDepth 4000 in
theorem witness_TaskSwitch :
    incomingTss .jmp 0x0060#16 false taskState = .ok desc60 taskState
      ∧ (let r := saveTask 0x00001007#32 taskState.flags.pack taskState
         let save := stores r
         let clear := stores (clearBusy .jmp taskState)
         let busy := stores (setBusy .jmp desc60 taskState)
         r = .ok save taskState ∧ clearBusy .jmp taskState = .ok clear taskState
           ∧ setBusy .jmp desc60 taskState = .ok busy taskState
           ∧ linkBack .jmp desc60.base taskState = .ok [] taskState
           ∧ translate desc60.base 104 false false taskState = .ok (Span.flat 0x00021000#32 104) taskState
           ∧ (let u := taskState.storeAll (save ++ clear ++ busy ++ [])
              let image := Memory.readSpan u.mem (Span.flat 0x00021000#32 104) 0 104
              let r := taskTests false (u.enterTask .jmp 0x0060#16 desc60 image)
              (tssField image 0x24).getLsbD 17 = false ∧ r = .ok () (fin r)))
      ∧ taskState.flags.vm = false ∧ taskState.pe = true ∧ selNull 0x0060#16 = false
      ∧ readDescriptor 0x0060#16 taskState = .ok (some desc60) taskState ∧ desc60.kind = 0b01001#5
      ∧ taskState.cpl ≤ desc60.dpl ∧ selRpl 0x0060#16 ≤ desc60.dpl
      ∧ (let r := taskSwitch .jmp 0x0060#16 false 0x00001007#32 taskState.flags.pack taskState; r = .ok () (fin r))
      ∧ nestedState.flags.vm = false ∧ nestedState.pe = true ∧ nestedState.flags.nt = true
      ∧ sysRead nestedState.tr.base 2 nestedState = .ok 0x00000028#32 nestedState
      ∧ (let r := taskSwitch .iret 0x0028#16 false 0x00001001#32 { nestedState.flags with nt := false }.pack nestedState
         r = .ok () (fin r)) :=
  ⟨ok_eq (by decide),
    ⟨ok_eq (by decide), ok_eq (by decide), ok_eq (by decide), ok_eq (by decide), ok_eq (by decide), by decide,
      fin_eq (by decide)⟩,
    rfl, by decide, by decide, ok_eq (by decide), by decide, by decide, by decide, fin_eq (by decide),
    rfl, by decide, rfl, ok_eq (by decide), fin_eq (by decide)⟩

/-! ## Witnesses: decoding and steps -/

theorem witness_DecodeEncode : Instr.wf (.hlt (c32 1)) = true ∧ Instr.wf (.lgdt (c16 3) (.mem atBx)) = true := by decide

theorem witness_DecodedIsEncoded : decode true [0xF4#8, 0x00#8] = .instr (.hlt (c32 1)) := by decide

/-- CLI at 0000:1000H. -/
def cliState : State := { real with mem := ram [(0x01000, 0xFA#8)] }

theorem witness_StepRunsDecoded :
    boundary cliState = .run cliState ∧ fetchInstr cliState = .ok (.cli (c16 1)) cliState ∧ cliState.pg = false
      ∧ cliState.flags.vm = false ∧ Instr.wf (.cli (c16 1)) = true ∧ (c16 1).d32 = cliState.default32
      ∧ cliState.segOk .cs (cliState.pc + BitVec.ofNat 32 0) 1 .fetch = true
      ∧ (encode (.cli (c16 1)))[0]?
          = some (cliState.byte (cliState.linear .cs (cliState.pc + BitVec.ofNat 32 0)).toNat)
      ∧ (cliState.linear .cs (cliState.pc + BitVec.ofNat 32 0)).toNat ∉ cliState.run.prefetch.stale :=
  ⟨by decide, ok_eq (by decide), by decide, rfl, by decide, by decide, by decide, by decide, by decide⟩

/-- The same, the byte at 1000H stored into after it may have been prefetched. -/
def staleState : State :=
  { cliState with run := { cliState.run with prefetch := { stale := [0x1000], emptied := false } } }

theorem witness_StepRunsDecoded_stale :
    boundary staleState = .run staleState
      ∧ (staleState.linear .cs (staleState.pc + BitVec.ofNat 32 0)).toNat ∈ staleState.run.prefetch.stale
      ∧ staleState.segOk .cs (staleState.pc + BitVec.ofNat 32 0) 1 .fetch = true ∧ transfers (.cli (c16 1)) = false
      ∧ transfers (.jmpRel8 (c16 2) 0x00#8) = true
      ∧ nextHas (exec (.intImm (c16 2) 0x03#8) real) (fun t => t.run.prefetch.emptied) = true := by decide

theorem witness_BoundaryOrder :
    real.pins.reset = false ∧ real.run.runState = .running ∧ real.run.ssInhibit = false
      ∧ ¬real.run.pendingDb.any = true ∧ real.codeHit = 0#4 ∧ real.run.nmiPending = false ∧ real.pins.intrLine = false
      ∧ (let s := { real with run := { real.run with ssInhibit := true } }; s.run.ssInhibit = true)
      ∧ (let s := { real with run := { real.run with pendingDb := { PendingDebug.none with bs := true } } }
         s.run.pendingDb.any = true)
      ∧ (let s := { real with dbg := { real.dbg with dr0 := 0x00001000#32, dr7 := 0x00000001#32 } }
         s.flags.rf = false ∧ s.codeHit ≠ 0#4)
      ∧ (let s := { real with run := { real.run with nmiPending := true } }
         s.run.nmiPending = true ∧ s.run.nmiMasked = false)
      ∧ (let s := { real with pins := { real.pins with intrLine := true }, flags := { real.flags with ifl := true } }
         s.pins.intrLine = true ∧ s.flags.ifl = true ∧ s.run.stiInhibit = false) := by decide

theorem witness_HaltAndShutdown :
    p0.flags.vm = false ∧ p0.cpl = 0#2 ∧ p0.pins.reset = false
      ∧ (let s := { p0 with run := { p0.run with runState := .halted } }
         s.run.runState = .halted ∧ s.run.nmiPending = false ∧ s.pins.intrLine = false)
      ∧ (let s := { p0 with run := { p0.run with runState := .halted, nmiPending := true } }
         s.run.runState = .halted ∧ s.run.nmiPending = true ∧ s.run.nmiMasked = false)
      ∧ (let s := { p0 with run := { p0.run with runState := .shutdown } }
         s.run.runState = .shutdown ∧ s.run.nmiPending = false)
      ∧ (let s := { p0 with run := { p0.run with runState := .shutdown, nmiPending := true } }
         s.run.runState = .shutdown ∧ s.run.nmiPending = true) := by decide

theorem next_eq {r : Host.Outcome State Fault Refusal} {t : State} (h : nextIs r t = true) : r = .next t := by
  cases r with
  | next u => simp [nextIs] at h; rw [h]
  | fault f => cases h
  | refused f => cases h

theorem next_some {r : Host.Outcome State Fault Refusal} (h : nextHas r (fun _ => true) = true) : ∃ t, r = .next t := by
  cases r with
  | next u => exact ⟨u, rfl⟩
  | fault f => cases h
  | refused f => cases h

theorem witness_ResetRegisters :
    ∃ s t : State, s.pins.reset = true ∧ step s = .next t := by
  refine ⟨{ p3 with pins := { p3.pins with reset := true } }, ?_⟩
  obtain ⟨t, ht⟩ := next_some (r := step { p3 with pins := { p3.pins with reset := true } }) (by decide)
  exact ⟨t, rfl, ht⟩

theorem witness_StepKeepsSound : ∃ s t : State, s.sound ∧ step s = .next t := by
  obtain ⟨t, ht⟩ := next_some (r := step cliState) (by decide)
  exact ⟨cliState, t, by unfold State.sound; decide, ht⟩

/-- CLI at 001B:1000H with IOPL 3. -/
def cliState3 : State :=
  { prot 3#2 [(0x01000, 0xFA#8)] with flags := { EFlags.reset with iopl := 3#2 } }

theorem witness_OuterIsolation :
    ∃ s t : State, s.sound ∧ s.pe = true ∧ s.cpl ≠ 0#2 ∧ s.pins.reset = false ∧ step s = .next t := by
  obtain ⟨t, ht⟩ := next_some (r := step cliState3) (by decide)
  exact ⟨cliState3, t, by unfold State.sound; decide, by decide, by decide, rfl, ht⟩

/-! ## Witnesses: the top of the address space, wrapped operands, sixteen-bit returns -/

theorem witness_LoadFarPointer_top :
    (let s := withEbx 0xFFFFFFFC#32 p3
     operandSpan .ds (s.eaOffset atEbx) 4 .read s = .ok (Span.flat 0xFFFFFFFC#32 4) s
       ∧ 4294967296 ≤ (s.eaOffset atEbx).toNat + 4)
      ∧ (let s := withEbx 0xFFFFFFFA#32 p3
         operandSpan .ds (s.eaOffset atEbx) 4 .read s = .ok (Span.flat 0xFFFFFFFA#32 4) s
           ∧ (s.eaOffset atEbx).toNat + 4 < 4294967296
           ∧ operandSpan .ds (s.eaOffset atEbx + BitVec.ofNat 32 4) 2 .read s = .ok (Span.flat 0xFFFFFFFE#32 2) s
           ∧ loadSeg .es (lowWord (fromBytes (Memory.readSpan s.mem (Span.flat 0xFFFFFFFE#32 2) 0 2))) s
               = .ok { reg := .es, val := { s.seg.es with sel := 0x0000#16, valid := false }, marks := [] } s) :=
  ⟨⟨ok_eq (by decide), by decide⟩, ok_eq (by decide), by decide, ok_eq (by decide), ok_eq (by decide)⟩

theorem witness_StoreTableRegister_top :
    (let s := withEbx 0xFFFFFFFE#32 p3
     operandSpan .ds (s.eaOffset atEbx) 2 .write s = .ok (Span.flat 0xFFFFFFFE#32 2) s
       ∧ 4294967296 ≤ (s.eaOffset atEbx).toNat + 2)
      ∧ (let s := withEbx 0xFFFFFFFA#32 p3
         operandSpan .ds (s.eaOffset atEbx) 2 .write s = .ok (Span.flat 0xFFFFFFFA#32 2) s
           ∧ (s.eaOffset atEbx).toNat + 2 < 4294967296
           ∧ operandSpan .ds (s.eaOffset atEbx + 2#32) 4 .write s = .ok (Span.flat 0xFFFFFFFC#32 4) s) :=
  ⟨⟨ok_eq (by decide), by decide⟩, ok_eq (by decide), by decide, ok_eq (by decide)⟩

theorem witness_LoadTableRegister_top :
    (let s := withEbx 0xFFFFFFFE#32 p0
     operandSpan .ds (s.eaOffset atEbx) 2 .read s = .ok (Span.flat 0xFFFFFFFE#32 2) s
       ∧ 4294967296 ≤ (s.eaOffset atEbx).toNat + 2)
      ∧ (let s := withEbx 0xFFFFFFFA#32 p0
         operandSpan .ds (s.eaOffset atEbx) 2 .read s = .ok (Span.flat 0xFFFFFFFA#32 2) s
           ∧ (s.eaOffset atEbx).toNat + 2 < 4294967296
           ∧ operandSpan .ds (s.eaOffset atEbx + 2#32) 4 .read s = .ok (Span.flat 0xFFFFFFFC#32 4) s) :=
  ⟨⟨ok_eq (by decide), by decide⟩, ok_eq (by decide), by decide, ok_eq (by decide)⟩

theorem witness_Bound_top :
    (let s := withEbx 0xFFFFFFFC#32 p3
     operandSpan .ds (s.eaOffset atEbx) 4 .read s = .ok (Span.flat 0xFFFFFFFC#32 4) s
       ∧ 4294967296 ≤ (s.eaOffset atEbx).toNat + 4)
      ∧ (let s := withEbx 0xFFFFFFF8#32 p3
         operandSpan .ds (s.eaOffset atEbx) 4 .read s = .ok (Span.flat 0xFFFFFFF8#32 4) s
           ∧ (s.eaOffset atEbx).toNat + 4 < 4294967296
           ∧ operandSpan .ds (s.eaOffset atEbx + BitVec.ofNat 32 4) 4 .read s = .ok (Span.flat 0xFFFFFFFC#32 4) s) :=
  ⟨⟨ok_eq (by decide), by decide⟩, ok_eq (by decide), by decide, ok_eq (by decide)⟩

/-- Level 0 with a small data segment of the given limit in DS, and EBX in it. -/
def smallDs (limit : Dword) (ebx : Dword) (cop : CopState) : State :=
  let s := withEbx ebx p0
  { s with seg := { s.seg with ds := Descriptor.segReg { lo := limit, hi := 0x00009300#32, addr := 0x00000000#32 } 0x0010#16 }
           cop := cop }

theorem witness_CoprocessorEscape_wrapped :
    (let s := smallDs 0x0000FFFF#32 0x0000FFFE#32 real.cop
     s.wraps .ds (s.eaOffset atEbx) s.cop.reply.size = true ∧ s.pg = false ∧ s.em = false ∧ s.ts = false
       ∧ s.cop.reply.store = false
       ∧ ∀ k, k < s.cop.reply.size → s.segOk .ds (BitVec.ofNat 32 ((0xFFFE + k) % 65536)) 1 .read = true)
      ∧ (let s := smallDs 0x0000FFFE#32 0x0000FFFE#32 real.cop
         s.wraps .ds (s.eaOffset atEbx) s.cop.reply.size = true ∧ s.segOk .ds 0x0000FFFE#32 1 .read = true
           ∧ s.segOk .ds 0x0000FFFF#32 1 .read = false ∧ s.segOk .ds 0x00000001#32 1 .read = true)
      ∧ (let s := smallDs 0x0000FFFD#32 0x0000FFFE#32 real.cop
         s.wraps .ds (s.eaOffset atEbx) s.cop.reply.size = true ∧ s.segOk .ds 0x0000FFFE#32 1 .read = false)
      ∧ (let s := smallDs 0x0000FFFF#32 0x0000FFFF#32 storing.cop
         s.wraps .ds (s.eaOffset atEbx) s.cop.reply.size = true ∧ s.cop.reply.store = true
           ∧ s.cop.reply.size ≤ s.cop.reply.data.length
           ∧ ∀ k, k < s.cop.reply.size → s.segOk .ds (BitVec.ofNat 32 ((0xFFFF + k) % 65536)) 1 .write = true) := by
  decide

/-- Level 0 with a return of words to level 3 on the stack: 001BH:2000H, then 0023H:0900H. -/
def frameWords : State :=
  prot 0#2 [(0x01001, 0x20#8), (0x01002, 0x1B#8), (0x01005, 0x09#8), (0x01006, 0x23#8)]

theorem witness_FarReturnProtected_words :
    frameWords.segOk .ss (frameWords.stackOff 0) (4 + 2 * 2) .read = true
      ∧ stackRead 0 2 frameWords = .ok 0x00002000#32 frameWords ∧ stackRead 2 2 frameWords = .ok 0x0000001B#32 frameWords
      ∧ readDescriptor 0x001B#16 frameWords = .ok (some desc18) frameWords
      ∧ stackRead 4 2 frameWords = .ok 0x00000900#32 frameWords ∧ stackRead 6 2 frameWords = .ok 0x00000023#32 frameWords
      ∧ readDescriptor 0x0023#16 frameWords = .ok (some desc20) frameWords
      ∧ markAccessed desc18 frameWords = .ok [] frameWords ∧ markAccessed desc20 frameWords = .ok [] frameWords :=
  ⟨by decide, ok_eq (by decide), ok_eq (by decide), ok_eq (by decide), ok_eq (by decide), ok_eq (by decide),
    ok_eq (by decide), ok_eq (by decide), ok_eq (by decide)⟩

/-- MOV DR7, EAX at 0008:1000H, in-circuit emulation in use, an NMI pending. -/
def detectState : State :=
  { prot 0#2 [(0x01000, 0x0F#8), (0x01001, 0x23#8), (0x01002, 0xF8#8)] with
    params := { p0.params with iceInUse := true }, run := { p0.run with nmiPending := true } }

theorem witness_BoundaryOrder_detect :
    detectState.pins.reset = false ∧ detectState.run.runState = .running ∧ detectState.run.ssInhibit = false
      ∧ ¬detectState.run.pendingDb.any = true ∧ detectState.codeHit = 0#4 ∧ detectState.params.iceInUse = true
      ∧ detectState.flags.rf = false ∧ detectState.cpl = 0#2
      ∧ fetchInstr { detectState with run := { detectState.run with
            pendingDb := { bs := false, bt := false, hit := 0#4, occurred := detectState.codeOccurred },
            ssInhibit := false, stiInhibit := false } }
          = .ok (.movToDr (c32 3) 7#3 .eax 3#2) detectState :=
  ⟨by decide, by decide, by decide, by decide, by decide, by decide, by decide, by decide, ok_eq (by decide)⟩

/-- Whether a block of the TLB has a valid entry for the linear address in a TR6 image. -/
def held (t : Tlb) (v : Dword) (b : Nat) : Bool :=
  (t.entry b (tlbIndex (pageOf v))).la = pageOf v && (t.entry b (tlbIndex (pageOf v))).v

theorem witness_TlbTestCommands_unique :
    let s := tlbState 0x00000001#32 0x00000000#32
    let v := s.reg .eax
    let e : TlbEntry := { known := true, v := true, la := pageOf v, d := false, u := true, w := true, pa := 7#20 }
    let t := s.tlb.setEntry 2 (tlbIndex (pageOf v)) e
    (∀ b, b < 4 → held s.tlb v b = false) ∧ held t v 2 = true
      ∧ ∀ b, b < 4 → ∀ b', b' < 4 → held t v b = true → held t v b' = true → b' = b := by decide

/-- The pages of `pageState`, and: a directory entry with a reserved bit; in the table, entry 3 with one, and entry 4 a
user's page that may not be written; entry 5 the page of the table itself. -/
def pageState2 : State :=
  { pageState with
    mem := ram [(0x03000, 0x07#8), (0x03001, 0x40#8), (0x03008, 0x87#8), (0x03009, 0x40#8), (0x03FFC, 0x07#8),
      (0x03FFD, 0x30#8), (0x0400C, 0x0F#8), (0x0400D, 0x70#8), (0x04010, 0x05#8), (0x04011, 0x80#8)] }

theorem witness_PageWalk_entries :
    Memory.wf pageState2.mem = true
      ∧ (let pde := physRead pageState2.mem (pdeAddr pageState2.ctl.cr3 0x00800000#32)
         pde.getLsbD 0 = true ∧ reservedEntry pde = true)
      ∧ (let pde := physRead pageState2.mem (pdeAddr pageState2.ctl.cr3 0x00000000#32)
         pde.getLsbD 0 = true ∧ reservedEntry pde = false ∧ pde.getLsbD 2 = true
           ∧ (let pte := physRead pageState2.mem (pteAddr pde 0x00003000#32)
              pte.getLsbD 0 = true ∧ reservedEntry pte = true)
           ∧ (let pte := physRead pageState2.mem (pteAddr pde 0x00004000#32)
              pte.getLsbD 0 = true ∧ reservedEntry pte = false ∧ pte.getLsbD 2 = true ∧ pte.getLsbD 1 = false))
      -- the directory as its own table
      ∧ (let dirAddr := pdeAddr pageState2.ctl.cr3 0xFFFFF000#32
         let pde := physRead pageState2.mem dirAddr
         pde.getLsbD 0 = true ∧ reservedEntry pde = false ∧ pteAddr pde 0xFFFFF000#32 = dirAddr) := by decide

theorem witness_PageWalk_ram : ∀ x, (Span.flat 0x00003000#32 4).covers 4 x → pageState2.mem.kindAt x = .ram :=
  fun _ _ => rfl

/-! ## Witnesses: gates, task gates and the tests of a task switch -/

theorem witness_FarTransferSameLevel_traps :
    p0x.flags.vm = false ∧ p0x.pe = true ∧ p0x.lacksDescriptor 0x00F8#16 = true
      ∧ readDescriptor 0x0010#16 p0x = .ok (some (descX 2)) p0x ∧ (descX 2).attr.code = false
      ∧ (descX 2).kind ∉ [0b01100#5, 0b00101#5, 0b01001#5, 0b00001#5, 0b00011#5, 0b00100#5]
      ∧ readDescriptor 0x0088#16 p0x = .ok (some (descX 17)) p0x ∧ (descX 17).attr.code = false
      ∧ (descX 17).kind ∉ [0b01100#5, 0b00101#5, 0b01001#5, 0b00001#5, 0b00011#5, 0b00100#5]
      ∧ readDescriptor 0x0008#16 p0x = .ok (some (descX 1)) p0x ∧ (descX 1).attr.code = true ∧ (descX 1).dpl = p0x.cpl
      ∧ (descX 1).present = true ∧ (descX 1).holds 0x00001000#32 = false ∧ (descX 1).holds 0x00000FFF#32 = true :=
  ⟨rfl, by decide, by decide, ok_eq (by decide), by decide, by decide, ok_eq (by decide), by decide, by decide,
    ok_eq (by decide), by decide, by decide, by decide, by decide, by decide⟩

theorem witness_CallGate :
    farOperand (c32 7) (.jmpFar (c32 7)) (.jmpFarMem (c32 7)) (.jmpFar (c32 7) (.i32 0x00000000#32) 0x0020#16)
        0x00000000#32 0x0020#16 [] p0x p0x
      ∧ farOperand (c32 7) (.callFar (c32 7)) (.callFarMem (c32 7)) (.callFar (c32 7) (.i32 0x00000000#32) 0x0020#16)
        0x00000000#32 0x0020#16 [] p0x p0x
      ∧ selNull 0x0020#16 = false ∧ readDescriptor 0x0020#16 p0x = .ok (some (descX 4)) p0x
      ∧ (descX 4).kind = 0b01100#5 ∧ (descX 4).present = true ∧ p0x.cpl ≤ (descX 4).dpl
      ∧ selRpl 0x0020#16 ≤ (descX 4).dpl ∧ ¬selRpl 0x0023#16 ≤ (descX 4).dpl
      -- to the code segment 08H, within its limit and past it
      ∧ (descX 4).gateSel = 0x0008#16 ∧ readDescriptor 0x0008#16 p0x = .ok (some (descX 1)) p0x
      ∧ (descX 1).attr.code = true ∧ (descX 1).dpl = p0x.cpl ∧ (descX 1).present = true
      ∧ (descX 1).holds (descX 4).gateOff = true ∧ (descX 1).holds (descX 3).gateOff = false
      ∧ markAccessed (descX 1) p0x = .ok [] p0x ∧ markAccessed (descX 1) p0x.freed = .ok [] p0x.freed
      ∧ operandSpan .ss (p0x.stackBelow 4) 4 .write p0x = .ok (Span.flat 0x00000FFC#32 4) p0x
      ∧ operandSpan .ss (p0x.stackBelow 8) 4 .write p0x = .ok (Span.flat 0x00000FF8#32 4) p0x
      -- to nothing, to a selector past the table, to data, to code that is not present; a gate that is not present
      ∧ selNull (descX 6).gateSel = true ∧ p0x.lacksDescriptor (descX 7).gateSel = true
      ∧ (descX 8).gateSel = 0x0010#16 ∧ (descX 2).attr.code = false
      ∧ (descX 9).gateSel = 0x0058#16 ∧ readDescriptor 0x0058#16 p0x = .ok (some (descX 11)) p0x
      ∧ (descX 11).attr.code = true ∧ (descX 11).dpl = p0x.cpl ∧ (descX 11).present = false
      ∧ readDescriptor 0x0050#16 p0x = .ok (some (descX 10)) p0x ∧ (descX 10).kind = 0b01100#5
      ∧ (descX 10).present = false :=
  ⟨.inl ⟨.i32 0x00000000#32, rfl, rfl, rfl, rfl⟩, .inl ⟨.i32 0x00000000#32, rfl, rfl, rfl, rfl⟩, by decide,
    ok_eq (by decide), by decide, by decide, by decide, by decide, by decide, by decide, ok_eq (by decide), by decide,
    by decide, by decide, by decide, by decide, ok_eq (by decide), ok_eq (by decide), ok_eq (by decide),
    ok_eq (by decide), by decide, by decide, by decide, by decide, by decide, ok_eq (by decide), by decide, by decide,
    by decide, ok_eq (by decide), by decide, by decide⟩

/-- Whether a task switch raises an exception with a vector. -/
def switchRaises (kind : SwitchKind) (sel : Word) (s : State) (vector : Byte) : Bool :=
  raises (taskSwitch kind sel false s.pc s.flags.pack s) vector

/-- The exception a computation raises: its vector and the low word of its error code. -/
def excOf {α : Type} (r : EStateM.Result Err State α) : Option (Byte × Option Word) :=
  match r with
  | .error (.exc e) _ => some (e.vector, e.code.map lowWord)
  | .error (.fault _) _ => none
  | .error (.refusal _) _ => none
  | .ok _ _ => none

/-- Level 3 with another byte in memory. -/
def patched (a : Nat) (v : Byte) : State := { p3 with mem := Memory.write p3.mem a v }

/-- The exceptions of a new stack: past the TSS; its selector null, past the table, of another RPL, of code; another DPL; not
present; no room; then an offset past the code segment's limit. -/
theorem witness_InterlevelCall_traps :
    let call := fun (d : Descriptor) (s : State) => excOf (interlevelCall d 0x0008#16 0x00002000#32 1 0x00001007#32 s)
    call desc08 { p3 with tr := { p3.tr with limit := 0x00000008#32 } } = some (0x0A#8, some 0x0028#16)
      ∧ [0x00#8, 0x78#8, 0x11#8, 0x08#8].map (fun v => call desc08 (patched 0x20008 v))
        = [some (0x0A#8, some 0x0000#16), some (0x0A#8, some 0x0078#16), some (0x0A#8, some 0x0010#16),
           some (0x0A#8, some 0x0008#16)]
      ∧ call desc08 (patched 0x20008 0x20#8) = some (0x0C#8, some 0x0000#16)
      ∧ call desc08 (patched 0x10015 0x13#8) = some (0x0C#8, some 0x0010#16)
      ∧ call desc08 (patched 0x20005 0x00#8) = none
      ∧ call desc08 { patched 0x20004 0x08#8 with mem := Memory.write (patched 0x20004 0x08#8).mem 0x20005 0x00#8 }
        = some (0x0C#8, some 0x0010#16)
      ∧ call (descX 1) p3 = some (0x0D#8, some 0x0000#16) := by decide

set_option maxRecDepth 4000 in
/-- A task switch that nests, from a state whose TR is null, and from one whose TSS is not busy. -/
theorem witness_TaskSwitch_links :
    (let r := linkBack .call 0x00021000#32 p0x; completes r = true ∧ stores r ≠ [])
      ∧ selNull p0x.tr.sel = false ∧ sysRead (p0x.gdtr.base + BitVec.ofNat 32 (8 * selIndex p0x.tr.sel) + 4#32) 4 p0x
          = .ok 0x00008B02#32 p0x
      ∧ (let s := { p0x with tr := { p0x.tr with sel := 0x0000#16 } }
         selNull s.tr.sel = true ∧ completes (taskSwitch .jmp 0x0060#16 false s.pc s.flags.pack s) = true)
      ∧ completes (taskSwitch .call 0x0060#16 false p0x.pc p0x.flags.pack p0x) = true :=
  ⟨by decide, by decide, ok_eq (by decide), by decide, by decide⟩

set_option maxRecDepth 4000 in
/-- JMP and CALL to a TSS and through a task gate: forbidden, not present, a switch, and a switch that fails. -/
theorem witness_TaskSwitch_transfers :
    selNull 0x0068#16 = false ∧ readDescriptor 0x0068#16 p0x = .ok (some (descX 13)) p0x ∧ (descX 13).kind = 0b00101#5
      ∧ (descX 13).present = true ∧ p0x.cpl ≤ (descX 13).dpl ∧ selRpl 0x0068#16 ≤ (descX 13).dpl
      ∧ ¬selRpl 0x006B#16 ≤ (descX 13).dpl ∧ (descX 13).gateSel = 0x0060#16
      ∧ readDescriptor 0x0070#16 p0x = .ok (some (descX 14)) p0x ∧ (descX 14).kind = 0b00101#5
      ∧ (descX 14).present = false
      ∧ readDescriptor 0x0060#16 p0x = .ok (some (descX 12)) p0x ∧ (descX 12).kind = 0b01001#5
      ∧ readDescriptor 0x0078#16 p0x = .ok (some (descX 15)) p0x ∧ (descX 15).kind = 0b01001#5
      ∧ completes (taskSwitch .jmp 0x0060#16 false (p0x.pc + BitVec.ofNat 32 7) p0x.flags.pack p0x) = true
      ∧ switchRaises .jmp 0x0078#16 p0x 0x0B#8 = true ∧ switchRaises .call 0x0078#16 p0x 0x0B#8 = true
      -- IRET to a task that is not busy
      ∧ switchRaises .iret 0x0060#16 p0x 0x0A#8 = true :=
  ⟨by decide, ok_eq (by decide), by decide, by decide, by decide, by decide, by decide, by decide, ok_eq (by decide),
    by decide, by decide, ok_eq (by decide), by decide, ok_eq (by decide), by decide, by decide, by decide, by decide,
    by decide⟩

/-- An event's gate, as the delivery reads it. -/
def gateReads (s : State) (vector : Byte) (lo hi : Dword) : Bool :=
  let a := s.idtr.base + BitVec.ofNat 32 (8 * vector.toNat)
  let begun := s.setDelivering (some .benign)
  okIs (sysRead a 4 begun) lo begun && okIs (sysRead (a + 4#32) 4 begun) hi begun

set_option maxRecDepth 4000 in
/-- Events through task gates: a switch, a gate that is not present, a switch that fails, an error code on the new stack. -/
theorem witness_TaskSwitch_events :
    p0x.flags.vm = false ∧ p0x.pe = true
      ∧ gateReads p0x 0x00#8 0x00600000#32 0x00008500#32 = true ∧ gateReads p0x 0x01#8 0x00600000#32 0x00000500#32 = true
      ∧ gateReads p0x 0x02#8 0x00780000#32 0x00008500#32 = true ∧ gateReads p0x 0x0D#8 0x00600000#32 0x00008500#32 = true
      ∧ 8 * (0x0D#8 : Byte).toNat + 7 ≤ p0x.idtr.limit.toNat
      ∧ completes (deliverOnce (faultOf 0x00#8) p0x) = true
      ∧ completes (deliverOnce { faultOf 0x0D#8 with code := some 0x00000000#32 } p0x) = true
      ∧ raises (deliverOnce (faultOf 0x02#8) p0x) 0x0B#8 = true := by decide

set_option maxRecDepth 4000 in
/-- A task whose CS selector is null: the tests of the switch end in #TS, in the new task. -/
theorem witness_TaskSwitch_fails :
    let s := { taskState with mem := Memory.write taskState.mem 0x2104C 0x00#8 }
    switchRaises .jmp 0x0060#16 s 0x0A#8 = true
      ∧ (fin (taskSwitch .jmp 0x0060#16 false s.pc s.flags.pack s)).pc = 0x00003000#32 := by decide

/-- Tests 1 to 3 of a task switch. -/
theorem witness_TaskSwitch_incoming :
    selNull 0x0003#16 = true ∧ selTi 0x0064#16 = true ∧ p0x.lacksDescriptor 0x00F8#16 = true
      ∧ (descX 2).kind ∉ [0b01001#5, 0b01011#5, 0b00001#5, 0b00011#5]
      ∧ ((descX 15).kind = 0b01001#5 ∧ (descX 15).present = false)
      ∧ readDescriptor 0x0028#16 p0x = .ok (some (descX 5)) p0x ∧ (descX 5).kind = 0b01011#5 ∧ (descX 5).present = true
      ∧ readDescriptor 0x0080#16 p0x = .ok (some (descX 16)) p0x ∧ (descX 16).kind = 0b01001#5
      ∧ (descX 16).present = true ∧ (descX 16).limit.toNat < 103 ∧ ¬(descX 12).limit.toNat < 103 :=
  ⟨by decide, by decide, by decide, by decide, by decide, ok_eq (by decide), by decide, by decide, ok_eq (by decide),
    by decide, by decide, by decide, by decide⟩

/-- A state with another selector in a segment register. -/
def withSel (r : Sreg) (sel : Word) (s : State) : State := s.setSeg r ((s.seg.get r).unchecked sel)

/-- A state with another selector in LDTR. -/
def withLdt (sel : Word) (s : State) : State := { s with ldtr := { s.ldtr with sel := sel, valid := false } }

set_option maxRecDepth 4000 in
/-- Tests 4 to 16 of a task switch, each failing; then the first test of `taskTests` that fails. -/
theorem witness_TaskSwitch_tests :
    [0x0004#16, 0x00F8#16, 0x0010#16, 0x0090#16].map (fun sel => raises (taskLdt false (withLdt sel p0x)) 0x0A#8)
        = [true, true, true, true]
      ∧ [0x0000#16, 0x00F8#16, 0x0010#16, 0x0098#16].map (fun sel => raises (taskCs false (withSel .cs sel p0x)) 0x0A#8)
        = [true, true, true, true]
      ∧ raises (taskCs false (withSel .cs 0x0058#16 p0x)) 0x0B#8 = true
      ∧ [0x0000#16, 0x00F8#16, 0x0008#16, 0x00A8#16, 0x0013#16].map
          (fun sel => raises (taskSs false (withSel .ss sel p0x)) 0x0A#8) = [true, true, true, true, true]
      ∧ raises (taskSs false (withSel .ss 0x00A0#16 p0x)) 0x0C#8 = true
      ∧ [0x00F8#16, 0x0060#16].map (fun sel => raises (taskData .gs false (withSel .gs sel p0x)) 0x0A#8) = [true, true]
      ∧ raises (taskData .ds false (withSel .ds 0x00A0#16 p0x)) 0x0B#8 = true
      ∧ raises (taskData .ds false (withSel .ds 0x0013#16 p0x)) 0x0D#8 = true
      ∧ completes ([taskLdt false].forM id (withSel .cs 0x0000#16 p0x)) = true
      ∧ raises (taskTests false (withSel .cs 0x0000#16 p0x)) 0x0A#8 = true := by decide

/-! ## Single steps: vectors of 95_test_vectors.md, each worked out there from the rules -/

/-- Level 3 as in the vectors: EIP 00400000H, a stack at 0FF0H, EFLAGS = 202H; `low` is memory below the tables. -/
def user (low : List Host.Cell) : State :=
  { (prot 3#2 low).setReg .esp 0x00000FF0#32 with pc := 0x00400000#32, flags := { EFlags.reset with ifl := true } }

/-- Level 0 as in the vectors: EIP 00001000H, a stack at 2000H. -/
def kernel (low : List Host.Cell) : State := (prot 0#2 low).setReg .esp 0x00002000#32

/-- Whether the bytes from an address on are these. -/
def holds (t : State) (a : Nat) (bs : List Byte) : Bool :=
  decide ((List.range bs.length).map (fun k => Memory.read t.mem (a + k)) = bs)

/-- V3.2, V3.8: the accessed bit is set in the descriptor. -/
theorem test_mov_ds_marks :
    nextHas (exec (.movToSreg (c32 2) 3#3 (.reg .eax)) (withEax 0x00000033#32 p3)) (fun t =>
        decide (t.seg.ds.sel = 0x0033#16 ∧ t.seg.ds.limit = 0x00000FFF#32 ∧ t.seg.ds.base = 0x00100000#32)
          && holds t 0x10034 [0x10#8, 0xF3#8, 0x40#8, 0x00#8]) = true
      ∧ nextHas (exec (.movToSreg (c32 2) 3#3 (.reg .eax)) (withEax 0x0000004B#32 p3))
          (fun t => holds t 0x1004C [0x00#8, 0x9F#8, 0xCF#8, 0x00#8]) = true := by decide

/-- V3.3, V3.15: a null selector makes DS unusable; a load of SS inhibits the next boundary. -/
theorem test_mov_sreg_values :
    nextHas (exec (.movToSreg (c32 2) 3#3 (.reg .eax)) (withEax 0x00000003#32 p3))
        (fun t => decide (t.seg.ds.sel = 0x0003#16 ∧ t.seg.ds.valid = false)) = true
      ∧ nextHas (exec (.movToSreg (c32 2) 2#3 (.reg .eax)) (withEax 0x00000023#32 p3))
          (fun t => decide (t.seg.ss.sel = 0x0023#16 ∧ t.run.ssInhibit = true)) = true := by decide

/-- V3.4, V3.6, V3.10 to V3.14, V3.16, V3.18, V3.19: the exceptions of a segment load. -/
theorem test_segment_load_traps :
    [0x0013#16, 0x003B#16, 0x005B#16, 0x007B#16, 0x0027#16].map (fun sel => excOf (loadSeg .ds sel p3))
        = [some (0x0D#8, some 0x0010#16), some (0x0B#8, some 0x0038#16), some (0x0D#8, some 0x0058#16),
           some (0x0D#8, some 0x0078#16), some (0x0D#8, some 0x0024#16)]
      ∧ [0x001B#16, 0x0003#16, 0x0020#16, 0x003B#16].map (fun sel => excOf (loadSeg .ss sel p3))
        = [some (0x0D#8, some 0x0018#16), some (0x0D#8, some 0x0000#16), some (0x0D#8, some 0x0020#16),
           some (0x0C#8, some 0x0038#16)]
      ∧ excOf (loadSeg .ss 0x0023#16 p0) = some (0x0D#8, some 0x0020#16) := by decide

/-- V1.5, V1.6: an operand that runs past FFFFFFFFH; a push that does. -/
theorem test_limit_traps :
    excOf (operandSpan .ds 0xFFFFFFFF#32 2 .read p3) = some (0x0D#8, some 0x0000#16)
      ∧ excOf (pushAll 0 [toBytes 4 0x00000000#32] (p3.setReg .esp 0x00000002#32)) = some (0x0C#8, some 0x0000#16) := by decide

/-- V4.1: JMP to itself. -/
theorem test_jmp_self :
    nextHas (exec (.jmpRel8 (c32 2) 0xFE#8) p0) (fun t => decide (t.pc = 0x00001000#32)) = true := by decide

/-- V4.3: CALL pushes the address after it. -/
theorem test_call :
    nextHas (exec (.callRel (c32 5) (.i32 0x00000003#32)) (kernel [])) (fun t =>
      decide (t.pc = 0x00001008#32 ∧ t.gpr.esp = 0x00001FFC#32)
        && holds t 0x1FFC [0x05#8, 0x10#8, 0x00#8, 0x00#8]) = true := by decide

/-- V4.4: RET 8. -/
theorem test_ret_imm :
    nextHas (exec (.retNearImm (c32 3) 0x0008#16)
        ((kernel [(0x1FFC, 0x05#8), (0x1FFD, 0x10#8)]).setReg .esp 0x00001FFC#32)) (fun t =>
      decide (t.pc = 0x00001005#32 ∧ t.gpr.esp = 0x00002008#32)) = true := by decide

/-- V4.10: a far JMP to conforming code keeps the level. -/
theorem test_jmp_conforming :
    nextHas (exec (.jmpFar (c32 7) (.i32 0x00001000#32) 0x004B#16) (user [])) (fun t =>
      decide (t.seg.cs.sel = 0x004B#16 ∧ t.cpl = 3#2 ∧ t.pc = 0x00001000#32)
        && holds t 0x1004C [0x00#8, 0x9F#8, 0xCF#8, 0x00#8]) = true := by decide

/-- V4.12 with one doubleword: a CALL through the call gate from level 3 to level 0. -/
theorem test_call_gate :
    nextHas (exec (.callFar (c32 7) (.i32 0x00000000#32) 0x005B#16) (user [(0x00FF0, 0x11#8)])) (fun t =>
      decide (t.cpl = 0#2 ∧ t.seg.cs.sel = 0x0008#16 ∧ t.seg.ss.sel = 0x0010#16 ∧ t.pc = 0x00002000#32
          ∧ t.gpr.esp = 0x00007FEC#32)
        && holds t 0x7FEC [0x07#8, 0x00#8, 0x40#8, 0x00#8, 0x1B#8, 0x00#8]
        && holds t 0x7FF4 [0x11#8, 0x00#8, 0x00#8, 0x00#8, 0xF0#8, 0x0F#8, 0x00#8, 0x00#8, 0x23#8, 0x00#8]) = true := by
  decide

/-- V4.24: a far CALL at one level. -/
theorem test_call_far :
    nextHas (exec (.callFar (c32 7) (.i32 0x00001000#32) 0x0008#16) { kernel [] with pc := 0x00000100#32 }) (fun t =>
      decide (t.pc = 0x00001000#32 ∧ t.gpr.esp = 0x00001FF8#32)
        && holds t 0x1FF8 [0x07#8, 0x01#8, 0x00#8, 0x00#8, 0x08#8, 0x00#8]) = true := by decide

/-- The new task of the vectors: EIP 5000H, ESP 9000H, EFLAGS 2, CS 8, the other selectors 10H. -/
def taskCells : List Host.Cell :=
  [(0x21021, 0x50#8), (0x21024, 0x02#8), (0x21039, 0x90#8), (0x21048, 0x10#8), (0x2104C, 0x08#8), (0x21050, 0x10#8),
   (0x21054, 0x10#8), (0x21058, 0x10#8), (0x2105C, 0x10#8)]

set_option maxRecDepth 2000 in
/-- V5.1: a JMP to a TSS. -/
theorem test_jmp_task :
    nextHas (exec (.jmpFar (c32 7) (.i32 0x00000000#32) 0x0060#16) { kernel [] with mem := ram (tables ++ taskCells) }) (fun t =>
      decide (t.tr.sel = 0x0060#16 ∧ t.ctl.cr0 = 0x00000019#32 ∧ t.flags.pack = 0x00000002#32 ∧ t.pc = 0x00005000#32
          ∧ t.gpr.esp = 0x00009000#32 ∧ t.seg.cs.sel = 0x0008#16)
        && holds t 0x1002D [0x89#8] && holds t 0x10065 [0x8B#8] && holds t 0x20020 [0x07#8, 0x10#8, 0x00#8, 0x00#8]) = true := by
  decide

set_option maxRecDepth 2000 in
/-- V5.2: a CALL to a TSS leaves the back link and sets NT. -/
theorem test_call_task :
    nextHas (exec (.callFar (c32 7) (.i32 0x00000000#32) 0x0060#16) { kernel [] with mem := ram (tables ++ taskCells) }) (fun t =>
      decide (t.flags.pack = 0x00004002#32) && holds t 0x1002D [0x8B#8] && holds t 0x10065 [0x8B#8]
        && holds t 0x21000 [0x28#8, 0x00#8]) = true := by decide

/-- The event an input at level 3 raises; the map of V6: port 40 allowed, port 41 denied. -/
def mapped : State :=
  { prot 3#2 [] with tr := { p3.tr with limit := 0x00000087#32 }, mem := ram (tables ++ [(0x2006D, 0x02#8)]) }

/-- V6.1 to V6.3, V6.7: the I/O permission map. -/
theorem test_io_map :
    excOf (ioPermit 0x0028#16 1 mapped) = none ∧ excOf (ioPermit 0x0029#16 1 mapped) = some (0x0D#8, some 0x0000#16)
      ∧ excOf (ioPermit 0x0028#16 2 mapped) = some (0x0D#8, some 0x0000#16)
      ∧ excOf (ioPermit 0x00FE#16 4 mapped) = some (0x0D#8, some 0x0000#16) := by decide

/-- V6.1: IN AL keeps the rest of EAX. -/
theorem test_in_al :
    nextHas (exec (.inAlImm (c32 2) 0x28#8) { mapped with io := { inputs := [0x5A#32], log := [] } })
      (fun t => decide (t.gpr.eax = 0x1122335A#32)) = true := by decide

/-- V6.15: INSD stores in memory order. -/
theorem test_insd :
    nextHas (exec (.insw (c32 1)) { (kernel []).setReg .edi 0x00003000#32 with
        io := { inputs := [0x11223344#32], log := [] } }) (fun t =>
      decide (t.gpr.edi = 0x00003004#32) && holds t 0x3000 [0x44#8, 0x33#8, 0x22#8, 0x11#8]) = true := by decide

/-- V6.17, its first iteration: REP INSB counts ECX down and stays at the prefix. -/
theorem test_rep_insb :
    nextHas (exec (.repPrefix ⟨[.rep], true, 2⟩ .insb) { ((kernel []).setReg .edi 0x00003000#32).setReg .ecx 0x00000002#32 with
        io := { inputs := [0x01#32, 0x02#32], log := [] } }) (fun t =>
      decide (t.gpr.edi = 0x00003001#32 ∧ t.gpr.ecx = 0x00000001#32 ∧ t.pc = 0x00001000#32) && holds t 0x3000 [0x01#8])
        = true := by decide

/-- V7.5, V7.6: PUSHF does not push RF and VM. -/
theorem test_pushf :
    let s := { kernel [] with flags := EFlags.unpack 0x00010246#32 }
    nextHas (exec (.pushf (c32 1)) s) (fun t => holds t 0x1FFC [0x46#8, 0x02#8, 0x00#8, 0x00#8]) = true
      ∧ nextHas (exec (.pushf ⟨[.opSize], true, 2⟩) s) (fun t =>
          decide (t.gpr.esp = 0x00001FFE#32) && holds t 0x1FFE [0x46#8, 0x02#8]) = true := by decide

/-- V7.7, V7.9: what POPF may change at level 0, and at level 3 with IOPL 3. -/
theorem test_popf :
    nextHas (exec (.popf (c32 1)) (kernel [(0x2000, 0xFF#8), (0x2001, 0xFF#8), (0x2002, 0xFF#8), (0x2003, 0xFF#8)]))
        (fun t => decide (t.flags.pack = 0x00017FD7#32)) = true
      ∧ nextHas (exec (.popf (c32 1)) { user [] with flags := EFlags.unpack 0x00003202#32 })
          (fun t => decide (t.flags.pack = 0x00003002#32)) = true := by decide

/-- V8.1 (P2): INT through an interrupt gate from level 3 to level 0. -/
theorem test_int :
    nextHas (exec (.intImm (c32 2) 0x30#8) (user [])) (fun t =>
      decide (t.cpl = 0#2 ∧ t.seg.cs.sel = 0x0008#16 ∧ t.pc = 0x00002000#32 ∧ t.gpr.esp = 0x00007FEC#32
          ∧ t.flags.pack = 0x00000002#32)
        && holds t 0x7FEC [0x02#8, 0x00#8, 0x40#8, 0x00#8, 0x1B#8, 0x00#8]
        && holds t 0x7FF4 [0x02#8, 0x02#8, 0x00#8, 0x00#8, 0xF0#8, 0x0F#8, 0x00#8, 0x00#8, 0x23#8, 0x00#8]) = true := by
  decide

/-- V8.4: the bounds -10 and 10. -/
theorem test_bound :
    let s := kernel [(0x00800, 0xF6#8), (0x00801, 0xFF#8), (0x00802, 0xFF#8), (0x00803, 0xFF#8), (0x00804, 0x0A#8)]
    let runs := fun v => nextHas (exec (.bound (c32 2) .eax (.mem atEbx)) (withEax v s)) (fun t => decide (t.pc = 0x00001002#32))
    [0xFFFFFFF6#32, 0x0000000A#32, 0x00000000#32].all runs = true
      ∧ [0x0000000B#32, 0xFFFFFFF5#32, 0x80000000#32].any runs = false := by decide

/-- P2, step 2: ARPL raises the caller's RPL. -/
theorem test_arpl :
    nextHas (exec (.arpl (c32 2) (.reg .ebx) .eax) ((withEax 0x0000001B#32 p0).setReg .ebx 0x00000010#32))
      (fun t => decide (t.gpr.ebx = 0x00000013#32 ∧ t.flags.zf = true)) = true := by decide

/-- P2, step 3: a selector with RPL 3 of a segment of level 0 does not verify; without it, it does. -/
theorem test_verw :
    nextHas (exec (.verw (c32 3) (.reg .eax)) (withEax 0x00000013#32 p0)) (fun t => decide (t.flags.zf = false)) = true
      ∧ nextHas (exec (.verw (c32 3) (.reg .eax)) (withEax 0x00000010#32 p0)) (fun t => decide (t.flags.zf = true)) = true := by
  decide

/-- V13.5, V13.8: XCHG with memory, and LOCK before it. -/
theorem test_xchg :
    let s := (withEax 0x00000001#32 (kernel [])).setReg .ebx 0x00003000#32
    nextHas (exec (.xchg (c32 2) (.mem atEbx) .eax) s)
        (fun t => decide (t.gpr.eax = 0x00000000#32) && holds t 0x3000 [0x01#8, 0x00#8, 0x00#8, 0x00#8]) = true
      ∧ nextHas (exec (.lockPrefix ⟨[.lock], true, 3⟩ (.xchg (.mem atEbx) .eax)) s)
          (fun t => decide (t.gpr.eax = 0x00000000#32 ∧ t.pc = 0x00001003#32)
            && holds t 0x3000 [0x01#8, 0x00#8, 0x00#8, 0x00#8]) = true := by decide

/-- R600: LOCK before XCHG AX, AX (90H), OR AL, imm8 (0CH), MOV AX, imm16 (B8H), the invalid 0F FF, and INC EBX is #UD; INC
[EBX] may take it. -/
theorem test_lock_others :
    ([.oneByte 0x90#8, .oneByte 0x0C#8, .oneByte 0xB8#8, .twoByte 0xFF#8, .oneByteRm 0xFF#8 0b11000011#8] : List LockTarget).map
        (fun t => decide (nextOf (exec (.lockPrefix ⟨[.lock], true, 2⟩ t) p0) = nextOf (raised (faultOf 0x06#8) p0)))
        = [true, true, true, true, true]
      ∧ refusedWith (exec (.lockPrefix ⟨[.lock], true, 3⟩ (.oneByteRm 0xFF#8 0b00000011#8)) p0)
          (.lockOutsideSpec [0xFF#8, 0b00000011#8]) = true := by decide

/-- R236, 60_exceptions.md R759: an invalid opcode raises #UD. -/
theorem test_invalid_opcode :
    decide (nextOf (step invalidState) = nextOf (raised (faultOf 0x06#8) invalidState.beginInstr)) = true := by decide

/-- R350 with words, 10_state.md R32: SP is popped and the upper half of ESP stays. -/
theorem test_ret_words :
    let s := { (prot 0#2 []).setReg .esp 0x00031000#32 with
      mem := ram (tables ++ [(0x31001, 0x20#8), (0x31002, 0x1B#8), (0x31005, 0x09#8), (0x31006, 0x23#8)]) }
    nextHas (exec (.retFar ⟨[.opSize], true, 2⟩) s)
      (fun t => decide (t.cpl = 3#2 ∧ t.gpr.esp = 0x00030900#32 ∧ t.pc = 0x00002000#32)) = true := by decide

/-- 00_scope.md R8: a store to ROM is lost. -/
theorem test_rom_store :
    let s := { withEbx 0x00000800#32 (kernel []) with
      mem := { map := [{ first := 0x00800, last := 0x00FFF, kind := .rom }], cells := [(0x00800, 0x5A#8)] ++ tables } }
    nextHas (exec (.smsw (c32 3) (.mem atEbx)) s) (fun t => holds t 0x800 [0x5A#8, 0x00#8]) = true := by decide

/-- 48_debug.md R645, R648: the general-detect fault comes before a pending NMI, which stays pending. -/
theorem test_general_detect :
    nextHas (step detectState) (fun t => decide (t.dbg.dr6 = 0x00002000#32 ∧ t.run.nmiPending = true)) = true := by decide

/-- R590: the middle of a wrapped operand outside the segment is a coprocessor segment overrun, vector 9. -/
theorem test_overrun :
    let s := smallDs 0x0000FFFE#32 0x0000FFFE#32 real.cop
    nextOf (exec (.esc (c32 2) 1#3 0#3 (.mem atEbx)) s)
      = nextOf (raised { vector := 0x09#8, kind := .abort, code := none } s.freed) := by decide

/-- 60_exceptions.md R776: an operand at FFFEH of a segment of 64K with base 2000H ends with two bytes at linear address 2000H,
in a page that is absent; CR2 has the address of the first. -/
theorem test_wrapped_page :
    let s := smallDs 0x2000FFFF#32 0x0000FFFE#32 real.cop
    let t := { s with
      ctl := { cr0 := 0x80000011#32, cr2 := 0x00000000#32, cr3 := 0x00003000#32 }
      mem := ram [(0x03000, 0x03#8), (0x03001, 0x40#8), (0x04044, 0x03#8)] }
    (fin (wrappedSpans .ds 0xFFFE 4 .read t)).ctl.cr2 = 0x00002000#32
      ∧ (excOf (wrappedSpans .ds 0xFFFE 4 .read t)).map Prod.fst = some 0x0E#8 := by decide

/-- 20_memory.md R229: SMSW into the two bytes behind it; they are refused when they are fetched. -/
theorem test_prefetched_store :
    let s := { real with gpr := { real.gpr with ebx := 0x00001003#32 },
                         mem := ram [(0x01000, 0x0F#8), (0x01001, 0x01#8), (0x01002, 0x27#8)] }
    nextHas (step s) (fun t => decide (t.pc = 0x00001003#32 ∧ t.run.prefetch.stale = [0x1003])) = true
      ∧ refusedWith (step staleState) .prefetchedStore = true := by decide

/-- 10_state.md R51, 60_exceptions.md R781: in virtual 8086 mode an event is refused, but for one whose handler's level is not
0, which raises #GP with its selector. -/
theorem test_virtual_event :
    let s := { p3 with flags := { p3.flags with vm := true } }
    let e := { int30 with kind := .external }
    (match deliverOnce e s with | .error (.refusal r) _ => decide (r = .virtual8086) | _ => false) = true
      ∧ excOf (deliverOnce e { s with mem := Memory.write s.mem 0x1000D 0xFB#8 }) = some (0x0D#8, some 0x0009#16)
      ∧ refusedWith (deliver deliverBound e { s with idtr := { s.idtr with limit := 0x0000#16 } }) .virtual8086 = true := by
  decide

/-- 10_state.md R51: so is an event whose gate lies in a page that is not present. -/
theorem test_virtual_page :
    let s := { p3 with flags := { p3.flags with vm := true }
                       ctl := { cr0 := 0x80000011#32, cr2 := 0x00000000#32, cr3 := 0x00003000#32 } }
    refusedWith (deliver deliverBound { int30 with kind := .external } s) .virtual8086 = true := by decide

/-- V14.2, V14.3: a TLB write, then the lookup that finds it. -/
theorem test_tlb :
    let s := { kernel [] with tlb := { Tlb.reset with tr7 := 0x00045018#32 } }
    nextHas (exec (.movToTr (c32 3) 6#3 .eax 3#2) (withEax 0x00012B40#32 s)) (fun t =>
      decide (t.tlb.entries[18] = { known := true, v := true, la := 0x00012#20, d := false, u := true, w := true,
                                    pa := 0x00045#20 })
        && nextHas (exec (.movToTr (c32 3) 6#3 .eax 3#2) (withEax 0x00012B41#32 t))
            (fun u => decide (u.tlb.tr7 = 0x00045018#32))) = true := by decide

end Sys2Proof.Tests
end

namespace Sys2Proof.Machine

/-! ## The sound states: what an operation leaves alone, and what it may not break

SUPPORT for the statements that every step keeps the sound states sound (StepKeepsSound) and of RESET (ResetSound,
ResetRegisters). Most operations leave alone all that `State.sound` speaks of (`SameMode`), so they keep every property of
these parts of the state (`ModeOnly`); what is left are the operations that change the level, CR0, the flags or the task. -/

/-- `t` agrees with `s` on PE, PG, the level, VM and the delivery under way, and its memory is in canonical form if that of
`s` is. An update of any other field has this property by definition, so only the updates that go through memory or a case
distinction need a lemma. -/
def SameMode (s t : State) : Prop :=
  t.pe = s.pe ∧ t.pg = s.pg ∧ t.cpl = s.cpl ∧ t.flags.vm = s.flags.vm ∧ t.run.delivering = s.run.delivering
    ∧ (Memory.wf s.mem = true → Memory.wf t.mem = true)

namespace SameMode

variable {s t u : State}

theorem refl (s : State) : SameMode s s := ⟨rfl, rfl, rfl, rfl, rfl, id⟩

theorem of_fields (h : SameMode s t) (hctl : u.ctl = t.ctl) (hcpl : u.cpl = t.cpl) (hflags : u.flags = t.flags)
    (hrun : u.run.delivering = t.run.delivering) (hmem : u.mem = t.mem) : SameMode s u := by
  obtain ⟨pe, pg, cpl, vm, del, wf⟩ := h
  refine ⟨?_, ?_, hcpl.trans cpl, ?_, hrun.trans del, fun hw => hmem ▸ wf hw⟩
  · rw [← pe, State.pe, State.pe, hctl]
  · rw [← pg, State.pg, State.pg, hctl]
  · rw [hflags, vm]

theorem store (h : SameMode s t) (st : Store) : SameMode s (t.store st) := by
  obtain ⟨pe, pg, cpl, vm, del, wf⟩ := h
  exact ⟨pe, pg, cpl, vm, del, fun hw => State_wf_store (wf hw)⟩

theorem storeAll (h : SameMode s t) (sts : List Store) : SameMode s (t.storeAll sts) := by
  induction sts generalizing t with
  | nil => exact h
  | cons st r ih => exact ih (h.store st)

theorem load (h : SameMode s t) (l : SegLoad) : SameMode s (t.load l) := h.storeAll l.marks

theorem setRegN (h : SameMode s t) (r : Reg) (n : Nat) (v : Dword) : SameMode s (t.setRegN r n v) :=
  h.of_fields (by simp) (by simp) (by simp) (by simp) (by simp)

theorem setAcc (h : SameMode s t) (n : Nat) (v : Dword) : SameMode s (t.setAcc n v) :=
  h.of_fields (by simp) (by simp) (by simp) (by simp) (by simp)

theorem moveUp (h : SameMode s t) (k : Nat) : SameMode s (t.moveUp k) :=
  h.of_fields (by simp) (by simp) (by simp) (by simp) (by simp)

theorem moveDown (h : SameMode s t) (k : Nat) : SameMode s (t.moveDown k) :=
  h.of_fields (by simp) (by simp) (by simp) (by simp) (by simp)

theorem bumpReg (h : SameMode s t) (c : Ctx) (r : Reg) (v : Dword) : SameMode s (t.bumpReg c r v) :=
  h.of_fields (by simp) (by simp) (by simp) (by simp) (by simp)

theorem inhibitAfter (h : SameMode s t) (r : Sreg) : SameMode s (t.inhibitAfter r) := by
  unfold State.inhibitAfter
  split
  · exact h
  · exact h

theorem put (h : SameMode s t) (p : Place) (n : Nat) (v : Dword) : SameMode s (t.put p n v) := by
  cases p with
  | reg r => exact h.setRegN r n v
  | mem sp => exact h.store _

theorem savedEip (h : SameMode s t) (e : Event) : SameMode s (t.savedEip e) := by
  unfold State.savedEip
  split
  · exact h
  · exact h

theorem complete (h : SameMode s t) (tf : Bool) (k : Completion) : SameMode s (t.complete tf k) := by
  cases k <;> exact h

/-- CR0 may change in any bit but PE and PG. -/
theorem cr0 (h : SameMode s t) {v : Dword} (hpe : v.getLsbD 0 = t.ctl.cr0.getLsbD 0)
    (hpg : v.getLsbD 31 = t.ctl.cr0.getLsbD 31) : SameMode s { t with ctl := { t.ctl with cr0 := v } } := by
  obtain ⟨pe, pg, rest⟩ := h
  exact ⟨hpe.trans pe, hpg.trans pg, rest⟩

/-- EFLAGS may change in any flag but VM. -/
theorem setFlags (h : SameMode s t) {f : EFlags} (hf : f.vm = s.flags.vm) : SameMode s { t with flags := f } := by
  obtain ⟨pe, pg, cpl, -, del, wf⟩ := h
  exact ⟨pe, pg, cpl, hf, del, wf⟩

/-- POPF and IRET leave VM as it stood when they began. -/
theorem loadFlags {s0 : State} (h : SameMode s t) (hv : s0.flags.vm = s.flags.vm) (n : Nat) (image : Dword) :
    SameMode s (loadFlags s0 n image t) := h.setFlags hv

end SameMode

/-- The properties that hang on nothing but what `SameMode` compares. -/
def ModeOnly (P : State → Prop) : Prop := ∀ s t, P s → SameMode s t → P t

variable {α : Type} {P : State → Prop}

/-- No translation, check or read can touch such a property. -/
theorem ModeOnly.neutral (hM : ModeOnly P) : Neutral P := fun s t hs ht hw =>
  hM s t hs ⟨by rw [ht]; rfl, by rw [ht]; rfl, by rw [ht], by rw [ht], by rw [ht], hw⟩

theorem keeps_mode (hM : ModeOnly P) {f : State → State} (h : ∀ t, SameMode t (f t)) : Keeps P (update f) :=
  keeps_update fun s hs => hM s _ hs (h s)

/-- The last two lines of most instructions: the commit, and how the instruction ended. -/
theorem keeps_commit (hM : ModeOnly P) {f : State → State} {a : α} (h : ∀ t, SameMode t (f t)) :
    Keeps P (update f >>= fun _ => pure a) := keeps_bind (keeps_mode hM h) fun _ => keeps_pure a

/-! ## Checks and reads keep every neutral property -/

/-- A check that raises an exception with an error code. -/
theorem keeps_check (hN : Neutral P) {b : Bool} {v : Byte} {c : Word} : Keeps P (require b (raiseCode v c)) :=
  keeps_require (keeps_raiseCode hN v c)

theorem keeps_protectedOnly : Keeps P protectedOnly :=
  keeps_bind keeps_getState fun _ => keeps_require (keeps_raise _)

theorem keeps_privileged (hN : Neutral P) : Keeps P privileged :=
  keeps_bind keeps_getState fun _ => keeps_check hN

theorem keeps_ioplSensitive (hN : Neutral P) : Keeps P ioplSensitive :=
  keeps_bind keeps_getState fun _ => keeps_check hN

theorem keeps_notVirtual : Keeps P notVirtual :=
  keeps_bind keeps_getState fun _ => keeps_require (keeps_stop _)

theorem keeps_nearTarget (hN : Neutral P) (target : Dword) : Keeps P (nearTarget target) := keeps_segCheck hN _ _ _ _

theorem keeps_frameCheck (hN : Neutral P) (n : Nat) : Keeps P (frameCheck n) :=
  keeps_bind keeps_getState fun _ => keeps_segCheck hN _ _ _ _

theorem keeps_loadData (hN : Neutral P) (r : Sreg) (sel : Word) : Keeps P (loadData r sel) := by
  refine keeps_bind keeps_getState fun s => keeps_ite (fun _ => keeps_pure _) fun _ => ?_
  refine keeps_bind (keeps_needDescriptor hN sel (keeps_raiseCode hN _ _)) fun d => ?_
  refine keeps_ite (fun _ => keeps_raiseCode hN _ _) fun _ => keeps_ite (fun _ => keeps_raiseCode hN _ _) fun _ => ?_
  refine keeps_ite (fun _ => keeps_raiseCode hN _ _) fun _ => keeps_ite (fun _ => keeps_raiseCode hN _ _) fun _ => ?_
  exact keeps_bind (keeps_markAccessed hN d) fun _ => keeps_pure _

theorem keeps_loadStack (hN : Neutral P) (sel : Word) : Keeps P (loadStack sel) := by
  refine keeps_bind keeps_getState fun s => keeps_ite (fun _ => keeps_raiseCode hN _ _) fun _ => ?_
  refine keeps_bind (keeps_needDescriptor hN sel (keeps_raiseCode hN _ _)) fun d => ?_
  refine keeps_ite (fun _ => keeps_raiseCode hN _ _) fun _ => keeps_ite (fun _ => keeps_raiseCode hN _ _) fun _ => ?_
  refine keeps_ite (fun _ => keeps_raiseCode hN _ _) fun _ => ?_
  exact keeps_bind (keeps_markAccessed hN d) fun _ => keeps_pure _

theorem keeps_loadSeg (hN : Neutral P) (r : Sreg) (sel : Word) : Keeps P (loadSeg r sel) :=
  keeps_bind keeps_getState fun _ => keeps_ite (fun _ => keeps_pure _) fun _ =>
    keeps_ite (fun _ => keeps_loadStack hN sel) fun _ => keeps_loadData hN r sel

theorem keeps_loadCode (hN : Neutral P) (d : Descriptor) (sel : Word) (cpl : BitVec 2) : Keeps P (loadCode d sel cpl) :=
  keeps_bind (keeps_markAccessed hN d) fun _ => keeps_pure _

theorem keeps_testMarks (hN : Neutral P) (d : Descriptor) : Keeps P (testMarks d) :=
  keeps_bind keeps_getState fun _ => keeps_ite (fun _ => keeps_markAccessed hN d) fun _ => keeps_pure _

theorem keeps_visible (hN : Neutral P) (sel : Word) : Keeps P (visible sel) := by
  refine keeps_ite (fun _ => keeps_pure _) fun _ => keeps_bind keeps_getState fun s => ?_
  refine keeps_bind (keeps_readDescriptor hN sel) fun d => ?_
  cases d with
  | none => exact keeps_pure _
  | some d => exact keeps_ite (fun _ => keeps_pure _) fun _ => keeps_ite (fun _ => keeps_pure _) fun _ => keeps_pure _

theorem keeps_farPointer (hN : Neutral P) (c : Ctx) (rm : RM Reg) : Keeps P (farPointer c rm) := by
  cases rm with
  | reg r => exact keeps_raise _
  | mem ea =>
    exact keeps_bind keeps_getState fun _ => keeps_bind (keeps_memRead hN _ _ _) fun _ =>
      keeps_bind (keeps_memReadAbove hN _ _ _ _) fun _ => keeps_pure _

theorem keeps_readTable (hN : Neutral P) (c : Ctx) (src : RM Reg) : Keeps P (readTable c src) := by
  cases src with
  | reg r => exact keeps_raise _
  | mem ea =>
    exact keeps_bind keeps_getState fun _ => keeps_bind (keeps_memRead hN _ _ _) fun _ =>
      keeps_bind (keeps_memReadAbove hN _ _ _ _) fun _ => keeps_pure _

theorem keeps_loadLdt (hN : Neutral P) (sel : Word) : Keeps P (loadLdt sel) := by
  refine keeps_bind keeps_getState fun s => keeps_ite (fun _ => keeps_pure _) fun _ => ?_
  refine keeps_bind (keeps_check hN) fun _ => ?_
  refine keeps_bind (keeps_needDescriptor hN sel (keeps_raiseCode hN _ _)) fun d => ?_
  refine keeps_bind (keeps_check hN) fun _ => ?_
  exact keeps_bind (keeps_check hN) fun _ => keeps_pure _

theorem keeps_loadTr (hN : Neutral P) (sel : Word) : Keeps P (loadTr sel) := by
  refine keeps_bind (keeps_check hN) fun _ => ?_
  refine keeps_bind (keeps_check hN) fun _ => ?_
  refine keeps_bind (keeps_needDescriptor hN sel (keeps_raiseCode hN _ _)) fun d => ?_
  refine keeps_ite (fun _ => keeps_stop _) fun _ => ?_
  refine keeps_bind (keeps_check hN) fun _ => ?_
  refine keeps_bind (keeps_check hN) fun _ => ?_
  exact keeps_bind (keeps_sysPrepare hN _ _) fun _ => keeps_pure _

theorem keeps_readControl (n : BitVec 3) : Keeps P (readControl n) := by
  refine keeps_bind keeps_getState fun s => ?_
  split
  · exact keeps_pure _
  · exact keeps_pure _
  · exact keeps_pure _
  · exact keeps_raise _

theorem keeps_readDebug (n : BitVec 3) : Keeps P (readDebug n) := by
  refine keeps_bind keeps_getState fun s => ?_
  split
  · exact keeps_pure _
  · exact keeps_pure _
  · exact keeps_pure _
  · exact keeps_pure _
  · exact keeps_pure _
  · exact keeps_pure _
  · exact keeps_stop _

theorem keeps_ioMapBits (hN : Neutral P) (base port n : Nat) : Keeps P (ioMapBits base port n) := by
  induction n generalizing port with
  | zero => exact keeps_pure ()
  | succ n ih =>
    refine keeps_bind keeps_getState fun _ => keeps_bind (keeps_check hN) fun _ => ?_
    refine keeps_bind (keeps_sysRead hN _ 1) fun _ => ?_
    exact keeps_bind (keeps_check hN) fun _ => ih _

theorem keeps_ioPermit (hN : Neutral P) (port : Word) (n : Nat) : Keeps P (ioPermit port n) := by
  refine keeps_bind keeps_getState fun _ => keeps_ite (fun _ => keeps_pure _) fun _ =>
    keeps_ite (fun _ => keeps_pure _) fun _ => ?_
  refine keeps_bind (keeps_check hN) fun _ => keeps_bind (keeps_sysRead hN _ 2) fun _ => ?_
  exact keeps_bind (keeps_check hN) fun _ => keeps_ioMapBits hN _ _ _

theorem keeps_selectorSlot (hN : Neutral P) (n : Nat) (sel : Word) : Keeps P (selectorSlot n sel) :=
  keeps_ite (fun _ => keeps_pure _) fun _ => keeps_bind (keeps_takeFree hN) fun _ => keeps_pure _

theorem keeps_pushReturn (hN : Neutral P) (n : Nat) (eip : Dword) : Keeps P (pushReturn n eip) :=
  keeps_bind keeps_getState fun _ => keeps_bind (keeps_operandSpan hN _ _ _ _) fun _ =>
    keeps_bind (keeps_stackPrepare hN _ _) fun _ => keeps_bind (keeps_selectorSlot hN _ _) fun _ => keeps_pure _

theorem keeps_pushAll (hN : Neutral P) (k : Nat) (l : List (List Byte)) : Keeps P (pushAll k l) := by
  induction l generalizing k with
  | nil => exact keeps_pure _
  | cons b r ih => exact keeps_bind (keeps_stackPrepare hN _ b) fun _ => keeps_bind (ih _) fun _ => keeps_pure _

theorem keeps_innerPushes (hN : Neutral P) (g : SegReg) (top : Dword) (l : List (List Byte)) :
    Keeps P (innerPushes g top l) := by
  induction l generalizing top with
  | nil => exact keeps_pure _
  | cons b r ih =>
    refine keeps_bind (keeps_translate hN _ _ _ _) fun _ => ?_
    refine keeps_bind (keeps_update fun s hs => hN s _ hs rfl id) fun _ => ?_
    exact keeps_bind (ih _) fun _ => keeps_pure _

theorem keeps_innerStack (hN : Neutral P) (n : BitVec 2) (ext : Bool) : Keeps P (innerStack n ext) :=
  keeps_bind keeps_getState fun _ => keeps_bind (keeps_check hN) fun _ =>
    keeps_bind (keeps_sysRead hN _ 4) fun _ => keeps_bind (keeps_sysRead hN _ 2) fun _ => keeps_pure _

theorem keeps_innerStackSeg (hN : Neutral P) (nss : Word) (n : BitVec 2) (ext : Bool) {wrongDpl : M Unit}
    (hw : Keeps P wrongDpl) : Keeps P (innerStackSeg nss n ext wrongDpl) := by
  refine keeps_bind (keeps_check hN) fun _ => ?_
  refine keeps_bind (keeps_needDescriptor hN nss (keeps_raiseCode hN _ _)) fun d => ?_
  refine keeps_bind (keeps_check hN) fun _ => ?_
  refine keeps_bind (keeps_check hN) fun _ => ?_
  refine keeps_bind (keeps_require hw) fun _ => ?_
  exact keeps_bind (keeps_check hN) fun _ => keeps_pure _

theorem keeps_readParams (hN : Neutral P) (i n : Nat) : Keeps P (readParams i n) := by
  induction n generalizing i with
  | zero => exact keeps_pure _
  | succ n ih =>
    exact keeps_bind keeps_getState fun _ => keeps_bind (keeps_memReadAbove hN _ _ _ 4) fun _ =>
      keeps_bind (ih _) fun _ => keeps_pure _

theorem keeps_returnCode (hN : Neutral P) (ncs : Word) : Keeps P (returnCode ncs) := by
  refine keeps_bind keeps_getState fun s => keeps_bind (keeps_check hN) fun _ => ?_
  refine keeps_bind (keeps_check hN) fun _ => ?_
  refine keeps_bind (keeps_needDescriptor hN ncs (keeps_raiseCode hN _ _)) fun d => ?_
  refine keeps_bind (keeps_check hN) fun _ => ?_
  refine keeps_bind (keeps_check hN) fun _ => ?_
  refine keeps_bind (keeps_check hN) fun _ => ?_
  exact keeps_bind (keeps_check hN) fun _ => keeps_pure _

theorem keeps_returnStack (hN : Neutral P) (nss : Word) (level : BitVec 2) : Keeps P (returnStack nss level) := by
  refine keeps_bind (keeps_check hN) fun _ => ?_
  refine keeps_bind (keeps_needDescriptor hN nss (keeps_raiseCode hN _ _)) fun d => ?_
  refine keeps_bind (keeps_check hN) fun _ => ?_
  refine keeps_bind (keeps_check hN) fun _ => ?_
  refine keeps_bind (keeps_check hN) fun _ => ?_
  exact keeps_bind (keeps_check hN) fun _ => keeps_pure _

theorem keeps_handlerCode (hN : Neutral P) (e : Event) (gate : Descriptor) : Keeps P (handlerCode e gate) := by
  refine keeps_bind keeps_getState fun s => keeps_bind (keeps_check hN) fun _ => ?_
  refine keeps_bind (keeps_needDescriptor hN gate.gateSel (keeps_raiseCode hN _ _)) fun d => ?_
  refine keeps_bind (keeps_check hN) fun _ => ?_
  refine keeps_bind (keeps_check hN) fun _ => ?_
  exact keeps_bind (keeps_check hN) fun _ => keeps_pure _

theorem keeps_incomingTss (hN : Neutral P) (kind : SwitchKind) (tsel : Word) (ext : Bool) :
    Keeps P (incomingTss kind tsel ext) := by
  have bad : Keeps P (if kind = .iret then raiseTS (selErr tsel ext) else raiseGP (selErr tsel ext) : M Descriptor) :=
    keeps_ite (fun _ => keeps_raiseCode hN _ _) fun _ => keeps_raiseCode hN _ _
  refine keeps_ite (fun _ => bad) fun _ => keeps_bind (keeps_needDescriptor hN tsel bad) fun d => ?_
  refine keeps_ite (fun _ => keeps_stop _) fun _ => keeps_ite (fun _ => bad) fun _ => ?_
  refine keeps_ite (fun _ => keeps_raiseCode hN _ _) fun _ => keeps_ite (fun _ => keeps_raiseCode hN _ _) fun _ => ?_
  exact keeps_ite (fun _ => keeps_raiseCode hN _ _) fun _ => keeps_ite (fun _ => keeps_raiseCode hN _ _) fun _ =>
    keeps_pure _

theorem keeps_saveTask (hN : Neutral P) (nextEip flags : Dword) : Keeps P (saveTask nextEip flags) := by
  refine keeps_bind keeps_getState fun s => keeps_bind (keeps_sysPrepare hN _ _) fun _ => ?_
  refine keeps_bind (keeps_sysPrepare hN _ _) fun _ => keeps_bind (keeps_sysPrepare hN _ _) fun _ => ?_
  refine keeps_bind (keeps_sysPrepare hN _ _) fun _ => keeps_bind (keeps_sysPrepare hN _ _) fun _ => ?_
  exact keeps_bind (keeps_sysPrepare hN _ _) fun _ => keeps_bind (keeps_sysPrepare hN _ _) fun _ => keeps_pure _

theorem keeps_clearBusy (hN : Neutral P) (kind : SwitchKind) : Keeps P (clearBusy kind) := by
  refine keeps_bind keeps_getState fun s => keeps_ite (fun _ => ?_) fun _ => keeps_pure _
  refine keeps_bind (keeps_sysRead hN _ _) fun hi => keeps_ite (fun _ => ?_) fun _ => keeps_pure _
  exact keeps_bind (keeps_sysPrepare hN _ _) fun _ => keeps_pure _

theorem keeps_setBusy (hN : Neutral P) (kind : SwitchKind) (d : Descriptor) : Keeps P (setBusy kind d) :=
  keeps_ite (fun _ => keeps_pure _) fun _ => keeps_bind (keeps_sysPrepare hN _ _) fun _ => keeps_pure _

theorem keeps_linkBack (hN : Neutral P) (kind : SwitchKind) (base : Dword) : Keeps P (linkBack kind base) :=
  keeps_bind keeps_getState fun _ =>
    keeps_ite (fun _ => keeps_bind (keeps_sysPrepare hN _ _) fun _ => keeps_pure _) fun _ => keeps_pure _

theorem keeps_pairValue (hN : Neutral P) (x nx : Bool) : Keeps P (pairValue x nx) :=
  keeps_ite (fun _ => keeps_pure _) fun _ => keeps_bind (keeps_takeFree hN) fun _ => keeps_pure _

theorem keeps_fetchByte (hN : Neutral P) (off : Dword) : Keeps P (fetchByte off) :=
  keeps_bind (keeps_checkedSpan hN _ _ _ _) fun _ => keeps_bind keeps_getState fun _ =>
    keeps_ite (fun _ => keeps_stop _) fun _ => keeps_pure _

theorem keeps_fetchFrom (hN : Neutral P) (n : Nat) (bs : List Byte) : Keeps P (fetchFrom n bs) := by
  induction n generalizing bs with
  | zero => exact keeps_raiseCode hN _ _
  | succ n ih =>
    refine keeps_bind keeps_getState fun s => ?_
    split
    · exact keeps_pure _
    · exact keeps_stop _
    · exact keeps_raise _
    · exact keeps_raiseCode hN _ _
    · exact keeps_bind (keeps_fetchByte hN _) fun _ => ih _

theorem keeps_fetchInstr (hN : Neutral P) : Keeps P fetchInstr :=
  keeps_bind keeps_getState fun _ => keeps_ite (fun _ => keeps_stop _) fun _ => keeps_fetchFrom hN _ _

/-! ### The memory operand of an ESC -/

theorem keeps_wrappedByte (hN : Neutral P) (r : Sreg) (off k : Nat) (a : Access) : Keeps P (wrappedByte r off k a) :=
  keeps_bind keeps_getState fun _ => keeps_bind (keeps_segCheck hN _ _ _ _) fun _ =>
    keeps_bind (keeps_translate hN _ _ _ _) fun _ => keeps_bind (keeps_noteAccess hN _ _ _ _) fun _ => keeps_pure _

/-- The check of a wrapped operand's middle puts CR2 back, and CR0 and CR3 with it, which have not changed. -/
theorem keeps_asOverrun_wrappedByte (hM : ModeOnly P) (r : Sreg) (off k : Nat) (a : Access) :
    Keeps P (asOverrun (wrappedByte r off k a)) := by
  intro s hs
  have hQ : ModeOnly fun t => P t ∧ t.pe = s.pe ∧ t.pg = s.pg := by
    intro t u ⟨ht, hpe, hpg⟩ hm
    have ⟨pe, pg, _⟩ := hm
    exact ⟨hM t u ht hm, pe.trans hpe, pg.trans hpg⟩
  have hk := keeps_wrappedByte hQ.neutral r off k a s ⟨hs, rfl, rfl⟩
  unfold KeepsAt at hk ⊢
  unfold asOverrun
  cases hx : wrappedByte r off k a s with
  | ok sp t => rw [hx] at hk; exact hk.1
  | error e t =>
    rw [hx] at hk
    obtain ⟨ht, hpe, hpg⟩ := hk
    cases e with
    | exc e => exact hM t _ ht ⟨hpe.symm, hpg.symm, rfl, rfl, rfl, id⟩
    | fault f => exact ht
    | refusal f => exact ht

theorem keeps_wrappedMiddle (hM : ModeOnly P) (r : Sreg) (off : Nat) (a : Access) (k n : Nat) :
    Keeps P (wrappedMiddle r off a k n) := by
  induction n generalizing k with
  | zero => exact keeps_pure _
  | succ n ih =>
    exact keeps_bind (keeps_asOverrun_wrappedByte hM r off k a) fun _ => keeps_bind (ih _) fun _ => keeps_pure _

theorem keeps_wrappedSpans (hM : ModeOnly P) (r : Sreg) (off n : Nat) (a : Access) : Keeps P (wrappedSpans r off n a) :=
  keeps_bind (keeps_wrappedByte hM.neutral _ _ _ _) fun _ => keeps_bind (keeps_wrappedByte hM.neutral _ _ _ _) fun _ =>
    keeps_bind (keeps_wrappedMiddle hM _ _ _ _ _) fun _ => keeps_pure _

theorem keeps_copData (hN : Neutral P) (n : Nat) (bs : List Byte) : Keeps P (copData n bs) := by
  induction n generalizing bs with
  | zero => exact keeps_pure _
  | succ n ih =>
    cases bs with
    | nil => exact keeps_bind (keeps_takeFree hN) fun _ => keeps_bind (ih _) fun _ => keeps_pure _
    | cons b r => exact keeps_bind (ih _) fun _ => keeps_pure _

theorem keeps_copTransfer (hM : ModeOnly P) (r : Sreg) (off : Dword) (reply : CopReply) :
    Keeps P (copTransfer r off reply) := by
  refine keeps_bind keeps_getState fun s => keeps_ite (fun _ => ?_) fun _ => ?_
  · refine keeps_bind (keeps_wrappedSpans hM _ _ _ _) fun _ => keeps_bind keeps_getState fun _ => ?_
    exact keeps_ite (fun _ => keeps_bind (keeps_copData hM.neutral _ _) fun _ => keeps_pure _) fun _ => keeps_pure _
  · refine keeps_bind (keeps_operandSpan hM.neutral _ _ _ _) fun _ => keeps_bind keeps_getState fun _ => ?_
    exact keeps_ite (fun _ => keeps_bind (keeps_copData hM.neutral _ _) fun _ => keeps_pure _) fun _ => keeps_pure _

end Sys2Proof.Machine

namespace Sys2Proof.Machine

/-! ## Instructions that change nothing `SameMode` compares -/

variable {α : Type} {P : State → Prop}

theorem keeps_arplBody (hM : ModeOnly P) (c : Ctx) (dst : RM Reg) (src : Reg) : Keeps P (arplBody c dst src) := by
  refine keeps_bind keeps_protectedOnly fun _ => keeps_bind keeps_getState fun s => ?_
  cases dst with
  | reg r => exact keeps_ite (fun _ => keeps_commit hM SameMode.refl) fun _ => keeps_commit hM SameMode.refl
  | mem ea =>
    refine keeps_bind (keeps_checkedSpan hM.neutral _ _ _ _) fun sp => ?_
    refine keeps_bind (keeps_noteAccess hM.neutral _ _ _ _) fun _ => keeps_bind keeps_getState fun _ => ?_
    refine keeps_ite (fun _ => ?_) fun _ => keeps_commit hM SameMode.refl
    exact keeps_bind (keeps_noteAccess hM.neutral _ _ _ _) fun _ =>
      keeps_commit hM fun t => (SameMode.refl t).put (.mem sp) _ _

theorem keeps_rightsBody (hM : ModeOnly P) (c : Ctx) (dst : Reg) (src : RM Reg) (valid : Descriptor → Bool)
    {value : Descriptor → M Dword} (hv : ∀ d, Keeps P (value d)) : Keeps P (rightsBody c dst src valid value) := by
  refine keeps_bind keeps_protectedOnly fun _ => keeps_bind (keeps_rmRead16 hM.neutral c src) fun sel => ?_
  refine keeps_bind (keeps_visible hM.neutral sel) fun r => ?_
  cases r with
  | none => exact keeps_commit hM SameMode.refl
  | some d =>
    refine keeps_ite (fun _ => ?_) fun _ => keeps_commit hM SameMode.refl
    exact keeps_bind (keeps_testMarks hM.neutral d) fun _ => keeps_bind (hv d) fun _ =>
      keeps_commit hM fun t => ((SameMode.refl t).storeAll _).setRegN _ _ _

theorem keeps_verifyBody (hM : ModeOnly P) (c : Ctx) (src : RM Reg) (ok : Descriptor → Bool) :
    Keeps P (verifyBody c src ok) := by
  refine keeps_bind keeps_protectedOnly fun _ => keeps_bind (keeps_rmRead16 hM.neutral c src) fun sel => ?_
  refine keeps_bind (keeps_visible hM.neutral sel) fun r => ?_
  cases r with
  | none => exact keeps_commit hM SameMode.refl
  | some d =>
    refine keeps_ite (fun _ => ?_) fun _ => keeps_commit hM SameMode.refl
    exact keeps_bind (keeps_testMarks hM.neutral d) fun _ => keeps_commit hM fun t => (SameMode.refl t).storeAll _

theorem keeps_storeSelector (hM : ModeOnly P) (c : Ctx) (dst : RM Reg) (sel : Word) :
    Keeps P (storeSelector c dst sel) := by
  refine keeps_bind (keeps_rmPlace hM.neutral c dst 2) fun p => ?_
  cases p with
  | mem sp => exact keeps_mode hM fun t => (SameMode.refl t).put (.mem sp) _ _
  | reg r =>
    exact keeps_ite (fun _ => keeps_bind (keeps_takeFree hM.neutral) fun _ => keeps_mode hM SameMode.refl) fun _ =>
      keeps_mode hM SameMode.refl

theorem keeps_storeTable (hM : ModeOnly P) (c : Ctx) (dst : RM Reg) (g : TableReg) : Keeps P (storeTable c dst g) := by
  cases dst with
  | reg r => exact keeps_raise _
  | mem ea =>
    refine keeps_bind keeps_getState fun s => keeps_bind (keeps_memPrepare hM.neutral _ _ _) fun _ => ?_
    refine keeps_bind (keeps_offsetAbove hM.neutral _ _ _) fun _ => ?_
    refine keeps_bind (keeps_memPrepare hM.neutral _ _ _) fun _ => ?_
    exact keeps_commit hM fun t => (SameMode.refl t).storeAll _

theorem keeps_generalDetect (hM : ModeOnly P) : Keeps P generalDetect :=
  keeps_bind keeps_getState fun _ =>
    keeps_ite (fun _ => keeps_bind (keeps_mode hM SameMode.refl) fun _ => keeps_raise _) fun _ => keeps_pure _

theorem keeps_writeDebug (hM : ModeOnly P) (n : BitVec 3) (v : Dword) : Keeps P (writeDebug n v) := by
  unfold writeDebug
  split
  · exact keeps_mode hM SameMode.refl
  · exact keeps_mode hM SameMode.refl
  · exact keeps_mode hM SameMode.refl
  · exact keeps_mode hM SameMode.refl
  · exact keeps_mode hM SameMode.refl
  · exact keeps_mode hM SameMode.refl
  · exact keeps_stop _

theorem keeps_tlbWrite (hM : ModeOnly P) (v : Dword) : Keeps P (tlbWrite v) := by
  refine keeps_bind keeps_getState fun s => keeps_ite (fun _ => keeps_stop _) fun _ => ?_
  refine keeps_bind (keeps_pairValue hM.neutral _ _) fun _ => keeps_bind (keeps_pairValue hM.neutral _ _) fun _ => ?_
  exact keeps_bind (keeps_pairValue hM.neutral _ _) fun _ => keeps_mode hM SameMode.refl

theorem keeps_undefinedLookup (hM : ModeOnly P) (v : Dword) : Keeps P (tlbLookup.undefinedLookup v) :=
  keeps_bind (keeps_takeFree hM.neutral) fun _ => keeps_bind (keeps_takeFree hM.neutral) fun _ =>
    keeps_mode hM SameMode.refl

theorem keeps_tlbLookup (hM : ModeOnly P) (v : Dword) : Keeps P (tlbLookup v) := by
  refine keeps_bind keeps_getState fun s => keeps_ite (fun _ => keeps_undefinedLookup hM v) fun _ => ?_
  split
  · exact keeps_mode hM SameMode.refl
  · exact keeps_bind (keeps_takeFree hM.neutral) fun _ => keeps_mode hM SameMode.refl
  · exact keeps_undefinedLookup hM v

theorem keeps_writeTest (hM : ModeOnly P) (n : BitVec 3) (v : Dword) : Keeps P (writeTest n v) := by
  unfold writeTest
  split
  · exact keeps_ite (fun _ => keeps_tlbLookup hM v) fun _ => keeps_tlbWrite hM v
  · exact keeps_mode hM SameMode.refl
  · exact keeps_raise _

theorem keeps_pushSreg (hM : ModeOnly P) (c : Ctx) (r : Sreg) : Keeps P (pushSreg c r) :=
  keeps_bind keeps_getState fun _ => keeps_bind (keeps_operandSpan hM.neutral _ _ _ _) fun _ =>
    keeps_bind (keeps_selectorSlot hM.neutral _ _) fun _ =>
      keeps_commit hM fun t => ((SameMode.refl t).store _).moveDown _

theorem keeps_popSreg (hM : ModeOnly P) (c : Ctx) (r : Sreg) : Keeps P (popSreg c r) :=
  keeps_bind (keeps_stackRead hM.neutral _ _) fun _ => keeps_bind (keeps_loadSeg hM.neutral r _) fun l =>
    keeps_commit hM fun t => (((SameMode.refl t).load l).moveUp _).inhibitAfter r

theorem keeps_loadPointer (hM : ModeOnly P) (c : Ctx) (r : Sreg) (dst : Reg) (src : RM Reg) :
    Keeps P (loadPointer c r dst src) := by
  cases src with
  | reg q => exact keeps_raise _
  | mem ea =>
    refine keeps_bind keeps_getState fun s => keeps_bind (keeps_memRead hM.neutral _ _ _) fun _ => ?_
    refine keeps_bind (keeps_memReadAbove hM.neutral _ _ _ _) fun _ => keeps_bind (keeps_loadSeg hM.neutral r _) fun l => ?_
    exact keeps_commit hM fun t => ((SameMode.refl t).load l).setRegN _ _ _

theorem keeps_nearJump (hM : ModeOnly P) (target : Dword) : Keeps P (nearJump target) :=
  keeps_bind (keeps_nearTarget hM.neutral target) fun _ => keeps_commit hM SameMode.refl

theorem keeps_nearCall (hM : ModeOnly P) (c : Ctx) (target : Dword) : Keeps P (nearCall c target) :=
  keeps_bind (keeps_nearTarget hM.neutral target) fun _ => keeps_bind keeps_getState fun _ =>
    keeps_bind (keeps_stackPrepare hM.neutral _ _) fun _ =>
      keeps_commit hM fun t => ((SameMode.refl t).store _).moveDown _

theorem keeps_nearReturn (hM : ModeOnly P) (c : Ctx) (extra : Nat) : Keeps P (nearReturn c extra) :=
  keeps_bind (keeps_stackRead hM.neutral _ _) fun _ => keeps_bind (keeps_nearTarget hM.neutral _) fun _ =>
    keeps_commit hM fun t => (SameMode.refl t).moveUp _

/-- A far transfer in real-address mode loads CS, but no level. -/
theorem keeps_farReal (hM : ModeOnly P) (kind : FarKind) (sel : Word) (off : Dword) : Keeps P (farReal kind sel off) := by
  cases kind with
  | jmp => exact keeps_mode hM SameMode.refl
  | call n ret =>
    exact keeps_bind (keeps_pushReturn hM.neutral n ret) fun _ =>
      keeps_mode hM fun t => ((SameMode.refl t).storeAll _).moveDown _

theorem keeps_ioSpace (port : Word) (n : Nat) : Keeps P (ioSpace port n) := keeps_require (keeps_stop _)

theorem keeps_ioRead (hM : ModeOnly P) (port : Word) (n : Nat) : Keeps P (ioRead port n) := by
  refine keeps_bind (keeps_ioSpace port n) fun _ => keeps_bind keeps_getState fun s => ?_
  split
  · exact keeps_bind (keeps_mode hM SameMode.refl) fun _ => keeps_bind (keeps_pure _) fun _ =>
      keeps_commit hM SameMode.refl
  · exact keeps_bind (keeps_takeFree hM.neutral) fun _ => keeps_bind (keeps_pure _) fun _ =>
      keeps_commit hM SameMode.refl

theorem keeps_ioWrite (hM : ModeOnly P) (port : Word) (n : Nat) (v : Dword) : Keeps P (ioWrite port n v) :=
  keeps_bind (keeps_ioSpace port n) fun _ => keeps_mode hM SameMode.refl

theorem keeps_inBody (hM : ModeOnly P) (c : Ctx) (port : Word) (n : Nat) : Keeps P (inBody c port n) :=
  keeps_bind (keeps_ioPermit hM.neutral port n) fun _ => keeps_bind (keeps_ioRead hM port n) fun _ =>
    keeps_commit hM fun t => (SameMode.refl t).setAcc _ _

theorem keeps_outBody (hM : ModeOnly P) (c : Ctx) (port : Word) (n : Nat) : Keeps P (outBody c port n) :=
  keeps_bind (keeps_ioPermit hM.neutral port n) fun _ => keeps_bind keeps_getState fun _ =>
    keeps_bind (keeps_ioWrite hM port n _) fun _ => keeps_commit hM SameMode.refl

theorem keeps_insStep (hM : ModeOnly P) (c : Ctx) (n : Nat) : Keeps P (insStep c n) :=
  keeps_bind keeps_getState fun _ => keeps_bind (keeps_ioPermit hM.neutral _ n) fun _ =>
    keeps_bind keeps_notVirtual fun _ => keeps_bind (keeps_operandSpan hM.neutral _ _ _ _) fun _ =>
      keeps_bind (keeps_ioRead hM _ n) fun _ => keeps_mode hM fun t => ((SameMode.refl t).store _).bumpReg _ _ _

theorem keeps_outsStep (hM : ModeOnly P) (c : Ctx) (n : Nat) : Keeps P (outsStep c n) :=
  keeps_bind keeps_getState fun _ => keeps_bind (keeps_ioPermit hM.neutral _ n) fun _ =>
    keeps_bind keeps_notVirtual fun _ => keeps_bind (keeps_memRead hM.neutral _ _ _) fun _ =>
      keeps_bind (keeps_ioWrite hM _ n _) fun _ => keeps_mode hM fun t => (SameMode.refl t).bumpReg _ _ _

theorem keeps_stringOnce (hM : ModeOnly P) (c : Ctx) {stepOnce : M Unit} (h : Keeps P stepOnce) :
    Keeps P (stringOnce c stepOnce) := keeps_bind h fun _ => keeps_commit hM SameMode.refl

theorem keeps_repeated (hM : ModeOnly P) (c : Ctx) {stepOnce : M Unit} (h : Keeps P stepOnce) :
    Keeps P (repeated c stepOnce) := by
  refine keeps_bind keeps_getState fun s => keeps_ite (fun _ => ?_) fun _ => ?_
  · exact keeps_bind keeps_notVirtual fun _ => keeps_commit hM SameMode.refl
  · refine keeps_bind h fun _ => keeps_bind (keeps_mode hM fun t => (SameMode.refl t).bumpReg _ _ _) fun _ => ?_
    exact keeps_ite (fun _ => keeps_commit hM SameMode.refl) fun _ => keeps_pure _

theorem keeps_escBody (hM : ModeOnly P) (c : Ctx) (op reg : BitVec 3) (rm : RM Reg) : Keeps P (escBody c op reg rm) := by
  refine keeps_bind keeps_getState fun s => keeps_bind (keeps_require (keeps_raise _)) fun _ => ?_
  refine keeps_ite (fun _ => keeps_stop _) fun _ => keeps_bind (keeps_require (keeps_raise _)) fun _ => ?_
  cases rm with
  | reg r => exact keeps_commit hM SameMode.refl
  | mem ea =>
    exact keeps_bind (keeps_copTransfer hM _ _ _) fun _ => keeps_commit hM fun t => (SameMode.refl t).storeAll _

theorem keeps_xchgByteBody (hM : ModeOnly P) (c : Ctx) (rm : RM Reg8) (r : Reg8) : Keeps P (xchgByteBody c rm r) := by
  refine keeps_bind keeps_getState fun s => ?_
  cases rm with
  | reg q => exact keeps_commit hM SameMode.refl
  | mem ea =>
    exact keeps_bind (keeps_operandSpan hM.neutral _ _ _ _) fun _ => keeps_bind keeps_getState fun _ =>
      keeps_commit hM fun t => (SameMode.refl t).store _

theorem keeps_xchgBody (hM : ModeOnly P) (c : Ctx) (rm : RM Reg) (r : Reg) : Keeps P (xchgBody c rm r) := by
  refine keeps_bind keeps_getState fun s => ?_
  cases rm with
  | reg q => exact keeps_commit hM fun t => ((SameMode.refl t).setRegN _ _ _).setRegN _ _ _
  | mem ea =>
    exact keeps_bind (keeps_operandSpan hM.neutral _ _ _ _) fun _ => keeps_bind keeps_getState fun _ =>
      keeps_commit hM fun t => ((SameMode.refl t).store _).setRegN _ _ _

theorem keeps_lockOther (fields : List (BitVec 3)) (opcode : List Byte) (b : Byte) :
    Keeps P (lockOther fields opcode b : M α) := keeps_ite (fun _ => keeps_stop _) fun _ => keeps_raise _

end Sys2Proof.Machine

namespace Sys2Proof.Machine

/-! ## Computations that may stop in a state that is not sound

A task switch that would enter virtual 8086 mode is refused in a state whose VM is set, so it does not keep a property in the
sense of `Keeps`. That state is lost: a step that stops answers none. -/

/-- A property of the state that a computation hands on: the one it completes in, or the one it raises an exception in. -/
def Ends {α : Type} (P : State → Prop) : EStateM.Result Err State α → Prop
  | .ok _ t => P t
  | .error (.exc _) t => P t
  | .error (.fault _) _ => True
  | .error (.refusal _) _ => True

/-- A computation that hands a property of the state on. -/
def Preserves {α : Type} (P : State → Prop) (m : M α) : Prop := ∀ s, P s → Ends P (m s)

variable {α β : Type} {P Q : State → Prop}

theorem Ends.mono (hPQ : ∀ t, P t → Q t) {r : EStateM.Result Err State α} (h : Ends P r) : Ends Q r :=
  match r, h with
  | .ok _ t, h => hPQ t h
  | .error (.exc _) t, h => hPQ t h
  | .error (.fault _) _, _ => trivial
  | .error (.refusal _) _, _ => trivial

theorem ends_error {e : Err} {t : State} (h : P t) : Ends P (.error e t : EStateM.Result Err State α) :=
  match e with
  | .exc _ => h
  | .fault _ => trivial
  | .refusal _ => trivial

theorem KeepsAt.ends {m : M α} {s : State} (h : KeepsAt P m s) : Ends P (m s) := by
  unfold KeepsAt at h
  cases hr : m s with
  | ok a t => rw [hr] at h; exact h
  | error e t => rw [hr] at h; exact ends_error h

theorem KeepsAt.mono (hPQ : ∀ t, P t → Q t) {m : M α} {s : State} (h : KeepsAt P m s) : KeepsAt Q m s := by
  unfold KeepsAt at h ⊢
  cases hr : m s with
  | ok a t => rw [hr] at h; exact hPQ t h
  | error e t => rw [hr] at h; exact hPQ t h

theorem Keeps.at {m : M α} {s : State} (h : Keeps P m) (hs : P s) : KeepsAt P m s := h s hs

theorem Preserves.at {m : M α} {s : State} (h : Preserves P m) (hs : P s) : Ends P (m s) := h s hs

theorem Keeps.preserves {m : M α} (h : Keeps P m) : Preserves P m := fun s hs => (h s hs).ends

theorem preserves_bind {m : M α} {f : α → M β} (hm : Preserves P m) (hf : ∀ a, Preserves P (f a)) :
    Preserves P (m >>= f) := by
  intro s hs
  have h := hm s hs
  rw [M_bind_apply]
  match hr : m s with
  | .ok a t => rw [hr] at h; exact hf a t h
  | .error (.exc e) t => rw [hr] at h; exact h
  | .error (.fault f) t => trivial
  | .error (.refusal f) t => trivial

theorem preserves_keeps_bind {m : M α} {f : α → M β} (hm : Keeps P m) (hf : ∀ a, Preserves P (f a)) :
    Preserves P (m >>= f) := preserves_bind hm.preserves hf

theorem preserves_ite {p : Prop} [Decidable p] {m n : M α} (hm : p → Preserves P m) (hn : ¬p → Preserves P n) :
    Preserves P (if p then m else n) := by
  split
  · exact hm ‹_›
  · exact hn ‹_›

/-- A computation that reads the state first, and may use what it knows of it. -/
theorem preserves_getState_bind {f : State → M β} (h : ∀ s, P s → Ends P (f s s)) : Preserves P (getState >>= f) :=
  fun s hs => h s hs

theorem ends_getState_bind {f : State → M β} {s : State} (h : Ends P (f s s)) : Ends P ((getState >>= f) s) := h

theorem ends_update_bind {f : State → State} {m : Unit → M β} {s : State} (h : Ends P (m () (f s))) :
    Ends P ((update f >>= m) s) := h

/-! ## The invariant, with a delivery under way or none -/

/-- What `State.sound` says, but with the delivery of an event of class `d` under way. -/
def State.steady (d : Option ExcClass) (s : State) : Prop :=
  Memory.wf s.mem = true ∧ (s.pg = true → s.pe = true) ∧ (s.pe = false → s.cpl = 0#2) ∧ s.flags.vm = false
    ∧ s.run.delivering = d

/-- The same in protected mode, where neither the level nor PG is bound. -/
def State.steadyProtected (d : Option ExcClass) (s : State) : Prop :=
  Memory.wf s.mem = true ∧ s.pe = true ∧ s.flags.vm = false ∧ s.run.delivering = d

variable {d : Option ExcClass} {s t : State}

/-- The sound states are the steady ones with no delivery under way. -/
theorem sound_iff_steady : s.sound ↔ s.steady none := Iff.rfl

theorem State.steady.protected (h : s.steady d) (hp : s.pe = true) : s.steadyProtected d := by
  obtain ⟨wf, -, -, vm, del⟩ := h
  exact ⟨wf, hp, vm, del⟩

theorem State.steadyProtected.steady (h : s.steadyProtected d) : s.steady d := by
  obtain ⟨wf, pe, vm, del⟩ := h
  exact ⟨wf, fun _ => pe, fun hr => absurd pe (by simp [hr]), vm, del⟩

theorem State.steady.vm (h : s.steady d) : s.flags.vm = false := by
  obtain ⟨-, -, -, vm, -⟩ := h
  exact vm

theorem State.steadyProtected.vm (h : s.steadyProtected d) : s.flags.vm = false := h.steady.vm

theorem modeOnly_steady (d : Option ExcClass) : ModeOnly (State.steady d) := by
  intro s t ⟨wf, paging, level, vm, del⟩ ⟨hpe, hpg, hcpl, hvm, hdel, hwf⟩
  refine ⟨hwf wf, fun h => ?_, fun h => ?_, hvm.trans vm, hdel.trans del⟩
  · exact hpe.trans (paging (hpg.symm.trans h))
  · exact hcpl.trans (level (hpe.symm.trans h))

theorem modeOnly_protected (d : Option ExcClass) : ModeOnly (State.steadyProtected d) := by
  intro s t ⟨wf, pe, vm, del⟩ ⟨hpe, _, _, hvm, hdel, hwf⟩
  exact ⟨hwf wf, hpe.trans pe, hvm.trans vm, hdel.trans del⟩

theorem neutral_protected (d : Option ExcClass) : Neutral (State.steadyProtected d) := (modeOnly_protected d).neutral

theorem State.steadyProtected.mode (h : s.steadyProtected d) (hm : SameMode s t) : t.steadyProtected d :=
  modeOnly_protected d s t h hm

/-- In protected mode CS may be loaded with any level. -/
theorem State.steadyProtected.loadCs (h : s.steadyProtected d) (l : SegLoad) (cpl : BitVec 2) :
    (s.loadCs l cpl).steadyProtected d := by
  obtain ⟨wf, pe, vm, del⟩ := h.mode ((SameMode.refl s).load l)
  exact ⟨wf, pe, vm, del⟩

/-! ## The task switch -/

theorem keeps_acceptSeg (hM : ModeOnly P) (r : Sreg) (d : Descriptor) (sel : Word) : Keeps P (acceptSeg r d sel) :=
  keeps_bind (keeps_markAccessed hM.neutral d) fun _ => keeps_mode hM fun t => (SameMode.refl t).load _

theorem keeps_taskLdt (hM : ModeOnly P) (ext : Bool) : Keeps P (taskLdt ext) := by
  have ts : ∀ {α : Type} (e : Word), Keeps P (raiseTS e : M α) := keeps_raiseCode hM.neutral _
  refine keeps_bind keeps_getState fun s => keeps_ite (fun _ => keeps_pure _) fun _ => keeps_ite (fun _ => ts _) fun _ => ?_
  refine keeps_bind (keeps_needDescriptor hM.neutral _ (ts _)) fun d => keeps_ite (fun _ => ts _) fun _ => ?_
  exact keeps_ite (fun _ => ts _) fun _ => keeps_mode hM SameMode.refl

theorem keeps_taskCs (hM : ModeOnly P) (ext : Bool) : Keeps P (taskCs ext) := by
  have ts : ∀ {α : Type} (e : Word), Keeps P (raiseTS e : M α) := keeps_raiseCode hM.neutral _
  refine keeps_bind keeps_getState fun s => keeps_ite (fun _ => ts _) fun _ => ?_
  refine keeps_bind (keeps_needDescriptor hM.neutral _ (ts _)) fun d => keeps_ite (fun _ => ts _) fun _ => ?_
  refine keeps_ite (fun _ => keeps_raiseCode hM.neutral _ _) fun _ => keeps_ite (fun _ => ts _) fun _ => ?_
  exact keeps_ite (fun _ => ts _) fun _ => keeps_acceptSeg hM _ _ _

theorem keeps_taskSs (hM : ModeOnly P) (ext : Bool) : Keeps P (taskSs ext) := by
  have ts : ∀ {α : Type} (e : Word), Keeps P (raiseTS e : M α) := keeps_raiseCode hM.neutral _
  refine keeps_bind keeps_getState fun s => keeps_ite (fun _ => ts _) fun _ => ?_
  refine keeps_bind (keeps_needDescriptor hM.neutral _ (ts _)) fun d => keeps_ite (fun _ => ts _) fun _ => ?_
  refine keeps_ite (fun _ => keeps_raiseCode hM.neutral _ _) fun _ => keeps_ite (fun _ => ts _) fun _ => ?_
  exact keeps_ite (fun _ => ts _) fun _ => keeps_acceptSeg hM _ _ _

theorem keeps_taskData (hM : ModeOnly P) (r : Sreg) (ext : Bool) : Keeps P (taskData r ext) := by
  have exc : ∀ {α : Type} (v : Byte) (e : Word), Keeps P (raiseCode v e : M α) := keeps_raiseCode hM.neutral
  refine keeps_bind keeps_getState fun s => keeps_ite (fun _ => keeps_pure _) fun _ => ?_
  refine keeps_bind (keeps_needDescriptor hM.neutral _ (exc _ _)) fun d => keeps_ite (fun _ => exc _ _) fun _ => ?_
  exact keeps_ite (fun _ => exc _ _) fun _ => keeps_ite (fun _ => exc _ _) fun _ => keeps_acceptSeg hM _ _ _

theorem keeps_taskTests (hM : ModeOnly P) (ext : Bool) : Keeps P (taskTests ext) :=
  keeps_bind (keeps_taskLdt hM ext) fun _ => keeps_bind (keeps_taskCs hM ext) fun _ =>
    keeps_bind (keeps_taskSs hM ext) fun _ => keeps_bind (keeps_taskData hM _ ext) fun _ =>
      keeps_bind (keeps_taskData hM _ ext) fun _ => keeps_bind (keeps_taskData hM _ ext) fun _ => keeps_taskData hM _ ext

/-- The registers of the incoming task keep the invariant, unless its EFLAGS image sets VM: of CR0 only TS changes. -/
theorem State.steadyProtected.enterTask (h : s.steadyProtected d) (kind : SwitchKind) (tsel : Word) (g : Descriptor)
    (image : List Byte) (hv : (s.enterTask kind tsel g image).flags.vm = false) :
    (s.enterTask kind tsel g image).steadyProtected d := by
  obtain ⟨wf, pe, -, del⟩ := h
  refine ⟨wf, ?_, hv, del⟩
  simpa [State.enterTask, State.pe] using pe

theorem preserves_taskSwitch (d : Option ExcClass) (kind : SwitchKind) (tsel : Word) (ext : Bool) (nextEip flags : Dword) :
    Preserves (State.steadyProtected d) (taskSwitch kind tsel ext nextEip flags) := by
  have hM := modeOnly_protected d
  refine preserves_keeps_bind (keeps_incomingTss hM.neutral _ _ _) fun g => ?_
  refine preserves_keeps_bind (keeps_saveTask hM.neutral _ _) fun save => ?_
  refine preserves_keeps_bind (keeps_clearBusy hM.neutral _) fun clear => ?_
  refine preserves_keeps_bind (keeps_setBusy hM.neutral _ _) fun set => ?_
  refine preserves_keeps_bind (keeps_linkBack hM.neutral _ _) fun link => ?_
  refine preserves_keeps_bind (keeps_translate hM.neutral _ _ _ _) fun span => ?_
  refine preserves_keeps_bind (keeps_mode hM fun t => (SameMode.refl t).storeAll _) fun _ => ?_
  refine preserves_getState_bind fun s hs => ?_
  refine ends_update_bind (ends_getState_bind ?_)
  by_cases hv : (s.enterTask kind tsel g (Memory.readSpan s.mem span 0 104)).flags.vm = true
  · rw [if_pos hv]
    trivial
  · rw [if_neg hv]
    refine Preserves.at (Keeps.preserves ?_) (hs.enterTask kind tsel g _ (by simpa using hv))
    exact keeps_bind (keeps_taskTests hM ext) fun _ =>
      keeps_ite (fun _ => keeps_mode hM SameMode.refl) fun _ => keeps_pure _

/-! ## Far transfers and returns -/

theorem keeps_transferSame (d : Option ExcClass) (kind : FarKind) (g : Descriptor) (sel : Word) (off : Dword) :
    Keeps (State.steadyProtected d) (transferSame kind g sel off) := by
  have hN := neutral_protected d
  refine keeps_bind (keeps_check hN) fun _ => keeps_bind keeps_getState fun s => ?_
  cases kind with
  | jmp =>
    exact keeps_bind (keeps_loadCode hN _ _ _) fun l => keeps_update fun t ht => ht.loadCs l s.cpl
  | call n ret =>
    refine keeps_bind (keeps_pushReturn hN n ret) fun pushes => keeps_bind (keeps_loadCode hN _ _ _) fun l => ?_
    exact keeps_update fun t ht => (ht.mode (((SameMode.refl t).storeAll pushes).moveDown (2 * n))).loadCs l s.cpl

theorem keeps_interlevelCall (d : Option ExcClass) (g : Descriptor) (tsel : Word) (off : Dword) (count : Nat)
    (ret : Dword) : Keeps (State.steadyProtected d) (interlevelCall g tsel off count ret) := by
  have hN := neutral_protected d
  refine keeps_bind (keeps_innerStack hN _ _) fun (nesp, nss) => ?_
  refine keeps_bind (keeps_innerStackSeg hN _ _ _ (keeps_raiseCode hN _ _)) fun sd => ?_
  refine keeps_bind (keeps_check hN) fun _ => ?_
  refine keeps_bind (keeps_check hN) fun _ => ?_
  refine keeps_bind (keeps_readParams hN _ _) fun params => keeps_bind keeps_getState fun s => ?_
  refine keeps_bind (keeps_selectorSlot hN _ _) fun oldSs => keeps_bind (keeps_selectorSlot hN _ _) fun oldCs => ?_
  refine keeps_bind (keeps_markAccessed hN _) fun marks => keeps_bind (keeps_loadCode hN _ _ _) fun l => ?_
  refine keeps_bind (keeps_innerPushes hN _ _ _) fun pushes => keeps_update fun t ht => ?_
  have entered := (ht.mode ((SameMode.refl t).load ⟨.ss, sd.segReg nss, marks⟩)).loadCs l g.dpl
  exact entered.mode ((SameMode.refl _).storeAll pushes)

theorem keeps_gateTransfer (d : Option ExcClass) (kind : FarKind) (gate : Descriptor) (gsel : Word) :
    Keeps (State.steadyProtected d) (gateTransfer kind gate gsel) := by
  have hN := neutral_protected d
  refine keeps_bind keeps_getState fun s => keeps_bind (keeps_check hN) fun _ => ?_
  refine keeps_bind (keeps_check hN) fun _ => ?_
  refine keeps_bind (keeps_check hN) fun _ => ?_
  refine keeps_bind (keeps_needDescriptor hN _ (keeps_raiseCode hN _ _)) fun g => ?_
  refine keeps_bind (keeps_check hN) fun _ => ?_
  refine keeps_bind (keeps_check hN) fun _ => ?_
  refine keeps_bind (keeps_check hN) fun _ => ?_
  refine keeps_bind (keeps_check hN) fun _ => ?_
  cases kind with
  | jmp => exact keeps_transferSame d _ _ _ _
  | call n ret =>
    exact keeps_ite (fun _ => keeps_interlevelCall d _ _ _ _ _) fun _ => keeps_transferSame d _ _ _ _

theorem preserves_farProtected (d : Option ExcClass) (kind : FarKind) (sel : Word) (off next : Dword) :
    Preserves (State.steadyProtected d) (farProtected kind sel off next) := by
  have hN := neutral_protected d
  have gp : ∀ {b : Bool} {v : Byte} {e : Word}, Keeps (State.steadyProtected d) (require b (raiseCode v e)) :=
    keeps_check hN
  refine preserves_keeps_bind keeps_getState fun s => preserves_keeps_bind gp fun _ => ?_
  refine preserves_keeps_bind (keeps_needDescriptor hN _ (keeps_raiseCode hN _ _)) fun g => ?_
  refine preserves_ite (fun _ => Keeps.preserves ?_) fun _ => preserves_ite (fun _ => Keeps.preserves ?_) fun _ =>
    preserves_ite (fun _ => ?_) fun _ => preserves_ite (fun _ => ?_) fun _ =>
      preserves_ite (fun _ => (keeps_stop _).preserves) fun _ => (keeps_raiseCode hN _ _).preserves
  · exact keeps_bind gp fun _ => keeps_bind gp fun _ => keeps_bind gp fun _ => keeps_bind gp fun _ =>
      keeps_bind (keeps_transferSame d _ _ _ _) fun _ => keeps_pure _
  · exact keeps_bind (keeps_gateTransfer d _ _ _) fun _ => keeps_pure _
  · exact preserves_keeps_bind gp fun _ => preserves_keeps_bind gp fun _ =>
      preserves_bind (preserves_taskSwitch d _ _ _ _ _) fun _ => (keeps_pure _).preserves
  · exact preserves_keeps_bind gp fun _ =>
      preserves_bind (preserves_taskSwitch d _ _ _ _ _) fun _ => (keeps_pure _).preserves

theorem preserves_farTransfer (d : Option ExcClass) (kind : FarKind) (sel : Word) (off next : Dword) :
    Preserves (State.steady d) (farTransfer kind sel off next) := by
  refine preserves_getState_bind fun s hs => ?_
  split
  · rename_i hp
    refine Ends.mono (fun t => State.steadyProtected.steady) ?_
    refine preserves_bind (preserves_farProtected d kind sel off next) (fun _ => Keeps.preserves ?_) s (hs.protected hp)
    exact keeps_commit (modeOnly_protected d) SameMode.refl
  · refine Keeps.preserves ?_ s hs
    exact keeps_bind (keeps_farReal (modeOnly_steady d) kind sel off) fun _ => keeps_bind (keeps_pure _) fun _ =>
      keeps_commit (modeOnly_steady d) SameMode.refl

theorem keeps_returnProtected (d : Option ExcClass) (n frame skip extra : Nat) (neip : Dword) (ncs : Word)
    {flags : State → State} (hf : ∀ t, t.steadyProtected d → (flags t).steadyProtected d) :
    Keeps (State.steadyProtected d) (returnProtected n frame skip extra neip ncs flags) := by
  have hN := neutral_protected d
  refine keeps_bind keeps_getState fun s => keeps_bind (keeps_returnCode hN ncs) fun g => ?_
  refine keeps_ite (fun _ => ?_) fun _ => ?_
  · refine keeps_bind (keeps_check hN) fun _ => keeps_bind (keeps_loadCode hN _ _ _) fun l => ?_
    exact keeps_update fun t ht => hf _ ((ht.mode ((SameMode.refl t).moveUp _)).loadCs l (selRpl ncs))
  · refine keeps_bind (keeps_frameCheck hN _) fun _ => keeps_bind (keeps_stackRead hN _ _) fun vsp => ?_
    refine keeps_bind (keeps_stackRead hN _ _) fun nss => keeps_bind (keeps_returnStack hN _ _) fun sd => ?_
    refine keeps_bind (keeps_check hN) fun _ => keeps_bind (keeps_loadCode hN _ _ _) fun l => ?_
    refine keeps_bind (keeps_markAccessed hN _) fun marks => keeps_update fun t ht => hf _ ?_
    exact (ht.loadCs l _).mode ((SameMode.refl _).load ⟨.ss, sd.segReg (lowWord nss), marks⟩)

theorem keeps_farReturn (d : Option ExcClass) (n extra : Nat) : Keeps (State.steady d) (farReturn n extra) := by
  refine keeps_getState_bind fun s hs => ?_
  by_cases hp : s.pe = true
  · have hN := neutral_protected d
    refine KeepsAt.mono (fun t => State.steadyProtected.steady) (Keeps.at ?_ (hs.protected hp))
    refine keeps_bind (keeps_frameCheck hN _) fun _ => keeps_bind (keeps_stackRead hN _ _) fun neip => ?_
    refine keeps_bind (keeps_stackRead hN _ _) fun vcs => keeps_ite (fun _ => ?_) fun hr => absurd hp hr
    exact keeps_returnProtected d _ _ _ _ _ _ fun _ => id
  · have hM := modeOnly_steady d
    refine Keeps.at ?_ hs
    refine keeps_bind (keeps_frameCheck hM.neutral _) fun _ => keeps_bind (keeps_stackRead hM.neutral _ _) fun neip => ?_
    refine keeps_bind (keeps_stackRead hM.neutral _ _) fun vcs => keeps_ite (fun h => absurd h hp) fun _ => ?_
    exact keeps_mode hM fun t => (SameMode.refl t).moveUp _

/-- IRET: with NT set in protected mode it switches tasks, else it returns within the task, in the mode it began in. -/
theorem preserves_returnFromInterrupt (d : Option ExcClass) (n : Nat) (next : Dword) :
    Preserves (State.steady d) (returnFromInterrupt n next) := by
  refine preserves_getState_bind fun s hs => ?_
  have unmask : ∀ {P : State → Prop}, ModeOnly P → Keeps P (update State.unmaskNmi) :=
    fun hM => keeps_mode hM SameMode.refl
  by_cases hp : s.pe = true
  · have hM := modeOnly_protected d
    refine Ends.mono (fun t => State.steadyProtected.steady) (Preserves.at ?_ (hs.protected hp))
    refine preserves_ite (fun _ => ?_) fun _ => ?_
    · exact preserves_keeps_bind (keeps_sysRead hM.neutral _ _) fun bl =>
        preserves_bind (preserves_taskSwitch d _ _ _ _ _) fun _ => (unmask hM).preserves
    · refine Keeps.preserves ?_
      refine keeps_bind (keeps_frameCheck hM.neutral _) fun _ => keeps_bind (keeps_stackRead hM.neutral _ _) fun neip => ?_
      refine keeps_bind (keeps_stackRead hM.neutral _ _) fun vcs => ?_
      refine keeps_bind (keeps_stackRead hM.neutral _ _) fun image => ?_
      refine keeps_ite (fun _ => ?_) fun hr => absurd hp hr
      refine keeps_bind (keeps_returnProtected d _ _ _ _ _ _ fun t ht => ?_) fun _ => ?_
      · exact ht.mode ((SameMode.refl t).loadFlags (hs.vm.trans ht.vm.symm) n image)
      · exact keeps_ite (fun _ => keeps_bind (keeps_stop _) fun _ => unmask hM) fun _ => unmask hM
  · have hM := modeOnly_steady d
    refine (Keeps.at ?_ hs).ends
    refine keeps_ite (fun h => absurd h (by simp [hp])) fun _ => ?_
    refine keeps_bind (keeps_frameCheck hM.neutral _) fun _ => keeps_bind (keeps_stackRead hM.neutral _ _) fun neip => ?_
    refine keeps_bind (keeps_stackRead hM.neutral _ _) fun vcs => keeps_bind (keeps_stackRead hM.neutral _ _) fun image => ?_
    refine keeps_ite (fun h => absurd h hp) fun _ => keeps_bind (keeps_update fun t ht => ?_) fun _ => unmask hM
    exact hM _ _ ht (SameMode.loadFlags ((SameMode.refl t).moveUp _) (hs.vm.trans ht.vm.symm) n image)

/-! ## The delivery of an event -/

theorem keeps_deliverInner (d : Option ExcClass) (e : Event) (gate g : Descriptor) :
    Keeps (State.steadyProtected d) (deliverInner e gate g) := by
  have hN := neutral_protected d
  refine keeps_bind keeps_getState fun s => keeps_bind (keeps_innerStack hN _ _) fun (nesp, nss) => ?_
  refine keeps_bind (keeps_innerStackSeg hN _ _ _ (keeps_raiseCode hN _ _)) fun sd => ?_
  refine keeps_bind (keeps_check hN) fun _ => ?_
  refine keeps_bind (keeps_check hN) fun _ => ?_
  refine keeps_bind (keeps_selectorSlot hN _ _) fun oldSs => keeps_bind (keeps_selectorSlot hN _ _) fun oldCs => ?_
  refine keeps_bind (keeps_markAccessed hN _) fun marks => keeps_bind (keeps_loadCode hN _ _ _) fun l => ?_
  refine keeps_bind (keeps_innerPushes hN _ _ _) fun pushes => keeps_update fun t ht => ?_
  have entered := (ht.mode ((SameMode.refl t).load ⟨.ss, sd.segReg nss, marks⟩)).loadCs l g.dpl
  exact entered.mode ((SameMode.refl _).storeAll pushes)

theorem keeps_deliverSame (d : Option ExcClass) (e : Event) (gate g : Descriptor) :
    Keeps (State.steadyProtected d) (deliverSame e gate g) := by
  have hN := neutral_protected d
  refine keeps_bind keeps_getState fun s => keeps_bind (keeps_check hN) fun _ => ?_
  refine keeps_bind (keeps_check hN) fun _ => keeps_bind (keeps_selectorSlot hN _ _) fun oldCs => ?_
  refine keeps_bind (keeps_pushAll hN _ _) fun pushes => keeps_bind (keeps_loadCode hN _ _ _) fun l => ?_
  exact keeps_update fun t ht => (ht.mode (((SameMode.refl t).storeAll pushes).moveDown _)).loadCs l s.cpl

theorem preserves_deliverTask (d : Option ExcClass) (e : Event) (gate : Descriptor) :
    Preserves (State.steadyProtected d) (deliverTask e gate) := by
  refine preserves_keeps_bind keeps_getState fun s => preserves_bind (preserves_taskSwitch d _ _ _ _ _) fun _ => ?_
  refine Keeps.preserves ?_
  split
  · exact keeps_pure _
  · exact keeps_bind (keeps_stackPrepare (neutral_protected d) _ _) fun st =>
      keeps_mode (modeOnly_protected d) fun t => ((SameMode.refl t).store st).moveDown 4

theorem preserves_deliverProtected (d : Option ExcClass) (e : Event) :
    Preserves (State.steadyProtected d) (deliverProtected e) := by
  have hN := neutral_protected d
  refine preserves_keeps_bind keeps_getState fun s => ?_
  refine preserves_keeps_bind (keeps_check hN) fun _ => ?_
  refine preserves_keeps_bind (keeps_sysRead hN _ _) fun lo => preserves_keeps_bind (keeps_sysRead hN _ _) fun hi => ?_
  refine preserves_ite (fun _ => (keeps_stop _).preserves) fun _ => ?_
  refine preserves_keeps_bind (keeps_check hN) fun _ => ?_
  refine preserves_keeps_bind (keeps_check hN) fun _ => ?_
  refine preserves_keeps_bind (keeps_check hN) fun _ => ?_
  refine preserves_ite (fun _ => preserves_deliverTask d e _) fun _ => Keeps.preserves ?_
  refine keeps_bind (keeps_handlerCode hN e _) fun g => ?_
  exact keeps_ite (fun _ => keeps_deliverInner d e _ g) fun _ => keeps_deliverSame d e _ g

theorem keeps_deliverReal (hM : ModeOnly P) (e : Event) : Keeps P (deliverReal e) := by
  have hN := hM.neutral
  refine keeps_bind keeps_getState fun s => keeps_bind (keeps_check hN) fun _ => ?_
  refine keeps_bind (keeps_sysRead hN _ _) fun entry => keeps_bind (keeps_stackPrepare hN _ _) fun a => ?_
  refine keeps_bind (keeps_stackPrepare hN _ _) fun b => keeps_bind (keeps_stackPrepare hN _ _) fun c => ?_
  exact keeps_mode hM fun t => (((SameMode.refl t).storeAll [a, b, c]).moveDown 6).setFlags (f := t.flags.enterReal) rfl

/-- One attempt to deliver an event, which in a sound state is never made from virtual 8086 mode. -/
theorem preserves_deliverOnce (d : Option ExcClass) (e : Event) : Preserves (State.steady d) (deliverOnce e) := by
  refine preserves_getState_bind fun s hs => ?_
  rw [if_neg (by simp [hs.vm])]
  split
  · rename_i hp
    exact (preserves_deliverProtected d e s (hs.protected hp)).mono fun t => State.steadyProtected.steady
  · exact (keeps_deliverReal (modeOnly_steady d) e s hs).ends

theorem State.steady.setDelivering (h : s.steady d) (c : Option ExcClass) : (s.setDelivering c).steady c := by
  obtain ⟨wf, paging, level, vm, -⟩ := h
  exact ⟨wf, paging, level, vm, rfl⟩

theorem State.steady.delivered (h : s.steady d) : s.delivered.sound := sound_iff_steady.mpr (h.setDelivering none)

theorem State.steady.shutDown (h : s.steady d) : s.shutDown.sound := sound_iff_steady.mpr (h.setDelivering none)

theorem State.steady.setPending (h : s.steady d) (p : PendingDebug) : (s.setPending p).steady d := h

/-- Whatever chain of exceptions the delivery of an event runs into, it ends in a sound state, or stops. -/
theorem deliver_sound {n : Nat} {e : Event} {u : State} (hs : s.steady d) (h : deliver n e s = .next u) : u.sound := by
  induction n generalizing d e s with
  | zero => cases h; exact hs.shutDown
  | succ n ih =>
    have begun : (s.savedEip e).steady d := modeOnly_steady d s _ hs ((SameMode.refl s).savedEip e)
    have tried := preserves_deliverOnce _ e _ (begun.setDelivering (some e.excClass))
    match hr : deliverOnce e ((s.savedEip e).setDelivering (some e.excClass)) with
    | .ok _ t =>
      rw [hr] at tried
      rw [deliver_ok hr] at h
      cases h
      exact State.steady.delivered tried
    | .error (.exc e2) t =>
      rw [hr] at tried
      rw [deliver_exc hr] at h
      split at h
      · cases h
        exact State.steady.shutDown tried
      · split at h
        · exact ih (State.steady.setPending tried _) h
        · exact ih (State.steady.setPending tried _) h
    | .error (.fault f) t => simp [deliver, hr] at h
    | .error (.refusal f) t => simp [deliver, hr] at h

end Sys2Proof.Machine

namespace Sys2Proof.Machine

/-! ## Every instruction from a sound state -/

/-- If an instruction or a step answers a state, it is sound. -/
def SoundOutcome (r : Host.Outcome State Fault Refusal) : Prop := ∀ t, r = .next t → t.sound

variable {s : State}

theorem modeOnly_sound : ModeOnly State.sound := modeOnly_steady none

theorem finish_sound {tf : Bool} {r : EStateM.Result Err State Completion} (h : Ends State.sound r) :
    SoundOutcome (finish tf r) := by
  intro u hu
  match r, h with
  | .ok k t, h =>
    cases hu
    exact modeOnly_sound t _ h ((SameMode.refl t).complete tf k)
  | .error (.exc e) t, h => exact deliver_sound (State.steady.setPending h _) hu
  | .error (.fault f) t, _ => cases hu
  | .error (.refusal f) t, _ => cases hu

theorem runInstr_sound {body : M Completion} (h : Ends State.sound (body s)) : SoundOutcome (runInstr body s) := by
  unfold runInstr
  split
  · intro u hu
    cases hu
  · exact finish_sound h

theorem runInstr_keeps {body : M Completion} (h : Keeps State.sound body) (hs : s.sound) :
    SoundOutcome (runInstr body s) := runInstr_sound (h s hs).ends

theorem runAnyMode_keeps {body : M Completion} (h : Keeps State.sound body) (hs : s.sound) :
    SoundOutcome (runAnyMode body s) := finish_sound (h s hs).ends

/-- The event of a software interrupt is delivered from the state after the instruction. -/
theorem trapInstr_sound (c : Ctx) (v : Byte) (hs : s.sound) : SoundOutcome (trapInstr c v s) := by
  have after : (if (s.advance c).pe then s.advance c else (s.advance c).setRf false).sound := by
    split
    · exact modeOnly_sound s _ hs (SameMode.refl s)
    · exact modeOnly_sound s _ hs (SameMode.refl s)
  intro u hu
  unfold trapInstr at hu
  split at hu
  · cases hu
  · exact deliver_sound after hu

/-! ### The instructions that write CR0 run at level 0 -/

/-- A sound state at privilege level 0, where a privileged instruction gets past its check. -/
def State.soundInner (s : State) : Prop := s.sound ∧ s.cpl = 0#2

theorem modeOnly_soundInner : ModeOnly State.soundInner := fun s t ⟨hs, hl⟩ hm =>
  ⟨modeOnly_sound s t hs hm, by obtain ⟨-, -, hcpl, -⟩ := hm; exact hcpl.trans hl⟩

theorem keeps_privileged_bind {m : Unit → M Completion} (h : Keeps State.soundInner (m ())) :
    Keeps State.sound (privileged >>= m) := by
  intro s hs
  have hN := modeOnly_sound.neutral
  by_cases hl : s.cpl = 0#2
  · have run : (privileged >>= m) s = m () s := by rw [M_bind_apply, privileged_ok fun _ => hl]
    have kept := (h s ⟨hs, hl⟩).mono fun t ht => And.left ht
    unfold KeepsAt at kept ⊢
    rwa [run]
  · have hp : s.pe = true := by
      obtain ⟨-, -, level, -⟩ := hs
      by_contra hp
      exact hl (level (by simpa using hp))
    have exc : Keeps State.sound (raiseCode 0x0D#8 0x0000#16 : M Completion) := keeps_raiseCode hN _ _
    have raised : (privileged >>= m) s = (raiseCode 0x0D#8 0x0000#16 : M Completion) s := by
      rw [M_bind_apply, privileged_exc hp hl]
      rfl
    have kept := exc s hs
    unfold KeepsAt at kept ⊢
    rwa [raised]

/-- At level 0 any CR0 is sound that does not set PG without PE. -/
theorem State.soundInner.setCr0 (h : s.soundInner) {v : Dword} (hv : v.getLsbD 31 = true → v.getLsbD 0 = true) :
    State.soundInner { s with ctl := { s.ctl with cr0 := v } } := by
  obtain ⟨⟨wf, -, -, vm, del⟩, hl⟩ := h
  exact ⟨⟨wf, hv, fun _ => hl, vm, del⟩, hl⟩

theorem keeps_writeControl (n : BitVec 3) (v : Dword) : Keeps State.soundInner (writeControl n v) := by
  have hM := modeOnly_soundInner
  unfold writeControl
  split
  · cases hg : v.getLsbD 31 && !v.getLsbD 0
    · refine keeps_bind (keeps_pure ()) fun _ => keeps_update fun s hs => hs.setCr0 fun hpg => ?_
      simpa [hpg] using hg
    · exact fun s hs => keeps_raiseCode hM.neutral _ _ s hs
  · exact keeps_mode hM SameMode.refl
  · exact keeps_mode hM SameMode.refl
  · exact keeps_raise _

/-- LMSW may set PE and clears neither PE nor PG. -/
theorem lmswValue_paging {cr0 : Dword} {v : Word} (h : cr0.getLsbD 31 = true → cr0.getLsbD 0 = true) :
    (lmswValue cr0 v).getLsbD 31 = true → (lmswValue cr0 v).getLsbD 0 = true := by
  have pg : (lmswValue cr0 v).getLsbD 31 = cr0.getLsbD 31 := by simp [lmswValue]
  have pe : (lmswValue cr0 v).getLsbD 0 = (cr0.getLsbD 0 || v.getLsbD 0) := by simp [lmswValue]
  rw [pg, pe]
  intro hg
  rw [h hg, Bool.true_or]

theorem execLmsw_sound (c : Ctx) (src : RM Reg) (hs : s.sound) : SoundOutcome (execLmsw c src s) := by
  refine runInstr_keeps (keeps_privileged_bind ?_) hs
  refine keeps_bind (keeps_rmRead16 modeOnly_soundInner.neutral c src) fun v => ?_
  refine keeps_bind (keeps_update fun t ht => ?_) fun _ => keeps_pure _
  have paging : t.pg = true → t.pe = true := by
    obtain ⟨⟨-, paging, -⟩, -⟩ := ht
    exact paging
  exact ht.setCr0 (lmswValue_paging paging)

theorem execMovToCr_sound (c : Ctx) (n : BitVec 3) (src : Reg) (hs : s.sound) : SoundOutcome (execMovToCr c n src s) :=
  runInstr_keeps (keeps_privileged_bind
    (keeps_bind (keeps_writeControl n _) fun _ => keeps_commit modeOnly_soundInner SameMode.refl)) hs

/-- CLTS clears TS alone. -/
theorem execClts_sound (c : Ctx) (hs : s.sound) : SoundOutcome (execClts c s) := by
  have hM := modeOnly_sound
  refine runInstr_keeps (keeps_bind (keeps_privileged hM.neutral) fun _ => keeps_commit hM fun t => ?_) hs
  exact (SameMode.refl t).cr0 (v := t.ctl.cr0 &&& 0xFFFFFFF7#32) (by simp) (by simp)

/-! ### The bodies that are written out in the instruction itself -/

theorem execMovToSreg_sound (c : Ctx) (n : BitVec 3) (src : RM Reg) (hs : s.sound) :
    SoundOutcome (execMovToSreg c n src s) := by
  have hM := modeOnly_sound
  refine runInstr_keeps ?_ hs
  split
  · exact keeps_raise _
  · exact keeps_raise _
  · exact keeps_bind (keeps_rmRead16 hM.neutral c src) fun _ => keeps_bind (keeps_loadSeg hM.neutral _ _) fun l =>
      keeps_commit hM fun t => ((SameMode.refl t).load l).inhibitAfter _

theorem execMovFromSreg_sound (c : Ctx) (dst : RM Reg) (n : BitVec 3) (hs : s.sound) :
    SoundOutcome (execMovFromSreg c dst n s) := by
  have hM := modeOnly_sound
  refine runInstr_keeps ?_ hs
  split
  · exact keeps_raise _
  · refine keeps_bind (keeps_rmPlace hM.neutral c dst 2) fun p => ?_
    cases p with
    | mem sp => exact keeps_commit hM fun t => (SameMode.refl t).put (.mem sp) _ _
    | reg q =>
      exact keeps_ite (fun _ => keeps_bind (keeps_takeFree hM.neutral) fun _ => keeps_commit hM SameMode.refl) fun _ =>
        keeps_commit hM SameMode.refl

theorem execBound_sound (c : Ctx) (r : Reg) (m : RM Reg) (hs : s.sound) : SoundOutcome (execBound c r m s) := by
  have hM := modeOnly_sound
  refine runInstr_keeps ?_ hs
  cases m with
  | reg q => exact keeps_raise _
  | mem ea =>
    exact keeps_bind (keeps_memRead hM.neutral _ _ _) fun _ => keeps_bind (keeps_memReadAbove hM.neutral _ _ _ _) fun _ =>
      keeps_bind (keeps_require (keeps_raise _)) fun _ => keeps_commit hM SameMode.refl

theorem execWait_sound (c : Ctx) (hs : s.sound) : SoundOutcome (execWait c s) := by
  refine runInstr_keeps (keeps_bind (keeps_require (keeps_raise _)) fun _ => ?_) hs
  exact keeps_ite (fun _ => keeps_pure _) fun _ => keeps_bind (keeps_require (keeps_raise _)) fun _ =>
    keeps_commit modeOnly_sound SameMode.refl

theorem execInto_sound (c : Ctx) (hs : s.sound) : SoundOutcome (execInto c s) := by
  unfold execInto
  split
  · exact trapInstr_sound c _ hs
  · exact runInstr_keeps (keeps_commit modeOnly_sound SameMode.refl) hs

theorem execPopf_sound (c : Ctx) (hs : s.sound) : SoundOutcome (execPopf c s) := by
  have hM := modeOnly_sound
  refine runInstr_keeps (keeps_bind (keeps_stackRead hM.neutral _ _) fun v => ?_) hs
  refine keeps_bind (keeps_update fun t ht => ?_) fun _ => keeps_pure _
  have same : s.flags.vm = t.flags.vm := (sound_iff_steady.mp hs).vm.trans (sound_iff_steady.mp ht).vm.symm
  exact hM t _ ht (SameMode.loadFlags ((SameMode.refl t).moveUp _) same _ v)

theorem execIret_sound (c : Ctx) (hs : s.sound) : SoundOutcome (execIret c s) :=
  runInstr_sound <| Preserves.at
    (preserves_bind (preserves_returnFromInterrupt none _ _) fun _ => (keeps_pure _).preserves) hs

theorem execRepPrefix_sound (c : Ctx) (t : RepTarget) (hs : s.sound) : SoundOutcome (execRepPrefix c t s) := by
  have hM := modeOnly_sound
  refine runAnyMode_keeps ?_ hs
  cases t with
  | insb => exact keeps_repeated hM c (keeps_insStep hM c _)
  | insw => exact keeps_repeated hM c (keeps_insStep hM c _)
  | outsb => exact keeps_repeated hM c (keeps_outsStep hM c _)
  | outsw => exact keeps_repeated hM c (keeps_outsStep hM c _)
  | other op => exact keeps_bind keeps_notVirtual fun _ => keeps_stop _

theorem execLockPrefix_sound (c : Ctx) (t : LockTarget) (hs : s.sound) : SoundOutcome (execLockPrefix c t s) := by
  have hM := modeOnly_sound
  refine runInstr_keeps ?_ hs
  split
  · exact keeps_xchgByteBody hM c _ _
  · exact keeps_raise _
  · exact keeps_xchgBody hM c _ _
  · exact keeps_raise _
  · exact keeps_raise _
  · exact keeps_raise _
  · exact keeps_lockOther _ _ _
  · exact keeps_lockOther _ _ _

theorem preserves_farJump (c : Ctx) (sel : Word) (off : Dword) : Preserves State.sound (farJump c sel off) :=
  preserves_keeps_bind keeps_getState fun _ => preserves_bind (preserves_farTransfer none _ _ _ _) fun _ =>
    (keeps_pure _).preserves

theorem preserves_farCall (c : Ctx) (sel : Word) (off : Dword) : Preserves State.sound (farCall c sel off) :=
  preserves_keeps_bind keeps_getState fun _ => preserves_bind (preserves_farTransfer none _ _ _ _) fun _ =>
    (keeps_pure _).preserves

/-- Every instruction of the table. -/
theorem exec_sound (i : Instr) (hs : s.sound) : SoundOutcome (exec i s) := by
  have hM := modeOnly_sound
  have hN := hM.neutral
  have hpriv := keeps_privileged hN
  have hprot : Keeps State.sound protectedOnly := keeps_protectedOnly
  cases i with
  | arpl c dst src => exact runInstr_keeps (keeps_arplBody hM c dst src) hs
  | lar c dst src =>
    exact runInstr_keeps (keeps_rightsBody hM c dst src _ fun _ => keeps_bind (keeps_takeFree hN) fun _ => keeps_pure _) hs
  | lsl c dst src => exact runInstr_keeps (keeps_rightsBody hM c dst src _ fun _ => keeps_pure _) hs
  | verr c src => exact runInstr_keeps (keeps_verifyBody hM c src _) hs
  | verw c src => exact runInstr_keeps (keeps_verifyBody hM c src _) hs
  | sldt c dst =>
    exact runInstr_keeps (keeps_bind hprot fun _ => keeps_bind (keeps_storeSelector hM c dst _) fun _ =>
      keeps_commit hM SameMode.refl) hs
  | str c dst =>
    exact runInstr_keeps (keeps_bind hprot fun _ => keeps_bind (keeps_storeSelector hM c dst _) fun _ =>
      keeps_commit hM SameMode.refl) hs
  | lldt c src =>
    exact runInstr_keeps (keeps_bind hprot fun _ => keeps_bind hpriv fun _ =>
      keeps_bind (keeps_rmRead16 hN c src) fun _ => keeps_bind (keeps_loadLdt hN _) fun _ =>
        keeps_commit hM SameMode.refl) hs
  | ltr c src =>
    exact runInstr_keeps (keeps_bind hprot fun _ => keeps_bind hpriv fun _ =>
      keeps_bind (keeps_rmRead16 hN c src) fun _ => keeps_bind (keeps_loadTr hN _) fun (tr, busy) =>
        keeps_commit hM fun t => (SameMode.refl t).store busy) hs
  | sgdt c dst => exact runInstr_keeps (keeps_storeTable hM c dst _) hs
  | sidt c dst => exact runInstr_keeps (keeps_storeTable hM c dst _) hs
  | lgdt c src =>
    exact runInstr_keeps (keeps_bind hpriv fun _ => keeps_bind (keeps_readTable hN c src) fun _ =>
      keeps_commit hM SameMode.refl) hs
  | lidt c src =>
    exact runInstr_keeps (keeps_bind hpriv fun _ => keeps_bind (keeps_readTable hN c src) fun _ =>
      keeps_commit hM SameMode.refl) hs
  | smsw c dst =>
    exact runInstr_keeps (keeps_bind (keeps_rmPlace hN c dst 2) fun p =>
      keeps_commit hM fun t => (SameMode.refl t).put p _ _) hs
  | lmsw c src => exact execLmsw_sound c src hs
  | clts c => exact execClts_sound c hs
  | movFromCr c dst n mb =>
    exact runInstr_keeps (keeps_bind hpriv fun _ => keeps_bind (keeps_readControl n) fun _ =>
      keeps_commit hM SameMode.refl) hs
  | movFromDr c dst n mb =>
    exact runInstr_keeps (keeps_bind hpriv fun _ => keeps_bind (keeps_generalDetect hM) fun _ =>
      keeps_bind (keeps_readDebug n) fun _ => keeps_commit hM SameMode.refl) hs
  | movToCr c n src mb => exact execMovToCr_sound c n src hs
  | movToDr c n src mb =>
    exact runInstr_keeps (keeps_bind hpriv fun _ => keeps_bind (keeps_generalDetect hM) fun _ =>
      keeps_bind (keeps_writeDebug hM n _) fun _ => keeps_commit hM SameMode.refl) hs
  | movFromTr c dst n mb =>
    exact runInstr_keeps (keeps_bind hpriv fun _ => keeps_bind (keeps_require (keeps_raise _)) fun _ =>
      keeps_commit hM SameMode.refl) hs
  | movToTr c n src mb =>
    exact runInstr_keeps (keeps_bind hpriv fun _ => keeps_bind (keeps_writeTest hM n _) fun _ =>
      keeps_commit hM SameMode.refl) hs
  | hlt c => exact runInstr_keeps (keeps_bind hpriv fun _ => keeps_commit hM SameMode.refl) hs
  | movToSreg c n src => exact execMovToSreg_sound c n src hs
  | movFromSreg c dst n => exact execMovFromSreg_sound c dst n hs
  | pushEs c => exact runInstr_keeps (keeps_pushSreg hM c _) hs
  | pushCs c => exact runInstr_keeps (keeps_pushSreg hM c _) hs
  | pushSs c => exact runInstr_keeps (keeps_pushSreg hM c _) hs
  | pushDs c => exact runInstr_keeps (keeps_pushSreg hM c _) hs
  | pushFs c => exact runInstr_keeps (keeps_pushSreg hM c _) hs
  | pushGs c => exact runInstr_keeps (keeps_pushSreg hM c _) hs
  | popEs c => exact runInstr_keeps (keeps_popSreg hM c _) hs
  | popSs c => exact runInstr_keeps (keeps_popSreg hM c _) hs
  | popDs c => exact runInstr_keeps (keeps_popSreg hM c _) hs
  | popFs c => exact runInstr_keeps (keeps_popSreg hM c _) hs
  | popGs c => exact runInstr_keeps (keeps_popSreg hM c _) hs
  | lds c dst src => exact runInstr_keeps (keeps_loadPointer hM c _ dst src) hs
  | les c dst src => exact runInstr_keeps (keeps_loadPointer hM c _ dst src) hs
  | lss c dst src => exact runInstr_keeps (keeps_loadPointer hM c _ dst src) hs
  | lfs c dst src => exact runInstr_keeps (keeps_loadPointer hM c _ dst src) hs
  | lgs c dst src => exact runInstr_keeps (keeps_loadPointer hM c _ dst src) hs
  | jmpRel8 c d => exact runInstr_keeps (keeps_nearJump hM _) hs
  | jmpRel c d => exact runInstr_keeps (keeps_nearJump hM _) hs
  | jmpNear c t => exact runInstr_keeps (keeps_bind (keeps_rmRead hN c t _) fun _ => keeps_nearJump hM _) hs
  | callRel c d => exact runInstr_keeps (keeps_nearCall hM c _) hs
  | callNear c t => exact runInstr_keeps (keeps_bind (keeps_rmRead hN c t _) fun _ => keeps_nearCall hM c _) hs
  | retNear c => exact runInstr_keeps (keeps_nearReturn hM c _) hs
  | retNearImm c n => exact runInstr_keeps (keeps_nearReturn hM c _) hs
  | jmpFar c off sel => exact runInstr_sound (preserves_farJump c sel _ s hs)
  | jmpFarMem c t =>
    exact runInstr_sound (Preserves.at (preserves_keeps_bind (keeps_farPointer hN c t) fun (off, sel) =>
      preserves_farJump c sel off) hs)
  | callFar c off sel => exact runInstr_sound (preserves_farCall c sel _ s hs)
  | callFarMem c t =>
    exact runInstr_sound (Preserves.at (preserves_keeps_bind (keeps_farPointer hN c t) fun (off, sel) =>
      preserves_farCall c sel off) hs)
  | retFar c => exact runInstr_keeps (keeps_bind (keeps_farReturn none _ _) fun _ => keeps_pure _) hs
  | retFarImm c n => exact runInstr_keeps (keeps_bind (keeps_farReturn none _ _) fun _ => keeps_pure _) hs
  | inAlImm c port => exact runAnyMode_keeps (keeps_inBody hM c _ _) hs
  | inAxImm c port => exact runAnyMode_keeps (keeps_inBody hM c _ _) hs
  | inAlDx c => exact runAnyMode_keeps (keeps_inBody hM c _ _) hs
  | inAxDx c => exact runAnyMode_keeps (keeps_inBody hM c _ _) hs
  | outImmAl c port => exact runAnyMode_keeps (keeps_outBody hM c _ _) hs
  | outImmAx c port => exact runAnyMode_keeps (keeps_outBody hM c _ _) hs
  | outDxAl c => exact runAnyMode_keeps (keeps_outBody hM c _ _) hs
  | outDxAx c => exact runAnyMode_keeps (keeps_outBody hM c _ _) hs
  | insb c => exact runAnyMode_keeps (keeps_stringOnce hM c (keeps_insStep hM c _)) hs
  | insw c => exact runAnyMode_keeps (keeps_stringOnce hM c (keeps_insStep hM c _)) hs
  | outsb c => exact runAnyMode_keeps (keeps_stringOnce hM c (keeps_outsStep hM c _)) hs
  | outsw c => exact runAnyMode_keeps (keeps_stringOnce hM c (keeps_outsStep hM c _)) hs
  | repPrefix c t => exact execRepPrefix_sound c t hs
  | cli c => exact runInstr_keeps (keeps_bind (keeps_ioplSensitive hN) fun _ => keeps_commit hM SameMode.refl) hs
  | sti c => exact runInstr_keeps (keeps_bind (keeps_ioplSensitive hN) fun _ => keeps_commit hM SameMode.refl) hs
  | pushf c =>
    exact runInstr_keeps (keeps_bind (keeps_stackPrepare hN _ _) fun st =>
      keeps_commit hM fun t => ((SameMode.refl t).store st).moveDown _) hs
  | popf c => exact execPopf_sound c hs
  | int3 c => exact trapInstr_sound c _ hs
  | intImm c v => exact trapInstr_sound c v hs
  | into c => exact execInto_sound c hs
  | bound c r m => exact execBound_sound c r m hs
  | iret c => exact execIret_sound c hs
  | esc c op reg rm => exact runInstr_keeps (keeps_escBody hM c op reg rm) hs
  | wait c => exact execWait_sound c hs
  | lockPrefix c t => exact execLockPrefix_sound c t hs
  | xchgByte c rm r => exact runInstr_keeps (keeps_xchgByteBody hM c rm r) hs
  | xchg c rm r => exact runInstr_keeps (keeps_xchgBody hM c rm r) hs

/-! ## A step -/

/-- The prefetch queue is no part of the invariant. -/
theorem settle_sound (i : Instr) {r : Host.Outcome State Fault Refusal} (h : SoundOutcome r) :
    SoundOutcome (settle i s r) := by
  intro u hu
  cases r with
  | next t => cases hu; exact h t rfl
  | fault f => cases hu
  | refused f => cases hu

theorem runNext_sound (hs : s.sound) : SoundOutcome (runNext s) := by
  have fetched := keeps_fetchInstr modeOnly_sound.neutral s hs
  unfold KeepsAt at fetched
  unfold runNext
  cases hf : fetchInstr s with
  | ok i t => rw [hf] at fetched; exact settle_sound i (exec_sound i fetched)
  | error e t => rw [hf] at fetched; exact finish_sound (r := .error e t) (ends_error fetched)

/-- The state that the boundary hands on, whatever it decides. -/
def Boundary.Sound : Boundary → Prop
  | .take _ t => t.sound
  | .rest t => t.sound
  | .run t => t.sound
  | .refuse _ => True

theorem boundaryChecks_sound (hs : s.sound) : (boundaryChecks s).Sound := by
  have same : ∀ t, SameMode s t → t.sound := fun t => modeOnly_sound s t hs
  unfold boundaryChecks
  split
  · exact same _ (SameMode.refl s)
  split
  · exact same _ (SameMode.refl s)
  split
  · exact same _ (SameMode.refl s)
  split
  · exact same _ (SameMode.refl s)
  split
  · exact same _ (SameMode.refl s)
  split
  · exact same _ (SameMode.refl s)
  · exact same _ (SameMode.refl s)

/-- RESET leaves real-address mode with paging off: of CR0 only ET depends on the coprocessor. -/
theorem resetPin_modes (s : State) : s.resetPin.pe = false ∧ s.resetPin.pg = false := by
  by_cases hk : s.params.copKind = .i387 <;> simp [State.resetPin, State.pe, State.pg, hk]

/-- Of what the invariant speaks of, RESET keeps only memory, and the rest is at its value after reset. -/
theorem resetPin_sound (hw : Memory.wf s.mem = true) : s.resetPin.sound := by
  obtain ⟨-, pg⟩ := resetPin_modes s
  exact ⟨hw, fun h => absurd h (by simp [pg]), fun _ => rfl, rfl, rfl⟩

theorem boundary_sound (hs : s.sound) : (boundary s).Sound := by
  have same : ∀ t, SameMode s t → t.sound := fun t => modeOnly_sound s t hs
  unfold boundary
  split
  · obtain ⟨wf, -⟩ := hs
    exact resetPin_sound wf
  split
  · trivial
  split
  · split
    · exact same _ (SameMode.refl s)
    · exact hs
  · split
    · exact boundaryChecks_sound (same _ (SameMode.refl s))
    · exact hs
  · exact boundaryChecks_sound hs

theorem step_sound (hs : s.sound) : SoundOutcome (step s) := by
  have hb := boundary_sound hs
  intro u hu
  unfold step at hu
  cases h : boundary s with
  | take e t => rw [h] at hb hu; exact deliver_sound hb hu
  | rest t => rw [h] at hb hu; cases hu; exact hb
  | run t => rw [h] at hb hu; exact runNext_sound hb u hu
  | refuse r => rw [h] at hu; cases hu

/-- Settles O8: each step hands a sound state from the boundary to a delivery or to an instruction, and neither breaks it. -/
theorem stepKeepsSound : Obligations.StepKeepsSound := by
  unfold Obligations.StepKeepsSound
  intro s t hs h
  exact step_sound hs t h

/-! ## RESET -/

/-- Settles O9. -/
theorem resetSound : Obligations.ResetSound := by
  unfold Obligations.ResetSound
  exact ⟨reset_mem_wf, by decide, fun _ => rfl, rfl, rfl⟩

/-- RESET comes before all else that the boundary looks at. -/
theorem step_reset (h : s.pins.reset = true) : step s = .next s.resetPin := by
  simp [step, boundary, h]

/-- Settles O7: the registers that it names have the same values after the RESET input as in the state after reset. -/
theorem resetRegisters : Obligations.ResetRegisters := by
  unfold Obligations.ResetRegisters
  intro t ht
  have regs : t.flags = EFlags.reset ∧ t.pc = 0x0000FFF0#32 ∧ t.seg.cs = .resetCode ∧ t.pg = false
      ∧ t.idtr = { base := 0x00000000#32, limit := 0x03FF#16 } := by
    rcases ht with rfl | ⟨s, hr, h⟩
    · exact ⟨rfl, rfl, rfl, by decide, rfl⟩
    · obtain ⟨-, pg⟩ := resetPin_modes s
      rw [step_reset hr] at h
      cases h
      exact ⟨rfl, rfl, rfl, pg, rfl⟩
  obtain ⟨flags, pc, cs, pg, idtr⟩ := regs
  have first : t.linear .cs t.pc = 0xFFFFFFF0#32 := by
    rw [State.linear, SegRegs.get, cs, pc]
    decide
  rw [first, flags, pc, cs, idtr]
  exact ⟨by decide, rfl, rfl, rfl, rfl, rfl, rfl, rfl, rfl, rfl, rfl, pg, rfl, rfl⟩

end Sys2Proof.Machine

namespace Sys2Proof.Machine

/-! ## The page walk

SUPPORT for the statement about the two-level walk (PageWalk, 20_memory.md R185): what a doubleword of memory reads as after
another one is written, the marks that a walk sets in a page entry, and the walk as one equation over them. -/

/-- A doubleword of RAM reads back as it was written. -/
theorem physRead_physWrite {m : PhysMem} {a v : Dword} (h : Memory.wf m = true) (ha : Aligned a)
    (hr : ∀ x, (Span.flat a 4).covers 4 x → m.kindAt x = .ram) : physRead (physWrite m a v) a = v := by
  have distinct : ∀ i j, 0 ≤ i → i < 0 + (toBytes 4 v).length → 0 ≤ j → j < 0 + (toBytes 4 v).length →
      (Span.flat a 4).addr i = (Span.flat a 4).addr j → i = j := by
    intro i j _ hi _ hj he
    rw [toBytes_length] at hi hj
    rw [aligned_flat ha (by omega), aligned_flat ha (by omega)] at he
    omega
  have back := Memory_readSpan_writeSpan h distinct fun i _ hi => hr _ ⟨i, by simpa using hi, rfl⟩
  rw [toBytes_length] at back
  rw [physRead, physWrite, back, fromBytes_toBytes4]

/-- Two aligned doublewords at different addresses have no byte in common. -/
theorem aligned_not_covers {a b : Dword} (ha : Aligned a) (hb : Aligned b) (hne : a ≠ b) {k : Nat} (hk : k < 4) :
    ¬(Span.flat a 4).covers 4 ((Span.flat b 4).addr k) := by
  rintro ⟨i, hi, he⟩
  have hn : a.toNat ≠ b.toNat := fun h => hne (BitVec.eq_of_toNat_eq h)
  rw [aligned_flat ha hi, aligned_flat hb hk] at he
  unfold Aligned at ha hb
  omega

/-- A doubleword depends on its own four bytes alone. -/
theorem physRead_congr {m n : PhysMem} {a : Dword}
    (h : ∀ k, k < 4 → Memory.read n ((Span.flat a 4).addr k) = Memory.read m ((Span.flat a 4).addr k)) :
    physRead n a = physRead m a := by
  simp only [physRead, Memory.readSpan, h 0 (by omega), h 1 (by omega), h 2 (by omega), h 3 (by omega)]

/-! ### The marks in a page entry -/

/-- Memory after the marks of an entry that was read as `e` are set: no write is made where they stand already. -/
def setMarks (m : PhysMem) (a e marks : Dword) : PhysMem := if e ||| marks = e then m else physWrite m a (e ||| marks)

/-- The marks that an access sets in its page's entry: accessed, and dirty for a write (20_memory.md R176). -/
def pageMarks (write : Bool) : Dword := if write then 0x00000060#32 else 0x00000020#32

section PageMarks

variable {m : PhysMem} {a b e marks : Dword}

@[simp] theorem setMarks_map : (setMarks m a e marks).map = m.map := ite_physWrite_map rfl

@[simp] theorem setMarks_kindAt (x : Nat) : (setMarks m a e marks).kindAt x = m.kindAt x := by
  simp [PhysMem.kindAt]

theorem setMarks_wf (h : Memory.wf m = true) : Memory.wf (setMarks m a e marks) = true := wf_ite h (physWrite_wf h)

theorem read_setMarks_other (h : Memory.wf m = true) {x : Nat} (hx : ¬(Span.flat a 4).covers 4 x) :
    Memory.read (setMarks m a e marks) x = Memory.read m x := by
  unfold setMarks
  split
  · rfl
  · exact read_physWrite_other h hx

/-- Marks set in one entry leave every other entry. -/
theorem physRead_setMarks_other (h : Memory.wf m = true) (ha : Aligned a) (hb : Aligned b) (hne : a ≠ b) :
    physRead (setMarks m a e marks) b = physRead m b :=
  physRead_congr fun _ hk => read_setMarks_other h (aligned_not_covers ha hb hne hk)

/-- An entry in RAM has its marks afterwards, if it still read as `e` where no write was needed. -/
theorem physRead_setMarks (h : Memory.wf m = true) (ha : Aligned a)
    (hr : ∀ x, (Span.flat a 4).covers 4 x → m.kindAt x = .ram) (he : e ||| marks = e → physRead m a = e) :
    physRead (setMarks m a e marks) a = e ||| marks := by
  unfold setMarks
  split
  next hset => rw [he hset, hset]
  next => exact physRead_physWrite h ha hr

/-- The accessed mark stands where bit 5 is 1 (20_memory.md R173). -/
theorem or_accessed_eq_iff (e : Dword) : e ||| 0x00000020#32 = e ↔ e.getLsbD 5 = true := by
  constructor
  · intro h
    rw [← h]
    simp
  · intro h
    apply BitVec.eq_of_getLsbD_eq
    intro i hi
    interval_cases i <;> simp [h]

/-- An entry that has the marks of an access has the accessed mark. -/
theorem or_accessed_of_or_pageMarks {write : Bool} (h : e ||| pageMarks write = e) : e ||| 0x00000020#32 = e := by
  have within : pageMarks write ||| 0x00000020#32 = pageMarks write := by cases write <;> decide
  calc e ||| 0x00000020#32 = (e ||| pageMarks write) ||| 0x00000020#32 := by rw [h]
    _ = e ||| pageMarks write := by rw [BitVec.or_assoc, within]
    _ = e := h

/-- What the marks of a walk leave in memory: the directory entry accessed, the page's entry accessed and, for a write,
dirty, each if it lies in RAM; and every other byte as it was. The two entries may be one and the same doubleword. -/
theorem walkMarks_spec (h : Memory.wf m = true) {dirAddr tabAddr : Dword} (hd : Aligned dirAddr) (ht : Aligned tabAddr)
    (write : Bool) {n : PhysMem}
    (hn : n = setMarks (setMarks m dirAddr (physRead m dirAddr) 0x00000020#32) tabAddr (physRead m tabAddr)
      (pageMarks write)) :
    ((∀ x, (Span.flat dirAddr 4).covers 4 x → m.kindAt x = .ram) → dirAddr ≠ tabAddr →
        physRead n dirAddr = physRead m dirAddr ||| 0x00000020#32)
      ∧ ((∀ x, (Span.flat tabAddr 4).covers 4 x → m.kindAt x = .ram) →
          physRead n tabAddr = physRead m tabAddr ||| pageMarks write)
      ∧ ∀ x, ¬(Span.flat dirAddr 4).covers 4 x → ¬(Span.flat tabAddr 4).covers 4 x →
          Memory.read n x = Memory.read m x := by
  subst hn
  have hw := setMarks_wf (a := dirAddr) (e := physRead m dirAddr) (marks := 0x00000020#32) h
  refine ⟨fun hr hne => ?_, fun hr => ?_, fun x hx1 hx2 => ?_⟩
  · rw [physRead_setMarks_other hw ht hd hne.symm, physRead_setMarks h hd hr fun _ => rfl]
  · refine physRead_setMarks hw ht (fun x hx => by rw [setMarks_kindAt, hr x hx]) fun hset => ?_
    by_cases hne : dirAddr = tabAddr
    · subst hne
      rw [setMarks, if_pos (or_accessed_of_or_pageMarks hset)]
    · exact physRead_setMarks_other h hd ht hne
  · rw [read_setMarks_other hw hx2, read_setMarks_other h hx1]

end PageMarks

/-! ### The walk -/

/-- When page-level protection forbids an access (40_protection_and_segment_loads.md R322 to R324). -/
theorem pageAllowed_eq_false_iff {u w write user : Bool} :
    pageAllowed u w write user = false ↔ user = true ∧ (u = false ∨ (write = true ∧ w = false)) := by
  cases user
  · simp [pageAllowed]
  · cases u <;> simp [pageAllowed]

theorem pageOff_eq_extractLsb' (la : Dword) : pageOff la = la.extractLsb' 0 12 :=
  BitVec.setWidth_eq_extractLsb' (by omega)

/-- A page fault leaves the address in CR2 and its cause in the error code, above which stands a free value
(60_exceptions.md R775, R776). -/
theorem pageFault_apply {α : Type} (la : Dword) (present write user : Bool) (s : State) :
    (pageFault la present write user : M α) s =
      .error (.exc { vector := 0x0E#8, kind := .fault,
                     code := some (s.free.head.extractLsb' 3 29 ++ BitVec.ofBool user ++ BitVec.ofBool write
                       ++ BitVec.ofBool present) })
        { s with ctl := { s.ctl with cr2 := la }, free := s.free.next } := rfl

/-- The walk, branch by branch, with the writes of its two entries as `setMarks`. -/
theorem walk_apply {la dirAddr pde tabAddr pte : Dword} {s : State} (write user : Bool) (block : Option (BitVec 2))
    (hdir : dirAddr = pdeAddr s.ctl.cr3 la) (hpde : pde = physRead s.mem dirAddr) (htab : tabAddr = pteAddr pde la)
    (hpte : pte = physRead s.mem tabAddr) :
    walk la write user block s =
      if pde.getLsbD 0 = false then pageFault la false write user s
      else if reservedEntry pde then .error (.fault .reservedPageEntry) s
      else if pte.getLsbD 0 = false then pageFault la false write user s
      else if reservedEntry pte then .error (.fault .reservedPageEntry) s
      else if pageAllowed (pde.getLsbD 2 && pte.getLsbD 2) (pde.getLsbD 1 && pte.getLsbD 1) write user = false then
        pageFault la true write user s
      else .ok (pte.extractLsb' 12 20 ++ la.extractLsb' 0 12)
        { s with
          mem := setMarks (setMarks s.mem dirAddr pde 0x00000020#32) tabAddr pte (pageMarks write)
          tlb := s.tlb.fill block
            { known := true, v := true, la := pageOf la, d := (pte ||| pageMarks write).getLsbD 6,
              u := pde.getLsbD 2 && pte.getLsbD 2, w := pde.getLsbD 1 && pte.getLsbD 1, pa := pte.extractLsb' 12 20 } } := by
  subst hdir hpde htab hpte
  simp only [walk, M_bind_apply, getState_apply, M_ite_apply, update_apply, stop_apply, M_pure_apply,
    Bool.not_eq_true', setMarks, or_accessed_eq_iff, pageOff_eq_extractLsb', pageMarks]

/-- Settles O59: each clause is a branch of `walk_apply`, the memory of the last one by `walkMarks_spec`. -/
theorem pageWalk : Obligations.PageWalk := by
  unfold Obligations.PageWalk
  intro la write user block s hw dirAddr pde tabAddr pte code fault supervisorOnly readOnly forbidden ram
  have allowed : pageAllowed (pde.getLsbD 2 && pte.getLsbD 2) (pde.getLsbD 1 && pte.getLsbD 1) write user = false
      ↔ forbidden := by
    simp only [pageAllowed_eq_false_iff, Bool.and_eq_false_iff, forbidden, supervisorOnly, readOnly]
  have faults : ∀ present, pageFault la present write user s = fault present := fun present =>
    pageFault_apply la present write user s
  have hwalk := walk_apply write user block (rfl : dirAddr = pdeAddr s.ctl.cr3 la) (rfl : pde = _) (rfl : tabAddr = _)
    (rfl : pte = _)
  simp only [allowed, faults] at hwalk
  refine ⟨fun hp => ?_, fun hp hr => ?_, fun hp hr hp' hr' => ?_, fun hp hr =>
    ⟨fun hp' => ?_, fun hp' hr' => ⟨fun hforb => ?_, fun hforb => ?_⟩⟩⟩
  · simp only [hwalk, hp, if_true]
  · simp only [hwalk, hp, hr, reduceCtorEq, if_true, if_false]
  · simp only [hwalk, hp, hr, hp', hr', reduceCtorEq, if_true, if_false]
  · simp only [hwalk, hp, hr, hp', reduceCtorEq, if_true, if_false]
  · simp only [hwalk, hp, hr, hp', hr', hforb, reduceCtorEq, if_true, if_false]
  · simp only [hp, hr, hp', hr', hforb, reduceCtorEq, if_false] at hwalk
    obtain ⟨hdir, htab, hrest⟩ := walkMarks_spec hw (aligned_pdeAddr s.ctl.cr3 la) (aligned_pteAddr pde la) write rfl
    exact ⟨_, hwalk, touched_mem (setMarks_map.trans setMarks_map), hdir, htab, hrest⟩

end Sys2Proof.Machine

namespace Sys2Proof

/-! ## Words of the encoding tables -/

/-- Settles O3: each of the ten words, decoded. -/
theorem decodeWords : Obligations.DecodeWords := ⟨rfl, rfl, rfl, rfl, rfl, rfl, rfl, rfl, rfl, rfl⟩

/-! ## What is encoded decodes to itself -/

/-- The opcodes of R600's list are none of the bytes of the prefixes (47_coprocessor_and_lock.md R600). -/
theorem pfxOf_of_lockFields {op : Byte} (h : (lockFields op).isEmpty = false) : pfxOf op = none := by
  revert op
  decide

/-- What follows the prefixes of a well-formed instruction begins with a byte that is not one of them. -/
theorem opcodeBytes_head {i : Instr} (h : i.wf = true) : ∃ b r, i.opcodeBytes = b :: r ∧ pfxOf b = none := by
  cases i with
  | esc c op reg rm =>
    have hop : ∀ op : BitVec 3, pfxOf (27#5 ++ op) = none := by decide
    exact ⟨_, _, rfl, hop op⟩
  | repPrefix c t =>
    cases t with
    | other op =>
      simp only [Instr.wf, RepTarget.wf, Bool.and_eq_true, decide_eq_true_eq] at h
      exact ⟨op, [], rfl, h.2.1⟩
    | _ => exact ⟨_, _, rfl, rfl⟩
  | lockPrefix c t =>
    simp only [Instr.wf, Bool.and_eq_true] at h
    obtain ⟨-, ht⟩ := h
    cases t with
    | oneByte op =>
      simp only [LockTarget.wf, Bool.and_eq_true, decide_eq_true_eq] at ht
      exact ⟨op, [], rfl, ht.1.1.1.1⟩
    | oneByteRm op b =>
      simp only [LockTarget.wf, Bool.not_eq_true'] at ht
      exact ⟨op, [b], rfl, pfxOf_of_lockFields ht⟩
    | _ => exact ⟨_, _, rfl, rfl⟩
  | _ => exact ⟨_, _, rfl, rfl⟩

/-- Whatever its operands, a well-formed instruction has at most 15 bytes (30_encoding.md R232). -/
theorem len_le_of_wf {i : Instr} (h : i.wf = true) : i.ctx.len ≤ Config.maxLength := by
  cases i <;> simp only [Instr.wf, Ctx.wf, Bool.and_eq_true, decide_eq_true_eq] at h <;> grind [Instr.ctx]

open Laws in
/-- The laws of the single instructions, for any instruction. -/
theorem parses_and_sized (i : Instr) : Parses.Statement i ∧ Sized.Statement i := by
  cases i with
  | arpl => exact ⟨Parses.arpl _ _ _, Sized.arpl _ _ _⟩
  | lar => exact ⟨Parses.lar _ _ _, Sized.lar _ _ _⟩
  | lsl => exact ⟨Parses.lsl _ _ _, Sized.lsl _ _ _⟩
  | verr => exact ⟨Parses.verr _ _, Sized.verr _ _⟩
  | verw => exact ⟨Parses.verw _ _, Sized.verw _ _⟩
  | sldt => exact ⟨Parses.sldt _ _, Sized.sldt _ _⟩
  | str => exact ⟨Parses.str _ _, Sized.str _ _⟩
  | lldt => exact ⟨Parses.lldt _ _, Sized.lldt _ _⟩
  | ltr => exact ⟨Parses.ltr _ _, Sized.ltr _ _⟩
  | sgdt => exact ⟨Parses.sgdt _ _, Sized.sgdt _ _⟩
  | sidt => exact ⟨Parses.sidt _ _, Sized.sidt _ _⟩
  | lgdt => exact ⟨Parses.lgdt _ _, Sized.lgdt _ _⟩
  | lidt => exact ⟨Parses.lidt _ _, Sized.lidt _ _⟩
  | smsw => exact ⟨Parses.smsw _ _, Sized.smsw _ _⟩
  | lmsw => exact ⟨Parses.lmsw _ _, Sized.lmsw _ _⟩
  | clts => exact ⟨Parses.clts _, Sized.clts _⟩
  | movFromCr => exact ⟨Parses.movFromCr _ _ _ _, Sized.movFromCr _ _ _ _⟩
  | movFromDr => exact ⟨Parses.movFromDr _ _ _ _, Sized.movFromDr _ _ _ _⟩
  | movToCr => exact ⟨Parses.movToCr _ _ _ _, Sized.movToCr _ _ _ _⟩
  | movToDr => exact ⟨Parses.movToDr _ _ _ _, Sized.movToDr _ _ _ _⟩
  | movFromTr => exact ⟨Parses.movFromTr _ _ _ _, Sized.movFromTr _ _ _ _⟩
  | movToTr => exact ⟨Parses.movToTr _ _ _ _, Sized.movToTr _ _ _ _⟩
  | hlt => exact ⟨Parses.hlt _, Sized.hlt _⟩
  | movToSreg => exact ⟨Parses.movToSreg _ _ _, Sized.movToSreg _ _ _⟩
  | movFromSreg => exact ⟨Parses.movFromSreg _ _ _, Sized.movFromSreg _ _ _⟩
  | pushEs => exact ⟨Parses.pushEs _, Sized.pushEs _⟩
  | pushCs => exact ⟨Parses.pushCs _, Sized.pushCs _⟩
  | pushSs => exact ⟨Parses.pushSs _, Sized.pushSs _⟩
  | pushDs => exact ⟨Parses.pushDs _, Sized.pushDs _⟩
  | pushFs => exact ⟨Parses.pushFs _, Sized.pushFs _⟩
  | pushGs => exact ⟨Parses.pushGs _, Sized.pushGs _⟩
  | popEs => exact ⟨Parses.popEs _, Sized.popEs _⟩
  | popSs => exact ⟨Parses.popSs _, Sized.popSs _⟩
  | popDs => exact ⟨Parses.popDs _, Sized.popDs _⟩
  | popFs => exact ⟨Parses.popFs _, Sized.popFs _⟩
  | popGs => exact ⟨Parses.popGs _, Sized.popGs _⟩
  | lds => exact ⟨Parses.lds _ _ _, Sized.lds _ _ _⟩
  | les => exact ⟨Parses.les _ _ _, Sized.les _ _ _⟩
  | lss => exact ⟨Parses.lss _ _ _, Sized.lss _ _ _⟩
  | lfs => exact ⟨Parses.lfs _ _ _, Sized.lfs _ _ _⟩
  | lgs => exact ⟨Parses.lgs _ _ _, Sized.lgs _ _ _⟩
  | jmpRel8 => exact ⟨Parses.jmpRel8 _ _, Sized.jmpRel8 _ _⟩
  | jmpRel => exact ⟨Parses.jmpRel _ _, Sized.jmpRel _ _⟩
  | jmpNear => exact ⟨Parses.jmpNear _ _, Sized.jmpNear _ _⟩
  | callRel => exact ⟨Parses.callRel _ _, Sized.callRel _ _⟩
  | callNear => exact ⟨Parses.callNear _ _, Sized.callNear _ _⟩
  | retNear => exact ⟨Parses.retNear _, Sized.retNear _⟩
  | retNearImm => exact ⟨Parses.retNearImm _ _, Sized.retNearImm _ _⟩
  | jmpFar => exact ⟨Parses.jmpFar _ _ _, Sized.jmpFar _ _ _⟩
  | jmpFarMem => exact ⟨Parses.jmpFarMem _ _, Sized.jmpFarMem _ _⟩
  | callFar => exact ⟨Parses.callFar _ _ _, Sized.callFar _ _ _⟩
  | callFarMem => exact ⟨Parses.callFarMem _ _, Sized.callFarMem _ _⟩
  | retFar => exact ⟨Parses.retFar _, Sized.retFar _⟩
  | retFarImm => exact ⟨Parses.retFarImm _ _, Sized.retFarImm _ _⟩
  | inAlImm => exact ⟨Parses.inAlImm _ _, Sized.inAlImm _ _⟩
  | inAxImm => exact ⟨Parses.inAxImm _ _, Sized.inAxImm _ _⟩
  | inAlDx => exact ⟨Parses.inAlDx _, Sized.inAlDx _⟩
  | inAxDx => exact ⟨Parses.inAxDx _, Sized.inAxDx _⟩
  | outImmAl => exact ⟨Parses.outImmAl _ _, Sized.outImmAl _ _⟩
  | outImmAx => exact ⟨Parses.outImmAx _ _, Sized.outImmAx _ _⟩
  | outDxAl => exact ⟨Parses.outDxAl _, Sized.outDxAl _⟩
  | outDxAx => exact ⟨Parses.outDxAx _, Sized.outDxAx _⟩
  | insb => exact ⟨Parses.insb _, Sized.insb _⟩
  | insw => exact ⟨Parses.insw _, Sized.insw _⟩
  | outsb => exact ⟨Parses.outsb _, Sized.outsb _⟩
  | outsw => exact ⟨Parses.outsw _, Sized.outsw _⟩
  | repPrefix => exact ⟨Parses.repPrefix _ _, Sized.repPrefix _ _⟩
  | cli => exact ⟨Parses.cli _, Sized.cli _⟩
  | sti => exact ⟨Parses.sti _, Sized.sti _⟩
  | pushf => exact ⟨Parses.pushf _, Sized.pushf _⟩
  | popf => exact ⟨Parses.popf _, Sized.popf _⟩
  | int3 => exact ⟨Parses.int3 _, Sized.int3 _⟩
  | intImm => exact ⟨Parses.intImm _ _, Sized.intImm _ _⟩
  | into => exact ⟨Parses.into _, Sized.into _⟩
  | bound => exact ⟨Parses.bound _ _ _, Sized.bound _ _ _⟩
  | iret => exact ⟨Parses.iret _, Sized.iret _⟩
  | esc => exact ⟨Parses.esc _ _ _ _, Sized.esc _ _ _ _⟩
  | wait => exact ⟨Parses.wait _, Sized.wait _⟩
  | lockPrefix => exact ⟨Parses.lockPrefix _ _, Sized.lockPrefix _ _⟩
  | xchgByte => exact ⟨Parses.xchgByte _ _ _, Sized.xchgByte _ _ _⟩
  | xchg => exact ⟨Parses.xchg _ _ _, Sized.xchg _ _ _⟩

/-- The encoding of an instruction is as long as the instruction says. -/
theorem encode_length {i : Instr} (h : i.wf = true) : (encode i).length = i.ctx.len := by
  simpa [encode] using (parses_and_sized i).2 h

/-- The parser reads back what follows the prefixes of a well-formed instruction. -/
theorem parseOpcode_opcodeBytes {i : Instr} (h : i.wf = true) (rest : List Byte) :
    ∃ f, parseOpcode ⟨i.ctx.prefixes, i.ctx.d32, 0⟩ (i.opcodeBytes ++ rest) = .ok f rest ∧ f i.ctx = i := by
  have reads := (parses_and_sized i).1 h rest
  unfold Laws.Parses.Reads at reads
  split at reads
  next f t hparse =>
    obtain ⟨hf, rfl⟩ := reads
    exact ⟨f, hparse, hf⟩
  next => exact reads.elim

/-- Settles O1: the prefixes are read back up to the first byte that is none, the opcode and the operands by the laws of the
single instructions; the length is the number of bytes read. -/
theorem decodeEncode : Obligations.DecodeEncode := by
  unfold Obligations.DecodeEncode
  intro i rest h
  obtain ⟨b, r, hbytes, hb⟩ := opcodeBytes_head h
  obtain ⟨f, hparse, hf⟩ := parseOpcode_opcodeBytes h rest
  have hprefixes : takePrefixes (encode i ++ rest) = (i.ctx.prefixes, i.opcodeBytes ++ rest) := by
    rw [encode, List.append_assoc, hbytes, List.cons_append, takePrefixes_bytes _ hb]
  have hlen : (encode i ++ rest).length - rest.length = i.ctx.len := by
    rw [List.length_append, encode_length h, Nat.add_sub_cancel]
  simp only [decode, hprefixes, hparse, hlen, len_le_of_wf h, if_true, hf]

end Sys2Proof

namespace Sys2Proof

/-! ## What a parser consumes

`Consumes p R`: whenever the parser answers, the bytes it has taken stand in the relation `R` to its answer. One rule for each
way to build a parser; then what each part of the decoder consumes is what the encoder writes for its answer. -/

/-- The bytes that a parser takes from its input stand in a relation to its answer. -/
def Consumes {α : Type} (p : Parse α) (R : α → List Byte → Prop) : Prop :=
  ∀ bs a r, p bs = .ok a r → ∃ u, bs = u ++ r ∧ R a u

theorem Consumes.mono {α : Type} {p : Parse α} {R S : α → List Byte → Prop} (h : Consumes p R)
    (hRS : ∀ a u, R a u → S a u) : Consumes p S := fun bs a r hp =>
  let ⟨u, hu, hR⟩ := h bs a r hp
  ⟨u, hu, hRS a u hR⟩

theorem consumes_pure {α : Type} {a : α} {R : α → List Byte → Prop} (h : R a []) : Consumes (pure a) R := by
  intro bs b r hp
  cases hp
  exact ⟨[], rfl, h⟩

theorem consumes_bind {α β : Type} {p : Parse α} {f : α → Parse β} {R : α → List Byte → Prop}
    {S : β → List Byte → Prop} (hp : Consumes p R) (hf : ∀ a u, R a u → Consumes (f a) fun b v => S b (u ++ v)) :
    Consumes (p >>= f) S := by
  intro bs b r h
  rw [Parse_bind_apply] at h
  split at h
  next a t ha =>
    obtain ⟨u, rfl, hR⟩ := hp bs a t ha
    obtain ⟨v, rfl, hS⟩ := hf a u hR t b r h
    exact ⟨u ++ v, (List.append_assoc ..).symm, hS⟩
  next => cases h

/-- The last part of a parser, after which it only answers. -/
theorem consumes_bind_pure {α β : Type} {p : Parse α} {f : α → β} {R : α → List Byte → Prop} {S : β → List Byte → Prop}
    (hp : Consumes p R) (hf : ∀ a u, R a u → S (f a) u) : Consumes (p >>= fun a => pure (f a)) S :=
  consumes_bind hp fun a u h => consumes_pure (by simpa only [List.append_nil] using hf a u h)

theorem consumes_unlisted {α : Type} {opcode : List Byte} {R : α → List Byte → Prop} : Consumes (unlisted opcode) R :=
  fun _ _ _ h => nomatch h

theorem consumes_invalid {α : Type} {opcode : List Byte} {R : α → List Byte → Prop} : Consumes (invalid opcode) R :=
  fun _ _ _ h => nomatch h

/-! ### Bytes, immediates and far pointers -/

theorem consumes_nextByte : Consumes nextByte fun b u => u = [b] := by
  intro bs b r h
  cases bs with
  | nil => cases h
  | cons c t =>
    cases h
    exact ⟨[b], rfl, rfl⟩

theorem wordBytes_append (hi lo : Byte) : wordBytes (hi ++ lo) = [lo, hi] := by
  simp only [wordBytes, BitVec.extractLsb'_append_eq_right, BitVec.extractLsb'_append_eq_left]

theorem dwordBytes_append (hi lo : Word) : dwordBytes (hi ++ lo) = wordBytes lo ++ wordBytes hi := by
  simp only [dwordBytes, BitVec.extractLsb'_append_eq_right, BitVec.extractLsb'_append_eq_left]

theorem consumes_nextWord : Consumes nextWord fun v u => u = wordBytes v := by
  refine consumes_bind consumes_nextByte ?_
  rintro lo _ rfl
  refine consumes_bind_pure consumes_nextByte ?_
  rintro hi _ rfl
  exact (wordBytes_append hi lo).symm

theorem consumes_nextDword : Consumes nextDword fun v u => u = dwordBytes v := by
  refine consumes_bind consumes_nextWord ?_
  rintro lo _ rfl
  refine consumes_bind_pure consumes_nextWord ?_
  rintro hi _ rfl
  exact (dwordBytes_append hi lo).symm

theorem consumes_nextImm (op32 : Bool) : Consumes (nextImm op32) fun d u => d.wf op32 = true ∧ u = d.bytes := by
  cases op32
  · exact consumes_bind_pure consumes_nextWord fun _ _ h => ⟨rfl, h⟩
  · exact consumes_bind_pure consumes_nextDword fun _ _ h => ⟨rfl, h⟩

theorem consumes_nextFar (op32 : Bool) :
    Consumes (nextFar op32) fun x u => x.1.wf op32 = true ∧ u = x.1.bytes ++ wordBytes x.2 := by
  refine consumes_bind (consumes_nextImm op32) ?_
  rintro off _ ⟨hoff, rfl⟩
  refine consumes_bind_pure consumes_nextWord ?_
  rintro sel _ rfl
  exact ⟨hoff, rfl⟩

/-! ### Register-or-memory operands -/

theorem mod_cases {mb : BitVec 2} (h : mb ≠ 3#2) : mb = 0#2 ∨ mb = 1#2 ∨ mb = 2#2 := by
  revert mb
  decide

theorem consumes_nextDisp16 {mb : BitVec 2} (h : mb ≠ 3#2) :
    Consumes (nextDisp16 mb) fun d u => d.mod = mb ∧ u = d.bytes := by
  rcases mod_cases h with rfl | rfl | rfl
  · exact consumes_pure ⟨rfl, rfl⟩
  · exact consumes_bind_pure consumes_nextByte fun _ _ hu => ⟨rfl, hu⟩
  · exact consumes_bind_pure consumes_nextWord fun _ _ hu => ⟨rfl, hu⟩

theorem consumes_nextDisp32 {mb : BitVec 2} (h : mb ≠ 3#2) :
    Consumes (nextDisp32 mb) fun d u => d.mod = mb ∧ u = d.bytes := by
  rcases mod_cases h with rfl | rfl | rfl
  · exact consumes_pure ⟨rfl, rfl⟩
  · exact consumes_bind_pure consumes_nextByte fun _ _ hu => ⟨rfl, hu⟩
  · exact consumes_bind_pure consumes_nextDword fun _ _ hu => ⟨rfl, hu⟩

/-- A memory operand is an addressing form of the address size, and the bytes behind its ModRM byte are `u`. -/
def Ea.EncodedAs (a32 : Bool) (mb : BitVec 2) (rm : BitVec 3) (ea : Ea) (u : List Byte) : Prop :=
  ea.wf a32 = true ∧ ∀ n, ea.bytes n = packFields mb n rm :: u

theorem consumes_nextEa16 {mb : BitVec 2} (h : mb ≠ 3#2) (rm : BitVec 3) :
    Consumes (nextEa16 mb rm) (Ea.EncodedAs false mb rm) := by
  unfold nextEa16
  split
  next habs =>
    obtain ⟨rfl, rfl⟩ := habs
    refine consumes_bind_pure consumes_nextWord ?_
    rintro v _ rfl
    exact ⟨rfl, fun _ => rfl⟩
  next hbase =>
    refine consumes_bind_pure (consumes_nextDisp16 h) ?_
    rintro d _ ⟨rfl, rfl⟩
    refine ⟨?_, fun n => by simp only [Ea.bytes, Base16_bits_ofBits]⟩
    rw [Disp16_mod_zero, ← Base16_bits_ofBits rm, Base16_bits_six] at hbase
    simpa [Ea.wf, ← imp_iff_not_or, imp_not_comm] using hbase

theorem indexOf_ne_esp (b : BitVec 3) : indexOf b ≠ some .esp := by
  revert b
  decide

theorem consumes_nextSib {mb : BitVec 2} (h : mb ≠ 3#2) : Consumes (nextSib mb) (Ea.EncodedAs true mb 4#3) := by
  refine consumes_bind consumes_nextByte ?_
  rintro b _ rfl
  split
  next habs =>
    obtain ⟨rfl, hlo⟩ := habs
    refine consumes_bind_pure consumes_nextDword ?_
    rintro v _ rfl
    refine ⟨by simp [Ea.wf, indexOf_ne_esp], fun n => ?_⟩
    simp only [Ea.bytes, indexBits_of, ← hlo, pack_fields, List.cons_append, List.nil_append]
  next hbase =>
    refine consumes_bind_pure (consumes_nextDisp32 h) ?_
    rintro d _ ⟨rfl, rfl⟩
    refine ⟨?_, fun n => ?_⟩
    · rw [Disp32_mod_zero, ← Reg_bits_ofBits (fieldLo b), Reg_bits_five] at hbase
      simpa [Ea.wf, indexOf_ne_esp, ← imp_iff_not_or, imp_not_comm] using hbase
    · simp only [Ea.bytes, indexBits_of, Reg_bits_ofBits, pack_fields, List.cons_append, List.nil_append]

theorem consumes_nextEa32 {mb : BitVec 2} (h : mb ≠ 3#2) (rm : BitVec 3) :
    Consumes (nextEa32 mb rm) (Ea.EncodedAs true mb rm) := by
  unfold nextEa32
  split
  next hsib =>
    subst hsib
    exact consumes_nextSib h
  next hsib =>
    split
    next habs =>
      obtain ⟨rfl, rfl⟩ := habs
      refine consumes_bind_pure consumes_nextDword ?_
      rintro v _ rfl
      exact ⟨rfl, fun _ => rfl⟩
    next hbase =>
      refine consumes_bind_pure (consumes_nextDisp32 h) ?_
      rintro d _ ⟨rfl, rfl⟩
      refine ⟨?_, fun n => by simp only [Ea.bytes, Reg_bits_ofBits]⟩
      rw [Disp32_mod_zero, ← Reg_bits_ofBits rm, Reg_bits_five] at hbase
      rw [← Reg_bits_ofBits rm, Reg_bits_four] at hsib
      simpa [Ea.wf, hsib, ← imp_iff_not_or, imp_not_comm] using hbase

/-- The operand that a ModRM byte announces, whatever registers it may name. -/
theorem consumes_nextRmOf {ρ : Type} {regOf : BitVec 3 → ρ} {bitsOf : ρ → BitVec 3} (hr : ∀ b, bitsOf (regOf b) = b)
    (a32 : Bool) (b : Byte) :
    Consumes (nextRmOf regOf a32 b) fun rm u => rm.wf a32 = true ∧ rm.bytes bitsOf (fieldMid b) = b :: u := by
  have memory : ∀ ea u, Ea.EncodedAs a32 (fieldHi b) (fieldLo b) ea u →
      (RM.mem ea : RM ρ).wf a32 = true ∧ (RM.mem ea : RM ρ).bytes bitsOf (fieldMid b) = b :: u := by
    rintro ea u ⟨hwf, hbytes⟩
    exact ⟨hwf, by rw [RM.bytes, hbytes, pack_fields]⟩
  unfold nextRmOf
  split
  next hreg =>
    exact consumes_pure ⟨rfl, by rw [RM.bytes, hr, ← hreg, pack_fields]⟩
  next hmem =>
    cases a32
    · exact consumes_bind_pure (consumes_nextEa16 hmem _) memory
    · exact consumes_bind_pure (consumes_nextEa32 hmem _) memory

theorem consumes_nextModRM (a32 : Bool) :
    Consumes (nextModRM a32) fun x u => x.2.wf a32 = true ∧ u = rmBytes x.1 x.2 := by
  refine consumes_bind consumes_nextByte ?_
  rintro b _ rfl
  refine consumes_bind_pure (consumes_nextRmOf Reg_bits_ofBits a32 b) ?_
  rintro rm u ⟨hwf, hbytes⟩
  exact ⟨hwf, hbytes.symm⟩

theorem consumes_nextModRM8 (a32 : Bool) :
    Consumes (nextModRM8 a32) fun x u => x.2.wf a32 = true ∧ u = x.2.bytes Reg8.bits x.1 := by
  refine consumes_bind consumes_nextByte ?_
  rintro b _ rfl
  refine consumes_bind_pure (consumes_nextRmOf Reg8_bits_ofBits a32 b) ?_
  rintro rm u ⟨hwf, hbytes⟩
  exact ⟨hwf, hbytes.symm⟩

theorem consumes_nextSpecial : Consumes nextSpecial fun x u => u = [packFields x.1 x.2.1 x.2.2.bits] := by
  refine consumes_bind_pure consumes_nextByte ?_
  rintro b _ rfl
  rw [Reg_bits_ofBits, pack_fields]

/-! ## What the decoder consumes is what the encoder writes -/

/-- A shape, completed by the context's prefixes and any length, is an instruction that the encoder writes as `u` behind its
prefixes; with the length that the bytes have it is well formed. -/
def Encodes (c : Ctx) (f : Shape) (u : List Byte) : Prop :=
  ∀ n, (f ⟨c.prefixes, c.d32, n⟩).ctx = ⟨c.prefixes, c.d32, n⟩ ∧ (f ⟨c.prefixes, c.d32, n⟩).opcodeBytes = u
    ∧ (n = c.prefixes.length + u.length → n ≤ Config.maxLength → (f ⟨c.prefixes, c.d32, n⟩).wf = true)

/-- A shape is that of an instruction without LOCK: the encoder writes it as `u`, and it is well formed in a context that
fits those bytes and makes its operands well formed. -/
def Shape.Fits (f : Shape) (u : List Byte) (ok : Ctx → Bool) : Prop :=
  ∀ c, (f c).ctx = c ∧ (f c).opcodeBytes = u ∧ (f c).wf = (c.wf u.length && ok c)

section Unlocked

variable {c : Ctx} {f : Shape} (hl : c.hasLock = false) (opcode : List Byte)

include hl

theorem encodes_of_fits {u : List Byte} {ok : Ctx → Bool} (hf : f.Fits u ok)
    (hok : ∀ n, ok ⟨c.prefixes, c.d32, n⟩ = true) : Encodes c f u := by
  intro n
  obtain ⟨hctx, hbytes, hwf⟩ := hf ⟨c.prefixes, c.d32, n⟩
  refine ⟨hctx, hbytes, fun hn hmax => ?_⟩
  have hc : Ctx.wf ⟨c.prefixes, c.d32, n⟩ u.length = true := by simp [Ctx.wf, hl, hn ▸ hmax, hn]
  rw [hwf, hc, hok, Bool.and_self]

/-! One rule for each kind of operand. That the shape fits is found by unfolding what the encoder says of it. -/

theorem consumes_plain
    (hf : f.Fits opcode fun _ => true := by exact fun _ => ⟨rfl, rfl, (Bool.and_true _).symm⟩) :
    Consumes (pure f) fun f v => Encodes c f (opcode ++ v) :=
  consumes_pure (encodes_of_fits hl (by rwa [List.append_nil]) fun _ => rfl)

/-- The string instructions where none of the prefixes repeats them. -/
theorem consumes_once (hr : c.hasRep = false)
    (hf : f.Fits opcode fun c => !c.hasRep := by exact fun _ => ⟨rfl, rfl, rfl⟩) :
    Consumes (pure f) fun f v => Encodes c f (opcode ++ v) :=
  consumes_pure (encodes_of_fits hl (by rwa [List.append_nil]) fun _ => by rw [Ctx_hasRep_len, hr, Bool.not_false])

theorem consumes_operand {α : Type} {p : Parse α} {g : α → Shape} {ok : Ctx → α → Bool} {bytes : α → List Byte}
    (hp : Consumes p fun a u => (∀ n, ok ⟨c.prefixes, c.d32, n⟩ a = true) ∧ u = bytes a)
    (hf : ∀ a, (g a).Fits (opcode ++ bytes a) fun c => ok c a) :
    Consumes (p >>= fun a => pure (g a)) fun f v => Encodes c f (opcode ++ v) := by
  refine consumes_bind_pure hp ?_
  rintro a _ ⟨hok, rfl⟩
  exact encodes_of_fits hl (hf a) hok

theorem consumes_rm {g : BitVec 3 × RM Reg → Shape}
    (hf : ∀ x, (g x).Fits (opcode ++ rmBytes x.1 x.2) fun c => x.2.wf c.addr32 := by
      intros; simp [Shape.Fits, Instr.ctx, Instr.opcodeBytes, Instr.wf, ← Nat.add_assoc, Nat.add_comm]) :
    Consumes (nextModRM c.addr32 >>= fun x => pure (g x)) fun f v => Encodes c f (opcode ++ v) :=
  consumes_operand hl opcode ((consumes_nextModRM _).mono fun _ _ h => ⟨fun _ => h.1, h.2⟩) hf

theorem consumes_rm8 {g : BitVec 3 × RM Reg8 → Shape}
    (hf : ∀ x, (g x).Fits (opcode ++ x.2.bytes Reg8.bits x.1) fun c => x.2.wf c.addr32 := by
      intros; simp [Shape.Fits, Instr.ctx, Instr.opcodeBytes, Instr.wf, ← Nat.add_assoc, Nat.add_comm]) :
    Consumes (nextModRM8 c.addr32 >>= fun x => pure (g x)) fun f v => Encodes c f (opcode ++ v) :=
  consumes_operand hl opcode ((consumes_nextModRM8 _).mono fun _ _ h => ⟨fun _ => h.1, h.2⟩) hf

/-- The instruction of a group that a ModRM byte has picked. -/
theorem consumes_picked {n : BitVec 3} {rm : RM Reg} (hrm : rm.wf c.addr32 = true)
    (hf : f.Fits (opcode ++ rmBytes n rm) fun c => rm.wf c.addr32 := by
      simp [Shape.Fits, Instr.ctx, Instr.opcodeBytes, Instr.wf, ← Nat.add_assoc, Nat.add_comm]) :
    Consumes (pure f) fun f v => Encodes c f (opcode ++ (rmBytes n rm ++ v)) :=
  consumes_pure (encodes_of_fits hl (by rwa [List.append_nil]) fun _ => hrm)

theorem consumes_imm {g : Imm → Shape}
    (hf : ∀ d, (g d).Fits (opcode ++ d.bytes) fun c => d.wf c.op32 := by
      intros; simp [Shape.Fits, Instr.ctx, Instr.opcodeBytes, Instr.wf, ← Nat.add_assoc, Nat.add_comm]) :
    Consumes (nextImm c.op32 >>= fun d => pure (g d)) fun f v => Encodes c f (opcode ++ v) :=
  consumes_operand hl opcode ((consumes_nextImm _).mono fun _ _ h => ⟨fun _ => h.1, h.2⟩) hf

theorem consumes_far {g : Imm × Word → Shape}
    (hf : ∀ x, (g x).Fits (opcode ++ (x.1.bytes ++ wordBytes x.2)) fun c => x.1.wf c.op32 := by
      intros; simp [Shape.Fits, Instr.ctx, Instr.opcodeBytes, Instr.wf, ← Nat.add_assoc, Nat.add_comm]) :
    Consumes (nextFar c.op32 >>= fun x => pure (g x)) fun f v => Encodes c f (opcode ++ v) :=
  consumes_operand hl opcode ((consumes_nextFar _).mono fun _ _ h => ⟨fun _ => h.1, h.2⟩) hf

theorem consumes_byte {g : Byte → Shape}
    (hf : ∀ b, (g b).Fits (opcode ++ [b]) fun _ => true := by
      exact fun _ _ => ⟨rfl, rfl, (Bool.and_true _).symm⟩) :
    Consumes (nextByte >>= fun b => pure (g b)) fun f v => Encodes c f (opcode ++ v) :=
  consumes_operand hl opcode (consumes_nextByte.mono fun _ _ h => ⟨fun _ => rfl, h⟩) hf

theorem consumes_word {g : Word → Shape}
    (hf : ∀ w, (g w).Fits (opcode ++ wordBytes w) fun _ => true := by
      exact fun _ _ => ⟨rfl, rfl, (Bool.and_true _).symm⟩) :
    Consumes (nextWord >>= fun w => pure (g w)) fun f v => Encodes c f (opcode ++ v) :=
  consumes_operand hl opcode (consumes_nextWord.mono fun _ _ h => ⟨fun _ => rfl, h⟩) hf

theorem consumes_special {g : BitVec 2 × BitVec 3 × Reg → Shape}
    (hf : ∀ x, (g x).Fits (opcode ++ [packFields x.1 x.2.1 x.2.2.bits]) fun _ => true := by
      exact fun _ _ => ⟨rfl, rfl, (Bool.and_true _).symm⟩) :
    Consumes (nextSpecial >>= fun x => pure (g x)) fun f v => Encodes c f (opcode ++ v) :=
  consumes_operand hl opcode (consumes_nextSpecial.mono fun _ _ h => ⟨fun _ => rfl, h⟩) hf

end Unlocked

theorem consumes_parse0F00 {c : Ctx} (hl : c.hasLock = false) :
    Consumes (parse0F00 c.addr32) fun f u => Encodes c f ([0x0F#8, 0x00#8] ++ u) := by
  refine consumes_bind (consumes_nextModRM _) ?_
  rintro ⟨n, rm⟩ _ ⟨hrm, rfl⟩
  dsimp only
  split
  case h_7 => exact consumes_invalid
  all_goals exact consumes_picked hl [0x0F#8, 0x00#8] hrm

theorem consumes_parse0F01 {c : Ctx} (hl : c.hasLock = false) :
    Consumes (parse0F01 c.addr32) fun f u => Encodes c f ([0x0F#8, 0x01#8] ++ u) := by
  refine consumes_bind (consumes_nextModRM _) ?_
  rintro ⟨n, rm⟩ _ ⟨hrm, rfl⟩
  dsimp only
  split
  case h_7 => exact consumes_invalid
  all_goals exact consumes_picked hl [0x0F#8, 0x01#8] hrm

theorem consumes_parse0FBA (a32 : Bool) {R : Shape → List Byte → Prop} : Consumes (parse0FBA a32) R := by
  refine consumes_bind (consumes_nextModRM _) fun x u _ => ?_
  dsimp only
  split
  · exact consumes_invalid
  · exact consumes_unlisted

theorem consumes_parseFE (a32 : Bool) {R : Shape → List Byte → Prop} : Consumes (parseFE a32) R := by
  refine consumes_bind (consumes_nextModRM _) fun x u _ => ?_
  dsimp only
  split
  · exact consumes_unlisted
  · exact consumes_invalid

theorem consumes_parseFF {c : Ctx} (hl : c.hasLock = false) :
    Consumes (parseFF c.addr32) fun f u => Encodes c f ([0xFF#8] ++ u) := by
  refine consumes_bind (consumes_nextModRM _) ?_
  rintro ⟨n, rm⟩ _ ⟨hrm, rfl⟩
  dsimp only
  split
  case h_5 => exact consumes_invalid
  case h_6 => exact consumes_unlisted
  all_goals exact consumes_picked hl [0xFF#8] hrm

theorem consumes_parse0F {c : Ctx} (hl : c.hasLock = false) :
    Consumes (parse0F c.addr32) fun f u => Encodes c f ([0x0F#8] ++ u) := by
  refine consumes_bind consumes_nextByte ?_
  rintro op _ rfl
  split
  · exact consumes_parse0F00 hl
  · exact consumes_parse0F01 hl
  · exact consumes_rm hl [0x0F#8, 0x02#8]
  · exact consumes_rm hl [0x0F#8, 0x03#8]
  · exact consumes_plain hl [0x0F#8, 0x06#8]
  · exact consumes_special hl [0x0F#8, 0x20#8]
  · exact consumes_special hl [0x0F#8, 0x21#8]
  · exact consumes_special hl [0x0F#8, 0x22#8]
  · exact consumes_special hl [0x0F#8, 0x23#8]
  · exact consumes_special hl [0x0F#8, 0x24#8]
  · exact consumes_special hl [0x0F#8, 0x26#8]
  · exact consumes_plain hl [0x0F#8, 0xA0#8]
  · exact consumes_plain hl [0x0F#8, 0xA1#8]
  · exact consumes_plain hl [0x0F#8, 0xA8#8]
  · exact consumes_plain hl [0x0F#8, 0xA9#8]
  · exact consumes_rm hl [0x0F#8, 0xB2#8]
  · exact consumes_rm hl [0x0F#8, 0xB4#8]
  · exact consumes_rm hl [0x0F#8, 0xB5#8]
  · exact consumes_parse0FBA _
  · split
    · exact consumes_invalid
    · exact consumes_unlisted

theorem consumes_parseEsc {c : Ctx} (hl : c.hasLock = false) {op : Byte} (hop : (27#5 ++ fieldLo op : Byte) = op) :
    Consumes (parseEsc c.addr32 op) fun f u => Encodes c f ([op] ++ u) :=
  consumes_rm hl [op] (by
    simp [Shape.Fits, Instr.ctx, Instr.opcodeBytes, Instr.wf, hop, Nat.add_comm])

theorem consumes_parseLow {c : Ctx} (hl : c.hasLock = false) {op : Byte}
    (hs : c.hasRep = true → plainOpcode op = true) :
    Consumes (parseLow c op) fun f u => Encodes c f ([op] ++ u) := by
  have once (hop : plainOpcode op = false) : c.hasRep = false := by
    rw [← Bool.not_eq_true]
    exact fun hr => Bool.false_ne_true (hop.symm.trans (hs hr))
  unfold parseLow
  split
  · exact consumes_plain hl [0x06#8]
  · exact consumes_plain hl [0x07#8]
  · exact consumes_plain hl [0x0E#8]
  · exact consumes_parse0F hl
  · exact consumes_plain hl [0x16#8]
  · exact consumes_plain hl [0x17#8]
  · exact consumes_plain hl [0x1E#8]
  · exact consumes_plain hl [0x1F#8]
  · exact consumes_rm hl [0x62#8]
  · exact consumes_rm hl [0x63#8]
  · exact consumes_once hl [0x6C#8] (once rfl)
  · exact consumes_once hl [0x6D#8] (once rfl)
  · exact consumes_once hl [0x6E#8] (once rfl)
  · exact consumes_once hl [0x6F#8] (once rfl)
  · exact consumes_rm8 hl [0x86#8]
  · exact consumes_rm hl [0x87#8]
  · exact consumes_rm hl [0x8C#8]
  · exact consumes_rm hl [0x8E#8]
  · exact consumes_unlisted

theorem consumes_parseHigh {c : Ctx} (hl : c.hasLock = false) (op : Byte) :
    Consumes (parseHigh c op) fun f u => Encodes c f ([op] ++ u) := by
  unfold parseHigh
  split
  · exact consumes_far hl [0x9A#8]
  · exact consumes_plain hl [0x9B#8]
  · exact consumes_plain hl [0x9C#8]
  · exact consumes_plain hl [0x9D#8]
  · exact consumes_word hl [0xC2#8]
  · exact consumes_plain hl [0xC3#8]
  · exact consumes_rm hl [0xC4#8]
  · exact consumes_rm hl [0xC5#8]
  · exact consumes_word hl [0xCA#8]
  · exact consumes_plain hl [0xCB#8]
  · exact consumes_plain hl [0xCC#8]
  · exact consumes_byte hl [0xCD#8]
  · exact consumes_plain hl [0xCE#8]
  · exact consumes_plain hl [0xCF#8]
  iterate 8 · exact consumes_parseEsc hl rfl
  · exact consumes_byte hl [0xE4#8]
  · exact consumes_byte hl [0xE5#8]
  · exact consumes_byte hl [0xE6#8]
  · exact consumes_byte hl [0xE7#8]
  · exact consumes_imm hl [0xE8#8]
  · exact consumes_imm hl [0xE9#8]
  · exact consumes_far hl [0xEA#8]
  · exact consumes_byte hl [0xEB#8]
  · exact consumes_plain hl [0xEC#8]
  · exact consumes_plain hl [0xED#8]
  · exact consumes_plain hl [0xEE#8]
  · exact consumes_plain hl [0xEF#8]
  · exact consumes_plain hl [0xF4#8]
  · exact consumes_plain hl [0xFA#8]
  · exact consumes_plain hl [0xFB#8]
  · exact consumes_parseFE _
  · exact consumes_parseFF hl
  · exact consumes_unlisted

/-- LOCK and what it stands before. -/
theorem encodes_locked {c : Ctx} (hl : c.hasLock = true) {t : LockTarget} (ht : t.wf c.addr32 = true) :
    Encodes c (fun c => .lockPrefix c t) t.bytes := by
  intro n
  refine ⟨rfl, rfl, fun hn hmax => ?_⟩
  have hsize : t.bytes.length = t.size := by
    cases t <;> simp [LockTarget.bytes, LockTarget.size, Nat.add_comm]
  simp [Instr.wf, hl, ht, ← hsize, hn ▸ hmax, hn]

theorem consumes_parseLocked {c : Ctx} (hl : c.hasLock = true) {op : Byte} (hop : pfxOf op = none) :
    Consumes (parseLocked c op) fun f u => Encodes c f ([op] ++ u) := by
  unfold parseLocked
  split
  · refine consumes_bind_pure (consumes_nextModRM8 _) ?_
    rintro ⟨n, rm⟩ _ ⟨hrm, rfl⟩
    simpa [LockTarget.bytes] using encodes_locked (t := .xchgByte rm (Reg8.ofBits n)) hl hrm
  · refine consumes_bind_pure (consumes_nextModRM _) ?_
    rintro ⟨n, rm⟩ _ ⟨hrm, rfl⟩
    simpa [LockTarget.bytes] using encodes_locked (t := .xchg rm (Reg.ofBits n)) hl hrm
  · refine consumes_bind consumes_nextByte ?_
    rintro op2 _ rfl
    split
    next hfields => exact consumes_pure (encodes_locked (t := .twoByte op2) hl hfields)
    next hfields =>
      refine consumes_bind_pure consumes_nextByte ?_
      rintro b _ rfl
      exact encodes_locked (t := .twoByteRm op2 b) hl (by simpa [LockTarget.wf] using hfields)
  next h86 h87 h0F =>
    split
    next hfields =>
      refine consumes_pure (encodes_locked (t := .oneByte op) hl ?_)
      simp_all [LockTarget.wf]
    next hfields =>
      refine consumes_bind_pure consumes_nextByte ?_
      rintro b _ rfl
      exact encodes_locked (t := .oneByteRm op b) hl (by simpa [LockTarget.wf] using hfields)

/-- REP and what it stands before. -/
theorem consumes_repeat {c : Ctx} (hl : c.hasLock = false) (hr : c.hasRep = true) {t : RepTarget} (ht : t.wf = true)
    {op : Byte} (hop : t.bytes = [op]) :
    Consumes (pure fun c => .repPrefix c t) fun f u => Encodes c f ([op] ++ u) := by
  refine consumes_pure fun n => ⟨rfl, hop, fun hn hmax => ?_⟩
  simp_all [Instr.wf, Ctx.wf]

theorem consumes_parseRepeated {c : Ctx} (hl : c.hasLock = false) (hr : c.hasRep = true) {op : Byte}
    (hop : pfxOf op = none) : Consumes (parseRepeated c op) fun f u => Encodes c f ([op] ++ u) := by
  unfold parseRepeated
  split
  · exact consumes_repeat hl hr rfl rfl
  · exact consumes_repeat hl hr rfl rfl
  · exact consumes_repeat hl hr rfl rfl
  · exact consumes_repeat hl hr rfl rfl
  next h6C h6D h6E h6F =>
    split
    next hknown =>
      split
      · exact consumes_parseLow hl fun _ => by simp_all [plainOpcode]
      · exact consumes_parseHigh hl op
    next hknown => exact consumes_repeat hl hr (by simp [RepTarget.wf, hop, hknown]) rfl

/-- Whatever the prefixes, the parser takes what the encoder writes for its answer. -/
theorem encodes_of_parseOpcode {c : Ctx} {op : Byte} (hop : pfxOf op = none) {bs r : List Byte} {f : Shape}
    (h : parseOpcode c (op :: bs) = .ok f r) : ∃ u, op :: bs = u ++ r ∧ Encodes c f u := by
  have hrest : Consumes (if c.hasLock then parseLocked c op else if c.hasRep then parseRepeated c op
      else if op.toNat < 0x90 then parseLow c op else parseHigh c op) fun f u => Encodes c f ([op] ++ u) := by
    split
    next hl => exact consumes_parseLocked hl hop
    next hl =>
      rw [Bool.not_eq_true] at hl
      split
      next hr => exact consumes_parseRepeated hl hr hop
      next hr =>
        split
        · exact consumes_parseLow hl fun h => absurd h hr
        · exact consumes_parseHigh hl op
  obtain ⟨u, rfl, hu⟩ := hrest bs f r h
  exact ⟨op :: u, rfl, hu⟩

theorem parseOpcode_nil (c : Ctx) : parseOpcode c [] = .error .needMore [] := rfl

/-- The byte that is read as one of the prefixes is the one written for it. -/
theorem byte_of_pfxOf {b : Byte} {p : Pfx} (h : pfxOf b = some p) : p.byte = b := by
  unfold pfxOf at h
  split at h <;> cases h <;> rfl

/-- Taking the prefixes loses no byte. -/
theorem takePrefixes_append (bs : List Byte) :
    (takePrefixes bs).1.map Pfx.byte ++ (takePrefixes bs).2 = bs := by
  induction bs with
  | nil => rfl
  | cons b r ih =>
    cases hb : pfxOf b with
    | none => simp only [takePrefixes, hb, List.map_nil, List.nil_append]
    | some p => simp only [takePrefixes, hb, List.map_cons, List.cons_append, ih, byte_of_pfxOf hb]

theorem pfxOf_takePrefixes {bs r : List Byte} {b : Byte} (h : (takePrefixes bs).2 = b :: r) : pfxOf b = none := by
  induction bs with
  | nil => cases h
  | cons a t ih =>
    cases ha : pfxOf a with
    | none =>
      simp only [takePrefixes, ha, List.cons.injEq] at h
      exact h.1 ▸ ha
    | some p => exact ih (by simpa only [takePrefixes, ha] using h)

/-- An instruction that bytes decode to: the parser's answer behind the prefixes, of at most 15 bytes. -/
theorem decode_instr {d32 : Bool} {bs : List Byte} {i : Instr} (h : decode d32 bs = .instr i) :
    ∃ f r, parseOpcode ⟨(takePrefixes bs).1, d32, 0⟩ (takePrefixes bs).2 = .ok f r
      ∧ bs.length - r.length ≤ Config.maxLength ∧ f ⟨(takePrefixes bs).1, d32, bs.length - r.length⟩ = i := by
  simp only [decode] at h
  split at h
  next f r hparse =>
    split at h
    next hmax => exact ⟨f, r, hparse, hmax, by injection h⟩
    next => cases h
  next => split at h <;> cases h
  next => cases h
  next => cases h

/-- Settles O2: taking the prefixes loses nothing, and behind them the parser takes what the encoder writes for its answer. -/
theorem decodedIsEncoded : Obligations.DecodedIsEncoded := by
  unfold Obligations.DecodedIsEncoded
  intro d32 bs i h
  obtain ⟨f, r, hparse, hmax, rfl⟩ := decode_instr h
  have hbs := takePrefixes_append bs
  cases hrest : (takePrefixes bs).2 with
  | nil =>
    rw [hrest, parseOpcode_nil] at hparse
    cases hparse
  | cons op t =>
    rw [hrest] at hparse hbs
    obtain ⟨u, hu, hf⟩ := encodes_of_parseOpcode (pfxOf_takePrefixes hrest) hparse
    obtain ⟨hctx, hbytes, hwf⟩ := hf (bs.length - r.length)
    rw [hu, ← List.append_assoc] at hbs
    generalize (takePrefixes bs).1 = ps at *
    have hlen : bs.length - r.length = ps.length + u.length := by
      have := congrArg List.length hbs
      simp only [List.length_append, List.length_map] at this
      omega
    refine ⟨hwf hlen hmax, by rw [hctx], ?_⟩
    rw [encode, hctx, hbytes, ← hbs]
    exact List.take_left' (by simp [← Nat.add_assoc])

end Sys2Proof

namespace Sys2Proof.Machine

/-! ## Fetching an invalid opcode -/

/-- With paging off, a byte within CS that is not stale is fetched from its linear address. -/
theorem fetchByte_flat {s : State} {off : Dword} (hp : s.pg = false) (hs : s.segOk .cs off 1 .fetch = true)
    (hfresh : (s.linear .cs off).toNat ∉ s.run.prefetch.stale) :
    fetchByte off s = .ok (s.byte (s.linear .cs off).toNat) s := by
  have haddr : (Span.flat (s.linear .cs off) 1).addr 0 = (s.linear .cs off).toNat := by simp [Span.flat, Span.addr]
  simp [fetchByte, checkedSpan_eq, hs, translate_flat hp, haddr, hfresh, State.byte]

/-- A decoder that asks for more gets the next byte. -/
theorem fetchFrom_needMore {n : Nat} {bs : List Byte} {b : Byte} {s : State} (h : decode s.default32 bs = .needMore)
    (hb : fetchByte (s.pc + BitVec.ofNat 32 bs.length) s = .ok b s) :
    fetchFrom (n + 1) bs s = fetchFrom n (bs ++ [b]) s := by
  simp [fetchFrom, h, hb]

/-- Bytes that can be fetched, and of which no fewer are enough, are fetched one by one. -/
theorem fetchFrom_take {bs : List Byte} {s : State}
    (hbyte : ∀ k, k < bs.length → ∃ b, bs[k]? = some b ∧ fetchByte (s.pc + BitVec.ofNat 32 k) s = .ok b s)
    (hmore : ∀ k, k < bs.length → decode s.default32 (bs.take k) = .needMore) (n k : Nat) (hk : k ≤ bs.length) :
    fetchFrom (n + k) [] s = fetchFrom n (bs.take k) s := by
  induction k generalizing n with
  | zero => rfl
  | succ k ih =>
    obtain ⟨b, hb, hfetch⟩ := hbyte k hk
    have hlen : (bs.take k).length = k := List.length_take_of_le (Nat.le_of_succ_le hk)
    calc fetchFrom (n + (k + 1)) [] s = fetchFrom (n + 1) (bs.take k) s := by
          rw [Nat.add_comm k, ← Nat.add_assoc, ih _ (Nat.le_of_succ_le hk)]
      _ = fetchFrom n (bs.take k ++ [b]) s := fetchFrom_needMore (hmore k hk) (by rw [hlen, hfetch])
      _ = fetchFrom n (bs.take (k + 1)) s := by rw [List.take_add_one, hb, Option.toList_some]

/-- The decoder asks for no byte past the longest instruction (30_encoding.md R232). -/
theorem length_lt_of_needMore {d32 : Bool} {bs : List Byte} (h : decode d32 bs = .needMore) :
    bs.length < Config.maxLength := by
  simp only [decode] at h
  split at h
  next => split at h <;> cases h
  next =>
    split at h
    next => cases h
    next hlen => exact Nat.lt_of_not_le hlen
  next => cases h
  next => cases h

/-- So bytes of which no fewer are enough are at most as many. -/
theorem length_le_of_needMore {d32 : Bool} {bs : List Byte}
    (h : ∀ k, k < bs.length → decode d32 (bs.take k) = .needMore) : bs.length ≤ Config.maxLength := by
  cases hlen : bs.length with
  | zero => exact Nat.zero_le _
  | succ k =>
    have := length_lt_of_needMore (h k (by omega))
    rw [List.length_take] at this
    omega

/-- An invalid opcode at CS:EIP is found out when all its bytes are there. -/
theorem fetchInstr_invalid {bs op : List Byte} {s : State} (hv : s.flags.vm = false)
    (hbyte : ∀ k, k < bs.length → ∃ b, bs[k]? = some b ∧ fetchByte (s.pc + BitVec.ofNat 32 k) s = .ok b s)
    (hmore : ∀ k, k < bs.length → decode s.default32 (bs.take k) = .needMore)
    (hop : decode s.default32 bs = .invalid op) : fetchInstr s = .error (.exc (faultOf 0x06#8)) s := by
  have hmax := length_le_of_needMore hmore
  have hfuel : Config.maxLength + 1 = (Config.maxLength - bs.length + 1) + bs.length := by omega
  have hfetch := fetchFrom_take hbyte hmore (Config.maxLength - bs.length + 1) bs.length le_rfl
  rw [List.take_length, fetchFrom_invalid hop] at hfetch
  simp only [fetchInstr, M_bind_apply, getState_apply, hv, Bool.false_eq_true, if_false, hfuel, hfetch]

/-- A step whose fetch raises an exception. -/
theorem step_fetch_exc {s t u : State} {e : Event} (hb : boundary s = .run t) (hf : fetchInstr t = .error (.exc e) u) :
    step s = raised e u := by
  simp only [step, hb, runNext, hf, finish, raised]

/-! ## Invalid operands -/

theorem M_bind_ok {α β : Type} {m : M α} {f : α → M β} {s t : State} {a : α} (h : m s = .ok a t) :
    (m >>= f) s = f a t := by rw [M_bind_apply, h]

theorem M_bind_error {α β : Type} {m : M α} {f : α → M β} {s t : State} {e : Err} (h : m s = .error e t) :
    (m >>= f) s = .error e t := by rw [M_bind_apply, h]

/-- The check that an instruction of protected mode only makes first. -/
theorem protectedOnly_exc {s : State} (hp : s.pe = false) :
    protectedOnly s = .error (.exc (faultOf 0x06#8)) s := by
  simp [protectedOnly, hp, faultOf]

/-- The general-detect fault (48_debug.md R648). -/
theorem generalDetect_exc {s : State} (hice : s.params.iceInUse = true) (hrf : s.flags.rf = false) :
    generalDetect s = .error (.exc (faultOf 0x01#8))
      { s with dbg := { s.dbg with dr6 := s.dbg.dr6 ||| 0x00002000#32 ||| s.codeOccurred.setWidth 32 } } := by
  simp [generalDetect, hice, hrf, faultOf, dr6BD]

theorem generalDetect_ok {s : State} (h : s.params.iceInUse = false ∨ s.flags.rf = true) :
    generalDetect s = .ok () s := by
  rcases h with h | h <;> simp [generalDetect, h]

section

variable {s : State} (hv : s.flags.vm = false)

include hv

/-- An instruction whose first check raises an exception. -/
theorem runInstr_check_exc {α : Type} {m : M α} {f : α → M Completion} {t : State} {e : Event}
    (h : m s = .error (.exc e) t) : runInstr (m >>= f) s = raised e t :=
  runInstr_exc hv (M_bind_error h)

/-- A privileged instruction at a level that may run it, after that check. -/
theorem runInstr_privileged {f : Unit → M Completion} (h : s.pe = true → s.cpl = 0#2) :
    runInstr (privileged >>= f) s = runInstr (f ()) s := by
  simp only [runInstr, hv, Bool.false_eq_true, if_false, M_bind_ok (privileged_ok h)]

/-- The instructions of protected mode only, in real-address mode (70_reset_and_hazards.md R813). -/
theorem exec_protectedOnly_real {c : Ctx} {r : Reg} {rm : RM Reg} {i : Instr} (hp : s.pe = false)
    (hi : i ∈ [.arpl c rm r, .lar c r rm, .lsl c r rm, .verr c rm, .verw c rm, .sldt c rm, .str c rm, .lldt c rm,
      .ltr c rm]) : exec i s = raised (faultOf 0x06#8) s := by
  simp only [List.mem_cons, List.not_mem_nil, or_false] at hi
  rcases hi with rfl | rfl | rfl | rfl | rfl | rfl | rfl | rfl | rfl <;>
    exact runInstr_check_exc hv (protectedOnly_exc hp)

/-- A register where memory is needed (30_encoding.md R250). -/
theorem exec_register_operand {c : Ctx} {r q : Reg} {i : Instr}
    (hi : i ∈ [.lds c r (.reg q), .les c r (.reg q), .lss c r (.reg q), .lfs c r (.reg q), .lgs c r (.reg q),
      .sgdt c (.reg q), .sidt c (.reg q), .jmpFarMem c (.reg q), .callFarMem c (.reg q), .bound c r (.reg q)]) :
    exec i s = raised (faultOf 0x06#8) s := by
  simp only [List.mem_cons, List.not_mem_nil, or_false] at hi
  rcases hi with rfl | rfl | rfl | rfl | rfl | rfl | rfl | rfl | rfl | rfl <;> exact runInstr_exc hv rfl

/-- A reg field that names no segment register (30_encoding.md R242). -/
theorem exec_no_segment_register {c : Ctx} {rm : RM Reg} {n : BitVec 3} {i : Instr} (hn : sregOf n = none)
    (hi : i = .movToSreg c n rm ∨ i = .movFromSreg c rm n) : exec i s = raised (faultOf 0x06#8) s := by
  rcases hi with rfl | rfl <;> exact runInstr_exc hv (by simp [hn, faultOf])

section

variable (hcpl : s.pe = true → s.cpl = 0#2)

include hcpl

/-- LGDT and LIDT of a register (30_encoding.md R250). -/
theorem exec_table_register_operand {c : Ctx} {q : Reg} {i : Instr}
    (hi : i ∈ [.lgdt c (.reg q), .lidt c (.reg q)]) : exec i s = raised (faultOf 0x06#8) s := by
  simp only [List.mem_cons, List.not_mem_nil, or_false] at hi
  rcases hi with rfl | rfl <;> exact (runInstr_privileged hv hcpl).trans (runInstr_exc hv rfl)

/-- A reg field that names no control register (43_system_registers.md R410). -/
theorem exec_no_control_register {c : Ctx} {r : Reg} {n : BitVec 3} {mb : BitVec 2} {i : Instr}
    (hn : n ∈ [1#3, 4#3, 5#3, 6#3, 7#3]) (hi : i = .movFromCr c r n mb ∨ i = .movToCr c n r mb) :
    exec i s = raised (faultOf 0x06#8) s := by
  simp only [List.mem_cons, List.not_mem_nil, or_false] at hn
  have hread : readControl n s = .error (.exc (faultOf 0x06#8)) s := by
    rcases hn with rfl | rfl | rfl | rfl | rfl <;> rfl
  have hwrite : ∀ v, writeControl n v s = .error (.exc (faultOf 0x06#8)) s := by
    rcases hn with rfl | rfl | rfl | rfl | rfl <;> exact fun _ => rfl
  rcases hi with rfl | rfl
  · exact (runInstr_privileged hv hcpl).trans (runInstr_check_exc hv hread)
  · exact (runInstr_privileged hv hcpl).trans (runInstr_check_exc hv (hwrite _))

/-- A reg field that names no test register (43_system_registers.md R414). -/
theorem exec_no_test_register {c : Ctx} {r : Reg} {n : BitVec 3} {mb : BitVec 2} {i : Instr}
    (hn : n ∈ [0#3, 1#3, 2#3, 3#3, 4#3, 5#3]) (hi : i = .movFromTr c r n mb ∨ i = .movToTr c n r mb) :
    exec i s = raised (faultOf 0x06#8) s := by
  simp only [List.mem_cons, List.not_mem_nil, or_false] at hn
  have hread : require (n = 6#3 || n = 7#3) raiseUD s = .error (.exc (faultOf 0x06#8)) s := by
    rcases hn with rfl | rfl | rfl | rfl | rfl | rfl <;> rfl
  have hwrite : ∀ v, writeTest n v s = .error (.exc (faultOf 0x06#8)) s := by
    rcases hn with rfl | rfl | rfl | rfl | rfl | rfl <;> exact fun _ => rfl
  rcases hi with rfl | rfl
  · exact (runInstr_privileged hv hcpl).trans (runInstr_check_exc hv hread)
  · exact (runInstr_privileged hv hcpl).trans (runInstr_check_exc hv (hwrite _))

/-- A MOV to or from a debug register that in-circuit emulation owns (48_debug.md R648). -/
theorem exec_debug_move_detected {c : Ctx} {r : Reg} {n : BitVec 3} {mb : BitVec 2} {i : Instr}
    (hi : i ∈ [.movFromDr c r n mb, .movToDr c n r mb]) (hice : s.params.iceInUse = true) (hrf : s.flags.rf = false) :
    exec i s = raised (faultOf 0x01#8)
      { s with dbg := { s.dbg with dr6 := s.dbg.dr6 ||| 0x00002000#32 ||| s.codeOccurred.setWidth 32 } } := by
  simp only [List.mem_cons, List.not_mem_nil, or_false] at hi
  rcases hi with rfl | rfl <;>
    exact (runInstr_privileged hv hcpl).trans (runInstr_check_exc hv (generalDetect_exc hice hrf))

/-- The reserved debug registers (48_debug.md R629). -/
theorem exec_reserved_debug_register {c : Ctx} {r : Reg} {n : BitVec 3} {mb : BitVec 2} {i : Instr}
    (hi : i ∈ [.movFromDr c r n mb, .movToDr c n r mb]) (hn : n ∈ [4#3, 5#3])
    (hfree : s.params.iceInUse = false ∨ s.flags.rf = true) : exec i s = .refused .reservedDebugRegister := by
  simp only [List.mem_cons, List.not_mem_nil, or_false] at hi hn
  have hread : readDebug n s = .error (.refusal .reservedDebugRegister) s := by rcases hn with rfl | rfl <;> rfl
  have hwrite : ∀ v, writeDebug n v s = .error (.refusal .reservedDebugRegister) s := by
    rcases hn with rfl | rfl <;> exact fun _ => rfl
  rcases hi with rfl | rfl
  · exact (runInstr_privileged hv hcpl).trans
      (runInstr_refusal hv ((M_bind_ok (generalDetect_ok hfree)).trans (M_bind_error hread)))
  · exact (runInstr_privileged hv hcpl).trans
      (runInstr_refusal hv ((M_bind_ok (generalDetect_ok hfree)).trans (M_bind_error (hwrite _))))

end

end

/-- Settles O57: the invalid opcode is found out by the fetch; every invalid operand or mode is met by one of the
instruction's first checks. -/
theorem invalidOperands : Obligations.InvalidOperands := by
  unfold Obligations.InvalidOperands
  refine ⟨?_, ?_⟩
  · intro s t bs op hb hp hv off place hbytes hmore hop
    refine step_fetch_exc hb (fetchInstr_invalid hv (fun k hk => ?_) hmore hop)
    obtain ⟨hs, hbyte, hfresh⟩ := hbytes k hk
    exact ⟨_, hbyte, fetchByte_flat hp hs hfresh⟩
  · intro c r rm q n mb i s hv
    refine ⟨?_, fun hi hcpl => ⟨exec_debug_move_detected hv hcpl hi, fun hfree hn =>
      exec_reserved_debug_register hv hcpl hi hn hfree⟩⟩
    rintro (⟨hp, hi⟩ | hi | rfl | ⟨hn, hi⟩ | ⟨hcpl, hi | ⟨hn, hi⟩ | ⟨hn, hi⟩⟩)
    · exact exec_protectedOnly_real hv hp hi
    · exact exec_register_operand hv hi
    · exact runInstr_exc hv rfl
    · have hsreg : ∀ n : BitVec 3, n ∈ [6#3, 7#3] → sregOf n = none := by decide
      exact exec_no_segment_register hv (hsreg n hn) hi
    · exact exec_table_register_operand hv hcpl hi
    · exact exec_no_control_register hv hcpl hn hi
    · exact exec_no_test_register hv hcpl hn hi

end Sys2Proof.Machine

namespace Sys2Proof.Machine

/-! ## The privileged instructions at an outer level (40_protection_and_segment_loads.md R311) -/

section

variable {s : State} (hv : s.flags.vm = false) (hp : s.pe = true) (hl : s.cpl ≠ 0#2)

include hv hp hl

/-- An instruction whose first check is that of its privilege. -/
theorem runInstr_privileged_exc {f : Unit → M Completion} :
    runInstr (privileged >>= f) s = raised (faultWith s 0x0D#8 0x0000#16) s.freed :=
  runInstr_check_exc hv (privileged_exc hp hl)

/-- An instruction of protected mode only, whose next check is that of its privilege. -/
theorem runInstr_protected_privileged_exc {f : Unit → M Completion} :
    runInstr (protectedOnly >>= fun _ => privileged >>= f) s = raised (faultWith s 0x0D#8 0x0000#16) s.freed :=
  runInstr_exc hv ((M_bind_ok (protectedOnly_ok hp)).trans (M_bind_error (privileged_exc hp hl)))

end

/-- Settles O56: the privilege check stands first, in LLDT and LTR after that of the mode. -/
theorem privilegedTraps : Obligations.PrivilegedTraps := by
  unfold Obligations.PrivilegedTraps
  intro c r rm n mb i s hi hv hp hl
  simp only [List.mem_cons, List.not_mem_nil, or_false] at hi
  rcases hi with rfl | rfl | rfl | rfl | rfl | rfl | rfl | rfl | rfl | rfl | rfl | rfl | rfl
  iterate 4 exact runInstr_privileged_exc hv hp hl
  iterate 2 exact runInstr_protected_privileged_exc hv hp hl
  all_goals exact runInstr_privileged_exc hv hp hl

end Sys2Proof.Machine

namespace Sys2Proof.Machine

/-! ## What only level 0 may change (40_protection_and_segment_loads.md R311)

The statement of isolation speaks of one part of the state. Everything but RESET and the bodies of the privileged
instructions leaves that part alone, whatever way it ends (`Confined`); and at an outer level a privileged instruction never
gets to its body. (The `keeps_` lemmas do not serve here: the properties that they are about may not depend on the test
registers, nor, above the accesses to memory, on anything but what `SameMode` compares.) -/

/-- What no step at an outer level may change; of CR0 every bit but TS. -/
structure SystemPart where
  gdtr : TableReg
  idtr : TableReg
  dr0 : Dword
  dr1 : Dword
  dr2 : Dword
  dr3 : Dword
  tr6 : Dword
  tr7 : Dword
  params : Params
  map : List MemRange
  cr0 : Dword

/-- That part of a state. -/
def State.system (s : State) : SystemPart :=
  { gdtr := s.gdtr, idtr := s.idtr, dr0 := s.dbg.dr0, dr1 := s.dbg.dr1, dr2 := s.dbg.dr2, dr3 := s.dbg.dr3,
    tr6 := s.tlb.tr6, tr7 := s.tlb.tr7, params := s.params, map := s.mem.map, cr0 := s.ctl.cr0 ||| 0x00000008#32 }

/-! ### The updates that leave it alone

An update of any other field leaves it alone by definition; so only those that go through memory or a case distinction need a
lemma. -/

@[simp] theorem State.advance_system (s : State) (c : Ctx) : (s.advance c).system = s.system := rfl

@[simp] theorem State.setZf_system (s : State) (b : Bool) : (s.setZf b).system = s.system := rfl

@[simp] theorem State.handOver_system (s : State) (e : CopEvent) : (s.handOver e).system = s.system := rfl

@[simp] theorem State.store_system (s : State) (st : Store) : (s.store st).system = s.system := by
  simp [State.system]

@[simp] theorem State.storeAll_system (s : State) (sts : List Store) : (s.storeAll sts).system = s.system := by
  unfold State.storeAll
  induction sts generalizing s with
  | nil => rfl
  | cons st r ih => rw [List.foldl_cons, ih, State.store_system]

@[simp] theorem State.load_system (s : State) (l : SegLoad) : (s.load l).system = s.system :=
  s.storeAll_system l.marks

@[simp] theorem State.setRegN_system (s : State) (r : Reg) (n : Nat) (v : Dword) :
    (s.setRegN r n v).system = s.system := by
  simp [State.system]

@[simp] theorem State.setAcc_system (s : State) (n : Nat) (v : Dword) : (s.setAcc n v).system = s.system := by
  simp [State.system]

@[simp] theorem State.moveUp_system (s : State) (k : Nat) : (s.moveUp k).system = s.system := by
  simp [State.system]

@[simp] theorem State.moveDown_system (s : State) (k : Nat) : (s.moveDown k).system = s.system := by
  simp [State.system]

@[simp] theorem State.bumpReg_system (s : State) (c : Ctx) (r : Reg) (v : Dword) :
    (s.bumpReg c r v).system = s.system := by
  simp [State.system]

@[simp] theorem State.inhibitAfter_system (s : State) (r : Sreg) : (s.inhibitAfter r).system = s.system := by
  simp [State.system]

@[simp] theorem State.complete_system (s : State) (tf : Bool) (k : Completion) : (s.complete tf k).system = s.system := by
  simp [State.system]

@[simp] theorem State.put_system (s : State) (p : Place) (n : Nat) (v : Dword) : (s.put p n v).system = s.system := by
  cases p with
  | reg r => exact s.setRegN_system r n v
  | mem sp => exact s.store_system _

theorem State.savedEip_system (s : State) (e : Event) : (s.savedEip e).system = s.system := by
  unfold State.savedEip
  split
  · rfl
  · rfl

@[simp] theorem Tlb.flush_tr6 (t : Tlb) : t.flush.tr6 = t.tr6 := rfl

@[simp] theorem Tlb.flush_tr7 (t : Tlb) : t.flush.tr7 = t.tr7 := rfl

/-- Forgetting a page's translations leaves the test registers. -/
theorem Tlb.forget_tests (t : Tlb) (page : BitVec 20) : (t.forget page).tr6 = t.tr6 ∧ (t.forget page).tr7 = t.tr7 := by
  unfold Tlb.forget
  induction t.hits page generalizing t with
  | nil => exact ⟨rfl, rfl⟩
  | cons b r ih => exact ih (t.invalidate b (tlbIndex page))

/-- Filling an entry leaves the test registers. -/
theorem Tlb.fill_tests (t : Tlb) (block : Option (BitVec 2)) (e : TlbEntry) :
    (t.fill block e).tr6 = t.tr6 ∧ (t.fill block e).tr7 = t.tr7 := by
  cases block with
  | none => exact ⟨rfl, rfl⟩
  | some b => exact ⟨rfl, rfl⟩

/-- Memory and the TLB may change, but for the platform's map and the test registers. -/
theorem system_of_paging {s : State} {m : PhysMem} {t : Tlb} (hm : m.map = s.mem.map)
    (ht : t.tr6 = s.tlb.tr6 ∧ t.tr7 = s.tlb.tr7) : State.system { s with mem := m, tlb := t } = s.system := by
  obtain ⟨h6, h7⟩ := ht
  simp [State.system, hm, h6, h7]

/-- A task switch sets TS and may flush the TLB (44_multitasking.md R470). -/
theorem State.enterTask_system (s : State) (kind : SwitchKind) (tsel : Word) (d : Descriptor) (image : List Byte) :
    (s.enterTask kind tsel d image).system = s.system := by
  simp [State.system, State.enterTask, DebugRegs.clearLocal, BitVec.or_assoc, apply_ite Tlb.tr6, apply_ite Tlb.tr7]

end Sys2Proof.Machine

namespace Sys2Proof.Machine

/-! ### Computations that leave it alone -/

/-- Whether it completes or stops, the computation leaves alone what only level 0 may change. -/
def Confined {α : Type} (m : M α) : Prop := ∀ x, Keeps (fun s => s.system = x) m

section Combinators

variable {α β : Type}

theorem confined_pure (a : α) : Confined (pure a) := fun _ => keeps_pure a

theorem confined_stop (e : Err) : Confined (stop e : M α) := fun _ => keeps_stop e

theorem confined_getState : Confined getState := fun _ => keeps_getState

theorem confined_update {f : State → State} (h : ∀ s, (f s).system = s.system) : Confined (update f) :=
  fun _ => keeps_update fun s hs => (h s).trans hs

theorem confined_bind {m : M α} {f : α → M β} (hm : Confined m) (hf : ∀ a, Confined (f a)) : Confined (m >>= f) :=
  fun x => keeps_bind (hm x) fun a => hf a x

theorem confined_ite {p : Prop} [Decidable p] {m n : M α} (hm : Confined m) (hn : Confined n) :
    Confined (if p then m else n) := fun x => keeps_ite (fun _ => hm x) fun _ => hn x

theorem confined_require {b : Bool} {m : M Unit} (h : Confined m) : Confined (require b m) :=
  fun x => keeps_require (h x)

/-- The last two lines of most instructions: the commit, and how the instruction ended. -/
theorem confined_commit {f : State → State} {a : α} (h : ∀ s, (f s).system = s.system) :
    Confined (update f >>= fun _ => pure a) := confined_bind (confined_update h) fun _ => confined_pure a

theorem confined_bind_pure {m : M α} {f : α → β} (h : Confined m) : Confined (m >>= fun a => pure (f a)) :=
  confined_bind h fun _ => confined_pure _

theorem confined_getState_pure {f : State → β} : Confined (getState >>= fun s => pure (f s)) :=
  confined_bind_pure confined_getState

end Combinators

section Accesses

variable {α : Type}

theorem confined_takeFree : Confined takeFree := fun _ _ hs => hs

theorem confined_raise (v : Byte) : Confined (raise v : M α) := confined_stop _

theorem confined_raiseCode (v : Byte) (c : Word) : Confined (raiseCode v c : M α) :=
  confined_bind confined_takeFree fun _ => confined_stop _

/-- A check that raises an exception with an error code. -/
theorem confined_check {b : Bool} {v : Byte} {c : Word} : Confined (require b (raiseCode v c)) :=
  confined_require (confined_raiseCode v c)

theorem confined_takeChoice : Confined takeChoice := by
  intro x s hs
  unfold KeepsAt takeChoice
  cases s.tlb.choices with
  | nil => exact hs
  | cons c r => exact hs

theorem confined_pageFault (la : Dword) (p w u : Bool) : Confined (pageFault la p w u : M α) :=
  confined_bind (confined_update fun _ => rfl) fun _ => confined_bind confined_takeFree fun _ => confined_stop _

theorem confined_walk (la : Dword) (w u : Bool) (b : Option (BitVec 2)) : Confined (walk la w u b) := by
  intro x
  refine keeps_getState_bind fun s hs => ?_
  refine keepsAt_ite (fun _ => confined_pageFault la false w u x s hs) fun _ => ?_
  refine keepsAt_ite (fun _ => hs) fun _ => ?_
  refine keepsAt_ite (fun _ => confined_pageFault la false w u x s hs) fun _ => ?_
  refine keepsAt_ite (fun _ => hs) fun _ => ?_
  refine keepsAt_ite (fun _ => confined_pageFault la true w u x s hs) fun _ => ?_
  exact (system_of_paging (ite_physWrite_map (ite_physWrite_map rfl)) (Tlb.fill_tests _ _ _)).trans hs

theorem confined_translatePage (la : Dword) (w u : Bool) : Confined (translatePage la w u) := by
  refine confined_bind confined_takeChoice fun c => confined_bind (confined_update fun s => ?_) fun _ =>
    confined_bind confined_getState fun s => ?_
  · split
    · exact system_of_paging (m := s.mem) rfl (Tlb.forget_tests _ _)
    · rfl
  · split
    · exact confined_walk la w u c.fill
    · refine confined_ite (confined_pageFault la true w u) (confined_ite ?_ (confined_pure _))
      exact confined_bind (confined_update fun _ => rfl) fun _ => confined_walk la w u c.fill
    · exact confined_stop _

theorem confined_translate (la : Dword) (n : Nat) (w u : Bool) : Confined (translate la n w u) := by
  refine confined_bind confined_getState fun s => confined_ite (confined_pure _) ?_
  refine confined_bind (confined_translatePage la w u) fun p => confined_ite (confined_pure _) ?_
  exact confined_bind_pure (confined_translatePage _ w u)

theorem confined_sysRead (la : Dword) (n : Nat) : Confined (sysRead la n) :=
  confined_bind_pure (confined_bind (confined_translate la n false false) fun _ => confined_getState_pure)

theorem confined_sysPrepare (la : Dword) (bs : List Byte) : Confined (sysPrepare la bs) :=
  confined_bind_pure (confined_translate la _ true false)

theorem confined_segCheck (r : Sreg) (off : Dword) (n : Nat) (k : Access) : Confined (segCheck r off n k) := by
  intro x s hs
  unfold KeepsAt
  rw [segCheck_eq]
  cases s.segOk r off n k with
  | true => exact hs
  | false => exact hs

theorem confined_noteAccess (r : Sreg) (off : Dword) (n : Nat) (k : Access) : Confined (noteAccess r off n k) :=
  confined_update fun _ => rfl

theorem confined_checkedSpan (r : Sreg) (off : Dword) (n : Nat) (k : Access) : Confined (checkedSpan r off n k) :=
  confined_bind (confined_segCheck r off n k) fun _ => confined_bind confined_getState fun _ => confined_translate _ _ _ _

theorem confined_operandSpan (r : Sreg) (off : Dword) (n : Nat) (k : Access) : Confined (operandSpan r off n k) :=
  confined_bind (confined_checkedSpan r off n k) fun _ => confined_bind_pure (confined_noteAccess r off n k)

theorem confined_memRead (r : Sreg) (off : Dword) (n : Nat) : Confined (memRead r off n) :=
  confined_bind_pure (confined_bind (confined_operandSpan r off n .read) fun _ => confined_getState_pure)

theorem confined_offsetAbove (r : Sreg) (off : Dword) (k : Nat) : Confined (offsetAbove r off k) :=
  confined_ite (confined_pure _) (confined_ite (confined_raiseCode _ _) (confined_raiseCode _ _))

theorem confined_memReadAbove (r : Sreg) (off : Dword) (k n : Nat) : Confined (memReadAbove r off k n) :=
  confined_bind (confined_offsetAbove r off k) fun _ => confined_memRead r _ n

theorem confined_memPrepare (r : Sreg) (off : Dword) (bs : List Byte) : Confined (memPrepare r off bs) :=
  confined_bind_pure (confined_operandSpan r off _ .write)

theorem confined_stackRead (k n : Nat) : Confined (stackRead k n) :=
  confined_bind confined_getState fun _ => confined_memRead .ss _ n

theorem confined_stackPrepare (k : Nat) (bs : List Byte) : Confined (stackPrepare k bs) :=
  confined_bind confined_getState fun _ => confined_memPrepare .ss _ bs

theorem confined_rmRead (c : Ctx) (rm : RM Reg) (n : Nat) : Confined (rmRead c rm n) := by
  refine confined_bind confined_getState fun _ => ?_
  cases rm with
  | reg r => exact confined_pure _
  | mem ea => exact confined_memRead _ _ n

theorem confined_rmRead16 (c : Ctx) (rm : RM Reg) : Confined (rmRead16 c rm) := confined_bind_pure (confined_rmRead c rm 2)

theorem confined_rmPlace (c : Ctx) (rm : RM Reg) (n : Nat) : Confined (rmPlace c rm n) := by
  refine confined_bind confined_getState fun _ => ?_
  cases rm with
  | reg r => exact confined_pure _
  | mem ea => exact confined_bind_pure (confined_operandSpan _ _ n .write)

theorem confined_readDescriptor (sel : Word) : Confined (readDescriptor sel) :=
  confined_bind confined_getState fun _ => confined_ite (confined_pure _) <|
    confined_bind (confined_sysRead _ 4) fun _ => confined_bind_pure (confined_sysRead _ 4)

theorem confined_needDescriptor (sel : Word) {m : M Descriptor} (hm : Confined m) : Confined (needDescriptor sel m) := by
  refine confined_bind (confined_readDescriptor sel) fun d => ?_
  cases d with
  | none => exact hm
  | some d => exact confined_pure _

theorem confined_markAccessed (d : Descriptor) : Confined (markAccessed d) :=
  confined_ite (confined_pure _) (confined_bind_pure (confined_sysPrepare _ _))

theorem confined_selectorSlot (n : Nat) (sel : Word) : Confined (selectorSlot n sel) :=
  confined_ite (confined_pure _) (confined_bind_pure confined_takeFree)

theorem confined_frameCheck (n : Nat) : Confined (frameCheck n) :=
  confined_bind confined_getState fun _ => confined_segCheck _ _ _ _

theorem confined_loadCode (d : Descriptor) (sel : Word) (cpl : BitVec 2) : Confined (loadCode d sel cpl) :=
  confined_bind_pure (confined_markAccessed d)

theorem confined_farPointer (c : Ctx) (rm : RM Reg) : Confined (farPointer c rm) := by
  cases rm with
  | reg r => exact confined_raise _
  | mem ea =>
    exact confined_bind confined_getState fun _ => confined_bind (confined_memRead _ _ _) fun _ =>
      confined_bind_pure (confined_memReadAbove _ _ _ _)

end Accesses

/-! ### Segment loads and selector tests -/

theorem confined_loadData (r : Sreg) (sel : Word) : Confined (loadData r sel) := by
  refine confined_bind confined_getState fun s => confined_ite (confined_pure _) ?_
  refine confined_bind (confined_needDescriptor sel (confined_raiseCode _ _)) fun d => ?_
  refine confined_ite (confined_raiseCode _ _) (confined_ite (confined_raiseCode _ _) ?_)
  refine confined_ite (confined_raiseCode _ _) (confined_ite (confined_raiseCode _ _) ?_)
  exact confined_bind_pure (confined_markAccessed d)

theorem confined_loadStack (sel : Word) : Confined (loadStack sel) := by
  refine confined_bind confined_getState fun s => confined_ite (confined_raiseCode _ _) ?_
  refine confined_bind (confined_needDescriptor sel (confined_raiseCode _ _)) fun d => ?_
  refine confined_ite (confined_raiseCode _ _) (confined_ite (confined_raiseCode _ _) ?_)
  exact confined_ite (confined_raiseCode _ _) (confined_bind_pure (confined_markAccessed d))

theorem confined_loadSeg (r : Sreg) (sel : Word) : Confined (loadSeg r sel) :=
  confined_bind confined_getState fun _ => confined_ite (confined_pure _) <|
    confined_ite (confined_loadStack sel) (confined_loadData r sel)

theorem confined_testMarks (d : Descriptor) : Confined (testMarks d) :=
  confined_bind confined_getState fun _ => confined_ite (confined_markAccessed d) (confined_pure _)

theorem confined_visible (sel : Word) : Confined (visible sel) := by
  refine confined_ite (confined_pure _) (confined_bind confined_getState fun s => ?_)
  refine confined_bind (confined_readDescriptor sel) fun d => ?_
  cases d with
  | none => exact confined_pure _
  | some d => exact confined_ite (confined_pure _) (confined_ite (confined_pure _) (confined_pure _))

theorem confined_protectedOnly : Confined protectedOnly :=
  confined_bind confined_getState fun _ => confined_require (confined_raise _)

theorem confined_arplBody (c : Ctx) (dst : RM Reg) (src : Reg) : Confined (arplBody c dst src) := by
  refine confined_bind confined_protectedOnly fun _ => confined_bind confined_getState fun s => ?_
  cases dst with
  | reg r => exact confined_ite (confined_commit fun _ => rfl) (confined_commit fun _ => rfl)
  | mem ea =>
    refine confined_bind (confined_checkedSpan _ _ _ _) fun sp => confined_bind (confined_noteAccess _ _ _ _) fun _ =>
      confined_bind confined_getState fun _ => confined_ite ?_ (confined_commit fun _ => rfl)
    exact confined_bind (confined_noteAccess _ _ _ _) fun _ => confined_commit fun t => by simp

theorem confined_rightsBody (c : Ctx) (dst : Reg) (src : RM Reg) (valid : Descriptor → Bool)
    {value : Descriptor → M Dword} (hv : ∀ d, Confined (value d)) : Confined (rightsBody c dst src valid value) := by
  refine confined_bind confined_protectedOnly fun _ => confined_bind (confined_rmRead16 c src) fun sel =>
    confined_bind (confined_visible sel) fun r => ?_
  cases r with
  | none => exact confined_commit fun _ => rfl
  | some d =>
    refine confined_ite ?_ (confined_commit fun _ => rfl)
    exact confined_bind (confined_testMarks d) fun _ => confined_bind (hv d) fun _ => confined_commit fun t => by simp

theorem confined_verifyBody (c : Ctx) (src : RM Reg) (ok : Descriptor → Bool) : Confined (verifyBody c src ok) := by
  refine confined_bind confined_protectedOnly fun _ => confined_bind (confined_rmRead16 c src) fun sel =>
    confined_bind (confined_visible sel) fun r => ?_
  cases r with
  | none => exact confined_commit fun _ => rfl
  | some d =>
    refine confined_ite ?_ (confined_commit fun _ => rfl)
    exact confined_bind (confined_testMarks d) fun _ => confined_commit fun t => by simp

end Sys2Proof.Machine

namespace Sys2Proof.Machine

/-! ### The unprivileged instructions within a task -/

theorem confined_storeSelector (c : Ctx) (dst : RM Reg) (sel : Word) : Confined (storeSelector c dst sel) := by
  refine confined_bind (confined_rmPlace c dst 2) fun p => ?_
  cases p with
  | mem sp => exact confined_update fun t => t.put_system _ _ _
  | reg r =>
    exact confined_ite (confined_bind confined_takeFree fun _ => confined_update fun _ => rfl) (confined_update fun _ => rfl)

theorem confined_storeTable (c : Ctx) (dst : RM Reg) (g : TableReg) : Confined (storeTable c dst g) := by
  cases dst with
  | reg r => exact confined_raise _
  | mem ea =>
    refine confined_bind confined_getState fun s => confined_bind (confined_memPrepare _ _ _) fun _ => ?_
    refine confined_bind (confined_offsetAbove _ _ _) fun _ => confined_bind (confined_memPrepare _ _ _) fun _ => ?_
    exact confined_commit fun t => by simp

theorem confined_pushSreg (c : Ctx) (r : Sreg) : Confined (pushSreg c r) :=
  confined_bind confined_getState fun _ => confined_bind (confined_operandSpan _ _ _ _) fun _ =>
    confined_bind (confined_selectorSlot _ _) fun _ => confined_commit fun t => by simp

theorem confined_popSreg (c : Ctx) (r : Sreg) : Confined (popSreg c r) :=
  confined_bind (confined_stackRead _ _) fun _ => confined_bind (confined_loadSeg r _) fun _ =>
    confined_commit fun t => by simp

theorem confined_loadPointer (c : Ctx) (r : Sreg) (dst : Reg) (src : RM Reg) : Confined (loadPointer c r dst src) := by
  cases src with
  | reg q => exact confined_raise _
  | mem ea =>
    refine confined_bind confined_getState fun s => confined_bind (confined_memRead _ _ _) fun _ => ?_
    refine confined_bind (confined_memReadAbove _ _ _ _) fun _ => confined_bind (confined_loadSeg r _) fun _ => ?_
    exact confined_commit fun t => by simp

theorem confined_nearTarget (target : Dword) : Confined (nearTarget target) := confined_segCheck _ _ _ _

theorem confined_nearJump (target : Dword) : Confined (nearJump target) :=
  confined_bind (confined_nearTarget target) fun _ => confined_commit fun _ => rfl

theorem confined_nearCall (c : Ctx) (target : Dword) : Confined (nearCall c target) :=
  confined_bind (confined_nearTarget target) fun _ => confined_bind confined_getState fun _ =>
    confined_bind (confined_stackPrepare _ _) fun st => confined_commit fun t =>
      ((t.store st).moveDown_system c.opBytes).trans (t.store_system st)

theorem confined_nearReturn (c : Ctx) (extra : Nat) : Confined (nearReturn c extra) :=
  confined_bind (confined_stackRead _ _) fun _ => confined_bind (confined_nearTarget _) fun _ =>
    confined_commit fun t => t.moveUp_system _

theorem confined_ioMapBits (base port n : Nat) : Confined (ioMapBits base port n) := by
  induction n generalizing port with
  | zero => exact confined_pure ()
  | succ n ih =>
    exact confined_bind confined_getState fun _ => confined_bind confined_check fun _ =>
      confined_bind (confined_sysRead _ 1) fun _ => confined_bind confined_check fun _ => ih _

theorem confined_ioPermit (port : Word) (n : Nat) : Confined (ioPermit port n) := by
  refine confined_bind confined_getState fun _ => confined_ite (confined_pure _) (confined_ite (confined_pure _) ?_)
  exact confined_bind confined_check fun _ => confined_bind (confined_sysRead _ 2) fun _ =>
    confined_bind confined_check fun _ => confined_ioMapBits _ _ _

theorem confined_ioSpace (port : Word) (n : Nat) : Confined (ioSpace port n) := confined_require (confined_stop _)

theorem confined_ioRead (port : Word) (n : Nat) : Confined (ioRead port n) := by
  refine confined_bind (confined_ioSpace port n) fun _ => confined_bind confined_getState fun s => ?_
  split
  · exact confined_bind (confined_update fun _ => rfl) fun _ => confined_bind (confined_pure _) fun _ =>
      confined_commit fun _ => rfl
  · exact confined_bind confined_takeFree fun _ => confined_bind (confined_pure _) fun _ => confined_commit fun _ => rfl

theorem confined_ioWrite (port : Word) (n : Nat) (v : Dword) : Confined (ioWrite port n v) :=
  confined_bind (confined_ioSpace port n) fun _ => confined_update fun _ => rfl

theorem confined_inBody (c : Ctx) (port : Word) (n : Nat) : Confined (inBody c port n) :=
  confined_bind (confined_ioPermit port n) fun _ => confined_bind (confined_ioRead port n) fun _ =>
    confined_commit fun t => by simp

theorem confined_outBody (c : Ctx) (port : Word) (n : Nat) : Confined (outBody c port n) :=
  confined_bind (confined_ioPermit port n) fun _ => confined_bind confined_getState fun _ =>
    confined_bind (confined_ioWrite port n _) fun _ => confined_commit fun _ => rfl

theorem confined_notVirtual : Confined notVirtual :=
  confined_bind confined_getState fun _ => confined_require (confined_stop _)

theorem confined_insStep (c : Ctx) (n : Nat) : Confined (insStep c n) :=
  confined_bind confined_getState fun _ => confined_bind (confined_ioPermit _ n) fun _ =>
    confined_bind confined_notVirtual fun _ => confined_bind (confined_operandSpan _ _ _ _) fun _ =>
      confined_bind (confined_ioRead _ n) fun _ => confined_update fun t => by simp

theorem confined_outsStep (c : Ctx) (n : Nat) : Confined (outsStep c n) :=
  confined_bind confined_getState fun _ => confined_bind (confined_ioPermit _ n) fun _ =>
    confined_bind confined_notVirtual fun _ => confined_bind (confined_memRead _ _ _) fun _ =>
      confined_bind (confined_ioWrite _ n _) fun _ => confined_update fun t => by simp

theorem confined_stringOnce (c : Ctx) {stepOnce : M Unit} (h : Confined stepOnce) : Confined (stringOnce c stepOnce) :=
  confined_bind h fun _ => confined_commit fun _ => rfl

theorem confined_repeated (c : Ctx) {stepOnce : M Unit} (h : Confined stepOnce) : Confined (repeated c stepOnce) := by
  refine confined_bind confined_getState fun s => confined_ite ?_ ?_
  · exact confined_bind confined_notVirtual fun _ => confined_commit fun _ => rfl
  · refine confined_bind h fun _ => confined_bind (confined_update fun t => by simp) fun _ => ?_
    exact confined_ite (confined_commit fun _ => rfl) (confined_pure _)

/-! ### The coprocessor's operand -/

theorem confined_wrappedByte (r : Sreg) (off k : Nat) (a : Access) : Confined (wrappedByte r off k a) :=
  confined_bind confined_getState fun _ => confined_bind (confined_segCheck _ _ _ _) fun _ =>
    confined_bind (confined_translate _ _ _ _) fun _ => confined_bind_pure (confined_noteAccess _ _ _ _)

/-- Putting the control registers back changes nothing of the part either: CR0 had kept it. -/
theorem confined_asOverrun {α : Type} {m : M α} (h : Confined m) : Confined (asOverrun m) := by
  intro x s hs
  have kept := h x s hs
  unfold KeepsAt at kept ⊢
  unfold asOverrun
  match hm : m s with
  | .ok a t => rw [hm] at kept; exact kept
  | .error (.fault f) t => rw [hm] at kept; exact kept
  | .error (.refusal f) t => rw [hm] at kept; exact kept
  | .error (.exc e) t =>
    rw [hm] at kept
    replace kept : t.system = x := kept
    calc State.system { t with ctl := s.ctl } = { t.system with cr0 := s.system.cr0 } := rfl
      _ = x := by rw [kept, hs]

theorem confined_wrappedMiddle (r : Sreg) (off : Nat) (a : Access) (k n : Nat) :
    Confined (wrappedMiddle r off a k n) := by
  induction n generalizing k with
  | zero => exact confined_pure _
  | succ n ih =>
    exact confined_bind (confined_asOverrun (confined_wrappedByte r off k a)) fun _ => confined_bind_pure (ih _)

theorem confined_wrappedSpans (r : Sreg) (off n : Nat) (a : Access) : Confined (wrappedSpans r off n a) :=
  confined_bind (confined_wrappedByte _ _ _ _) fun _ => confined_bind (confined_wrappedByte _ _ _ _) fun _ =>
    confined_bind_pure (confined_wrappedMiddle _ _ _ _ _)

theorem confined_copData (n : Nat) (bs : List Byte) : Confined (copData n bs) := by
  induction n generalizing bs with
  | zero => exact confined_pure _
  | succ n ih =>
    cases bs with
    | nil => exact confined_bind confined_takeFree fun _ => confined_bind_pure (ih _)
    | cons b r => exact confined_bind_pure (ih _)

theorem confined_copTransfer (r : Sreg) (off : Dword) (reply : CopReply) : Confined (copTransfer r off reply) := by
  refine confined_bind confined_getState fun s => confined_ite ?_ ?_
  · refine confined_bind (confined_wrappedSpans _ _ _ _) fun _ => confined_bind confined_getState fun _ => ?_
    exact confined_ite (confined_bind_pure (confined_copData _ _)) (confined_pure _)
  · refine confined_bind (confined_operandSpan _ _ _ _) fun _ => confined_bind confined_getState fun _ => ?_
    exact confined_ite (confined_bind_pure (confined_copData _ _)) (confined_pure _)

theorem confined_escBody (c : Ctx) (op reg : BitVec 3) (rm : RM Reg) : Confined (escBody c op reg rm) := by
  refine confined_bind confined_getState fun s => confined_bind (confined_require (confined_raise _)) fun _ => ?_
  refine confined_ite (confined_stop _) (confined_bind (confined_require (confined_raise _)) fun _ => ?_)
  cases rm with
  | reg r => exact confined_commit fun _ => rfl
  | mem ea => exact confined_bind (confined_copTransfer _ _ _) fun _ => confined_commit fun t => by simp

theorem confined_xchgByteBody (c : Ctx) (rm : RM Reg8) (r : Reg8) : Confined (xchgByteBody c rm r) := by
  refine confined_bind confined_getState fun s => ?_
  cases rm with
  | reg q => exact confined_commit fun _ => rfl
  | mem ea =>
    exact confined_bind (confined_operandSpan _ _ _ _) fun _ => confined_bind confined_getState fun _ =>
      confined_commit fun t => t.store_system _

theorem confined_xchgBody (c : Ctx) (rm : RM Reg) (r : Reg) : Confined (xchgBody c rm r) := by
  refine confined_bind confined_getState fun s => ?_
  cases rm with
  | reg q => exact confined_commit fun t => by simp
  | mem ea =>
    exact confined_bind (confined_operandSpan _ _ _ _) fun _ => confined_bind confined_getState fun _ =>
      confined_commit fun t => by simp

/-! ### The task switch -/

theorem confined_incomingTss (kind : SwitchKind) (tsel : Word) (ext : Bool) : Confined (incomingTss kind tsel ext) := by
  have bad : Confined (if kind = .iret then raiseTS (selErr tsel ext) else raiseGP (selErr tsel ext) : M Descriptor) :=
    confined_ite (confined_raiseCode _ _) (confined_raiseCode _ _)
  refine confined_ite bad (confined_bind (confined_needDescriptor tsel bad) fun d => ?_)
  refine confined_ite (confined_stop _) (confined_ite bad (confined_ite (confined_raiseCode _ _) ?_))
  refine confined_ite (confined_raiseCode _ _) (confined_ite (confined_raiseCode _ _) ?_)
  exact confined_ite (confined_raiseCode _ _) (confined_pure _)

theorem confined_saveTask (nextEip flags : Dword) : Confined (saveTask nextEip flags) :=
  confined_bind confined_getState fun _ => confined_bind (confined_sysPrepare _ _) fun _ =>
    confined_bind (confined_sysPrepare _ _) fun _ => confined_bind (confined_sysPrepare _ _) fun _ =>
      confined_bind (confined_sysPrepare _ _) fun _ => confined_bind (confined_sysPrepare _ _) fun _ =>
        confined_bind (confined_sysPrepare _ _) fun _ => confined_bind_pure (confined_sysPrepare _ _)

theorem confined_clearBusy (kind : SwitchKind) : Confined (clearBusy kind) := by
  refine confined_bind confined_getState fun s => confined_ite ?_ (confined_pure _)
  exact confined_bind (confined_sysRead _ _) fun _ =>
    confined_ite (confined_bind_pure (confined_sysPrepare _ _)) (confined_pure _)

theorem confined_setBusy (kind : SwitchKind) (d : Descriptor) : Confined (setBusy kind d) :=
  confined_ite (confined_pure _) (confined_bind_pure (confined_sysPrepare _ _))

theorem confined_linkBack (kind : SwitchKind) (base : Dword) : Confined (linkBack kind base) :=
  confined_bind confined_getState fun _ => confined_ite (confined_bind_pure (confined_sysPrepare _ _)) (confined_pure _)

theorem confined_acceptSeg (r : Sreg) (d : Descriptor) (sel : Word) : Confined (acceptSeg r d sel) :=
  confined_bind (confined_markAccessed d) fun _ => confined_update fun t => t.load_system _

theorem confined_taskLdt (ext : Bool) : Confined (taskLdt ext) := by
  refine confined_bind confined_getState fun s => confined_ite (confined_pure _) (confined_ite (confined_raiseCode _ _) ?_)
  refine confined_bind (confined_needDescriptor _ (confined_raiseCode _ _)) fun d => ?_
  exact confined_ite (confined_raiseCode _ _) (confined_ite (confined_raiseCode _ _) (confined_update fun _ => rfl))

theorem confined_taskCs (ext : Bool) : Confined (taskCs ext) := by
  refine confined_bind confined_getState fun s => confined_ite (confined_raiseCode _ _) ?_
  refine confined_bind (confined_needDescriptor _ (confined_raiseCode _ _)) fun d => ?_
  refine confined_ite (confined_raiseCode _ _) (confined_ite (confined_raiseCode _ _) ?_)
  exact confined_ite (confined_raiseCode _ _) (confined_ite (confined_raiseCode _ _) (confined_acceptSeg _ _ _))

theorem confined_taskSs (ext : Bool) : Confined (taskSs ext) := by
  refine confined_bind confined_getState fun s => confined_ite (confined_raiseCode _ _) ?_
  refine confined_bind (confined_needDescriptor _ (confined_raiseCode _ _)) fun d => ?_
  refine confined_ite (confined_raiseCode _ _) (confined_ite (confined_raiseCode _ _) ?_)
  exact confined_ite (confined_raiseCode _ _) (confined_ite (confined_raiseCode _ _) (confined_acceptSeg _ _ _))

theorem confined_taskData (r : Sreg) (ext : Bool) : Confined (taskData r ext) := by
  refine confined_bind confined_getState fun s => confined_ite (confined_pure _) ?_
  refine confined_bind (confined_needDescriptor _ (confined_raiseCode _ _)) fun d => ?_
  refine confined_ite (confined_raiseCode _ _) (confined_ite (confined_raiseCode _ _) ?_)
  exact confined_ite (confined_raiseCode _ _) (confined_acceptSeg _ _ _)

theorem confined_taskTests (ext : Bool) : Confined (taskTests ext) :=
  confined_bind (confined_taskLdt ext) fun _ => confined_bind (confined_taskCs ext) fun _ =>
    confined_bind (confined_taskSs ext) fun _ => confined_bind (confined_taskData _ ext) fun _ =>
      confined_bind (confined_taskData _ ext) fun _ => confined_bind (confined_taskData _ ext) fun _ =>
        confined_taskData _ ext

theorem confined_taskSwitch (kind : SwitchKind) (tsel : Word) (ext : Bool) (nextEip flags : Dword) :
    Confined (taskSwitch kind tsel ext nextEip flags) := by
  refine confined_bind (confined_incomingTss _ _ _) fun d => confined_bind (confined_saveTask _ _) fun save => ?_
  refine confined_bind (confined_clearBusy _) fun clear => confined_bind (confined_setBusy _ _) fun set => ?_
  refine confined_bind (confined_linkBack _ _) fun link => confined_bind (confined_translate _ _ _ _) fun span => ?_
  refine confined_bind (confined_update fun t => t.storeAll_system _) fun _ => confined_bind confined_getState fun s => ?_
  refine confined_bind (confined_update fun t => t.enterTask_system _ _ _ _) fun _ => ?_
  refine confined_bind confined_getState fun _ => confined_ite (confined_stop _) ?_
  exact confined_bind (confined_taskTests ext) fun _ => confined_ite (confined_update fun _ => rfl) (confined_pure _)

/-! ### Far transfers and returns -/

theorem confined_pushReturn (n : Nat) (eip : Dword) : Confined (pushReturn n eip) :=
  confined_bind confined_getState fun _ => confined_bind (confined_operandSpan _ _ _ _) fun _ =>
    confined_bind (confined_stackPrepare _ _) fun _ => confined_bind_pure (confined_selectorSlot _ _)

theorem confined_farReal (kind : FarKind) (sel : Word) (off : Dword) : Confined (farReal kind sel off) := by
  cases kind with
  | jmp => exact confined_update fun _ => rfl
  | call n ret =>
    exact confined_bind (confined_pushReturn n ret) fun pushes => confined_update fun t =>
      ((t.storeAll pushes).moveDown_system (2 * n)).trans (t.storeAll_system pushes)

theorem State.loadCs_system (s : State) (l : SegLoad) (cpl : BitVec 2) : (s.loadCs l cpl).system = s.system :=
  s.load_system l

theorem confined_transferSame (kind : FarKind) (d : Descriptor) (sel : Word) (off : Dword) :
    Confined (transferSame kind d sel off) := by
  refine confined_bind confined_check fun _ => confined_bind confined_getState fun s => ?_
  cases kind with
  | jmp => exact confined_bind (confined_loadCode _ _ _) fun l => confined_update fun t => t.loadCs_system l s.cpl
  | call n ret =>
    refine confined_bind (confined_pushReturn n ret) fun pushes => confined_bind (confined_loadCode _ _ _) fun l => ?_
    refine confined_update fun t => ?_
    calc _ = (((t.storeAll pushes).moveDown (2 * n)).loadCs l s.cpl).system := rfl
      _ = t.system := by simp [State.loadCs_system]

theorem confined_innerStack (n : BitVec 2) (ext : Bool) : Confined (innerStack n ext) :=
  confined_bind confined_getState fun _ => confined_bind confined_check fun _ =>
    confined_bind (confined_sysRead _ 4) fun _ => confined_bind_pure (confined_sysRead _ 2)

theorem confined_innerStackSeg (nss : Word) (n : BitVec 2) (ext : Bool) {wrongDpl : M Unit} (hw : Confined wrongDpl) :
    Confined (innerStackSeg nss n ext wrongDpl) :=
  confined_bind confined_check fun _ => confined_bind (confined_needDescriptor nss (confined_raiseCode _ _)) fun _ =>
    confined_bind confined_check fun _ => confined_bind confined_check fun _ =>
      confined_bind (confined_require hw) fun _ => confined_bind_pure confined_check

theorem confined_innerPushes (g : SegReg) (top : Dword) (l : List (List Byte)) : Confined (innerPushes g top l) := by
  induction l generalizing top with
  | nil => exact confined_pure _
  | cons b r ih =>
    exact confined_bind (confined_translate _ _ _ _) fun _ => confined_bind (confined_update fun _ => rfl) fun _ =>
      confined_bind_pure (ih _)

theorem confined_readParams (i n : Nat) : Confined (readParams i n) := by
  induction n generalizing i with
  | zero => exact confined_pure _
  | succ n ih =>
    exact confined_bind confined_getState fun _ => confined_bind (confined_memReadAbove _ _ _ 4) fun _ =>
      confined_bind_pure (ih _)

/-- The commit of a transfer to an inner level. -/
theorem enterInner_system (t : State) (ss cs : SegLoad) (n : BitVec 2) (pushes : List Store) :
    (((t.load ss).loadCs cs n).storeAll pushes).system = t.system := by
  simp [State.loadCs_system]

theorem confined_interlevelCall (d : Descriptor) (tsel : Word) (off : Dword) (count : Nat) (ret : Dword) :
    Confined (interlevelCall d tsel off count ret) := by
  refine confined_bind (confined_innerStack _ _) fun (nesp, nss) => ?_
  refine confined_bind (confined_innerStackSeg _ _ _ (confined_raiseCode _ _)) fun sd => ?_
  refine confined_bind confined_check fun _ => confined_bind confined_check fun _ => ?_
  refine confined_bind (confined_readParams _ _) fun params => confined_bind confined_getState fun s => ?_
  refine confined_bind (confined_selectorSlot _ _) fun oldSs => confined_bind (confined_selectorSlot _ _) fun oldCs => ?_
  refine confined_bind (confined_markAccessed _) fun marks => confined_bind (confined_loadCode _ _ _) fun l => ?_
  exact confined_bind (confined_innerPushes _ _ _) fun pushes => confined_update fun t => enterInner_system t _ l _ pushes

theorem confined_gateTransfer (kind : FarKind) (gate : Descriptor) (gsel : Word) :
    Confined (gateTransfer kind gate gsel) := by
  refine confined_bind confined_getState fun s => confined_bind confined_check fun _ => ?_
  refine confined_bind confined_check fun _ => confined_bind confined_check fun _ => ?_
  refine confined_bind (confined_needDescriptor _ (confined_raiseCode _ _)) fun g => ?_
  refine confined_bind confined_check fun _ => confined_bind confined_check fun _ => ?_
  refine confined_bind confined_check fun _ => confined_bind confined_check fun _ => ?_
  cases kind with
  | jmp => exact confined_transferSame _ _ _ _
  | call n ret => exact confined_ite (confined_interlevelCall _ _ _ _ _) (confined_transferSame _ _ _ _)

theorem confined_farProtected (kind : FarKind) (sel : Word) (off next : Dword) :
    Confined (farProtected kind sel off next) := by
  refine confined_bind confined_getState fun s => confined_bind confined_check fun _ => ?_
  refine confined_bind (confined_needDescriptor _ (confined_raiseCode _ _)) fun d => ?_
  refine confined_ite ?segment (confined_ite ?callGate (confined_ite ?taskGate (confined_ite ?tss ?other)))
  case segment =>
    refine confined_bind confined_check fun _ => confined_bind confined_check fun _ => ?_
    refine confined_bind confined_check fun _ => confined_bind confined_check fun _ => ?_
    exact confined_bind_pure (confined_transferSame _ _ _ _)
  case callGate => exact confined_bind_pure (confined_gateTransfer _ _ _)
  case taskGate =>
    exact confined_bind confined_check fun _ => confined_bind confined_check fun _ =>
      confined_bind_pure (confined_taskSwitch _ _ _ _ _)
  case tss => exact confined_bind confined_check fun _ => confined_bind_pure (confined_taskSwitch _ _ _ _ _)
  case other => exact confined_ite (confined_stop _) (confined_raiseCode _ _)

theorem confined_farTransfer (kind : FarKind) (sel : Word) (off next : Dword) :
    Confined (farTransfer kind sel off next) := by
  refine confined_bind confined_getState fun s => ?_
  split
  · exact confined_bind (confined_farProtected _ _ _ _) fun _ => confined_commit fun _ => rfl
  · exact confined_bind (confined_farReal _ _ _) fun _ => confined_bind (confined_pure _) fun _ =>
      confined_commit fun _ => rfl

theorem confined_farJump (c : Ctx) (sel : Word) (off : Dword) : Confined (farJump c sel off) :=
  confined_bind confined_getState fun _ => confined_bind_pure (confined_farTransfer _ _ _ _)

theorem confined_farCall (c : Ctx) (sel : Word) (off : Dword) : Confined (farCall c sel off) :=
  confined_bind confined_getState fun _ => confined_bind_pure (confined_farTransfer _ _ _ _)

theorem confined_returnCode (ncs : Word) : Confined (returnCode ncs) :=
  confined_bind confined_getState fun _ => confined_bind confined_check fun _ => confined_bind confined_check fun _ =>
    confined_bind (confined_needDescriptor ncs (confined_raiseCode _ _)) fun _ => confined_bind confined_check fun _ =>
      confined_bind confined_check fun _ => confined_bind confined_check fun _ => confined_bind_pure confined_check

theorem confined_returnStack (nss : Word) (level : BitVec 2) : Confined (returnStack nss level) :=
  confined_bind confined_check fun _ => confined_bind (confined_needDescriptor nss (confined_raiseCode _ _)) fun _ =>
    confined_bind confined_check fun _ => confined_bind confined_check fun _ => confined_bind confined_check fun _ =>
      confined_bind_pure confined_check

theorem confined_returnProtected (n frame skip extra : Nat) (neip : Dword) (ncs : Word) {flags : State → State}
    (hf : ∀ t, (flags t).system = t.system) : Confined (returnProtected n frame skip extra neip ncs flags) := by
  refine confined_bind confined_getState fun s => confined_bind (confined_returnCode ncs) fun d => confined_ite ?_ ?_
  · refine confined_bind confined_check fun _ => confined_bind (confined_loadCode _ _ _) fun l => ?_
    refine confined_update fun t => (hf _).trans ?_
    exact ((t.moveUp (frame + extra)).loadCs_system l (selRpl ncs)).trans (t.moveUp_system _)
  · refine confined_bind (confined_frameCheck _) fun _ => confined_bind (confined_stackRead _ _) fun vsp => ?_
    refine confined_bind (confined_stackRead _ _) fun nss => confined_bind (confined_returnStack _ _) fun sd => ?_
    refine confined_bind confined_check fun _ => confined_bind (confined_loadCode _ _ _) fun l => ?_
    refine confined_bind (confined_markAccessed _) fun marks => confined_update fun t => (hf _).trans ?_
    exact ((t.loadCs l (selRpl ncs)).load_system ⟨.ss, sd.segReg (lowWord nss), marks⟩).trans (t.loadCs_system l _)

theorem confined_farReturn (n extra : Nat) : Confined (farReturn n extra) := by
  refine confined_bind confined_getState fun s => confined_bind (confined_frameCheck _) fun _ => ?_
  refine confined_bind (confined_stackRead _ _) fun neip => confined_bind (confined_stackRead _ _) fun vcs => ?_
  exact confined_ite (confined_returnProtected _ _ _ _ _ _ fun _ => rfl) (confined_update fun t => t.moveUp_system _)

theorem confined_returnFromInterrupt (n : Nat) (next : Dword) : Confined (returnFromInterrupt n next) := by
  have unmask : Confined (update State.unmaskNmi) := confined_update fun _ => rfl
  refine confined_bind confined_getState fun s => ?_
  split
  · exact confined_bind (confined_sysRead _ _) fun _ => confined_bind (confined_taskSwitch _ _ _ _ _) fun _ => unmask
  · refine confined_bind (confined_frameCheck _) fun _ => confined_bind (confined_stackRead _ _) fun neip => ?_
    refine confined_bind (confined_stackRead _ _) fun vcs => confined_bind (confined_stackRead _ _) fun image => ?_
    split
    · refine confined_bind (confined_returnProtected _ _ _ _ _ _ fun _ => rfl) fun _ => ?_
      split
      · exact confined_bind (confined_stop _) fun _ => unmask
      · exact unmask
    · exact confined_bind (confined_update fun t => t.moveUp_system _) fun _ => unmask

/-! ### The delivery of an event -/

theorem confined_handlerCode (e : Event) (gate : Descriptor) : Confined (handlerCode e gate) :=
  confined_bind confined_getState fun _ => confined_bind confined_check fun _ =>
    confined_bind (confined_needDescriptor _ (confined_raiseCode _ _)) fun _ => confined_bind confined_check fun _ =>
      confined_bind confined_check fun _ => confined_bind_pure confined_check

theorem confined_pushAll (k : Nat) (l : List (List Byte)) : Confined (pushAll k l) := by
  induction l generalizing k with
  | nil => exact confined_pure _
  | cons b r ih => exact confined_bind (confined_stackPrepare _ b) fun _ => confined_bind_pure (ih _)

theorem confined_deliverInner (e : Event) (gate d : Descriptor) : Confined (deliverInner e gate d) := by
  refine confined_bind confined_getState fun s => confined_bind (confined_innerStack _ _) fun (nesp, nss) => ?_
  refine confined_bind (confined_innerStackSeg _ _ _ (confined_raiseCode _ _)) fun sd => ?_
  refine confined_bind confined_check fun _ => confined_bind confined_check fun _ => ?_
  refine confined_bind (confined_selectorSlot _ _) fun oldSs => confined_bind (confined_selectorSlot _ _) fun oldCs => ?_
  refine confined_bind (confined_markAccessed _) fun marks => confined_bind (confined_loadCode _ _ _) fun l => ?_
  exact confined_bind (confined_innerPushes _ _ _) fun pushes => confined_update fun t => enterInner_system t _ l _ pushes

theorem confined_deliverSame (e : Event) (gate d : Descriptor) : Confined (deliverSame e gate d) := by
  refine confined_bind confined_getState fun s => confined_bind confined_check fun _ => ?_
  refine confined_bind confined_check fun _ => confined_bind (confined_selectorSlot _ _) fun oldCs => ?_
  refine confined_bind (confined_pushAll _ _) fun pushes => confined_bind (confined_loadCode _ _ _) fun l => ?_
  refine confined_update fun t => ?_
  calc _ = (((t.storeAll pushes).moveDown _).loadCs l s.cpl).system := rfl
    _ = t.system := by simp [State.loadCs_system]

theorem confined_deliverTask (e : Event) (gate : Descriptor) : Confined (deliverTask e gate) := by
  refine confined_bind confined_getState fun s => confined_bind (confined_taskSwitch _ _ _ _ _) fun _ => ?_
  cases e.code with
  | none => exact confined_pure _
  | some c => exact confined_bind (confined_stackPrepare _ _) fun st => confined_update fun t => by simp

theorem confined_deliverProtected (e : Event) : Confined (deliverProtected e) := by
  refine confined_bind confined_getState fun s => confined_bind confined_check fun _ => ?_
  refine confined_bind (confined_sysRead _ _) fun lo => confined_bind (confined_sysRead _ _) fun hi => ?_
  refine confined_ite (confined_stop _) (confined_bind confined_check fun _ => ?_)
  refine confined_bind confined_check fun _ => confined_bind confined_check fun _ => ?_
  refine confined_ite (confined_deliverTask e _) (confined_bind (confined_handlerCode e _) fun d => ?_)
  exact confined_ite (confined_deliverInner e _ d) (confined_deliverSame e _ d)

theorem confined_deliverReal (e : Event) : Confined (deliverReal e) := by
  refine confined_bind confined_getState fun s => confined_bind confined_check fun _ => ?_
  refine confined_bind (confined_sysRead _ _) fun entry => confined_bind (confined_stackPrepare _ _) fun a => ?_
  refine confined_bind (confined_stackPrepare _ _) fun b => confined_bind (confined_stackPrepare _ _) fun c => ?_
  exact confined_update fun t => ((t.storeAll [a, b, c]).moveDown_system 6).trans (t.storeAll_system [a, b, c])

theorem confined_orVirtual {α : Type} {m : M α} (h : Confined m) : Confined (orVirtual m) := by
  intro x s hs
  have kept := h x s hs
  unfold KeepsAt at kept ⊢
  rcases orVirtual_cases m s with ⟨a, t, hm, ho⟩ | ⟨e, t, hm, ho⟩
  · rw [hm] at kept
    rw [ho]
    exact kept
  · rw [hm] at kept
    rw [ho]
    exact kept

theorem confined_outerHandler (e : Event) : Confined (outerHandler e) := by
  have refused : ∀ {b : Bool}, Confined (require b (stop (.refusal .virtual8086))) := confined_require (confined_stop _)
  refine confined_bind confined_getState fun s => confined_bind refused fun _ => ?_
  refine confined_bind (confined_sysRead _ _) fun lo => confined_bind (confined_sysRead _ _) fun hi => ?_
  refine confined_bind refused fun _ => confined_bind (confined_needDescriptor _ (confined_stop _)) fun d => ?_
  exact confined_bind_pure refused

theorem confined_deliverOnce (e : Event) : Confined (deliverOnce e) := by
  refine confined_bind confined_getState fun s => confined_ite ?_ ?_
  · exact confined_bind (confined_orVirtual (confined_outerHandler e)) fun _ => confined_raiseCode _ _
  · exact confined_ite (confined_deliverProtected e) (confined_deliverReal e)

end Sys2Proof.Machine

namespace Sys2Proof.Machine

/-! ### Every instruction at an outer level -/

/-- If an instruction or a step answers a state, what only level 0 may change is `x` in it. -/
def SystemKept (x : SystemPart) (r : Host.Outcome State Fault Refusal) : Prop := ∀ t, r = .next t → t.system = x

theorem deliver_system {x : SystemPart} {n : Nat} {e : Event} {s : State} (h : s.system = x) :
    SystemKept x (deliver n e s) := fun _ hr =>
  deliver_keeps (P := fun s => s.system = x) (Q := fun s => s.system = x) (fun e s hs => (s.savedEip_system e).trans hs)
    (fun e => confined_deliverOnce e x) (fun _ hs => hs) (fun _ hs => hs) (fun _ hs => hs) h hr

theorem finish_system {x : SystemPart} {tf : Bool} {m : M Completion} {s : State}
    (h : KeepsAt (fun s => s.system = x) m s) : SystemKept x (finish tf (m s)) := by
  intro u hu
  unfold KeepsAt at h
  match hm : m s with
  | .ok k t =>
    rw [hm] at h hu
    cases hu
    exact (t.complete_system tf k).trans h
  | .error (.exc e) t =>
    rw [hm] at h hu
    exact deliver_system (s := t.setPending .none) h u hu
  | .error (.fault f) t => rw [hm] at hu; cases hu
  | .error (.refusal f) t => rw [hm] at hu; cases hu

theorem runAnyMode_system {body : M Completion} {s : State} (h : Confined body) :
    SystemKept s.system (runAnyMode body s) := finish_system (h s.system s rfl)

theorem runInstr_system {body : M Completion} {s : State} (h : Confined body) :
    SystemKept s.system (runInstr body s) := by
  unfold runInstr
  split
  · intro u hu
    cases hu
  · exact runAnyMode_system h

theorem trapInstr_system (c : Ctx) (v : Byte) (s : State) : SystemKept s.system (trapInstr c v s) := by
  unfold trapInstr
  split
  · intro u hu
    cases hu
  · refine deliver_system ?_
    split
    · rfl
    · rfl

theorem confined_ioplSensitive : Confined ioplSensitive := confined_bind confined_getState fun _ => confined_check

theorem execMovToSreg_system (c : Ctx) (n : BitVec 3) (src : RM Reg) (s : State) :
    SystemKept s.system (execMovToSreg c n src s) := by
  refine runInstr_system ?_
  split
  · exact confined_raise _
  · exact confined_raise _
  · exact confined_bind (confined_rmRead16 c src) fun _ => confined_bind (confined_loadSeg _ _) fun _ =>
      confined_commit fun t => by simp

theorem execMovFromSreg_system (c : Ctx) (dst : RM Reg) (n : BitVec 3) (s : State) :
    SystemKept s.system (execMovFromSreg c dst n s) := by
  refine runInstr_system ?_
  split
  · exact confined_raise _
  · refine confined_bind (confined_rmPlace c dst 2) fun p => ?_
    cases p with
    | mem sp => exact confined_commit fun t => t.put_system _ _ _
    | reg q =>
      exact confined_ite (confined_bind confined_takeFree fun _ => confined_commit fun _ => rfl)
        (confined_commit fun _ => rfl)

theorem execBound_system (c : Ctx) (r : Reg) (m : RM Reg) (s : State) : SystemKept s.system (execBound c r m s) := by
  refine runInstr_system ?_
  cases m with
  | reg q => exact confined_raise _
  | mem ea =>
    exact confined_bind (confined_memRead _ _ _) fun _ => confined_bind (confined_memReadAbove _ _ _ _) fun _ =>
      confined_bind (confined_require (confined_raise _)) fun _ => confined_commit fun _ => rfl

theorem execWait_system (c : Ctx) (s : State) : SystemKept s.system (execWait c s) := by
  refine runInstr_system (confined_bind (confined_require (confined_raise _)) fun _ => ?_)
  exact confined_ite (confined_pure _) (confined_bind (confined_require (confined_raise _)) fun _ =>
    confined_commit fun _ => rfl)

theorem execInto_system (c : Ctx) (s : State) : SystemKept s.system (execInto c s) := by
  unfold execInto
  split
  · exact trapInstr_system c _ s
  · exact runInstr_system (confined_commit fun _ => rfl)

theorem execPopf_system (c : Ctx) (s : State) : SystemKept s.system (execPopf c s) :=
  runInstr_system (confined_bind (confined_stackRead _ _) fun _ => confined_commit fun t => t.moveUp_system _)

theorem execRepPrefix_system (c : Ctx) (t : RepTarget) (s : State) : SystemKept s.system (execRepPrefix c t s) := by
  refine runAnyMode_system ?_
  cases t with
  | insb => exact confined_repeated c (confined_insStep c _)
  | insw => exact confined_repeated c (confined_insStep c _)
  | outsb => exact confined_repeated c (confined_outsStep c _)
  | outsw => exact confined_repeated c (confined_outsStep c _)
  | other op => exact confined_bind confined_notVirtual fun _ => confined_stop _

theorem execLockPrefix_system (c : Ctx) (t : LockTarget) (s : State) : SystemKept s.system (execLockPrefix c t s) := by
  have other : ∀ fields opcode b, Confined (lockOther fields opcode b : M Completion) := fun _ _ _ =>
    confined_ite (confined_stop _) (confined_raise _)
  refine runInstr_system ?_
  split
  · exact confined_xchgByteBody c _ _
  · exact confined_raise _
  · exact confined_xchgBody c _ _
  · exact confined_raise _
  · exact confined_raise _
  · exact confined_raise _
  · exact other _ _ _
  · exact other _ _ _

/-- Protected mode at a level other than 0. -/
def State.outer (s : State) : Prop := s.flags.vm = false ∧ s.pe = true ∧ s.cpl ≠ 0#2

theorem modeOnly_outer : ModeOnly State.outer := by
  intro s t ⟨vm, pe, level⟩ ⟨hpe, _, hcpl, hvm, _, _⟩
  exact ⟨hvm.trans vm, hpe.trans pe, fun h => level (hcpl.symm.trans h)⟩

/-- Every instruction of the table: the privileged ones raise #GP(0), the others are confined. -/
theorem exec_system (i : Instr) {s : State} (hs : s.outer) : SystemKept s.system (exec i s) := by
  obtain ⟨hv, hp, hl⟩ := hs
  have traps : ∀ (c : Ctx) (r : Reg) (rm : RM Reg) (n : BitVec 3) (mb : BitVec 2),
      i ∈ [.clts c, .hlt c, .lgdt c rm, .lidt c rm, .lldt c rm, .ltr c rm, .lmsw c rm, .movFromCr c r n mb,
        .movToCr c n r mb, .movFromDr c r n mb, .movToDr c n r mb, .movFromTr c r n mb, .movToTr c n r mb] →
      SystemKept s.system (exec i s) := by
    intro c r rm n mb hi
    rw [privilegedTraps c r rm n mb i s hi hv hp hl]
    exact deliver_system rfl
  cases i with
  | arpl c dst src => exact runInstr_system (confined_arplBody c dst src)
  | lar c dst src => exact runInstr_system (confined_rightsBody c dst src _ fun _ => confined_bind_pure confined_takeFree)
  | lsl c dst src => exact runInstr_system (confined_rightsBody c dst src _ fun _ => confined_pure _)
  | verr c src => exact runInstr_system (confined_verifyBody c src _)
  | verw c src => exact runInstr_system (confined_verifyBody c src _)
  | sldt c dst =>
    exact runInstr_system (confined_bind confined_protectedOnly fun _ =>
      confined_bind (confined_storeSelector c dst _) fun _ => confined_commit fun _ => rfl)
  | str c dst =>
    exact runInstr_system (confined_bind confined_protectedOnly fun _ =>
      confined_bind (confined_storeSelector c dst _) fun _ => confined_commit fun _ => rfl)
  | lldt c src => exact traps c .eax src 0#3 0#2 (by simp)
  | ltr c src => exact traps c .eax src 0#3 0#2 (by simp)
  | sgdt c dst => exact runInstr_system (confined_storeTable c dst _)
  | sidt c dst => exact runInstr_system (confined_storeTable c dst _)
  | lgdt c src => exact traps c .eax src 0#3 0#2 (by simp)
  | lidt c src => exact traps c .eax src 0#3 0#2 (by simp)
  | smsw c dst =>
    exact runInstr_system (confined_bind (confined_rmPlace c dst 2) fun p => confined_commit fun t => t.put_system p _ _)
  | lmsw c src => exact traps c .eax src 0#3 0#2 (by simp)
  | clts c => exact traps c .eax (.reg .eax) 0#3 0#2 (by simp)
  | movFromCr c dst n mb => exact traps c dst (.reg dst) n mb (by simp)
  | movFromDr c dst n mb => exact traps c dst (.reg dst) n mb (by simp)
  | movToCr c n src mb => exact traps c src (.reg src) n mb (by simp)
  | movToDr c n src mb => exact traps c src (.reg src) n mb (by simp)
  | movFromTr c dst n mb => exact traps c dst (.reg dst) n mb (by simp)
  | movToTr c n src mb => exact traps c src (.reg src) n mb (by simp)
  | hlt c => exact traps c .eax (.reg .eax) 0#3 0#2 (by simp)
  | movToSreg c n src => exact execMovToSreg_system c n src s
  | movFromSreg c dst n => exact execMovFromSreg_system c dst n s
  | pushEs c => exact runInstr_system (confined_pushSreg c _)
  | pushCs c => exact runInstr_system (confined_pushSreg c _)
  | pushSs c => exact runInstr_system (confined_pushSreg c _)
  | pushDs c => exact runInstr_system (confined_pushSreg c _)
  | pushFs c => exact runInstr_system (confined_pushSreg c _)
  | pushGs c => exact runInstr_system (confined_pushSreg c _)
  | popEs c => exact runInstr_system (confined_popSreg c _)
  | popSs c => exact runInstr_system (confined_popSreg c _)
  | popDs c => exact runInstr_system (confined_popSreg c _)
  | popFs c => exact runInstr_system (confined_popSreg c _)
  | popGs c => exact runInstr_system (confined_popSreg c _)
  | lds c dst src => exact runInstr_system (confined_loadPointer c _ dst src)
  | les c dst src => exact runInstr_system (confined_loadPointer c _ dst src)
  | lss c dst src => exact runInstr_system (confined_loadPointer c _ dst src)
  | lfs c dst src => exact runInstr_system (confined_loadPointer c _ dst src)
  | lgs c dst src => exact runInstr_system (confined_loadPointer c _ dst src)
  | jmpRel8 c d => exact runInstr_system (confined_nearJump _)
  | jmpRel c d => exact runInstr_system (confined_nearJump _)
  | jmpNear c t => exact runInstr_system (confined_bind (confined_rmRead c t _) fun _ => confined_nearJump _)
  | callRel c d => exact runInstr_system (confined_nearCall c _)
  | callNear c t => exact runInstr_system (confined_bind (confined_rmRead c t _) fun _ => confined_nearCall c _)
  | retNear c => exact runInstr_system (confined_nearReturn c _)
  | retNearImm c n => exact runInstr_system (confined_nearReturn c _)
  | jmpFar c off sel => exact runInstr_system (confined_farJump c sel _)
  | jmpFarMem c t =>
    exact runInstr_system (confined_bind (confined_farPointer c t) fun (off, sel) => confined_farJump c sel off)
  | callFar c off sel => exact runInstr_system (confined_farCall c sel _)
  | callFarMem c t =>
    exact runInstr_system (confined_bind (confined_farPointer c t) fun (off, sel) => confined_farCall c sel off)
  | retFar c => exact runInstr_system (confined_bind_pure (confined_farReturn _ _))
  | retFarImm c n => exact runInstr_system (confined_bind_pure (confined_farReturn _ _))
  | inAlImm c port => exact runAnyMode_system (confined_inBody c _ _)
  | inAxImm c port => exact runAnyMode_system (confined_inBody c _ _)
  | inAlDx c => exact runAnyMode_system (confined_inBody c _ _)
  | inAxDx c => exact runAnyMode_system (confined_inBody c _ _)
  | outImmAl c port => exact runAnyMode_system (confined_outBody c _ _)
  | outImmAx c port => exact runAnyMode_system (confined_outBody c _ _)
  | outDxAl c => exact runAnyMode_system (confined_outBody c _ _)
  | outDxAx c => exact runAnyMode_system (confined_outBody c _ _)
  | insb c => exact runAnyMode_system (confined_stringOnce c (confined_insStep c _))
  | insw c => exact runAnyMode_system (confined_stringOnce c (confined_insStep c _))
  | outsb c => exact runAnyMode_system (confined_stringOnce c (confined_outsStep c _))
  | outsw c => exact runAnyMode_system (confined_stringOnce c (confined_outsStep c _))
  | repPrefix c t => exact execRepPrefix_system c t s
  | cli c =>
    exact runInstr_system (confined_bind confined_ioplSensitive fun _ => confined_commit fun _ => rfl)
  | sti c =>
    exact runInstr_system (confined_bind confined_ioplSensitive fun _ => confined_commit fun _ => rfl)
  | pushf c =>
    exact runInstr_system (confined_bind (confined_stackPrepare _ _) fun _ => confined_commit fun t => by simp)
  | popf c => exact execPopf_system c s
  | int3 c => exact trapInstr_system c _ s
  | intImm c v => exact trapInstr_system c v s
  | into c => exact execInto_system c s
  | bound c r m => exact execBound_system c r m s
  | iret c => exact runInstr_system (confined_bind_pure (confined_returnFromInterrupt _ _))
  | esc c op reg rm => exact runInstr_system (confined_escBody c op reg rm)
  | wait c => exact execWait_system c s
  | lockPrefix c t => exact execLockPrefix_system c t s
  | xchgByte c rm r => exact runInstr_system (confined_xchgByteBody c rm r)
  | xchg c rm r => exact runInstr_system (confined_xchgBody c rm r)

/-! ### A step -/

theorem confined_fetchByte (off : Dword) : Confined (fetchByte off) :=
  confined_bind (confined_checkedSpan _ _ _ _) fun _ => confined_bind confined_getState fun _ =>
    confined_ite (confined_stop _) (confined_pure _)

theorem confined_fetchFrom (n : Nat) (bs : List Byte) : Confined (fetchFrom n bs) := by
  induction n generalizing bs with
  | zero => exact confined_raiseCode _ _
  | succ n ih =>
    refine confined_bind confined_getState fun s => ?_
    split
    · exact confined_pure _
    · exact confined_stop _
    · exact confined_raise _
    · exact confined_raiseCode _ _
    · exact confined_bind (confined_fetchByte _) fun _ => ih _

theorem confined_fetchInstr : Confined fetchInstr :=
  confined_bind confined_getState fun _ => confined_ite (confined_stop _) (confined_fetchFrom _ _)

theorem settle_system {x : SystemPart} (i : Instr) (s : State) {r : Host.Outcome State Fault Refusal}
    (h : SystemKept x r) : SystemKept x (settle i s r) := by
  intro u hu
  cases r with
  | next t => cases hu; exact h t rfl
  | fault f => cases hu
  | refused f => cases hu

/-- An instruction that begins at an outer level; what it may change of the level comes with its commit. -/
theorem runNext_system {s : State} (hs : s.outer) : SystemKept s.system (runNext s) := by
  have fetched := confined_fetchInstr s.system s rfl
  have outer := keeps_fetchInstr modeOnly_outer.neutral s hs
  unfold KeepsAt at fetched outer
  unfold runNext
  cases hf : fetchInstr s with
  | ok i t =>
    rw [hf] at fetched outer
    replace fetched : t.system = s.system := fetched
    rw [← fetched]
    exact settle_system i t (exec_system i outer)
  | error e t =>
    rw [hf] at fetched
    exact finish_system (m := stop e) fetched

/-- What the boundary between instructions may change, RESET aside: the hidden state of a run, DR6, and the pins. -/
def AtBoundary (s t : State) : Prop :=
  t = { s with run := t.run, dbg := { s.dbg with dr6 := t.dbg.dr6 }, pins := t.pins }

theorem AtBoundary.system {s t : State} (h : AtBoundary s t) : t.system = s.system := by
  unfold AtBoundary at h
  rw [h]
  rfl

theorem AtBoundary.outer {s t : State} (h : AtBoundary s t) (hs : s.outer) : t.outer := by
  unfold AtBoundary at h
  rw [h]
  exact hs

/-- A property of the state that the boundary hands on, whatever it decides. -/
def Boundary.Hands (P : State → Prop) : Boundary → Prop
  | .take _ t => P t
  | .rest t => P t
  | .run t => P t
  | .refuse _ => True

theorem boundaryChecks_hands {s t : State} (h : AtBoundary s t) : (boundaryChecks t).Hands (AtBoundary s) := by
  unfold AtBoundary at h
  unfold boundaryChecks
  rw [h]
  split
  · rfl
  split
  · rfl
  split
  · rfl
  split
  · rfl
  split
  · rfl
  split
  · rfl
  · rfl

theorem boundary_hands {s : State} (hr : s.pins.reset = false) : (boundary s).Hands (AtBoundary s) := by
  unfold boundary
  rw [if_neg (by simp [hr])]
  split
  · trivial
  split
  · split
    · rfl
    · rfl
  · split
    · exact boundaryChecks_hands rfl
    · rfl
  · exact boundaryChecks_hands rfl

theorem step_system {s : State} (hs : s.outer) (hr : s.pins.reset = false) : SystemKept s.system (step s) := by
  have hb := boundary_hands hr
  intro u hu
  unfold step at hu
  cases h : boundary s with
  | take e t => rw [h] at hb hu; exact deliver_system hb.system u hu
  | rest t => rw [h] at hb hu; cases hu; exact hb.system
  | run t => rw [h] at hb hu; exact (runNext_system (hb.outer hs) u hu).trans hb.system
  | refuse r => rw [h] at hu; cases hu

/-- Settles O10: at an outer level no body of an instruction that may change the part runs, and nothing else changes it. -/
theorem outerIsolation : Obligations.OuterIsolation := by
  unfold Obligations.OuterIsolation
  intro s t hs hp hl hr h
  have kept := step_system ⟨(sound_iff_steady.mp hs).vm, hp, hl⟩ hr t h
  simpa only [State.system, SystemPart.mk.injEq] using kept

end Sys2Proof.Machine

namespace Sys2Proof.Machine

/-! ## Segment loads: what a load of DS, ES, FS, GS or SS gives, and its exceptions (R290, R293) -/

/-- Whether a load of a segment register may take a descriptor at a privilege level: its type, and the levels (R290, R293). -/
def Descriptor.loadable (d : Descriptor) (r : Sreg) (sel : Word) (cpl : BitVec 2) : Bool :=
  if r = .ss then d.attr.writable && selRpl sel = cpl && d.dpl = cpl
  else d.attr.readable && (d.attr.conforming || (cpl ≤ d.dpl && selRpl sel ≤ d.dpl))

theorem Descriptor.loadable_iff {d : Descriptor} {r : Sreg} {sel : Word} {cpl : BitVec 2} :
    d.loadable r sel cpl = true ↔
      if r = .ss then d.attr.writable = true ∧ selRpl sel = cpl ∧ d.dpl = cpl
      else d.attr.readable = true ∧ (d.attr.conforming = true ∨ (cpl ≤ d.dpl ∧ selRpl sel ≤ d.dpl)) := by
  unfold Descriptor.loadable
  split
  · simp [and_assoc]
  · simp

/-- The last step of a load: the descriptor is marked accessed and goes into the hidden part. -/
def loadMarked (r : Sreg) (d : Descriptor) (sel : Word) : M SegLoad := do
  let marks ← markAccessed d
  pure { reg := r, val := d.segReg sel, marks := marks }

theorem SegAttr.s_of_readable {a : SegAttr} (h : a.readable = true) : a.s = true := by
  cases hs : a.s
  · simp [SegAttr.readable, SegAttr.data, SegAttr.code, hs] at h
  · rfl

theorem maxPl_le_iff {a b c : BitVec 2} : maxPl a b ≤ c ↔ a ≤ c ∧ b ≤ c := by
  unfold maxPl
  split
  · exact ⟨fun h => ⟨BitVec.le_trans ‹_› h, h⟩, And.right⟩
  · exact ⟨fun h => ⟨h, BitVec.le_trans (BitVec.le_of_lt (BitVec.not_le.mp ‹_›)) h⟩, And.left⟩

section

variable {r : Sreg} {sel : Word} {s t : State}

theorem needDescriptor_named {d : Descriptor} {otherwise : M Descriptor} (hd : readDescriptor sel s = .ok (some d) t) :
    needDescriptor sel otherwise s = .ok d t := M_bind_ok hd

/-- A load of DS, ES, FS or GS from the descriptor that its selector names (R290). -/
theorem loadData_named {d : Descriptor} (hr : r ≠ .ss) (hn : selNull sel = false)
    (hd : readDescriptor sel s = .ok (some d) t) :
    loadData r sel s =
      (if d.loadable r sel s.cpl then if d.present then loadMarked r d sel else raiseNP (selErr sel false)
       else raiseGP (selErr sel false)) t := by
  have beyond : d.dpl < maxPl s.cpl (selRpl sel) ↔ ¬(s.cpl ≤ d.dpl ∧ selRpl sel ≤ d.dpl) := by
    rw [← maxPl_le_iff, BitVec.not_le]
  have level : (!d.attr.conforming && decide (d.dpl < maxPl s.cpl (selRpl sel)))
      = !(d.attr.conforming || (decide (s.cpl ≤ d.dpl) && decide (selRpl sel ≤ d.dpl))) := by
    rw [Bool.not_or, decide_eq_decide.mpr beyond, decide_not, Bool.decide_and]
  unfold loadData Descriptor.loadable
  rw [M_bind_ok (getState_apply s), if_neg (by simp [hn]), M_bind_ok (needDescriptor_named hd), level, if_neg hr]
  cases hread : d.attr.readable with
  | false => cases d.attr.s <;> rfl
  | true =>
    rw [SegAttr.s_of_readable hread]
    cases d.attr.conforming || (decide (s.cpl ≤ d.dpl) && decide (selRpl sel ≤ d.dpl)) with
    | false => rfl
    | true => cases d.present <;> rfl

/-- A load of SS from the descriptor that its selector names (R293). -/
theorem loadStack_named {d : Descriptor} (hn : selNull sel = false) (hd : readDescriptor sel s = .ok (some d) t) :
    loadStack sel s =
      (if d.loadable .ss sel s.cpl then if d.present then loadMarked .ss d sel else raiseSS (selErr sel false)
       else raiseGP (selErr sel false)) t := by
  have level : (decide (selRpl sel ≠ s.cpl) || decide (d.dpl ≠ s.cpl))
      = !(decide (selRpl sel = s.cpl) && decide (d.dpl = s.cpl)) := by
    rw [Bool.not_and, decide_not, decide_not]
  unfold loadStack Descriptor.loadable
  rw [M_bind_ok (getState_apply s), if_neg (by simp [hn]), M_bind_ok (needDescriptor_named hd), level, if_pos rfl,
    Bool.and_assoc]
  cases d.attr.writable with
  | false => rfl
  | true =>
    cases decide (selRpl sel = s.cpl) && decide (d.dpl = s.cpl) with
    | false => rfl
    | true => cases d.present <;> rfl

/-- A load in protected mode from the descriptor that its selector names. -/
theorem loadSeg_named {d : Descriptor} (hp : s.pe = true) (hn : selNull sel = false)
    (hd : readDescriptor sel s = .ok (some d) t) :
    loadSeg r sel s =
      (if d.loadable r sel s.cpl then
        if d.present then loadMarked r d sel else raiseCode (if r = .ss then 0x0C#8 else 0x0B#8) (selErr sel false)
       else raiseGP (selErr sel false)) t := by
  unfold loadSeg
  rw [M_bind_ok (getState_apply s), if_neg (by simp [hp])]
  by_cases hr : r = .ss
  · subst hr
    rw [if_pos rfl, if_pos rfl, loadStack_named hn hd]
    rfl
  · rw [if_neg hr, if_neg hr, loadData_named hr hn hd]
    rfl

theorem loadSeg_real (hp : s.pe = false) :
    loadSeg r sel s = .ok { reg := r, val := (s.seg.get r).realLoad sel, marks := [] } s := by
  simp [loadSeg, hp]

theorem loadSeg_null (hp : s.pe = true) (hn : selNull sel = true) (hr : r ≠ .ss) :
    loadSeg r sel s = .ok { reg := r, val := { s.seg.get r with sel := sel, valid := false }, marks := [] } s := by
  simp [loadSeg, loadData, hp, hn, hr]

theorem loadSeg_null_ss (hp : s.pe = true) (hn : selNull sel = true) :
    loadSeg .ss sel s = .error (.exc (faultWith s 0x0D#8 0x0000#16)) s.freed := by
  simp [loadSeg, loadStack, hp, hn, faultWith, State.freed]

/-- A selector that names no descriptor. -/
theorem loadSeg_unnamed (hp : s.pe = true) (hn : selNull sel = false) (hd : readDescriptor sel s = .ok none t) :
    loadSeg r sel s = .error (.exc (faultWith t 0x0D#8 (selErr sel false))) t.freed := by
  by_cases hr : r = .ss <;>
    simp [loadSeg, loadStack, loadData, needDescriptor, hp, hn, hr, hd, faultWith, State.freed]

/-- A descriptor that cannot be read. -/
theorem loadSeg_unread {e : Err} (hp : s.pe = true) (hn : selNull sel = false)
    (hd : readDescriptor sel s = .error e t) : loadSeg r sel s = .error e t := by
  by_cases hr : r = .ss <;> simp [loadSeg, loadStack, loadData, needDescriptor, hp, hn, hr, hd]

/-- All that a load which completes has done: nothing, or it has read its descriptor and marked it accessed. -/
theorem loadSeg_ok_cases {l : SegLoad} (h : loadSeg r sel s = .ok l t) :
    t = s ∨ ∃ d u, readDescriptor sel s = .ok (some d) u ∧ markAccessed d u = .ok l.marks t := by
  cases hp : s.pe with
  | false =>
    rw [loadSeg_real hp] at h
    cases h
    exact .inl rfl
  | true =>
    cases hn : selNull sel with
    | true =>
      by_cases hr : r = .ss
      · subst hr
        rw [loadSeg_null_ss hp hn] at h
        cases h
      · rw [loadSeg_null hp hn hr] at h
        cases h
        exact .inl rfl
    | false =>
      match hd : readDescriptor sel s with
      | .error e u => rw [loadSeg_unread hp hn hd] at h; cases h
      | .ok none u => rw [loadSeg_unnamed hp hn hd] at h; cases h
      | .ok (some d) u =>
        rw [loadSeg_named hp hn hd] at h
        split at h
        · split at h
          · unfold loadMarked at h
            cases hm : markAccessed d u with
            | error e v => rw [M_bind_error hm] at h; cases h
            | ok marks v =>
              rw [M_bind_ok hm] at h
              cases h
              exact .inr ⟨d, u, rfl, hm⟩
          · cases h
        · cases h

end

/-- Settles O16: the three ways in which a load completes. -/
theorem segmentLoadValue : Obligations.SegmentLoadValue := by
  unfold Obligations.SegmentLoadValue
  intro r sel s _
  refine ⟨loadSeg_real, loadSeg_null, fun hp hn d t u marks hd hpresent hm hload => ?_⟩
  rw [loadSeg_named hp hn hd, if_pos (Descriptor.loadable_iff.mpr hload), if_pos hpresent, loadMarked, M_bind_ok hm]
  rfl

end Sys2Proof.Machine

namespace Sys2Proof.Machine

/-! ## The bytes that an instruction's accesses may change -/

section

variable {s t u : State}

theorem Touched.descriptorAccess (h : Touched s t) (sel : Word) : t.descriptorAccess sel = s.descriptorAccess sel := by
  simp only [State.descriptorAccess, State.descriptorAddr, h.gdtr, h.ldtr]

/-- One access, as a list of accesses. -/
theorem Quiet.listed {la : Dword} {n : Nat} (q : Quiet (s.accessByte la n) s t) :
    Quiet (s.accessedByte [(la, n)]) s t :=
  quiet_mono q (accessedByte_mem List.mem_cons_self)

/-- Accesses and further accesses; the page entries that the latter use are still where they were at first. -/
theorem Quiet.append {l l' : List (Dword × Nat)} (hw : Memory.wf s.mem = true) (q : Quiet (s.accessedByte l) s t)
    (q' : Quiet (t.accessedByte l') t u) : Quiet (s.accessedByte (l ++ l')) s u :=
  quiet_trans (quiet_mono q (accessedByte_mono fun _ => List.mem_append_left l'))
    (quiet_mono q' fun a ha => accessedByte_mono (fun _ => List.mem_append_right l) a ((accessedByte_quiet q hw).mp ha))

/-- A segment load makes no access but that of the descriptor (20_memory.md R160). -/
theorem loadSeg_quiet {r : Sreg} {sel : Word} {l : SegLoad} (hw : Memory.wf s.mem = true)
    (h : loadSeg r sel s = .ok l t) : Quiet (s.accessedByte (s.descriptorAccess sel)) s t := by
  rcases loadSeg_ok_cases h with rfl | ⟨d, u, hd, hm⟩
  · exact quiet_refl _ _
  · obtain ⟨q, haddr⟩ := readDescriptor_quiet hw hd
    have q' := markAccessed_quiet (q.wf hw) hm
    rw [haddr d rfl] at q'
    exact (quiet_trans q (quiet_mono q' fun a => (accessByte_quiet q hw _ _ a).mp)).listed

theorem rmRead16_quiet {c : Ctx} {rm : RM Reg} {v : Word} (hw : Memory.wf s.mem = true)
    (h : rmRead16 c rm s = .ok v t) : Quiet (s.accessedByte (s.rmAccess c rm 2)) s t := by
  cases rm with
  | reg r => cases h; exact quiet_refl _ _
  | mem ea =>
    simp only [rmRead16, M_bind_apply, rmRead_mem, memRead, memBytes] at h
    cases ho : operandSpan (c.eaSegment ea) (s.eaOffset ea) 2 .read s with
    | error e x => rw [ho] at h; cases h
    | ok sp x =>
      rw [ho] at h
      cases h
      exact (operandSpan_quiet hw ho).listed

end

@[simp] theorem State.ended_mem (s t : State) : (s.ended t).mem = t.mem := t.complete_mem _ _

/-! ## The instructions that store a segment register (R299) -/

theorem opBytes_cases (c : Ctx) : c.op32 = true ∧ c.opBytes = 4 ∨ c.op32 = false ∧ c.opBytes = 2 := by
  cases h : c.op32 <;> simp [Ctx.opBytes, h]

/-- The PUSH instructions are one instruction over the segment register. -/
theorem exec_push_eq {c : Ctx} {x : Instr × Sreg} (s : State)
    (hx : x ∈ [(.pushEs c, .es), (.pushCs c, .cs), (.pushSs c, .ss), (.pushDs c, .ds), (.pushFs c, .fs), (.pushGs c, .gs)]) :
    exec x.1 s = runInstr (pushSreg c x.2) s := by
  simp only [List.mem_cons, List.not_mem_nil, or_false] at hx
  rcases hx with rfl | rfl | rfl | rfl | rfl | rfl <;> rfl

/-- The slot that a selector takes on the stack, as the operand size selects it (log entry 13). -/
theorem selectorSlot_opBytes (c : Ctx) (sel : Word) (s : State) :
    selectorSlot c.opBytes sel s =
      .ok (if c.op32 then toBytes 4 (withLowWord s.free.head sel) else toBytes 2 (sel.setWidth 32))
        (if c.op32 then s.freed else s) := by
  rcases opBytes_cases c with ⟨h, hn⟩ | ⟨h, hn⟩ <;>
    simp [selectorSlot_eq, State.selectorBytes, State.afterSlot, h, hn]

theorem pushSreg_ok {c : Ctx} {r : Sreg} {s t : State} {sp : Span}
    (h : operandSpan .ss (s.stackBelow c.opBytes) c.opBytes .write s = .ok sp t) :
    let bytes := if c.op32 then toBytes 4 (withLowWord s.free.head (s.seg.get r).sel)
      else toBytes 2 ((s.seg.get r).sel.setWidth 32)
    pushSreg c r s = .ok .plain
      ((((if c.op32 then t.freed else t).store { span := sp, bytes := bytes }).moveDown c.opBytes).advance c) := by
  have free : t.free = s.free := (checked_operandSpan _ _ _ _ s sp t h).free
  unfold pushSreg
  rw [M_bind_ok (getState_apply s), M_bind_ok h, M_bind_ok (selectorSlot_opBytes c _ t), free]
  rfl

/-- Settles O11: one body over the segment register, which ends with one store. -/
theorem pushSegmentRegister : Obligations.PushSegmentRegister := by
  unfold Obligations.PushSegmentRegister
  intro c x s t sp hx hv h sel bytes v u
  refine ⟨(exec_push_eq s hx).trans (runInstr_ok hv (pushSreg_ok h)), ?_⟩
  have length : bytes.length = c.opBytes := by
    rcases opBytes_cases c with ⟨h32, hn⟩ | ⟨h32, hn⟩ <;> simp [bytes, h32, hn]
  have mem : u.mem = (t.store { span := sp, bytes := bytes }).mem := by
    have : v.mem = t.mem := by unfold v; split <;> rfl
    simp [u, this]
  rw [← length]
  exact frame_store (st := { span := sp, bytes := bytes }) (fun hw => length ▸ operandSpan_quiet hw h) mem

/-- A selector stored at a place: a word in memory, the low word of a register, or with a 32-bit operand size all of it. -/
theorem storeSelector_reg (c : Ctx) (q : Reg) (sel : Word) (s : State) :
    storeSelector c (.reg q) sel s =
      .ok () (if c.op32 then s.freed.setReg q (withLowWord s.free.head sel) else s.setReg16 q sel) := by
  unfold storeSelector
  rw [M_bind_ok (rmPlace_reg c q 2 s)]
  cases c.op32 <;> rfl

theorem storeSelector_mem {c : Ctx} {ea : Ea} {sel : Word} {s t : State} {sp : Span}
    (h : operandSpan (c.eaSegment ea) (s.eaOffset ea) 2 .write s = .ok sp t) :
    storeSelector c (.mem ea) sel s = .ok () (t.store { span := sp, bytes := toBytes 2 (sel.setWidth 32) }) := by
  unfold storeSelector
  rw [M_bind_ok (rmPlace_mem_ok h)]
  rfl

/-- MOV from a segment register differs from SLDT and STR in the selector alone. -/
theorem execMovFromSreg_ok {c : Ctx} {n : BitVec 3} {r : Sreg} {dst : RM Reg} {s t : State} (hv : s.flags.vm = false)
    (hn : sregOf n = some r) (h : storeSelector c dst (s.seg.get r).sel s = .ok () t) :
    execMovFromSreg c dst n s = .next (s.ended (t.advance c)) := by
  unfold execMovFromSreg
  rw [hn]
  refine runInstr_ok hv ?_
  unfold storeSelector at h
  cases hp : rmPlace c dst 2 s with
  | error e u => rw [M_bind_error hp] at h; cases h
  | ok p u =>
    rw [M_bind_ok hp] at h
    refine (M_bind_ok hp).trans ?_
    cases p with
    | mem sp => cases h; rfl
    | reg q =>
      cases h32 : c.op32 <;>
        (simp only [h32] at h ⊢
         cases h
         rfl)

/-- The instructions that store a selector at a register-or-memory destination do so and no more. -/
theorem exec_store_eq {c : Ctx} {n : BitVec 3} {r : Sreg} {dst : RM Reg} {x : Instr × Word} {s t : State}
    (hv : s.flags.vm = false) (hn : sregOf n = some r)
    (hx : x = (.movFromSreg c dst n, (s.seg.get r).sel)
      ∨ (s.pe = true ∧ (x = (.sldt c dst, s.ldtr.sel) ∨ x = (.str c dst, s.tr.sel))))
    (h : storeSelector c dst x.2 s = .ok () t) : exec x.1 s = .next (s.ended (t.advance c)) := by
  rcases hx with rfl | ⟨hp, rfl | rfl⟩
  · exact execMovFromSreg_ok hv hn h
  · refine runInstr_ok hv ?_
    rw [M_bind_ok (protectedOnly_ok hp), M_bind_ok h]
    rfl
  · refine runInstr_ok hv ?_
    rw [M_bind_ok (protectedOnly_ok hp), M_bind_ok h]
    rfl

/-- Settles O15: all three instructions end with the same store of a selector. -/
theorem storeSelector_holds : Obligations.StoreSelector := by
  unfold Obligations.StoreSelector
  intro c n r dst x s hv hn hx
  cases dst with
  | reg q =>
    refine (exec_store_eq hv hn hx (storeSelector_reg c q x.2 s)).trans ?_
    cases c.op32 <;> rfl
  | mem ea =>
    intro t sp h u
    have mem : u.mem = (t.store { span := sp, bytes := toBytes 2 (x.2.setWidth 32) }).mem := by simp [u]
    exact ⟨exec_store_eq hv hn hx (storeSelector_mem h), frame_store (fun hw => operandSpan_quiet hw h) mem⟩

end Sys2Proof.Machine

namespace Sys2Proof.Machine

/-! ## The instructions that load a segment register (R297, R298) -/

section

variable {c : Ctx} {r : Sreg} {s : State}

/-- MOV to a segment register that it may load. -/
theorem exec_movToSreg_eq {n : BitVec 3} {src : RM Reg} (hn : sregOf n = some r) (hr : r ≠ .cs) (s : State) :
    exec (.movToSreg c n src) s = runInstr (do
      let sel ← rmRead16 c src
      let l ← loadSeg r sel
      update fun t => ((t.load l).inhibitAfter r).advance c
      pure .plain) s := by
  show execMovToSreg c n src s = _
  unfold execMovToSreg
  rw [hn]
  cases r with
  | cs => exact absurd rfl hr
  | es => rfl
  | ss => rfl
  | ds => rfl
  | fs => rfl
  | gs => rfl

/-- The POP instructions are one instruction over the segment register. -/
theorem exec_pop_eq {x : Instr × Sreg} (s : State)
    (hx : x ∈ [(.popEs c, .es), (.popSs c, .ss), (.popDs c, .ds), (.popFs c, .fs), (.popGs c, .gs)]) :
    exec x.1 s = runInstr (popSreg c x.2) s := by
  simp only [List.mem_cons, List.not_mem_nil, or_false] at hx
  rcases hx with rfl | rfl | rfl | rfl | rfl <;> rfl

/-- LDS, LES, LSS, LFS and LGS with a memory operand are one instruction over the segment register. -/
theorem exec_loadPointer_eq {dst : Reg} {ea : Ea} {x : Instr × Sreg} (s : State)
    (hx : x ∈ [(.lds c dst (.mem ea), .ds), (.les c dst (.mem ea), .es), (.lss c dst (.mem ea), .ss),
      (.lfs c dst (.mem ea), .fs), (.lgs c dst (.mem ea), .gs)]) :
    exec x.1 s = runInstr (loadPointer c x.2 dst (.mem ea)) s := by
  simp only [List.mem_cons, List.not_mem_nil, or_false] at hx
  rcases hx with rfl | rfl | rfl | rfl | rfl <;> rfl

/-- They load a far pointer, its selector into the segment register. -/
theorem loadPointer_eq (c : Ctx) (r : Sreg) (dst : Reg) (ea : Ea) :
    loadPointer c r dst (.mem ea) = (do
      let (off, sel) ← farPointer c (.mem ea)
      let l ← loadSeg r sel
      update fun t => ((t.load l).setRegN dst c.opBytes off).advance c
      pure .plain) := by
  simp only [loadPointer, farPointer, bind_assoc, pure_bind]

theorem farPointer_ok {ea : Ea} {t u : State} {sp sp' : Span}
    (h : operandSpan (c.eaSegment ea) (s.eaOffset ea) c.opBytes .read s = .ok sp t)
    (hlt : (s.eaOffset ea).toNat + c.opBytes < 4294967296)
    (h' : operandSpan (c.eaSegment ea) (s.eaOffset ea + BitVec.ofNat 32 c.opBytes) 2 .read t = .ok sp' u) :
    farPointer c (.mem ea) s =
      .ok (fromBytes (Memory.readSpan t.mem sp 0 c.opBytes), lowWord (fromBytes (Memory.readSpan u.mem sp' 0 2))) u :=
  (M_bind_ok (memRead_ok h)).trans (M_bind_ok ((M_bind_ok (offsetAbove_ok hlt)).trans (memRead_ok h')))

/-- A selector that would lie past offset FFFFFFFFH (R280). -/
theorem farPointer_exc {ea : Ea} {t : State} {sp : Span}
    (h : operandSpan (c.eaSegment ea) (s.eaOffset ea) c.opBytes .read s = .ok sp t)
    (hge : 4294967296 ≤ (s.eaOffset ea).toNat + c.opBytes) :
    farPointer c (.mem ea) s = .error (.exc (faultWith t (limitVector (c.eaSegment ea)) 0x0000#16)) t.freed :=
  (M_bind_ok (memRead_ok h)).trans (M_bind_error (M_bind_error (offsetAbove_exc hge)))

end

/-- Settles O14: the operand's read, then the load, whose marks are all that is stored. -/
theorem movToSegmentRegister : Obligations.MovToSegmentRegister := by
  unfold Obligations.MovToSegmentRegister
  intro c n src r s t u sel l hv hn hr hsel hl w
  refine ⟨(exec_movToSreg_eq hn hr s).trans (runInstr_ok hv ((M_bind_ok hsel).trans ((M_bind_ok hl).trans rfl))), ?_⟩
  refine frame_storeAll (fun hw => ?_) (by simp [w])
  have q := rmRead16_quiet hw hsel
  have q' := loadSeg_quiet (q.wf hw) hl
  rw [q.touched.descriptorAccess] at q'
  exact q.append hw q'

/-- Settles O12: the read of the stack's top, then the load. -/
theorem popSegmentRegister : Obligations.PopSegmentRegister := by
  unfold Obligations.PopSegmentRegister
  intro c x s t u sp l hx hv h sel hl w
  have popped : popSreg c x.2 s = .ok .plain ((((u.load l).moveUp c.opBytes).inhibitAfter x.2).advance c) := by
    have top : stackRead 0 c.opBytes s = .ok (fromBytes (Memory.readSpan t.mem sp 0 c.opBytes)) t := memRead_ok h
    exact (M_bind_ok top).trans ((M_bind_ok hl).trans rfl)
  refine ⟨(exec_pop_eq s hx).trans (runInstr_ok hv popped), frame_storeAll (fun hw => ?_) (by simp [w])⟩
  have q := (operandSpan_quiet hw h).listed
  have q' := loadSeg_quiet (q.wf hw) hl
  rw [q.touched.descriptorAccess] at q'
  exact q.append hw q'

/-- Settles O13: the far pointer's two reads, or the exception of the second, then the load. -/
theorem loadFarPointer : Obligations.LoadFarPointer := by
  unfold Obligations.LoadFarPointer
  intro c ea dst x s t sp hx hv seg off above h
  refine ⟨fun hge => ?_, ?_⟩
  · rw [exec_loadPointer_eq s hx, loadPointer_eq]
    exact runInstr_check_exc hv (farPointer_exc h hge)
  · intro hlt u v sp' l h' sel hl w
    refine ⟨?_, frame_storeAll (fun hw => ?_) (by simp [w])⟩
    · rw [exec_loadPointer_eq s hx, loadPointer_eq]
      exact runInstr_ok hv ((M_bind_ok (farPointer_ok h hlt h')).trans ((M_bind_ok hl).trans rfl))
    · have q := (operandSpan_quiet hw h).listed
      have q' := (operandSpan_quiet (q.wf hw) h').listed
      rw [q.touched.linear] at q'
      have q1 := q.append hw q'
      have q2 := loadSeg_quiet (q1.wf hw) hl
      rw [q1.touched.descriptorAccess] at q2
      exact q1.append hw q2

/-! ### Their exceptions (R290, R293, R295) -/

section

variable {c : Ctx} {i : Instr} {r : Sreg} {sel : Word} {s t : State}

theorem selectorOperand_touched (h : selectorOperand c i r sel s t) : Touched s t := by
  rcases h with ⟨n, src, -, -, h⟩ | ⟨-, v, h, -⟩ | ⟨dst, ea, off, -, h⟩
  · exact checked_rmRead16 c src s sel t h
  · exact checked_stackRead 0 c.opBytes s v t h
  · exact checked_farPointer c (.mem ea) s (off, sel) t h

/-- What the load of the segment register raises, the instruction raises. -/
theorem exec_loadSeg_exc {u : State} {e : Event} (hv : s.flags.vm = false) (hr : r ≠ .cs)
    (h : selectorOperand c i r sel s t) (hl : loadSeg r sel t = .error (.exc e) u) : exec i s = raised e u := by
  rcases h with ⟨n, src, rfl, hn, h⟩ | ⟨hi, v, h, rfl⟩ | ⟨dst, ea, off, hi, h⟩
  · exact (exec_movToSreg_eq hn hr s).trans (runInstr_exc hv ((M_bind_ok h).trans (M_bind_error hl)))
  · exact (exec_pop_eq s hi).trans (runInstr_exc hv ((M_bind_ok h).trans (M_bind_error hl)))
  · rw [exec_loadPointer_eq s hi, loadPointer_eq]
    exact runInstr_exc hv ((M_bind_ok h).trans (M_bind_error hl))

end

/-- Settles O17: the registers change in the last step of each of the instructions, and the load is checked before that. -/
theorem segmentLoadTraps : Obligations.SegmentLoadTraps := by
  unfold Obligations.SegmentLoadTraps
  intro c i r s t sel hv hr hp h asBefore
  have before : ∀ {x}, Touched s x → asBefore x := fun hx => ⟨hx.gpr, hx.seg, hx.pc⟩
  have touched := selectorOperand_touched h
  have hpt : t.pe = true := touched.pe.trans hp
  have raises : ∀ {e : Event} {u : State}, loadSeg r sel t = .error (.exc e) u → exec i s = raised e u :=
    exec_loadSeg_exc hv hr h
  refine ⟨before touched, fun hn hss => ?_, fun hn hlacks => ?_, fun hn d u hd => ⟨?_, ?_⟩⟩
  · subst hss
    exact raises (loadSeg_null_ss hpt hn)
  · exact raises (loadSeg_unnamed hpt hn (by rw [readDescriptor_eq, if_pos hlacks]))
  · exact before (touched_trans touched (checked_readDescriptor sel t _ u hd))
  · rw [← touched.cpl, ← Descriptor.loadable_iff]
    have named := loadSeg_named (r := r) hpt hn hd
    refine ⟨fun hload => raises ?_, fun hload habsent => raises ?_⟩
    · rw [named, if_neg hload]
      rfl
    · rw [named, if_pos hload, if_neg (by simp [habsent])]
      rfl

end Sys2Proof.Machine

namespace Sys2Proof.Machine

/-! ## The accesses of a computation, in order

A transfer of control makes its accesses one after another and changes nothing else before it commits. `Accessed` keeps
their list, so that the frame of an instruction is read off the chain of its reads. -/

/-- `t` follows `s` by the accesses listed and by nothing else. -/
structure Accessed (s : State) (l : List (Dword × Nat)) (t : State) : Prop where
  touched : Touched s t
  quiet : Memory.wf s.mem = true → Quiet (s.accessedByte l) s t

section ListedBytes

variable (s : State) (l l' : List (Dword × Nat)) (x : Dword × Nat) (sts : List Store) (st : Store) (a : Nat)

@[simp] theorem accessedByte_nil : s.accessedByte [] a ↔ False := by simp [State.accessedByte]

@[simp] theorem accessedByte_cons : s.accessedByte (x :: l) a ↔ s.accessByte x.1 x.2 a ∨ s.accessedByte l a := by
  simp [State.accessedByte]

@[simp] theorem accessedByte_append : s.accessedByte (l ++ l') a ↔ s.accessedByte l a ∨ s.accessedByte l' a := by
  simp only [State.accessedByte, List.mem_append, or_and_right, exists_or]

@[simp] theorem storesCover_nil : storesCover [] a ↔ False := by simp [storesCover]

@[simp] theorem storesCover_cons : storesCover (st :: sts) a ↔ st.span.covers st.bytes.length a ∨ storesCover sts a := by
  simp [storesCover]

end ListedBytes

theorem M_bind_eq_ok {α β : Type} {m : M α} {f : α → M β} {b : β} {s u : State} (h : (m >>= f) s = .ok b u) :
    ∃ a t, m s = .ok a t ∧ f a t = .ok b u := by
  rw [M_bind_apply] at h
  cases hm : m s with
  | ok a t => exact ⟨a, t, rfl, by rwa [hm] at h⟩
  | error e t => rw [hm] at h; cases h

theorem operandSpan_of_memRead {r : Sreg} {off v : Dword} {n : Nat} {s t : State} (h : memRead r off n s = .ok v t) :
    ∃ sp, operandSpan r off n .read s = .ok sp t := by
  obtain ⟨bs, u, hb, hv⟩ := M_bind_eq_ok h
  obtain ⟨sp, x, hsp, hx⟩ := M_bind_eq_ok hb
  cases hx
  cases hv
  exact ⟨sp, hsp⟩

theorem offsetAbove_eq_ok {r : Sreg} {off a : Dword} {k : Nat} {s t : State} (h : offsetAbove r off k s = .ok a t) :
    a = off + BitVec.ofNat 32 k ∧ t = s := by
  by_cases hk : off.toNat + k < 4294967296
  · rw [offsetAbove_ok hk] at h
    cases h
    exact ⟨rfl, rfl⟩
  · rw [offsetAbove_exc (Nat.not_lt.mp hk)] at h
    cases h

theorem readDescriptor_addr {sel : Word} {d : Descriptor} {s t : State} (h : readDescriptor sel s = .ok (some d) t) :
    d.addr = s.descriptorAddr sel := by
  rw [readDescriptor_eq] at h
  split at h
  · cases h
  · cases hlo : sysRead (s.descriptorAddr sel) 4 s with
    | error e x => rw [hlo] at h; cases h
    | ok lo x =>
      rw [hlo] at h
      cases hhi : sysRead (s.descriptorAddr sel + 4#32) 4 x with
      | error e y => simp only [hhi] at h; cases h
      | ok hi y => simp only [hhi] at h; cases h; rfl

namespace Accessed

variable {s t u : State} {l l' : List (Dword × Nat)} {la off v : Dword} {n k : Nat} {r : Sreg}

theorem refl (s : State) : Accessed s [] s := ⟨touched_refl s, fun _ => quiet_refl _ s⟩

theorem mono (h : Accessed s l t) (hl : l ⊆ l') : Accessed s l' t :=
  ⟨h.touched, fun hw => quiet_mono (h.quiet hw) (accessedByte_mono hl)⟩

/-- A further access. -/
theorem access (h : Accessed s l t) (ht : Touched t u)
    (hq : Memory.wf t.mem = true → Quiet (t.accessByte la n) t u) : Accessed s (l ++ [(la, n)]) u :=
  ⟨touched_trans h.touched ht, fun hw => (h.quiet hw).append hw (hq ((h.quiet hw).wf hw)).listed⟩

theorem span {a : Access} {sp : Span} (h : Accessed s l t) (ho : operandSpan r off n a t = .ok sp u) :
    Accessed s (l ++ [(s.linear r off, n)]) u :=
  h.access (checked_operandSpan r off n a t sp u ho) fun hw => h.touched.linear r off ▸ operandSpan_quiet hw ho

theorem memRead (h : Accessed s l t) (hr : Machine.memRead r off n t = .ok v u) :
    Accessed s (l ++ [(s.linear r off, n)]) u :=
  have ⟨_, ho⟩ := operandSpan_of_memRead hr
  h.span ho

theorem memReadAbove (h : Accessed s l t) (hr : Machine.memReadAbove r off k n t = .ok v u) :
    Accessed s (l ++ [(s.linear r (off + BitVec.ofNat 32 k), n)]) u := by
  obtain ⟨a, x, ha, hread⟩ := M_bind_eq_ok hr
  obtain ⟨rfl, rfl⟩ := offsetAbove_eq_ok ha
  exact h.memRead hread

theorem stackRead (h : Accessed s l t) (hr : Machine.stackRead k n t = .ok v u) :
    Accessed s (l ++ [(s.linear .ss (s.stackOff k), n)]) u :=
  h.touched.stackOff k ▸ h.memRead hr

theorem rmRead {c : Ctx} {rm : RM Reg} (h : Accessed s l t) (hr : Machine.rmRead c rm n t = .ok v u) :
    Accessed s (l ++ s.rmAccess c rm n) u := by
  cases rm with
  | reg q => cases hr; exact h.mono (List.subset_append_left l _)
  | mem ea =>
    rw [rmRead_mem, h.touched.eaOffset] at hr
    exact h.memRead hr

theorem sysRead (h : Accessed s l t) (hr : Machine.sysRead la n t = .ok v u) : Accessed s (l ++ [(la, n)]) u :=
  h.access (checked_sysRead la n t v u hr) fun hw => sysRead_quiet hw hr

theorem descriptor {sel : Word} {d : Option Descriptor} (h : Accessed s l t) (hd : readDescriptor sel t = .ok d u) :
    Accessed s (l ++ s.descriptorAccess sel) u :=
  h.touched.descriptorAccess sel ▸
    h.access (checked_readDescriptor sel t d u hd) fun hw => (readDescriptor_quiet hw hd).1

theorem descriptor_mem {sel : Word} {d : Descriptor} (h : Accessed s l t) (hd : readDescriptor sel t = .ok (some d) u) :
    (d.addr, 8) ∈ s.descriptorAccess sel := by
  rw [← h.touched.descriptorAccess, readDescriptor_addr hd]
  exact List.mem_singleton_self _

/-- The store that marks a descriptor accessed lies where the descriptor was read. -/
theorem mark {d : Descriptor} {marks : List Store} (h : Accessed s l t) (hd : (d.addr, 8) ∈ l)
    (hm : markAccessed d t = .ok marks u) : Accessed s l u :=
  (h.access (checked_markAccessed d t marks u hm) fun hw => markAccessed_quiet hw hm).mono
    (List.append_subset.mpr ⟨List.Subset.refl l, List.cons_subset.mpr ⟨hd, List.nil_subset l⟩⟩)

theorem farPointer {c : Ctx} {ea : Ea} {sel : Word} (h : Accessed s l t)
    (hr : Machine.farPointer c (.mem ea) t = .ok (off, sel) u) :
    Accessed s (l ++ [(s.linear (c.eaSegment ea) (s.eaOffset ea), c.opBytes),
      (s.linear (c.eaSegment ea) (s.eaOffset ea + BitVec.ofNat 32 c.opBytes), 2)]) u := by
  rw [← h.touched.eaOffset ea]
  rw [Machine.farPointer, M_bind_ok (getState_apply t)] at hr
  obtain ⟨o, x, ho, hr⟩ := M_bind_eq_ok hr
  obtain ⟨w, y, hs, hr⟩ := M_bind_eq_ok hr
  cases hr
  simpa using (h.memRead ho).memReadAbove hs

/-- A free value taken on both sides. -/
theorem freed (h : Accessed s l t) : Accessed s.freed l t.freed := by
  have ht : Touched s.freed t.freed := by
    have ht := h.touched
    unfold Touched at ht
    unfold Touched State.freed
    rw [ht]
  exact ⟨ht, fun hw => ⟨ht, (h.quiet hw).wf, (h.quiet hw).kept, (h.quiet hw).frames⟩⟩

theorem afterSlot (h : Accessed s l t) (n : Nat) : Accessed (s.afterSlot n) l (t.afterSlot n) := by
  unfold State.afterSlot
  split
  · exact h
  · exact h.freed

/-- The frame of an instruction that makes some accesses and ends with stores. -/
theorem frame {sts : List Store} {P : Nat → Prop} (h : Accessed s l t) (hm : u.mem = (t.storeAll sts).mem)
    (hP : ∀ a, s.accessedByte l a ∨ storesCover sts a → P a) : Frame s t u P := fun hw =>
  have ⟨ht, hk⟩ := frame_storeAll h.quiet hm hw
  ⟨ht, fun a ha => hk a fun hc => ha (hP a hc)⟩

/-- The frame of an instruction that makes some accesses and stores nothing. -/
theorem frame_of_mem {P : Nat → Prop} (h : Accessed s l t) (hm : u.mem = t.mem)
    (hP : ∀ a, s.accessedByte l a → P a) : Frame s t u P := fun hw =>
  have ⟨ht, hk⟩ := frame_read h.quiet hm hw
  ⟨ht, fun a ha => hk a fun hc => ha (hP a hc)⟩

end Accessed

/-! ## An instruction that reads its operand and then does the rest -/

/-- The instruction reads its operand, which leads to `t`, and does `m` there. -/
def Continues (i : Instr) (s : State) (m : M Completion) (t : State) : Prop :=
  ∃ body, exec i s = runInstr body s ∧ body s = m t

namespace Continues

variable {i : Instr} {s t u : State} {m : M Completion}

theorem here (h : exec i s = runInstr m s) : Continues i s m s := ⟨m, h, rfl⟩

theorem after {α : Type} {read : M α} {f : α → M Completion} {a : α} (h : exec i s = runInstr (read >>= f) s)
    (hr : read s = .ok a t) : Continues i s (f a) t := ⟨read >>= f, h, M_bind_ok hr⟩

theorem completes (h : Continues i s m t) (hv : s.flags.vm = false) {k : Completion} (hm : m t = .ok k u) :
    exec i s = .next (u.complete s.flags.tf k) :=
  have ⟨_, he, hb⟩ := h
  he.trans (runInstr_ok hv (hb.trans hm))

theorem raises (h : Continues i s m t) (hv : s.flags.vm = false) {e : Event} (hm : m t = .error (.exc e) u) :
    exec i s = raised e u :=
  have ⟨_, he, hb⟩ := h
  he.trans (runInstr_exc hv (hb.trans hm))

end Continues

/-! ## Near transfers (41_control_transfer.md R333 to R335) -/

/-- A near target outside CS (R333). -/
theorem nearTarget_exc {s : State} {target : Dword} (h : s.segOk .cs target 1 .fetch = false) :
    nearTarget target s = .error (.exc (faultWith s 0x0D#8 0x0000#16)) s.freed := by
  unfold nearTarget
  rw [segCheck_eq, if_neg (by simp [h])]
  rfl

/-- Settles O31: each of the forms finds its target and then does the same. -/
theorem nearJump_holds : Obligations.NearJump := by
  unfold Obligations.NearJump
  intro c i target reads s t hv form
  have ⟨continues, accessed⟩ : Continues i s (nearJump target) t ∧ Accessed s reads t := by
    rcases form with ⟨d, rfl, rfl, rfl, rfl⟩ | ⟨d, rfl, rfl, rfl, rfl⟩ | ⟨rm, rfl, hr, rfl⟩
    · exact ⟨.here rfl, .refl t⟩
    · exact ⟨.here rfl, .refl t⟩
    · exact ⟨.after rfl hr, (Accessed.refl s).rmRead hr⟩
  refine ⟨fun beyond => ?_, fun within => ⟨?_, ?_⟩⟩
  · exact continues.raises hv (M_bind_error (nearTarget_exc beyond))
  · exact continues.completes hv (M_bind_ok (nearTarget_ok within))
  · exact accessed.frame_of_mem (State.ended_mem _ _) fun _ => id

/-- Settles O32: each of the forms finds its target and then does the same. -/
theorem nearCall_holds : Obligations.NearCall := by
  unfold Obligations.NearCall
  intro c i target reads s t hv form
  have ⟨continues, accessed⟩ : Continues i s (nearCall c target) t ∧ Accessed s reads t := by
    rcases form with ⟨d, rfl, rfl, rfl, rfl⟩ | ⟨rm, rfl, hr, rfl⟩
    · exact ⟨.here rfl, .refl t⟩
    · exact ⟨.after rfl hr, (Accessed.refl s).rmRead hr⟩
  refine ⟨fun beyond => continues.raises hv (M_bind_error (nearTarget_exc beyond)), ?_⟩
  intro within sp u hsp ret v
  refine ⟨?_, ?_⟩
  · have push : stackPrepare c.opBytes (toBytes c.opBytes (t.nextPc c)) t = .ok { span := sp, bytes := ret } u := by
      rw [accessed.touched.nextPc c]
      refine memPrepare_ok (sp := sp) ?_
      rwa [toBytes_length, accessed.touched.stackBelow]
    exact continues.completes hv ((M_bind_ok (nearTarget_ok within)).trans (M_bind_ok push))
  · refine (accessed.span hsp).frame (sts := [{ span := sp, bytes := ret }])
      ((State.ended_mem _ _).trans (State.moveDown_mem _ _)) fun a => ?_
    simp only [accessedByte_append, accessedByte_cons, accessedByte_nil, storesCover_cons, storesCover_nil, ret,
      toBytes_length]
    tauto

/-- Settles O33: the pop of the target, then its check; the immediate counts in the stack pointer alone. -/
theorem nearReturn_holds : Obligations.NearReturn := by
  unfold Obligations.NearReturn
  intro c m x s t target hx hv pop
  have popped : nearReturn c x.2 s = (do
      nearTarget target
      update fun t => { t.moveUp (c.opBytes + x.2) with pc := target }
      pure .plain : M Completion) t := M_bind_ok pop
  have continues : Continues x.1 s (nearReturn c x.2) s := by
    simp only [List.mem_cons, List.not_mem_nil, or_false] at hx
    rcases hx with rfl | rfl <;> exact .here rfl
  refine ⟨fun beyond => ?_, fun within => ⟨?_, ?_⟩⟩
  · exact continues.raises hv (popped.trans (M_bind_error (nearTarget_exc beyond)))
  · exact continues.completes hv (popped.trans (M_bind_ok (nearTarget_ok within)))
  · exact ((Accessed.refl s).stackRead pop).frame_of_mem ((State.ended_mem _ _).trans (State.moveUp_mem _ _))
      fun a => by simp

end Sys2Proof.Machine

namespace Sys2Proof.Machine

/-! ## Far JMP and CALL: the parts they share (41_control_transfer.md R336 to R338) -/

section

variable {s t u : State}

/-- A check that holds. -/
theorem require_bind_ok {α : Type} {b : Bool} {m : M Unit} {f : Unit → M α} (h : b = true) :
    (require b m >>= f) s = f () s := by
  rw [h]
  rfl

/-- A check that fails. -/
theorem require_bind_exc {α : Type} {b : Bool} {m : M Unit} {f : Unit → M α} {e : Err} (h : b = false)
    (hm : m s = .error e t) : (require b m >>= f) s = .error e t := by
  rw [h]
  exact M_bind_error hm

/-- A load of CS that keeps the level. -/
theorem loadCs_same {g : SegReg} {marks : List Store} {pl : BitVec 2} (h : s.cpl = pl) :
    s.loadCs { reg := .cs, val := g, marks := marks } pl = (s.storeAll marks).setSeg .cs g := by
  subst h
  unfold State.loadCs State.load
  rw [← State.storeAll_cpl s marks]
  rfl

/-- The two accesses of a far call's pushes, listed before the others. -/
theorem two_last_subset {α : Type} (l : List α) (x y : α) : l ++ [x] ++ [y] ⊆ x :: y :: l := by
  simp

/-- The pushes of a far call's return address (R338). -/
def State.returnPushes (s : State) (n : Nat) (ret : Dword) (sp sp' : Span) : List Store :=
  [{ span := sp, bytes := s.selectorBytes n s.seg.cs.sel }, { span := sp', bytes := toBytes n ret }]

theorem selectorBytes_length {n : Nat} (hn : n = 2 ∨ n = 4) (s : State) (sel : Word) :
    (s.selectorBytes n sel).length = n := by
  rcases hn with rfl | rfl <;> exact toBytes_length _ _

theorem storesCover_returnPushes {n : Nat} (hn : n = 2 ∨ n = 4) (s : State) (ret : Dword) (sp sp' : Span) (a : Nat) :
    storesCover (s.returnPushes n ret sp sp') a ↔ sp.covers n a ∨ sp'.covers n a := by
  simp only [State.returnPushes, storesCover_cons, storesCover_nil, selectorBytes_length hn, toBytes_length, or_false]

theorem opBytes_eq (c : Ctx) : c.opBytes = 2 ∨ c.opBytes = 4 :=
  (opBytes_cases c).symm.imp And.right And.right

theorem pushReturn_ok {n : Nat} {ret : Dword} {sp sp' : Span} {v : State} (ht : Touched s t)
    (h : operandSpan .ss (s.stackBelow n) n .write t = .ok sp u)
    (h' : operandSpan .ss (s.stackBelow (2 * n)) n .write u = .ok sp' v) :
    pushReturn n ret t = .ok (s.returnPushes n ret sp sp') (v.afterSlot n) := by
  have hu : Touched s u := touched_trans ht (checked_operandSpan _ _ _ _ t sp u h)
  have hv : Touched s v := touched_trans hu (checked_operandSpan _ _ _ _ u sp' v h')
  have push : stackPrepare (2 * n) (toBytes n ret) u = .ok { span := sp', bytes := toBytes n ret } v := by
    refine memPrepare_ok (sp := sp') ?_
    rwa [toBytes_length, hu.stackBelow]
  have slot : selectorSlot n t.seg.cs.sel v = .ok (s.selectorBytes n s.seg.cs.sel) (v.afterSlot n) := by
    rw [selectorSlot_eq, ht.seg, State.selectorBytes, State.selectorBytes, hv.free]
  rw [← ht.stackBelow] at h
  exact (M_bind_ok h).trans ((M_bind_ok push).trans (M_bind_ok slot))

theorem storeAll_mem_congr (h : s.mem = t.mem) (sts : List Store) : (s.storeAll sts).mem = (t.storeAll sts).mem := by
  unfold State.storeAll
  induction sts generalizing s t with
  | nil => exact h
  | cons st r ih => exact ih (by simp [h])

theorem storeAll_append (s : State) (sts sts' : List Store) : s.storeAll (sts ++ sts') = (s.storeAll sts).storeAll sts' :=
  List.foldl_append

/-- The pushes of a far call and the mark of its segment, as one list of stores. -/
theorem pushes_marks_mem (s : State) (pushes marks : List Store) (k : Nat) :
    (((s.storeAll pushes).moveDown k).storeAll marks).mem = (s.storeAll (pushes ++ marks)).mem := by
  rw [storeAll_append]
  exact storeAll_mem_congr (State.moveDown_mem _ _) marks

@[simp] theorem State.afterSlot_run (s : State) (n : Nat) : (s.afterSlot n).run = s.run := by
  unfold State.afterSlot
  split <;> rfl

@[simp] theorem State.afterSlot_seg (s : State) (n : Nat) : (s.afterSlot n).seg = s.seg := by
  unfold State.afterSlot
  split <;> rfl

@[simp] theorem State.afterSlot_cpl (s : State) (n : Nat) : (s.afterSlot n).cpl = s.cpl := by
  unfold State.afterSlot
  split <;> rfl

@[simp] theorem accessedByte_afterSlot (s : State) (n : Nat) (l : List (Dword × Nat)) (a : Nat) :
    (s.afterSlot n).accessedByte l a ↔ s.accessedByte l a := by
  unfold State.afterSlot
  split <;> rfl

@[simp] theorem State.afterSlot_mem (s : State) (n : Nat) : (s.afterSlot n).mem = s.mem := by
  unfold State.afterSlot
  split <;> rfl

end

/-! ### How the instructions begin and end -/

/-- A far JMP or CALL with its pointer. -/
def FarInstr (isCall : Bool) (c : Ctx) (i : Instr) (off : Dword) (sel : Word) (reads : List (Dword × Nat))
    (s t : State) : Prop :=
  farOperand c (if isCall then .callFar c else .jmpFar c) (if isCall then .callFarMem c else .jmpFarMem c) i off sel
    reads s t

/-- What it does besides loading CS and EIP. -/
def farKind (isCall : Bool) (c : Ctx) (s : State) : FarKind :=
  if isCall then .call c.opBytes (s.nextPc c) else .jmp

namespace FarInstr

variable {isCall : Bool} {c : Ctx} {i : Instr} {off : Dword} {sel : Word} {reads : List (Dword × Nat)} {s t u : State}

theorem accessed (h : FarInstr isCall c i off sel reads s t) : Accessed s reads t := by
  rcases h with ⟨o, -, -, rfl, rfl⟩ | ⟨ea, -, hp, rfl⟩
  · exact .refl t
  · exact (Accessed.refl s).farPointer hp

theorem jmp_continues (h : farOperand c (.jmpFar c) (.jmpFarMem c) i off sel reads s t) :
    Continues i s (farJump c sel off) t := by
  rcases h with ⟨o, rfl, rfl, -, rfl⟩ | ⟨ea, rfl, hp, -⟩
  · exact .here rfl
  · have reads : exec (.jmpFarMem c (.mem ea)) s = runInstr (do
        let (off, sel) ← farPointer c (.mem ea)
        farJump c sel off) s := rfl
    exact .after (a := (off, sel)) reads hp

theorem call_continues (h : farOperand c (.callFar c) (.callFarMem c) i off sel reads s t) :
    Continues i s (farCall c sel off) t := by
  rcases h with ⟨o, rfl, rfl, -, rfl⟩ | ⟨ea, rfl, hp, -⟩
  · exact .here rfl
  · have reads : exec (.callFarMem c (.mem ea)) s = runInstr (do
        let (off, sel) ← farPointer c (.mem ea)
        farCall c sel off) s := rfl
    exact .after (a := (off, sel)) reads hp

theorem continues (h : FarInstr isCall c i off sel reads s t) :
    Continues i s (do
      let e ← farTransfer (farKind isCall c s) sel off (s.nextPc c)
      pure e.completion) t := by
  have next := h.accessed.touched.nextPc c
  cases isCall with
  | false =>
    obtain ⟨body, he, hb⟩ := jmp_continues h
    refine ⟨body, he, hb.trans ?_⟩
    rw [farKind, ← next]
    rfl
  | true =>
    obtain ⟨body, he, hb⟩ := call_continues h
    refine ⟨body, he, hb.trans ?_⟩
    rw [farKind, ← next]
    rfl

theorem completes (h : FarInstr isCall c i off sel reads s t) (hv : s.flags.vm = false)
    (hf : farTransfer (farKind isCall c s) sel off (s.nextPc c) t = .ok .sameTask u) : exec i s = .next (s.ended u) :=
  h.continues.completes hv (M_bind_ok hf)

theorem completes_protected {pc : Dword} (h : FarInstr isCall c i off sel reads s t) (hv : s.flags.vm = false)
    (hp : s.pe = true)
    (hf : farProtected (farKind isCall c s) sel off (s.nextPc c) t = .ok .sameTask { u with pc := pc }) :
    exec i s = .next (s.ended { u.a31Freed with pc := pc }) := by
  refine h.completes hv ?_
  unfold farTransfer
  rw [M_bind_ok (getState_apply t), if_pos (h.accessed.touched.pe.trans hp), M_bind_ok hf]
  rfl

theorem completes_real {pc : Dword} (h : FarInstr isCall c i off sel reads s t) (hv : s.flags.vm = false)
    (hp : s.pe = false) (hf : farReal (farKind isCall c s) sel off t = .ok () { u with pc := pc }) :
    exec i s = .next (s.ended { u.a31Freed with pc := pc }) := by
  refine h.completes hv ?_
  have real : ¬t.pe = true := by simp [h.accessed.touched.pe, hp]
  unfold farTransfer
  rw [M_bind_ok (getState_apply t), if_neg real]
  exact (M_bind_ok hf).trans rfl

theorem raises (h : FarInstr isCall c i off sel reads s t) (hv : s.flags.vm = false) (hp : s.pe = true) {e : Event}
    (hf : farProtected (farKind isCall c s) sel off (s.nextPc c) t = .error (.exc e) u) : exec i s = raised e u := by
  refine h.continues.raises hv (M_bind_error ?_)
  unfold farTransfer
  rw [M_bind_ok (getState_apply t), if_pos (h.accessed.touched.pe.trans hp), M_bind_error hf]

end FarInstr

/-- Settles O34: JMP stores nothing; CALL makes two pushes. -/
theorem farTransferReal : Obligations.FarTransferReal := by
  unfold Obligations.FarTransferReal
  intro c i off sel reads s t hv hp
  refine ⟨fun h => ?_, fun h sp sp' u v => ?_⟩
  · replace h : FarInstr false c i off sel reads s t := h
    exact ⟨h.completes_real hv hp rfl, h.accessed.frame_of_mem (State.ended_mem _ _) fun _ => id⟩
  · replace h : FarInstr true c i off sel reads s t := h
    intro n hsp hsp' w
    have accessed := (h.accessed.span hsp).span hsp'
    have pushes := pushReturn_ok (ret := s.nextPc c) h.accessed.touched hsp hsp'
    have far : farReal (farKind true c s) sel off t = .ok () { (((v.afterSlot n).storeAll
        (s.returnPushes n (s.nextPc c) sp sp')).moveDown (2 * n)).setSeg .cs (s.seg.cs.realLoad sel) with pc := off } := by
      refine (M_bind_ok pushes).trans ?_
      rw [update_apply, State.afterSlot_seg, accessed.touched.seg]
    refine ⟨?_, ?_⟩
    · rw [h.completes_real hv hp far, State.a31Freed]
      simp only [State.setSeg_run, State.moveDown_run, State.storeAll_run, State.afterSlot_run]
      rfl
    · have mem : w.mem = ((v.afterSlot n).storeAll (s.returnPushes n (s.nextPc c) sp sp')).mem :=
        (State.ended_mem _ _).trans (State.moveDown_mem _ _)
      refine accessed.frame (mem.trans (storeAll_mem_congr (State.afterSlot_mem v n) _)) fun a => ?_
      rw [storesCover_returnPushes (opBytes_eq c)]
      exact Or.imp_left (accessedByte_mono (two_last_subset _ _ _) a)

/-! ### The end of a transfer that changes neither level nor stack (R338, R341) -/

section TransferSame

variable {kind : FarKind} {d : Descriptor} {sel : Word} {off : Dword} {pl : BitVec 2} {s t u : State}
  {marks : List Store}

theorem transferSame_beyond (h : d.holds off = false) :
    transferSame kind d sel off s = .error (.exc (faultWith s 0x0D#8 0x0000#16)) s.freed :=
  require_bind_exc h rfl

theorem loadCode_ok (hm : markAccessed d s = .ok marks t) :
    loadCode d sel pl s = .ok { reg := .cs, val := d.segReg (withRpl sel pl), marks := marks } t :=
  M_bind_ok hm

theorem transferSame_jmp (hpl : s.cpl = pl) (h : d.holds off = true) (hm : markAccessed d s = .ok marks t) :
    transferSame .jmp d sel off s =
      .ok () { (t.storeAll marks).setSeg .cs (d.segReg (withRpl sel pl)) with pc := off } := by
  subst hpl
  unfold transferSame
  rw [require_bind_ok h, M_bind_ok (getState_apply s)]
  refine (M_bind_ok (loadCode_ok hm)).trans ?_
  rw [update_apply, loadCs_same (checked_markAccessed d s marks t hm).cpl]

theorem transferSame_call {n : Nat} {ret : Dword} {pushes : List Store} (hpl : s.cpl = pl) (h : d.holds off = true)
    (hp : pushReturn n ret s = .ok pushes t) (htpl : t.cpl = pl) (hm : markAccessed d t = .ok marks u) :
    transferSame (.call n ret) d sel off s =
      .ok () { ((((u.storeAll pushes).moveDown (2 * n)).storeAll marks).setSeg .cs (d.segReg (withRpl sel pl))) with
        pc := off } := by
  subst hpl
  have level : ((u.storeAll pushes).moveDown (2 * n)).cpl = s.cpl := by
    rw [State.moveDown_cpl, State.storeAll_cpl, (checked_markAccessed d t marks u hm).cpl, htpl]
  unfold transferSame
  rw [require_bind_ok h, M_bind_ok (getState_apply s)]
  refine (M_bind_ok hp).trans ((M_bind_ok (loadCode_ok hm)).trans ?_)
  rw [update_apply, loadCs_same level]

end TransferSame

/-! ### The selector of a far transfer in protected mode (R338) -/

section FarProtected

variable {kind : FarKind} {d : Descriptor} {sel : Word} {off next : Dword} {s t : State}

theorem farProtected_null (h : selNull sel = true) :
    farProtected kind sel off next s = .error (.exc (faultWith s 0x0D#8 0x0000#16)) s.freed := by
  unfold farProtected
  rw [M_bind_ok (getState_apply s)]
  exact require_bind_exc (by simp [h]) rfl

theorem needDescriptor_unnamed {otherwise : M Descriptor} (h : s.lacksDescriptor sel = true) :
    needDescriptor sel otherwise s = otherwise s :=
  (M_bind_ok (a := none) (t := s) (by rw [readDescriptor_eq, if_pos h])).trans rfl

theorem farProtected_unnamed (hn : selNull sel = false) (h : s.lacksDescriptor sel = true) :
    farProtected kind sel off next s = .error (.exc (faultWith s 0x0D#8 (selErr sel false))) s.freed := by
  unfold farProtected
  rw [M_bind_ok (getState_apply s), require_bind_ok (by simp [hn])]
  exact M_bind_error (needDescriptor_unnamed h)

/-- Whether a direct transfer may enter a code segment (R338). -/
def Descriptor.entered (d : Descriptor) (pl : BitVec 2) : Prop :=
  d.dpl = pl ∨ (d.attr.conforming = true ∧ d.dpl ≤ pl)

theorem Descriptor.not_entered {pl : BitVec 2} (h : ¬d.entered pl) :
    (d.attr.conforming || decide (d.dpl = pl)) = false ∨ decide (d.dpl ≤ pl) = false := by
  unfold Descriptor.entered at h
  cases hc : d.attr.conforming <;> simp_all

theorem Descriptor.entered_conforming_or {pl : BitVec 2} (h : d.entered pl) :
    (d.attr.conforming || decide (d.dpl = pl)) = true := by
  rcases h with h | ⟨h, -⟩ <;> simp [h]

theorem Descriptor.entered_le {pl : BitVec 2} (h : d.entered pl) : d.dpl ≤ pl := by
  rcases h with h | ⟨-, h⟩
  · exact BitVec.le_of_eq h
  · exact h

theorem Descriptor.s_of_code (h : d.attr.code = true) : d.attr.s = true := by
  unfold SegAttr.code at h
  exact (Bool.and_eq_true_iff.mp h).1

section Code

variable (hn : selNull sel = false) (hd : readDescriptor sel s = .ok (some d) t) (hc : d.attr.code = true)

include hn hd hc

theorem farProtected_forbidden (h : ¬d.entered s.cpl) :
    farProtected kind sel off next s = .error (.exc (faultWith t 0x0D#8 (selErr sel false))) t.freed := by
  unfold farProtected
  rw [M_bind_ok (getState_apply s), require_bind_ok (by simp [hn]), M_bind_ok (needDescriptor_named hd),
    if_pos (Descriptor.s_of_code hc), require_bind_ok hc]
  cases hl : d.attr.conforming || decide (d.dpl = s.cpl) with
  | false => rfl
  | true =>
    have low := (Descriptor.not_entered h).resolve_left (by simp [hl])
    exact (require_bind_ok rfl).trans (require_bind_exc low rfl)

theorem farProtected_entered (h : d.entered s.cpl) :
    farProtected kind sel off next s =
      (do
        require d.present (raiseNP (selErr sel false))
        transferSame kind d sel off
        pure .sameTask : M FarEnd) t := by
  unfold farProtected
  rw [M_bind_ok (getState_apply s), require_bind_ok (by simp [hn]), M_bind_ok (needDescriptor_named hd),
    if_pos (Descriptor.s_of_code hc), require_bind_ok hc, require_bind_ok (Descriptor.entered_conforming_or h),
    require_bind_ok (decide_eq_true (Descriptor.entered_le h))]

end Code

theorem farProtected_other (hn : selNull sel = false) (hd : readDescriptor sel s = .ok (some d) t)
    (hc : d.attr.code = false)
    (hk : d.kind ∉ [0b01100#5, 0b00101#5, 0b01001#5, 0b00001#5, 0b00011#5, 0b00100#5]) :
    farProtected kind sel off next s = .error (.exc (faultWith t 0x0D#8 (selErr sel false))) t.freed := by
  simp only [List.mem_cons, List.not_mem_nil, or_false, not_or] at hk
  obtain ⟨hgate, htask, htss, h1, h3, h4⟩ := hk
  unfold farProtected
  rw [M_bind_ok (getState_apply s), require_bind_ok (by simp [hn]), M_bind_ok (needDescriptor_named hd)]
  cases hs : d.attr.s with
  | true => exact require_bind_exc hc rfl
  | false =>
    rw [if_neg (by simp), if_neg hgate, if_neg htask, if_neg htss, if_neg (by simp [h1, h3, h4])]
    rfl

end FarProtected

/-- Settles O36: the checks of the selector in their order, then the end that a transfer through a gate shares. -/
theorem farTransferSameLevel : Obligations.FarTransferSameLevel := by
  unfold Obligations.FarTransferSameLevel
  intro c i off sel reads s t hv hp h
  obtain ⟨isCall, h⟩ : ∃ isCall, FarInstr isCall c i off sel reads s t := h.elim (⟨false, ·⟩) (⟨true, ·⟩)
  refine ⟨fun hn => h.raises hv hp (farProtected_null hn),
    fun hn hl => h.raises hv hp (farProtected_unnamed hn hl), ?_⟩
  intro hn d u hd other level
  have cpl : t.cpl = s.cpl := h.accessed.touched.cpl
  have accessed := h.accessed.descriptor hd
  have named : (d.addr, 8) ∈ reads ++ s.descriptorAccess sel := List.mem_append_right _ (h.accessed.descriptor_mem hd)
  have cplu : u.cpl = s.cpl := accessed.touched.cpl
  have entered : level → d.entered t.cpl := fun hl => cpl ▸ hl.2
  refine ⟨fun ho => ?_, fun hc hl => ?_, fun hl ha => ?_, fun hl ha ho => ?_, ?_⟩
  · exact h.raises hv hp (farProtected_other hn hd ho.1 ho.2)
  · exact h.raises hv hp (farProtected_forbidden hn hd hc fun he => hl ⟨hc, cpl ▸ he⟩)
  · exact h.raises hv hp ((farProtected_entered hn hd hl.1 (entered hl)).trans (require_bind_exc ha rfl))
  · refine h.raises hv hp ((farProtected_entered hn hd hl.1 (entered hl)).trans ?_)
    exact (require_bind_ok ha).trans (M_bind_error (transferSame_beyond ho))
  intro hl ha ho cs
  refine ⟨?_, ?_⟩
  · intro hj marks v hm w
    replace hj : FarInstr false c i off sel reads s t := hj
    refine ⟨hj.completes_protected hv hp ((farProtected_entered hn hd hl.1 (entered hl)).trans ?_), ?_⟩
    · exact (require_bind_ok ha).trans (M_bind_ok (transferSame_jmp cplu ho hm))
    · exact (accessed.mark named hm).frame (State.ended_mem _ _) fun _ => id
  · intro hj sp sp' u1 u2 v marks n hsp hsp' hm pushes w
    replace hj : FarInstr true c i off sel reads s t := hj
    have spans := (accessed.span hsp).span hsp'
    have push := pushReturn_ok (ret := s.nextPc c) accessed.touched hsp hsp'
    have level : (u2.afterSlot n).cpl = s.cpl := (u2.afterSlot_cpl n).trans spans.touched.cpl
    refine ⟨hj.completes_protected hv hp ((farProtected_entered hn hd hl.1 (entered hl)).trans ?_), ?_⟩
    · exact (require_bind_ok ha).trans (M_bind_ok (transferSame_call cplu ho push level hm))
    · have marked := (spans.afterSlot n).mark (List.mem_append_left _ (List.mem_append_left _ named)) hm
      have mem : w.mem = (v.storeAll (pushes ++ marks)).mem :=
        (State.ended_mem _ _).trans (pushes_marks_mem v pushes marks _)
      refine marked.frame mem fun a => Or.imp_left fun ha => ?_
      exact accessedByte_mono (two_last_subset _ _ _) a ((accessedByte_afterSlot s n _ a).mp ha)

end Sys2Proof.Machine

namespace Sys2Proof.Machine

/-! ## Stores and the loads of segment registers -/

/-- Stores before or after a change that they do not meet. -/
theorem storeAll_comm {f : State → State} (hf : ∀ s st, (f s).store st = f (s.store st)) (s : State)
    (sts : List Store) : (f s).storeAll sts = f (s.storeAll sts) := by
  unfold State.storeAll
  induction sts generalizing s with
  | nil => rfl
  | cons st r ih => exact (congrArg (r.foldl State.store) (hf s st)).trans (ih (s.store st))

theorem storeAll_setSeg (s : State) (r : Sreg) (g : SegReg) (sts : List Store) :
    (s.setSeg r g).storeAll sts = (s.storeAll sts).setSeg r g :=
  storeAll_comm (f := fun s => s.setSeg r g) (fun _ _ => rfl) s sts

theorem storeAll_withCpl (s : State) (pl : BitVec 2) (sts : List Store) :
    { s with cpl := pl }.storeAll sts = { s.storeAll sts with cpl := pl } :=
  storeAll_comm (f := fun s => { s with cpl := pl }) (fun _ _ => rfl) s sts

/-! ## Far RET (41_control_transfer.md R350, R353, R356) -/

section FarReturn

variable {c : Ctx} {m : Word} {x : Instr × Nat} {n extra : Nat} {eip vcs : Dword} {s t u : State}

theorem retFar_continues (s : State) (hx : x ∈ [(.retFar c, 0), (.retFarImm c m, m.toNat)]) :
    Continues x.1 s (do
      farReturn c.opBytes x.2
      pure .plain) s := by
  simp only [List.mem_cons, List.not_mem_nil, or_false] at hx
  rcases hx with rfl | rfl
  · exact .here rfl
  · exact .here rfl

theorem frameCheck_ok (h : s.segOk .ss (s.stackOff 0) n .read = true) : frameCheck n s = .ok () s := by
  unfold frameCheck
  rw [M_bind_ok (getState_apply s), segCheck_eq, if_pos h]

theorem frameCheck_exc (h : s.segOk .ss (s.stackOff 0) n .read = false) :
    frameCheck n s = .error (.exc (faultWith s (s.segVector .ss .read) 0x0000#16)) s.freed := by
  unfold frameCheck
  rw [M_bind_ok (getState_apply s), segCheck_eq, if_neg (by simp [h])]

theorem segOk_real (hp : s.pe = false) (r : Sreg) (off : Dword) (n : Nat) (k : Access) :
    s.segOk r off n k = decide (off.toNat + n ≤ 65536) := by
  simp [State.segOk, hp]

theorem segVector_ss_real (hp : s.pe = false) (k : Access) : s.segVector .ss k = 0x0C#8 := by
  simp [State.segVector, hp]

theorem farReturn_popped (h : s.segOk .ss (s.stackOff 0) (2 * n) .read = true) (hip : stackRead 0 n s = .ok eip t)
    (hcs : stackRead n n t = .ok vcs u) :
    farReturn n extra s =
      (if s.pe then returnProtected n (2 * n) (extra + 2 * n) extra eip (lowWord vcs) id
       else update fun t =>
         { (t.moveUp (2 * n + extra)).setSeg .cs (t.seg.cs.realLoad (lowWord vcs)) with pc := eip } : M Unit) u := by
  unfold farReturn
  rw [M_bind_ok (getState_apply s), M_bind_ok (frameCheck_ok h), M_bind_ok hip, M_bind_ok hcs]

end FarReturn

/-- Settles O35: the test of the whole frame, then the two pops. -/
theorem farReturnReal : Obligations.FarReturnReal := by
  unfold Obligations.FarReturnReal
  intro c m x s hx hv hp n
  have continues := retFar_continues s hx
  refine ⟨fun beyond => ?_, ?_⟩
  · have exc := frameCheck_exc (n := 2 * n) ((segOk_real hp _ _ _ _).trans (decide_eq_false (Nat.not_le.mpr beyond)))
    rw [segVector_ss_real hp] at exc
    have frame : farReturn n x.2 s = .error (.exc (faultWith s 0x0C#8 0x0000#16)) s.freed :=
      (M_bind_ok (getState_apply s)).trans (M_bind_error exc)
    exact continues.raises hv (M_bind_error frame)
  · intro within t u eip vcs hip hcs w
    have ok := (segOk_real hp .ss (s.stackOff 0) (2 * n) .read).trans (decide_eq_true within)
    have accessed := ((Accessed.refl s).stackRead hip).stackRead hcs
    have returns := farReturn_popped (extra := x.2) ok hip hcs
    rw [if_neg (by simp [hp]), update_apply, accessed.touched.seg] at returns
    refine ⟨continues.completes hv (M_bind_ok returns), ?_⟩
    exact accessed.frame_of_mem ((State.ended_mem _ _).trans (State.moveUp_mem _ _)) fun _ => id

/-! ### In protected mode -/

section ReturnProtected

variable {n frame skip extra : Nat} {eip vsp vss : Dword} {ncs nss : Word} {level : BitVec 2} {d sd : Descriptor}
  {marks ssMarks : List Store} {s t u v v1 v2 v3 v4 v5 : State}

theorem returnCode_inner (h : selRpl ncs < s.cpl) :
    returnCode ncs s = .error (.exc (faultWith s 0x0D#8 (selErr ncs false))) s.freed := by
  unfold returnCode
  rw [M_bind_ok (getState_apply s)]
  exact require_bind_exc (decide_eq_false (BitVec.not_le.mpr h)) rfl

theorem returnCode_ok (hpl : s.cpl ≤ selRpl ncs) (hn : selNull ncs = false)
    (hd : readDescriptor ncs s = .ok (some d) t) (hc : d.attr.code = true) (hl : d.entered (selRpl ncs))
    (hp : d.present = true) : returnCode ncs s = .ok d t := by
  unfold returnCode
  rw [M_bind_ok (getState_apply s), require_bind_ok (decide_eq_true hpl), require_bind_ok (by simp [hn]),
    M_bind_ok (needDescriptor_named hd), require_bind_ok hc, require_bind_ok (Descriptor.entered_conforming_or hl),
    require_bind_ok (decide_eq_true (Descriptor.entered_le hl)), require_bind_ok hp]
  rfl

theorem returnStack_ok (hn : selNull nss = false) (hd : readDescriptor nss s = .ok (some sd) t)
    (hw : sd.attr.writable = true) (hdpl : sd.dpl = level) (hrpl : selRpl nss = level) (hp : sd.present = true) :
    returnStack nss level s = .ok sd t := by
  unfold returnStack
  rw [require_bind_ok (by simp [hn]), M_bind_ok (needDescriptor_named hd), require_bind_ok hw,
    require_bind_ok (decide_eq_true hdpl), require_bind_ok (decide_eq_true (hrpl.trans hdpl.symm)), require_bind_ok hp]
  rfl

theorem returnProtected_same (hcode : returnCode ncs s = .ok d t) (hl : selRpl ncs = s.cpl) (hin : d.holds eip = true)
    (hm : markAccessed d t = .ok marks u) (hu : u.cpl = s.cpl) :
    returnProtected n frame skip extra eip ncs id s =
      .ok () { ((u.moveUp (frame + extra)).storeAll marks).setSeg .cs (d.segReg (withRpl ncs (selRpl ncs))) with
        pc := eip } := by
  have level : (u.moveUp (frame + extra)).cpl = selRpl ncs := by rw [State.moveUp_cpl, hu, hl]
  unfold returnProtected
  rw [M_bind_ok (getState_apply s), M_bind_ok hcode, if_pos hl, require_bind_ok hin, M_bind_ok (loadCode_ok hm),
    update_apply, loadCs_same level]
  rfl

/-- CS, then SS, loaded for an outer level. -/
theorem loadCs_load {g gss : SegReg} (s : State) :
    (s.loadCs { reg := .cs, val := g, marks := marks } level).load { reg := .ss, val := gss, marks := ssMarks } =
      { ((s.storeAll (marks ++ ssMarks)).setSeg .cs g).setSeg .ss gss with cpl := level } := by
  unfold State.loadCs State.load
  rw [storeAll_withCpl, storeAll_setSeg, ← storeAll_append]
  rfl

theorem returnProtected_outer (hcode : returnCode ncs s = .ok d v) (hl : selRpl ncs ≠ s.cpl)
    (hframe : v.segOk .ss (v.stackOff 0) (skip + 2 * n) .read = true) (hsp : stackRead skip n v = .ok vsp v1)
    (hss : stackRead (skip + n) n v1 = .ok vss v2) (hst : returnStack (lowWord vss) (selRpl ncs) v2 = .ok sd v3)
    (hin : d.holds eip = true) (hm : markAccessed d v3 = .ok marks v4) (hms : markAccessed sd v4 = .ok ssMarks v5) :
    returnProtected n frame skip extra eip ncs id s =
      .ok () { State.nullOuter ((((v5.storeAll (marks ++ ssMarks)).setSeg .cs (d.segReg (withRpl ncs (selRpl ncs)))).setSeg
        .ss (sd.segReg (lowWord vss))).setReg .esp (v5.outerEsp n vsp extra)) (selRpl ncs) with
          cpl := selRpl ncs, pc := eip } := by
  unfold returnProtected
  rw [M_bind_ok (getState_apply s), M_bind_ok hcode, if_neg hl, M_bind_ok (frameCheck_ok hframe), M_bind_ok hsp,
    M_bind_ok hss, M_bind_ok hst, require_bind_ok hin, M_bind_ok (loadCode_ok hm), M_bind_ok hms, update_apply]
  simp only [loadCs_load]
  rfl

end ReturnProtected

/-- Settles O38: the pops and the tests of the code selector, then the end at the same level or at an outer one. -/
theorem farReturnProtected : Obligations.FarReturnProtected := by
  unfold Obligations.FarReturnProtected
  intro c m x s t u eip vcs hx hv hp n hok hip hcs ncs level
  have continues := retFar_continues s hx
  have popped := ((Accessed.refl s).stackRead hip).stackRead hcs
  have returns : farReturn n x.2 s = returnProtected n (2 * n) (x.2 + 2 * n) x.2 eip ncs id u :=
    (farReturn_popped hok hip hcs).trans (by rw [if_pos hp])
  have cplu : u.cpl = s.cpl := popped.touched.cpl
  refine ⟨fun hin => ?_, ?_⟩
  · refine continues.raises hv (M_bind_error (returns.trans ?_))
    exact (M_bind_ok (getState_apply u)).trans (M_bind_error (returnCode_inner (cplu ▸ hin)))
  · intro hn d v hd hc hl hpr hin cs reads
    have accessed := popped.descriptor hd
    have named := popped.descriptor_mem hd
    have code : s.cpl ≤ level → returnCode ncs u = .ok d v := fun h => returnCode_ok (cplu ▸ h) hn hd hc hl hpr
    refine ⟨?_, ?_⟩
    · intro same marks v1 hm w
      have marked := accessed.mark (List.mem_append_right _ named) hm
      have ok := returnProtected_same (n := n) (frame := 2 * n) (skip := x.2 + 2 * n) (extra := x.2)
        (code (BitVec.le_of_eq same.symm)) (same.trans cplu.symm) hin hm (marked.touched.cpl.trans cplu.symm)
      refine ⟨continues.completes hv (M_bind_ok (returns.trans ok)), marked.frame ?_ fun _ => id⟩
      exact (State.ended_mem _ _).trans (storeAll_mem_congr (State.moveUp_mem _ _) marks)
    · intro outer vsp vss sd marks ssMarks v1 v2 v3 v4 v5 k nss hframe hsp hss hnn hsd hw hdpl hrpl hspr hm hms esp w
      have read := (accessed.stackRead hsp).stackRead hss
      have stack := read.descriptor hsd
      have marked := (stack.mark (by simp [named]) hm).mark (by simp [read.descriptor_mem hsd]) hms
      have ne : selRpl ncs ≠ u.cpl := cplu ▸ (BitVec.ne_of_lt outer).symm
      have ok := returnProtected_outer (frame := 2 * n) (extra := x.2) (code (BitVec.le_of_lt outer)) ne
        (accessed.touched.stackOff 0 ▸ hframe) hsp hss (returnStack_ok hnn hsd hw hdpl hrpl hspr) hin hm hms
      rw [State.outerEsp, marked.touched.gpr] at ok
      refine ⟨continues.completes hv (M_bind_ok (returns.trans ok)), ?_⟩
      refine (marked.mono ?_).frame (sts := marks ++ ssMarks) (State.ended_mem _ _) fun _ => id
      simp [reads]

end Sys2Proof.Machine

namespace Sys2Proof.Machine

/-! ## Far JMP and CALL through a call gate (41_control_transfer.md R341, R344, R345) -/

theorem Descriptor.s_eq_kind (d : Descriptor) : d.attr.s = d.kind.getLsbD 4 := by
  simp [Descriptor.attr, Descriptor.kind]

theorem farProtected_gate {kind : FarKind} {gate : Descriptor} {sel : Word} {off next : Dword} {s t : State}
    (hn : selNull sel = false) (hd : readDescriptor sel s = .ok (some gate) t) (hk : gate.kind = 0b01100#5) :
    farProtected kind sel off next s = (do
      gateTransfer kind gate sel
      pure .sameTask : M FarEnd) t := by
  have system : ¬gate.attr.s = true := by simp [Descriptor.s_eq_kind, hk]
  unfold farProtected
  rw [M_bind_ok (getState_apply s), require_bind_ok (by simp [hn]), M_bind_ok (needDescriptor_named hd), if_neg system,
    if_pos hk]

/-- A far JMP or CALL whose selector names a 386 call gate. -/
structure GateRead (isCall : Bool) (c : Ctx) (i : Instr) (off : Dword) (gsel : Word) (reads : List (Dword × Nat))
    (gate : Descriptor) (s t s1 : State) : Prop where
  instr : FarInstr isCall c i off gsel reads s t
  vm : s.flags.vm = false
  pe : s.pe = true
  notNull : selNull gsel = false
  read : readDescriptor gsel t = .ok (some gate) s1
  kind : gate.kind = 0b01100#5

namespace GateRead

variable {isCall : Bool} {c : Ctx} {i : Instr} {off : Dword} {gsel : Word} {reads : List (Dword × Nat)} {gate : Descriptor}
  {s t s1 u : State}

theorem accessed (g : GateRead isCall c i off gsel reads gate s t s1) :
    Accessed s (reads ++ s.descriptorAccess gsel) s1 :=
  g.instr.accessed.descriptor g.read

theorem raises (g : GateRead isCall c i off gsel reads gate s t s1) {e : Event}
    (h : gateTransfer (farKind isCall c s) gate gsel s1 = .error (.exc e) u) : exec i s = raised e u :=
  g.instr.raises g.vm g.pe ((farProtected_gate g.notNull g.read g.kind).trans (M_bind_error h))

theorem completes {pc : Dword} (g : GateRead isCall c i off gsel reads gate s t s1)
    (h : gateTransfer (farKind isCall c s) gate gsel s1 = .ok () { u with pc := pc }) :
    exec i s = .next (s.ended { u.a31Freed with pc := pc }) :=
  g.instr.completes_protected g.vm g.pe ((farProtected_gate g.notNull g.read g.kind).trans (M_bind_ok h))

theorem completes_level {pl : BitVec 2} {pc : Dword} (g : GateRead isCall c i off gsel reads gate s t s1)
    (h : gateTransfer (farKind isCall c s) gate gsel s1 = .ok () { u with cpl := pl, pc := pc }) :
    exec i s = .next (s.ended { u.a31Freed with cpl := pl, pc := pc }) :=
  g.completes (u := { u with cpl := pl }) h

end GateRead

@[simp] theorem farKind_isCall (isCall : Bool) (c : Ctx) (s : State) : (farKind isCall c s).isCall = isCall := by
  cases isCall <;> rfl

/-! ### The checks of the gate and of the segment that it names (R341) -/

/-- Whether a transfer through a gate may enter a segment (R341). -/
def Descriptor.gateEntered (d : Descriptor) (isCall : Bool) (pl : BitVec 2) : Prop :=
  d.attr.code = true ∧ d.dpl ≤ pl ∧ (isCall = true ∨ d.attr.conforming = true ∨ d.dpl = pl)

/-- What a transfer through a gate does after those checks. -/
def gateEnd (kind : FarKind) (gate d : Descriptor) (pl : BitVec 2) : M Unit :=
  match kind with
  | .call _ ret =>
    if !d.attr.conforming && d.dpl < pl then interlevelCall d gate.gateSel gate.gateOff gate.gateCount ret
    else transferSame (.call 4 ret) d gate.gateSel gate.gateOff
  | .jmp => transferSame .jmp d gate.gateSel gate.gateOff

section Gate

variable {kind : FarKind} {gate d : Descriptor} {gsel : Word} {s t : State}

theorem gateTransfer_closed (h : ¬(s.cpl ≤ gate.dpl ∧ selRpl gsel ≤ gate.dpl)) :
    gateTransfer kind gate gsel s = .error (.exc (faultWith s 0x0D#8 (selErr gsel false))) s.freed := by
  unfold gateTransfer
  rw [M_bind_ok (getState_apply s)]
  exact require_bind_exc (decide_eq_false (maxPl_le_iff.not.mpr h)) rfl

section Open

variable (ho : s.cpl ≤ gate.dpl ∧ selRpl gsel ≤ gate.dpl)

include ho

theorem gateTransfer_absent (h : gate.present = false) :
    gateTransfer kind gate gsel s = .error (.exc (faultWith s 0x0B#8 (selErr gsel false))) s.freed := by
  unfold gateTransfer
  rw [M_bind_ok (getState_apply s), require_bind_ok (decide_eq_true (maxPl_le_iff.mpr ho))]
  exact require_bind_exc h rfl

variable (hp : gate.present = true)

include hp

theorem gateTransfer_null (h : selNull gate.gateSel = true) :
    gateTransfer kind gate gsel s = .error (.exc (faultWith s 0x0D#8 0x0000#16)) s.freed := by
  unfold gateTransfer
  rw [M_bind_ok (getState_apply s), require_bind_ok (decide_eq_true (maxPl_le_iff.mpr ho)), require_bind_ok hp]
  exact require_bind_exc (by simp [h]) rfl

variable (hn : selNull gate.gateSel = false)

include hn

theorem gateTransfer_unnamed (h : s.lacksDescriptor gate.gateSel = true) :
    gateTransfer kind gate gsel s = .error (.exc (faultWith s 0x0D#8 (selErr gate.gateSel false))) s.freed := by
  unfold gateTransfer
  rw [M_bind_ok (getState_apply s), require_bind_ok (decide_eq_true (maxPl_le_iff.mpr ho)), require_bind_ok hp,
    require_bind_ok (by simp [hn])]
  exact M_bind_error (needDescriptor_unnamed h)

variable (hd : readDescriptor gate.gateSel s = .ok (some d) t)

include hd

theorem gateTransfer_forbidden (h : ¬d.gateEntered kind.isCall s.cpl) :
    gateTransfer kind gate gsel s = .error (.exc (faultWith t 0x0D#8 (selErr gate.gateSel false))) t.freed := by
  unfold gateTransfer
  rw [M_bind_ok (getState_apply s), require_bind_ok (decide_eq_true (maxPl_le_iff.mpr ho)), require_bind_ok hp,
    require_bind_ok (by simp [hn]), M_bind_ok (needDescriptor_named hd)]
  by_cases hc : d.attr.code = true
  · rw [require_bind_ok hc]
    by_cases hl : kind.isCall = true ∨ d.attr.conforming = true ∨ d.dpl = s.cpl
    · rw [require_bind_ok (by simpa [or_assoc] using hl)]
      exact require_bind_exc (decide_eq_false fun hle => h ⟨hc, hle, hl⟩) rfl
    · exact require_bind_exc (by simpa [and_assoc] using hl) rfl
  · exact require_bind_exc (by simpa using hc) rfl

theorem gateTransfer_entered (h : d.gateEntered kind.isCall s.cpl) :
    gateTransfer kind gate gsel s = (do
      require d.present (raiseNP (selErr gate.gateSel false))
      gateEnd kind gate d s.cpl : M Unit) t := by
  obtain ⟨hc, hle, hl⟩ := h
  unfold gateTransfer
  rw [M_bind_ok (getState_apply s), require_bind_ok (decide_eq_true (maxPl_le_iff.mpr ho)), require_bind_ok hp,
    require_bind_ok (by simp [hn]), M_bind_ok (needDescriptor_named hd), require_bind_ok hc,
    require_bind_ok (by simpa [or_assoc] using hl), require_bind_ok (decide_eq_true hle)]
  cases kind <;> rfl

end Open

theorem gateEnd_call_same {n : Nat} {ret : Dword} {pl : BitVec 2} (h : d.attr.conforming = true ∨ d.dpl = pl) :
    gateEnd (.call n ret) gate d pl = transferSame (.call 4 ret) d gate.gateSel gate.gateOff := by
  have outer : ¬(!d.attr.conforming && decide (d.dpl < pl)) = true := by
    rcases h with h | h <;> simp [h]
  exact if_neg outer

theorem gateEnd_call_inner {n : Nat} {ret : Dword} {pl : BitVec 2} (hc : d.attr.conforming = false) (h : d.dpl < pl) :
    gateEnd (.call n ret) gate d pl = interlevelCall d gate.gateSel gate.gateOff gate.gateCount ret :=
  if_pos (by simp [hc, h])

end Gate

/-- A far JMP or CALL through a gate that it may use and that names a segment. -/
structure GateTarget (isCall : Bool) (c : Ctx) (i : Instr) (off : Dword) (gsel : Word) (reads : List (Dword × Nat))
    (gate d : Descriptor) (s t s1 s2 : State) : Prop extends GateRead isCall c i off gsel reads gate s t s1 where
  opened : s.cpl ≤ gate.dpl ∧ selRpl gsel ≤ gate.dpl
  present : gate.present = true
  targetNotNull : selNull gate.gateSel = false
  target : readDescriptor gate.gateSel s1 = .ok (some d) s2

namespace GateTarget

variable {isCall : Bool} {c : Ctx} {i : Instr} {off : Dword} {gsel : Word} {reads : List (Dword × Nat)}
  {gate d : Descriptor} {s t s1 s2 : State}

theorem accessed (g : GateTarget isCall c i off gsel reads gate d s t s1 s2) :
    Accessed s (reads ++ s.descriptorAccess gsel ++ s.descriptorAccess gate.gateSel) s2 :=
  g.toGateRead.accessed.descriptor g.target

theorem descriptor_mem (g : GateTarget isCall c i off gsel reads gate d s t s1 s2) :
    (d.addr, 8) ∈ s.descriptorAccess gate.gateSel :=
  g.toGateRead.accessed.descriptor_mem g.target

theorem level (g : GateTarget isCall c i off gsel reads gate d s t s1 s2) : s1.cpl = s.cpl :=
  g.toGateRead.accessed.touched.cpl

theorem entered (g : GateTarget isCall c i off gsel reads gate d s t s1 s2) (h : d.gateEntered isCall s.cpl) :
    gateTransfer (farKind isCall c s) gate gsel s1 = (do
      require d.present (raiseNP (selErr gate.gateSel false))
      gateEnd (farKind isCall c s) gate d s.cpl : M Unit) s2 := by
  rw [← g.level] at h ⊢
  exact gateTransfer_entered (g.level ▸ g.opened) g.present g.targetNotNull g.target ((farKind_isCall isCall c s).symm ▸ h)

theorem forbidden (g : GateTarget isCall c i off gsel reads gate d s t s1 s2) (h : ¬d.gateEntered isCall s.cpl) :
    exec i s = raised (faultWith s2 0x0D#8 (selErr gate.gateSel false)) s2.freed := by
  rw [← g.level, ← farKind_isCall isCall c s] at h
  exact g.raises (gateTransfer_forbidden (g.level ▸ g.opened) g.present g.targetNotNull g.target h)

theorem absent (g : GateTarget isCall c i off gsel reads gate d s t s1 s2) (h : d.gateEntered isCall s.cpl)
    (hp : d.present = false) : exec i s = raised (faultWith s2 0x0B#8 (selErr gate.gateSel false)) s2.freed :=
  g.raises ((g.entered h).trans (require_bind_exc hp rfl))

theorem same (g : GateTarget isCall c i off gsel reads gate d s t s1 s2) (h : d.gateEntered isCall s.cpl)
    (hp : d.present = true) (hl : d.attr.conforming = true ∨ d.dpl = s.cpl) :
    gateTransfer (farKind isCall c s) gate gsel s1 =
      transferSame (if isCall then .call 4 (s.nextPc c) else .jmp) d gate.gateSel gate.gateOff s2 := by
  rw [g.entered h, require_bind_ok hp]
  cases isCall with
  | false => rfl
  | true => exact congrFun (gateEnd_call_same hl) s2

theorem inner (g : GateTarget true c i off gsel reads gate d s t s1 s2) (hc : d.attr.code = true)
    (hconf : d.attr.conforming = false) (hl : d.dpl < s.cpl) (hp : d.present = true) :
    gateTransfer (farKind true c s) gate gsel s1 =
      interlevelCall d gate.gateSel gate.gateOff gate.gateCount (s.nextPc c) s2 := by
  rw [g.entered ⟨hc, BitVec.le_of_lt hl, .inl rfl⟩, require_bind_ok hp]
  exact congrFun (gateEnd_call_inner hconf hl) s2

end GateTarget

/-! ### The accesses of a call to a more privileged level (R344, R345) -/

theorem innerStack_short {n : BitVec 2} {ext : Bool} {s : State} (h : s.tr.limit.toNat < 8 * n.toNat + 9) :
    innerStack n ext s = .error (.exc (faultWith s 0x0A#8 (selErr s.tr.sel ext))) s.freed := by
  unfold innerStack
  rw [M_bind_ok (getState_apply s)]
  exact require_bind_exc (decide_eq_false (Nat.not_le.mpr h)) rfl

namespace Accessed

variable {s t u : State} {l : List (Dword × Nat)}

theorem of_mem_eq (h : Accessed s l t) (ht : Touched t u) (hm : u.mem = t.mem) : Accessed s l u :=
  ⟨touched_trans h.touched ht, fun hw => quiet_trans (h.quiet hw) (quiet_of_mem ht hm)⟩

theorem innerStack {n : BitVec 2} {ext : Bool} {nesp : Dword} {nss : Word} (h : Accessed s l t)
    (hi : Machine.innerStack n ext t = .ok (nesp, nss) u) :
    let tss := s.tr.base + BitVec.ofNat 32 (8 * n.toNat)
    Accessed s (l ++ [(tss + 0x00000004#32, 4), (tss + 0x00000008#32, 2)]) u := by
  have at_ : ∀ k, s.tr.base + BitVec.ofNat 32 (k + 8 * n.toNat) =
      s.tr.base + BitVec.ofNat 32 (8 * n.toNat) + BitVec.ofNat 32 k := fun k => by
    rw [Nat.add_comm, BitVec.ofNat_add, BitVec.add_assoc]
  by_cases hl : 8 * n.toNat + 9 ≤ t.tr.limit.toNat
  · unfold Machine.innerStack at hi
    rw [M_bind_ok (getState_apply t), require_bind_ok (decide_eq_true hl), h.touched.tr, at_, at_] at hi
    obtain ⟨esp, x, hesp, hi⟩ := M_bind_eq_ok hi
    obtain ⟨ss, y, hss, hi⟩ := M_bind_eq_ok hi
    cases hi
    simpa using (h.sysRead hesp).sysRead hss
  · rw [innerStack_short (Nat.not_le.mp hl)] at hi
    cases hi

theorem readParams {i n : Nat} {params : List Dword} (h : Accessed s l t) (hp : s.pe = true)
    (hr : Machine.readParams i n t = .ok params u) :
    Accessed s (l ++ (List.range' i n).map fun k => (s.linear .ss (s.stackOff (4 * k)), 4)) u := by
  induction n generalizing i t l params with
  | zero =>
    cases hr
    simpa using h
  | succ n ih =>
    have off : t.gpr.esp + BitVec.ofNat 32 (4 * i) = s.stackOff (4 * i) := by
      rw [h.touched.gpr, State.stackOff, if_pos hp]
    rw [Machine.readParams, M_bind_ok (getState_apply t)] at hr
    obtain ⟨v, x, hv, hr⟩ := M_bind_eq_ok hr
    obtain ⟨rest, y, hrest, hr⟩ := M_bind_eq_ok hr
    cases hr
    have first := h.memReadAbove hv
    rw [off] at first
    simpa [List.range'_succ] using ih first hrest

theorem innerPushes {g : SegReg} {top : Dword} {items : List (List Byte)} {sts : List Store} (h : Accessed s l t)
    (hb : ∀ b ∈ items, b.length = 4) (hr : Machine.innerPushes g top items t = .ok sts u) :
    Accessed s (l ++ (List.range items.length).map fun k => (g.base + (top - BitVec.ofNat 32 (4 * (k + 1))), 4)) u := by
  induction items generalizing top t l sts with
  | nil =>
    cases hr
    simpa using h
  | cons b r ih =>
    have below : ∀ k, top - 4#32 - BitVec.ofNat 32 (4 * (k + 1)) = top - BitVec.ofNat 32 (4 * (k + 1 + 1)) := fun k => by
      rw [BitVec.sub_sub, ← BitVec.ofNat_add]
      congr 2
      omega
    obtain ⟨sp, x, hsp, hr⟩ := M_bind_eq_ok hr
    rw [M_bind_ok (update_apply _ x)] at hr
    obtain ⟨rest, y, hrest, hr⟩ := M_bind_eq_ok hr
    cases hr
    rw [hb b List.mem_cons_self] at hsp hrest
    have first := (h.access (checked_translate _ _ _ _ t sp x hsp) fun hw => translate_quiet hw hsp).of_mem_eq
      (u := x.recordAccess (g.base + (top - 4#32)) 4 true) rfl rfl
    have all := ih first (fun b' hb' => hb b' (List.mem_cons_of_mem b hb')) hrest
    simpa [List.range_succ_eq_map, Function.comp_def, below] using all

end Accessed

theorem readParams_length {i n : Nat} {params : List Dword} {s t : State} (h : readParams i n s = .ok params t) :
    params.length = n := by
  induction n generalizing i s params with
  | zero => cases h; rfl
  | succ n ih =>
    rw [readParams, M_bind_ok (getState_apply s)] at h
    obtain ⟨v, x, -, h⟩ := M_bind_eq_ok h
    obtain ⟨rest, y, hrest, h⟩ := M_bind_eq_ok h
    cases h
    rw [List.length_cons, ih hrest]

/-! ### The call to a more privileged level (R345) -/

section InnerStack

variable {n : BitVec 2} {ext : Bool} {nss : Word} {sd : Descriptor} {wrongDpl : M Unit} {s t : State}

theorem innerStackSeg_none (h : selNull nss = true ∨ s.lacksDescriptor nss = true) :
    innerStackSeg nss n ext wrongDpl s = .error (.exc (faultWith s 0x0A#8 (selErr nss ext))) s.freed := by
  unfold innerStackSeg
  cases hn : selNull nss with
  | true => rfl
  | false =>
    exact (require_bind_ok rfl).trans (M_bind_error (needDescriptor_unnamed (h.resolve_left (by simp [hn]))))

section Named

variable (hn : selNull nss = false) (hd : readDescriptor nss s = .ok (some sd) t)

include hn hd

theorem innerStackSeg_unfit (h : selRpl nss ≠ n ∨ sd.attr.writable = false) :
    innerStackSeg nss n ext wrongDpl s = .error (.exc (faultWith t 0x0A#8 (selErr nss ext))) t.freed := by
  unfold innerStackSeg
  rw [require_bind_ok (by simp [hn]), M_bind_ok (needDescriptor_named hd)]
  by_cases hr : selRpl nss = n
  · rw [require_bind_ok (decide_eq_true hr)]
    exact require_bind_exc (h.resolve_left (not_not_intro hr)) rfl
  · exact require_bind_exc (decide_eq_false hr) rfl

variable (hr : selRpl nss = n) (hw : sd.attr.writable = true)

include hr hw

theorem innerStackSeg_wrongDpl {e : Err} {u : State} (h : sd.dpl ≠ n) (hx : wrongDpl t = .error e u) :
    innerStackSeg nss n ext wrongDpl s = .error e u := by
  unfold innerStackSeg
  rw [require_bind_ok (by simp [hn]), M_bind_ok (needDescriptor_named hd), require_bind_ok (decide_eq_true hr),
    require_bind_ok hw]
  exact require_bind_exc (decide_eq_false h) hx

theorem innerStackSeg_level (hl : sd.dpl = n) :
    innerStackSeg nss n ext wrongDpl s = (do
      require sd.present (raiseSS (selErr nss ext))
      pure sd : M Descriptor) t := by
  unfold innerStackSeg
  rw [require_bind_ok (by simp [hn]), M_bind_ok (needDescriptor_named hd), require_bind_ok (decide_eq_true hr),
    require_bind_ok hw, require_bind_ok (decide_eq_true hl)]

end Named

end InnerStack

section InterlevelCall

variable {d sd : Descriptor} {tsel nss : Word} {off ret nesp : Dword} {count : Nat} {s t u s5 s6 s7 s8 : State} {e : Err}
  {params : List Dword} {ssMarks csMarks pushes : List Store}

/-- The pushes on the new stack, the first the highest (R345 step 6). -/
def State.callItems (s : State) (params : List Dword) (ret : Dword) : List (List Byte) :=
  [toBytes 4 (withLowWord s.free.head s.seg.ss.sel), toBytes 4 s.gpr.esp] ++ params.reverse.map (toBytes 4)
    ++ [toBytes 4 (withLowWord s.free.next.head s.seg.cs.sel), toBytes 4 ret]

theorem callItems_length (s : State) (params : List Dword) (ret : Dword) :
    (s.callItems params ret).length = params.length + 4 := by
  simp [State.callItems]

theorem length_of_mem_callItems {b : List Byte} (h : b ∈ s.callItems params ret) : b.length = 4 := by
  simp only [State.callItems, List.mem_append, List.mem_cons, List.not_mem_nil, or_false, List.mem_map] at h
  rcases h with ((rfl | rfl) | ⟨v, -, rfl⟩) | rfl | rfl <;> exact toBytes_length 4 _

/-- SS, then CS, loaded for an inner level, then the pushes. -/
theorem load_loadCs_storeAll {g gss : SegReg} {level : BitVec 2} (s : State) :
    ((s.load { reg := .ss, val := gss, marks := ssMarks }).loadCs { reg := .cs, val := g, marks := csMarks }
        level).storeAll pushes =
      { ((s.storeAll (ssMarks ++ csMarks ++ pushes)).setSeg .ss gss).setSeg .cs g with cpl := level } := by
  unfold State.loadCs State.load
  rw [storeAll_withCpl, storeAll_setSeg, storeAll_setSeg, storeAll_setSeg, storeAll_append, storeAll_append]

theorem interlevelCall_short (h : s.tr.limit.toNat < 8 * d.dpl.toNat + 9) :
    interlevelCall d tsel off count ret s = .error (.exc (faultWith s 0x0A#8 (selErr s.tr.sel false))) s.freed :=
  M_bind_error (innerStack_short h)

section Stack

variable (hi : innerStack d.dpl false s = .ok (nesp, nss) t)

include hi

theorem interlevelCall_stack_exc (h : innerStackSeg nss d.dpl false (raiseSS 0x0000#16) t = .error e u) :
    interlevelCall d tsel off count ret s = .error e u :=
  (M_bind_ok hi).trans (M_bind_error h)

variable (hs : innerStackSeg nss d.dpl false (raiseSS 0x0000#16) t = .ok sd u)

include hs

theorem interlevelCall_room
    (h : (sd.segReg nss).inLimit (nesp - BitVec.ofNat 32 (16 + 4 * count)) (16 + 4 * count) = false) :
    interlevelCall d tsel off count ret s = .error (.exc (faultWith u 0x0C#8 (selErr nss false))) u.freed :=
  (M_bind_ok hi).trans ((M_bind_ok hs).trans (require_bind_exc h rfl))

variable (hroom : (sd.segReg nss).inLimit (nesp - BitVec.ofNat 32 (16 + 4 * count)) (16 + 4 * count) = true)

include hroom

theorem interlevelCall_beyond (h : d.holds off = false) :
    interlevelCall d tsel off count ret s = .error (.exc (faultWith u 0x0D#8 0x0000#16)) u.freed :=
  (M_bind_ok hi).trans ((M_bind_ok hs).trans ((require_bind_ok hroom).trans (require_bind_exc h rfl)))

theorem interlevelCall_ok (hin : d.holds off = true) (hp : readParams 0 count u = .ok params s5)
    (hms : markAccessed sd s5.freed.freed = .ok ssMarks s6) (hm : markAccessed d s6 = .ok csMarks s7)
    (hpush : innerPushes (sd.segReg nss) nesp (s5.callItems params ret) s7 = .ok pushes s8) :
    interlevelCall d tsel off count ret s =
      .ok () { (((s8.storeAll (ssMarks ++ csMarks ++ pushes)).setSeg .ss (sd.segReg nss)).setSeg .cs
        (d.segReg (withRpl tsel d.dpl))).setReg .esp (nesp - BitVec.ofNat 32 (16 + 4 * count)) with
          cpl := d.dpl, pc := off } := by
  have slots : ∀ (sel : Word) (x : State),
      selectorSlot 4 sel x = .ok (toBytes 4 (withLowWord x.free.head sel)) x.freed := selectorSlot_eq 4
  refine (M_bind_ok hi).trans ((M_bind_ok hs).trans ((require_bind_ok hroom).trans ((require_bind_ok hin).trans ?_)))
  refine (M_bind_ok hp).trans ((M_bind_ok (getState_apply s5)).trans ?_)
  refine (M_bind_ok (slots _ _)).trans ((M_bind_ok (slots _ _)).trans ?_)
  refine (M_bind_ok hms).trans ((M_bind_ok (loadCode_ok hm)).trans ((M_bind_ok hpush).trans ?_))
  simp only [update_apply, load_loadCs_storeAll]
  rfl

end Stack

end InterlevelCall

/-- Settles O37: the gate's checks, then the end of a transfer at the same level or the call to the inner one. -/
theorem interlevelCall_holds : Obligations.InterlevelCall := by
  unfold Obligations.InterlevelCall
  refine ⟨?_, ?_⟩
  · intro c i isCall off gsel reads gate s t s1 hv hp h hn hd hk tsel gp np open_
    have g : GateRead isCall c i off gsel reads gate s t s1 := ⟨h, hv, hp, hn, hd, hk⟩
    have opened : open_ → s1.cpl ≤ gate.dpl ∧ selRpl gsel ≤ gate.dpl := fun ho => g.accessed.touched.cpl ▸ ho
    refine ⟨fun ho => ?_, fun ho ha => ?_, fun ho ha => ⟨fun htn => ?_, fun htn hl => ?_, ?_⟩⟩
    · exact g.raises (gateTransfer_closed (g.accessed.touched.cpl ▸ ho))
    · exact g.raises (gateTransfer_absent (opened ho) ha)
    · exact g.raises (gateTransfer_null (opened ho) ha htn)
    · exact g.raises (gateTransfer_unnamed (opened ho) ha htn hl)
    intro htn d s2 htd level same cs accesses
    replace g : GateTarget isCall c i off gsel reads gate d s t s1 s2 := ⟨g, ho, ha, htn, htd⟩
    have cpl : s2.cpl = s.cpl := g.accessed.touched.cpl
    have named : (d.addr, 8) ∈ accesses := List.mem_append_right _ g.descriptor_mem
    have ends := fun hs : same => g.same hs.1 hs.2.1 hs.2.2
    refine ⟨g.forbidden, g.absent, fun hs hin => ?_, fun hs hin hj marks v hm => ?_, fun hs hin hj => ?_⟩
    · exact g.raises ((ends hs).trans (transferSame_beyond hin))
    · subst hj
      refine ⟨g.completes ((ends hs).trans (transferSame_jmp cpl hin hm)), ?_⟩
      exact (g.accessed.mark named hm).frame (State.ended_mem _ _) fun _ => id
    · subst hj
      intro sp sp' u1 u2 v marks hsp hsp' hm pushes w
      have spans := (g.accessed.span hsp).span hsp'
      have push := pushReturn_ok (ret := s.nextPc c) g.accessed.touched hsp hsp'
      refine ⟨g.completes ((ends hs).trans (transferSame_call cpl hin push spans.touched.cpl hm)), ?_⟩
      have marked := spans.freed.mark (List.mem_append_left _ (List.mem_append_left _ named)) hm
      have mem : w.mem = (v.storeAll (pushes ++ marks)).mem :=
        (State.ended_mem _ _).trans (pushes_marks_mem v pushes marks _)
      exact marked.frame mem fun a => Or.imp_left (accessedByte_mono (two_last_subset _ _ _) a)
  · intro c i off gsel reads s t s1 s2 gate d hv hp h hn hd hk ha hgd hgr htn htd hc hconf hlt hpr ts sf need
    have g : GateTarget true c i off gsel reads gate d s t s1 s2 := ⟨⟨h, hv, hp, hn, hd, hk⟩, ⟨hgd, hgr⟩, ha, htn, htd⟩
    have inner := g.inner hc hconf hlt hpr
    have raises : ∀ {e : Event} {u : State},
        interlevelCall d gate.gateSel gate.gateOff gate.gateCount (s.nextPc c) s2 = .error (.exc e) u →
          exec i s = raised e u := fun he => g.raises (inner.trans he)
    refine ⟨fun hs => ?_, fun nesp nss s3 hi => ⟨fun hno => ?_, fun sd s4 hsn hsd => ?_⟩⟩
    · rw [← g.accessed.touched.tr] at hs ⊢
      exact raises (interlevelCall_short hs)
    · exact raises (interlevelCall_stack_exc hi (innerStackSeg_none hno))
    intro room
    have seg : selRpl nss = d.dpl → sd.attr.writable = true → sd.dpl = d.dpl → sd.present = true →
        innerStackSeg nss d.dpl false (raiseSS 0x0000#16) s3 = .ok sd s4 := fun hr hw hl hsp =>
      (innerStackSeg_level hsn hsd hr hw hl).trans (require_bind_ok hsp)
    refine ⟨fun hun => ?_, fun hr hw hl => ?_, fun hr hw hl hno => ?_, fun hr hw hl hsp hroom => ⟨fun hout => ?_, ?_⟩⟩
    · exact raises (interlevelCall_stack_exc hi (innerStackSeg_unfit hsn hsd hun))
    · exact raises (interlevelCall_stack_exc hi (innerStackSeg_wrongDpl hsn hsd hr hw hl rfl))
    · cases hsp : sd.present with
      | false =>
        refine raises (interlevelCall_stack_exc hi ((innerStackSeg_level hsn hsd hr hw hl).trans ?_))
        exact require_bind_exc hsp rfl
      | true => exact raises (interlevelCall_room hi (seg hr hw hl hsp) (hno.resolve_left (by simp [hsp])))
    · exact raises (interlevelCall_beyond hi (seg hr hw hl hsp) hroom hout)
    intro hin s5 s6 s7 s8 params ssMarks csMarks pushes hparams hms hm hpush w tss
    replace hpush : innerPushes (sd.segReg nss) nesp (s.callItems params (s.nextPc c)) s7 = .ok pushes s8 := hpush
    have stack := g.accessed.innerStack hi
    have read := (stack.descriptor hsd).readParams hp hparams
    have hpush5 : innerPushes (sd.segReg nss) nesp (s5.callItems params (s.nextPc c)) s7 = .ok pushes s8 := by
      rwa [State.callItems, read.touched.free, read.touched.seg, read.touched.gpr]
    have ok := interlevelCall_ok (tsel := gate.gateSel) hi (seg hr hw hl hsp) hroom hin hparams hms hm hpush5
    refine ⟨g.completes_level (inner.trans ok), ?_⟩
    have marked := (read.freed.freed.mark (by simp [stack.descriptor_mem hsd]) hms).mark (by simp [g.descriptor_mem]) hm
    have all := marked.innerPushes (fun b => length_of_mem_callItems) hpush
    have count : (s.callItems params (s.nextPc c)).length = need / 4 := by
      rw [callItems_length, readParams_length hparams]
      omega
    rw [count, ← List.range_eq_range'] at all
    exact all.frame (sts := ssMarks ++ csMarks ++ pushes) (State.ended_mem _ _) fun _ => id

end Sys2Proof.Machine

namespace Sys2Proof.Machine

/-! ## LAR, LSL, VERR and VERW: the test of a selector (42_pointer_validation.md R383) -/

/-- Whether a descriptor may be seen through its selector at a privilege level (R383). -/
def Descriptor.seen (d : Descriptor) (sel : Word) (cpl : BitVec 2) : Bool :=
  d.attr.conforming || (cpl ≤ d.dpl && selRpl sel ≤ d.dpl)

theorem Descriptor.seen_iff {d : Descriptor} {sel : Word} {cpl : BitVec 2} :
    d.seen sel cpl = true ↔ d.attr.conforming = true ∨ (cpl ≤ d.dpl ∧ selRpl sel ≤ d.dpl) := by
  simp [Descriptor.seen]

theorem visible_named {d : Descriptor} {sel : Word} {s t : State} (hn : selNull sel = false)
    (hd : readDescriptor sel s = .ok (some d) t) :
    visible sel s = .ok (if d.seen sel s.cpl then some d else none) t := by
  have hidden : (decide (d.dpl < s.cpl) || decide (d.dpl < selRpl sel))
      = !(decide (s.cpl ≤ d.dpl) && decide (selRpl sel ≤ d.dpl)) := by
    simp only [Bool.not_and, ← decide_not, BitVec.not_le]
  unfold visible Descriptor.seen
  rw [if_neg (by simp [hn]), M_bind_ok (getState_apply s), M_bind_ok hd]
  dsimp only
  rw [hidden]
  cases d.attr.conforming with
  | true => rfl
  | false => cases decide (s.cpl ≤ d.dpl) && decide (selRpl sel ≤ d.dpl) <;> rfl

theorem visible_of_no_descriptor {sel : Word} {s : State} (h : selNull sel = true ∨ s.lacksDescriptor sel = true) :
    visible sel s = .ok none s := by
  unfold visible
  cases hn : selNull sel with
  | true => rfl
  | false =>
    have lacks : readDescriptor sel s = .ok none s := by
      rw [readDescriptor_eq, if_pos (h.resolve_left (by simp [hn]))]
    rw [if_neg Bool.false_ne_true, M_bind_ok (getState_apply s), M_bind_ok lacks]
    rfl

/-- What the four instructions share: ZF is cleared unless the selector's descriptor may be seen and is accepted; where it
is, `finish` makes the store of its accessed bit (R381) and ends the instruction. -/
def selectorTest (c : Ctx) (src : RM Reg) (accepts : Descriptor → Bool) (finish : Descriptor → List Store → M Unit) :
    M Completion := do
  protectedOnly
  let sel ← rmRead16 c src
  let r ← visible sel
  match r with
  | none => update fun t => (t.setZf false).advance c
  | some d =>
    if accepts d then do
      let marks ← testMarks d
      finish d marks
    else update fun t => (t.setZf false).advance c
  pure .plain

/-- LAR and LSL where the descriptor is accepted (R384, R386). -/
def rightsEnd (c : Ctx) (dst : Reg) (value : Descriptor → M Dword) (d : Descriptor) (marks : List Store) : M Unit := do
  let v ← value d
  update fun t => (((t.storeAll marks).setRegN dst c.opBytes v).setZf true).advance c

/-- VERR and VERW where the descriptor is accepted (R388, R389). -/
def verifyEnd (c : Ctx) (_ : Descriptor) (marks : List Store) : M Unit :=
  update fun t => ((t.storeAll marks).setZf true).advance c

theorem rightsBody_eq (c : Ctx) (dst : Reg) (src : RM Reg) (valid : Descriptor → Bool) (value : Descriptor → M Dword) :
    rightsBody c dst src valid value = selectorTest c src valid (rightsEnd c dst value) := by
  unfold rightsBody selectorTest
  refine bind_congr fun _ => bind_congr fun sel => bind_congr fun r => ?_
  cases r with
  | none => rfl
  | some d => simp only [rightsEnd, bind_assoc]

theorem verifyBody_eq (c : Ctx) (src : RM Reg) (ok : Descriptor → Bool) :
    verifyBody c src ok = selectorTest c src ok (verifyEnd c) := rfl

/-- The value that LAR stores (R384, log entry 18). -/
def larRights (d : Descriptor) : M Dword := do
  let f ← takeFree
  pure (larValue d f)

section

variable {c : Ctx} {dst : Reg} {src : RM Reg}

theorem exec_lar_eq (s : State) :
    exec (.lar c dst src) s = runInstr (selectorTest c src larValid (rightsEnd c dst larRights)) s :=
  congrArg (runInstr · s) (rightsBody_eq c dst src larValid larRights)

theorem exec_lsl_eq (s : State) :
    exec (.lsl c dst src) s = runInstr (selectorTest c src lslValid (rightsEnd c dst fun d => pure d.limit)) s :=
  congrArg (runInstr · s) (rightsBody_eq c dst src lslValid _)

theorem exec_verify_eq {x : Instr × (Descriptor → Bool)} (s : State)
    (hx : x ∈ [(.verr c src, fun d => d.attr.readable), (.verw c src, fun d => d.attr.writable)]) :
    exec x.1 s = runInstr (selectorTest c src x.2 (verifyEnd c)) s := by
  simp only [List.mem_cons, List.not_mem_nil, or_false] at hx
  rcases hx with rfl | rfl <;> rfl

theorem exec_selectorTest_eq {i : Instr} (s : State) (hi : i ∈ [.lar c dst src, .lsl c dst src, .verr c src, .verw c src]) :
    ∃ accepts finish, exec i s = runInstr (selectorTest c src accepts finish) s := by
  simp only [List.mem_cons, List.not_mem_nil, or_false] at hi
  rcases hi with rfl | rfl | rfl | rfl
  · exact ⟨_, _, exec_lar_eq s⟩
  · exact ⟨_, _, exec_lsl_eq s⟩
  · exact ⟨_, _, exec_verify_eq s List.mem_cons_self⟩
  · exact ⟨_, _, exec_verify_eq s (List.mem_cons_of_mem _ List.mem_cons_self)⟩

end

theorem larValid_iff {d : Descriptor} :
    larValid d = true ↔ d.attr.s = true ∨ d.attr.typ ∉ [0x0#4, 0x8#4, 0xA#4, 0xD#4] := by
  simp [larValid, and_assoc]

theorem lslValid_iff {d : Descriptor} :
    lslValid d = true ↔ d.attr.s = true ∨ d.attr.typ ∈ [0x1#4, 0x2#4, 0x3#4, 0x9#4, 0xB#4] := by
  simp [lslValid, or_assoc]

/-- The accessed bit's store in a selector test lies where the descriptor was read. -/
theorem Accessed.testMarks {d : Descriptor} {marks : List Store} {l : List (Dword × Nat)} {s t u : State}
    (h : Accessed s l t) (hd : (d.addr, 8) ∈ l) (hm : Machine.testMarks d t = .ok marks u) : Accessed s l u := by
  rw [Machine.testMarks, M_bind_ok (getState_apply t), M_ite_apply] at hm
  split at hm
  · exact h.mark hd hm
  · cases hm; exact h

theorem Accessed.rmRead16 {c : Ctx} {rm : RM Reg} {v : Word} {s t : State} (h : Machine.rmRead16 c rm s = .ok v t) :
    Accessed s (s.rmAccess c rm 2) t :=
  ⟨checked_rmRead16 c rm s v t h, fun hw => rmRead16_quiet hw h⟩

/-- A selector operand read in protected mode. -/
structure TestOperand (c : Ctx) (src : RM Reg) (sel : Word) (s t : State) : Prop where
  vm : s.flags.vm = false
  pe : s.pe = true
  operand : rmRead16 c src s = .ok sel t

namespace TestOperand

variable {c : Ctx} {src : RM Reg} {sel : Word} {s t u v w : State} {d : Descriptor} {i : Instr} {r : Option Descriptor}
  {accepts : Descriptor → Bool} {finish : Descriptor → List Store → M Unit} {marks : List Store}

theorem accessed (o : TestOperand c src sel s t) : Accessed s (s.rmAccess c src 2) t := .rmRead16 o.operand

/-- The descriptor that the selector names is seen at the level of the instruction's start. -/
theorem visible (o : TestOperand c src sel s t) (hn : selNull sel = false) (hd : readDescriptor sel t = .ok (some d) u) :
    Machine.visible sel t = .ok (if d.seen sel s.cpl then some d else none) u := by
  rw [visible_named hn hd, o.accessed.touched.cpl]

/-- The body where the selector shows no descriptor, or one that is not accepted. -/
theorem selectorTest_refuses (o : TestOperand c src sel s t) (hr : Machine.visible sel t = .ok r u)
    (h : ∀ d, r = some d → accepts d = false) :
    selectorTest c src accepts finish s = .ok .plain ((u.setZf false).advance c) := by
  unfold selectorTest
  rw [M_bind_ok (protectedOnly_ok o.pe), M_bind_ok o.operand, M_bind_ok hr]
  cases r with
  | none => rfl
  | some d => simp [h d rfl]

/-- The body where the selector shows a descriptor that is accepted. -/
theorem selectorTest_accepts (o : TestOperand c src sel s t) (hr : Machine.visible sel t = .ok (some d) u)
    (h : accepts d = true) (hm : testMarks d u = .ok marks v) (hf : finish d marks v = .ok () w) :
    selectorTest c src accepts finish s = .ok .plain w := by
  unfold selectorTest
  rw [M_bind_ok (protectedOnly_ok o.pe), M_bind_ok o.operand, M_bind_ok hr]
  simp only [h, if_true]
  rw [M_bind_ok hm, M_bind_ok hf]
  rfl

/-- The test of a descriptor that is not seen or not accepted. -/
theorem clears (o : TestOperand c src sel s t) (hi : exec i s = runInstr (selectorTest c src accepts finish) s)
    (hn : selNull sel = false) (hd : readDescriptor sel t = .ok (some d) u)
    (h : ¬(d.seen sel s.cpl = true ∧ accepts d = true)) :
    exec i s = .next (s.ended ((u.setZf false).advance c)) := by
  refine hi.trans (runInstr_ok o.vm (o.selectorTest_refuses (o.visible hn hd) fun x hx => ?_))
  split at hx
  · next hs => cases hx; exact Bool.eq_false_iff.mpr fun ha => h ⟨hs, ha⟩
  · cases hx

/-- The test of a descriptor that is seen and accepted, with its frame. -/
theorem completes (o : TestOperand c src sel s t) (hi : exec i s = runInstr (selectorTest c src accepts finish) s)
    (hn : selNull sel = false) (hd : readDescriptor sel t = .ok (some d) u)
    (h : d.seen sel s.cpl = true ∧ accepts d = true) (hm : testMarks d u = .ok marks v)
    (hf : finish d marks v = .ok () w) (mem : w.mem = (v.storeAll marks).mem) :
    exec i s = .next (s.ended w) ∧ Frame s v (s.ended w) fun a =>
      s.accessedByte (s.rmAccess c src 2 ++ s.descriptorAccess sel) a ∨ storesCover marks a := by
  obtain ⟨seen, accepted⟩ := h
  have hr := o.visible hn hd
  rw [if_pos seen] at hr
  have marked := (o.accessed.descriptor hd).testMarks
    (List.mem_append_right _ (o.accessed.descriptor_mem hd)) hm
  exact ⟨hi.trans (runInstr_ok o.vm (o.selectorTest_accepts hr accepted hm hf)),
    marked.frame ((State.ended_mem s w).trans mem) fun _ => id⟩

/-- The free value that LAR takes is the next one at the instruction's start. -/
theorem free_eq (o : TestOperand c src sel s t) (hd : readDescriptor sel t = .ok (some d) u)
    (hm : testMarks d u = .ok marks v) : v.free = s.free :=
  (touched_trans (o.accessed.descriptor hd).touched (checked_testMarks d u marks v hm)).free

end TestOperand

/-- Settles O21: such a selector shows no descriptor, and nothing has been read but the operand. -/
theorem selectorTestOfNothing : Obligations.SelectorTestOfNothing := by
  unfold Obligations.SelectorTestOfNothing
  intro c dst src i s t sel hi hv hp hsel hnone u
  have o : TestOperand c src sel s t := ⟨hv, hp, hsel⟩
  obtain ⟨accepts, finish, he⟩ := exec_selectorTest_eq s hi
  have cleared := o.selectorTest_refuses (accepts := accepts) (finish := finish) (visible_of_no_descriptor hnone)
    fun _ h => nomatch h
  exact ⟨he.trans (runInstr_ok hv cleared), o.accessed.frame_of_mem (State.ended_mem s _) fun _ => id⟩

/-- Settles O20: the test of a selector, with nothing behind the accessed bit's store but ZF. -/
theorem verifyAccess : Obligations.VerifyAccess := by
  unfold Obligations.VerifyAccess
  intro c src x s t u sel d hx hv hp hsel hn hd ok
  have o : TestOperand c src sel s t := ⟨hv, hp, hsel⟩
  have ok_iff : ok ↔ d.seen sel s.cpl = true ∧ x.2 d = true := and_congr_left' Descriptor.seen_iff.symm
  refine ⟨fun h => o.clears (exec_verify_eq s hx) hn hd (ok_iff.not.mp h), fun h => ?_⟩
  intro v marks hm w
  exact o.completes (exec_verify_eq s hx) hn hd (ok_iff.mp h) hm rfl rfl

/-- Settles O19: the test of a selector, then the destination's write, for LAR with a free value. -/
theorem loadRightsAndLimit : Obligations.LoadRightsAndLimit := by
  unfold Obligations.LoadRightsAndLimit
  intro c dst src s t u sel d hv hp hsel hn hd seen larOk lslOk
  have o : TestOperand c src sel s t := ⟨hv, hp, hsel⟩
  have lar_iff : larOk ↔ d.seen sel s.cpl = true ∧ larValid d = true :=
    and_congr Descriptor.seen_iff.symm larValid_iff.symm
  have lsl_iff : lslOk ↔ d.seen sel s.cpl = true ∧ lslValid d = true :=
    and_congr Descriptor.seen_iff.symm lslValid_iff.symm
  refine ⟨fun h => o.clears (exec_lar_eq s) hn hd (lar_iff.not.mp h),
    fun h => o.clears (exec_lsl_eq s) hn hd (lsl_iff.not.mp h), ?_⟩
  intro v marks hm rights wr wl changed
  refine ⟨fun h => ?_, fun h => ?_⟩
  · have stored : rightsEnd c dst larRights d marks v =
        .ok () ((((v.freed.storeAll marks).setRegN dst c.opBytes rights).setZf true).advance c) := by
      unfold rights
      rw [← o.free_eq hd hm]
      rfl
    refine o.completes (exec_lar_eq s) hn hd (lar_iff.mp h) hm stored ?_
    simpa using storeAll_mem_congr (s := v.freed) (t := v) rfl marks
  · refine o.completes (exec_lsl_eq s) hn hd (lsl_iff.mp h) hm rfl ?_
    simp

end Sys2Proof.Machine

namespace Sys2Proof.Machine

/-! ## ARPL (42_pointer_validation.md R382) -/

section

variable {c : Ctx} {src : Reg} {s : State}

theorem arplBody_reg {r : Reg} (hp : s.pe = true) :
    let d := lowWord (s.reg r)
    let rpl := selRpl (lowWord (s.reg src))
    arplBody c (.reg r) src s = .ok .plain
      (if selRpl d < rpl then ((s.setReg16 r (withRpl d rpl)).setZf true).advance c else (s.setZf false).advance c) := by
  intro d rpl
  unfold arplBody
  rw [M_bind_ok (protectedOnly_ok hp), M_bind_ok (getState_apply s)]
  by_cases h : selRpl d < rpl
  · rw [if_pos h]
    exact congrFun (if_pos h) s
  · rw [if_neg h]
    exact congrFun (if_neg h) s

/-- The selector in memory is read where the check as a write has translated it (log entry 53). -/
theorem arplBody_mem {ea : Ea} {sp : Span} {t : State} (hp : s.pe = true)
    (h : checkedSpan (c.eaSegment ea) (s.eaOffset ea) 2 .write s = .ok sp t) :
    let la := s.linear (c.eaSegment ea) (s.eaOffset ea)
    let d := lowWord (fromBytes (Memory.readSpan t.mem sp 0 2))
    let rpl := selRpl (lowWord (s.reg src))
    let t1 := t.recordAccess la 2 false
    let st : Store := { span := sp, bytes := toBytes 2 ((withRpl d rpl).setWidth 32) }
    arplBody c (.mem ea) src s = .ok .plain
      (if selRpl d < rpl then (((t1.recordAccess la 2 true).store st).setZf true).advance c
       else (t1.setZf false).advance c) := by
  intro la d rpl t1 st
  have linear : t.linear (c.eaSegment ea) (s.eaOffset ea) = la := (checked_checkedSpan _ _ _ _ s sp t h).linear _ _
  have noted : noteAccess (c.eaSegment ea) (s.eaOffset ea) 2 .read t = .ok () t1 := by
    unfold noteAccess
    rw [update_apply, linear]
    rfl
  have noted' : noteAccess (c.eaSegment ea) (s.eaOffset ea) 2 .write t1 = .ok () (t1.recordAccess la 2 true) := by
    unfold noteAccess
    rw [update_apply, ← linear]
    rfl
  unfold arplBody
  rw [M_bind_ok (protectedOnly_ok hp), M_bind_ok (getState_apply s)]
  dsimp only
  rw [M_bind_ok h, M_bind_ok noted, M_bind_ok (getState_apply t1)]
  by_cases hd : selRpl d < rpl
  · rw [if_pos hd]
    refine (congrFun (if_pos hd) t1).trans ?_
    rw [M_bind_ok noted']
    rfl
  · rw [if_neg hd]
    exact congrFun (if_neg hd) t1

end

/-- Settles O18: the registers' case, and the memory operand's with its one store or none. -/
theorem adjustRpl : Obligations.AdjustRpl := by
  unfold Obligations.AdjustRpl
  intro c src s hv hp rpl
  refine ⟨fun r => runInstr_ok hv (arplBody_reg hp), ?_⟩
  intro ea sp t h la d t1 u
  refine ⟨runInstr_ok hv (arplBody_mem hp h), ?_⟩
  have quiet := fun hw => checkedSpan_quiet (s := s) hw h
  by_cases hd : selRpl d < rpl
  · have mem : u.mem = (t.store { span := sp, bytes := toBytes 2 ((withRpl d rpl).setWidth 32) }).mem := by
      simp [u, hd, t1]
    simpa only [hd, true_and, toBytes_length] using frame_store quiet mem
  · have mem : u.mem = t.mem := by simp [u, hd, t1]
    simpa only [hd, false_and, or_false] using frame_read quiet mem

end Sys2Proof.Machine

namespace Sys2Proof.Machine

/-! ## MOV to and from the control, debug and test registers (43_system_registers.md R410 to R415) -/

section

variable {c : Ctx} {r : Reg} {n : BitVec 3} {mb : BitVec 2} {v : Dword} {s t : State}

section Inner

variable (hv : s.flags.vm = false) (hl : s.pe = true → s.cpl = 0#2)

include hv hl

/-- A privileged instruction that completes. -/
theorem runInstr_privileged_ok {f : Unit → M Completion} (h : f () s = .ok .plain t) :
    runInstr (privileged >>= f) s = .next (s.ended t) :=
  (runInstr_privileged hv hl).trans (runInstr_ok hv h)

theorem exec_movFromCr_ok (h : readControl n s = .ok v s) :
    exec (.movFromCr c r n mb) s = .next (s.ended ((s.setReg r v).advance c)) :=
  runInstr_privileged_ok hv hl (M_bind_ok h)

theorem exec_movFromDr_ok (hfree : s.params.iceInUse = false ∨ s.flags.rf = true) (h : readDebug n s = .ok v s) :
    exec (.movFromDr c r n mb) s = .next (s.ended ((s.setReg r v).advance c)) :=
  runInstr_privileged_ok hv hl ((M_bind_ok (generalDetect_ok hfree)).trans (M_bind_ok h))

theorem exec_movFromTr_ok (h : n = 6#3 ∧ v = s.tlb.tr6 ∨ n = 7#3 ∧ v = s.tlb.tr7) :
    exec (.movFromTr c r n mb) s = .next (s.ended ((s.setReg r v).advance c)) := by
  refine runInstr_privileged_ok hv hl ?_
  rcases h with ⟨rfl, rfl⟩ | ⟨rfl, rfl⟩
  · exact (require_bind_ok rfl).trans rfl
  · exact (require_bind_ok rfl).trans rfl

theorem exec_movToCr_ok (h : writeControl n (s.reg r) s = .ok () t) :
    exec (.movToCr c n r mb) s = .next (s.ended (t.advance c)) :=
  runInstr_privileged_ok hv hl (M_bind_ok h)

theorem exec_movToDr_ok (hfree : s.params.iceInUse = false ∨ s.flags.rf = true) (h : writeDebug n (s.reg r) s = .ok () t) :
    exec (.movToDr c n r mb) s = .next (s.ended (t.advance c)) :=
  runInstr_privileged_ok hv hl ((M_bind_ok (generalDetect_ok hfree)).trans (M_bind_ok h))

theorem exec_movToTr_ok (h : writeTest n (s.reg r) s = .ok () t) :
    exec (.movToTr c n r mb) s = .next (s.ended (t.advance c)) :=
  runInstr_privileged_ok hv hl (M_bind_ok h)

end Inner

theorem writeControl_cr0_ok (h : ¬(v.getLsbD 31 = true ∧ v.getLsbD 0 = false)) :
    writeControl 0#3 v s = .ok () { s with ctl := { s.ctl with cr0 := v } } :=
  require_bind_ok (by simpa [imp_iff_not_or] using h)

/-- Paging without protection is refused (R411). -/
theorem writeControl_cr0_exc (h : v.getLsbD 31 = true ∧ v.getLsbD 0 = false) :
    writeControl 0#3 v s = .error (.exc (faultWith s 0x0D#8 0x0000#16)) s.freed :=
  require_bind_exc (by simpa using h) rfl

end

/-- Settles O28: one lemma for each kind of register, whose read gives its value. -/
theorem readSpecialRegister : Obligations.ReadSpecialRegister := by
  unfold Obligations.ReadSpecialRegister
  intro c dst mb s x hv hl hx
  simp only [List.mem_cons, List.not_mem_nil, or_false] at hx
  rcases hx with (rfl | rfl | rfl | rfl | rfl) | ⟨hfree, rfl | rfl | rfl | rfl | rfl | rfl⟩
  iterate 3 exact exec_movFromCr_ok hv hl rfl
  · exact exec_movFromTr_ok hv hl (.inl ⟨rfl, rfl⟩)
  · exact exec_movFromTr_ok hv hl (.inr ⟨rfl, rfl⟩)
  all_goals exact exec_movFromDr_ok hv hl hfree rfl

/-- Settles O29: one lemma for each kind of register; of the writes only that of CR0 has a check. -/
theorem writeSpecialRegister : Obligations.WriteSpecialRegister := by
  unfold Obligations.WriteSpecialRegister
  intro c src mb s x hv hl v legal
  refine ⟨fun illegal => ?_, fun hx => ?_⟩
  · exact (runInstr_privileged hv hl).trans (runInstr_check_exc hv (writeControl_cr0_exc (not_not.mp illegal)))
  · simp only [List.mem_cons, List.not_mem_nil, or_false] at hx
    rcases hx with ⟨hlegal, rfl⟩ | (rfl | rfl | rfl) | ⟨hfree, rfl | rfl | rfl | rfl | rfl | rfl⟩
    · exact exec_movToCr_ok hv hl (writeControl_cr0_ok hlegal)
    iterate 2 exact exec_movToCr_ok hv hl rfl
    · exact exec_movToTr_ok hv hl rfl
    all_goals exact exec_movToDr_ok hv hl hfree rfl

/-! ## CLTS, SMSW and LMSW (43_system_registers.md R416 to R418) -/

/-- Settles O27: the privilege check, then one bit of CR0. -/
theorem clearTaskSwitched : Obligations.ClearTaskSwitched := by
  unfold Obligations.ClearTaskSwitched
  intro c s hv
  exact ⟨fun hp hl => runInstr_privileged_exc hv hp hl, fun hl => runInstr_privileged_ok hv hl rfl⟩

/-- The bits of CR0 after LMSW (R416). -/
theorem lmswValue_bit (cr0 : Dword) (v : Word) (k : Nat) :
    (lmswValue cr0 v).getLsbD k =
      if k = 0 then cr0.getLsbD 0 || v.getLsbD 0 else if k < 4 then v.getLsbD k else cr0.getLsbD k := by
  have masks : ∀ i : Fin 32, 4 ≤ i.val →
      (0xFFFFFFF1#32).getLsbD i = true ∧ (0x0000000F#32).getLsbD i = false := by decide
  by_cases low : k < 4
  · interval_cases k <;> simp [lmswValue]
  · rw [if_neg (by omega), if_neg low]
    by_cases hk : k < 32
    · obtain ⟨kept, cut⟩ := masks ⟨k, hk⟩ (by simpa using low)
      simp only at kept cut
      simp [lmswValue, kept, cut]
    · rw [BitVec.getLsbD_of_ge _ _ (by omega), BitVec.getLsbD_of_ge _ _ (by omega)]

/-- A word put into a register goes to its low half. -/
theorem setRegN_word (s : State) (r : Reg) (w : Word) : s.setRegN r 2 (w.setWidth 32) = s.setReg16 r w := by
  simp [State.setRegN, lowWord]

/-- Settles O26: SMSW is a store of one word; LMSW is a read, then a write of CR0 that `lmswValue_bit` describes. -/
theorem machineStatusWord : Obligations.MachineStatusWord := by
  unfold Obligations.MachineStatusWord
  intro c s hv
  refine ⟨fun r => ?_, ?_, fun src v t hl hr => ?_⟩
  · refine runInstr_ok hv ((M_bind_ok (rmPlace_reg c r 2 s)).trans ?_)
    simp [State.put, setRegN_word]
  · intro ea sp t h u
    refine ⟨runInstr_ok hv (M_bind_ok (rmPlace_mem_ok h)), ?_⟩
    have mem : u.mem = (t.store { span := sp, bytes := toBytes 2 ((lowWord s.ctl.cr0).setWidth 32) }).mem :=
      State.ended_mem s _
    simpa only [toBytes_length] using frame_store (fun hw => operandSpan_quiet hw h) mem
  · have ctl : t.ctl = s.ctl := (Accessed.rmRead16 hr).touched.ctl
    refine ⟨lmswValue t.ctl.cr0 v, runInstr_privileged_ok hv hl (M_bind_ok hr), ?_⟩
    simp only [lmswValue_bit, ctl]
    refine ⟨rfl, rfl, rfl, rfl, fun k hk => ?_⟩
    rw [if_neg (by omega), if_neg (by omega)]

/-! ## HLT, and the states in which nothing runs (43_system_registers.md R420; 60_exceptions.md R752) -/

section

variable {s : State} (hr : s.pins.reset = false) (hv : s.flags.vm = false)

include hr hv

theorem boundary_running (h : s.run.runState = .running) : boundary s = boundaryChecks s := by
  simp [boundary, hr, hv, h]

theorem boundary_halted (h : s.run.runState = .halted) :
    boundary s =
      if (s.run.nmiPending && !s.run.nmiMasked) || (s.pins.intrLine && s.flags.ifl) then boundaryChecks s.resume
      else .rest s := by
  simp [boundary, hr, hv, h]

theorem boundary_shutdown (h : s.run.runState = .shutdown) :
    boundary s = if s.run.nmiPending then .take nmiEvent s.resume.acceptNmi else .rest s := by
  simp [boundary, hr, hv, h]

end

/-- Settles O6: a step does what the boundary says, and a processor that an interrupt wakes makes the checks of one that
runs. -/
theorem haltAndShutdown : Obligations.HaltAndShutdown := by
  unfold Obligations.HaltAndShutdown
  refine ⟨fun c s hv hl => runInstr_privileged_ok hv hl rfl, ?_⟩
  intro s hr hv wakes
  refine ⟨?_, ?_, ?_, ?_⟩
  · intro halted asleep
    rw [step, boundary_halted hr hv halted, if_neg (by simpa [wakes] using asleep)]
  · intro halted awake
    have running : boundary s.resume = boundaryChecks s.resume := boundary_running hr hv rfl
    change step s = step s.resume
    rw [step, step, boundary_halted hr hv halted, if_pos (by simpa [wakes] using awake), running]
  · intro down noNmi
    rw [step, boundary_shutdown hr hv down, if_neg (by simp [noNmi])]
  · intro down nmi
    rw [step, boundary_shutdown hr hv down, if_pos nmi]
    rfl

end Sys2Proof.Machine

namespace Sys2Proof.Machine

/-! ## SGDT, SIDT, LGDT and LIDT (43_system_registers.md R400 to R403) -/

section

variable {c : Ctx} {ea : Ea} {g : TableReg} {s t u : State} {sp sp' : Span}

theorem storeTable_ok (h : operandSpan (c.eaSegment ea) (s.eaOffset ea) 2 .write s = .ok sp t)
    (hlt : (s.eaOffset ea).toNat + 2 < 4294967296)
    (h' : operandSpan (c.eaSegment ea) (s.eaOffset ea + 2#32) 4 .write t = .ok sp' u) :
    storeTable c (.mem ea) g s =
      .ok .plain ((u.storeAll [{ span := sp, bytes := toBytes 2 (g.limit.setWidth 32) },
        { span := sp', bytes := toBytes 4 g.base }]).advance c) :=
  (M_bind_ok (getState_apply s)).trans <| (M_bind_ok (memPrepare_ok (by rwa [toBytes_length]))).trans <|
    (M_bind_ok (offsetAbove_ok hlt)).trans (M_bind_ok (memPrepare_ok (by rwa [toBytes_length])))

/-- A base that would lie past offset FFFFFFFFH (R280). -/
theorem storeTable_exc (h : operandSpan (c.eaSegment ea) (s.eaOffset ea) 2 .write s = .ok sp t)
    (hge : 4294967296 ≤ (s.eaOffset ea).toNat + 2) :
    storeTable c (.mem ea) g s = .error (.exc (faultWith t (limitVector (c.eaSegment ea)) 0x0000#16)) t.freed :=
  (M_bind_ok (getState_apply s)).trans <| (M_bind_ok (memPrepare_ok (by rwa [toBytes_length]))).trans <|
    M_bind_error (offsetAbove_exc hge)

theorem readTable_ok (h : operandSpan (c.eaSegment ea) (s.eaOffset ea) 2 .read s = .ok sp t)
    (hlt : (s.eaOffset ea).toNat + 2 < 4294967296)
    (h' : operandSpan (c.eaSegment ea) (s.eaOffset ea + 2#32) 4 .read t = .ok sp' u) :
    let base := fromBytes (Memory.readSpan u.mem sp' 0 4)
    readTable c (.mem ea) s =
      .ok { base := if c.op32 then base else base &&& 0x00FFFFFF#32,
            limit := lowWord (fromBytes (Memory.readSpan t.mem sp 0 2)) } u :=
  (M_bind_ok (getState_apply s)).trans <| (M_bind_ok (memRead_ok h)).trans <|
    M_bind_ok ((M_bind_ok (offsetAbove_ok hlt)).trans (memRead_ok h'))

theorem readTable_exc (h : operandSpan (c.eaSegment ea) (s.eaOffset ea) 2 .read s = .ok sp t)
    (hge : 4294967296 ≤ (s.eaOffset ea).toNat + 2) :
    readTable c (.mem ea) s = .error (.exc (faultWith t (limitVector (c.eaSegment ea)) 0x0000#16)) t.freed :=
  (M_bind_ok (getState_apply s)).trans <| (M_bind_ok (memRead_ok h)).trans <|
    M_bind_error (M_bind_error (offsetAbove_exc hge))

/-- The two accesses of a descriptor-table register's six bytes. -/
theorem Accessed.tableParts {r : Sreg} {off : Dword} {k : Access} (h : operandSpan r off 2 k s = .ok sp t)
    (h' : operandSpan r (off + 2#32) 4 k t = .ok sp' u) :
    Accessed s [(s.linear r off, 2), (s.linear r (off + 2#32), 4)] u :=
  ((Accessed.refl s).span h).span h'

theorem exec_storeTable_eq {x : Instr × TableReg} (hx : x ∈ [(.sgdt c (.mem ea), s.gdtr), (.sidt c (.mem ea), s.idtr)]) :
    exec x.1 s = runInstr (storeTable c (.mem ea) x.2) s := by
  simp only [List.mem_cons, List.not_mem_nil, or_false] at hx
  rcases hx with rfl | rfl <;> rfl

/-- LGDT and LIDT are one instruction over the register that they load. -/
theorem exec_loadTable_eq {x : Instr × (State → TableReg → State)} (s : State)
    (hx : x ∈ [(.lgdt c (.mem ea), fun v g => { v with gdtr := g }), (.lidt c (.mem ea), fun v g => { v with idtr := g })]) :
    exec x.1 s = runInstr (do
      privileged
      let g ← readTable c (.mem ea)
      update fun t => (x.2 t g).advance c
      pure .plain) s := by
  simp only [List.mem_cons, List.not_mem_nil, or_false] at hx
  rcases hx with rfl | rfl <;> rfl

theorem loadTable_mem {x : Instr × (State → TableReg → State)} (u : State) (g : TableReg)
    (hx : x ∈ [(.lgdt c (.mem ea), fun v g => { v with gdtr := g }), (.lidt c (.mem ea), fun v g => { v with idtr := g })]) :
    (x.2 u g).mem = u.mem := by
  simp only [List.mem_cons, List.not_mem_nil, or_false] at hx
  rcases hx with rfl | rfl <;> rfl

end

/-- Settles O24: both parts are checked before either is stored. -/
theorem storeTableRegister : Obligations.StoreTableRegister := by
  unfold Obligations.StoreTableRegister
  intro c ea s t sp x hx hv seg off h
  rw [exec_storeTable_eq hx]
  refine ⟨fun hge => runInstr_exc hv (storeTable_exc h hge), ?_⟩
  intro hlt u sp' h' w
  refine ⟨runInstr_ok hv (storeTable_ok h hlt h'), ?_⟩
  refine (Accessed.tableParts h h').frame ((State.ended_mem s _).trans (State.advance_mem _ c)) fun a => ?_
  simp only [storesCover_cons, storesCover_nil, toBytes_length, or_false]
  exact id

/-- Settles O25: both parts are read before the register is loaded. -/
theorem loadTableRegister : Obligations.LoadTableRegister := by
  unfold Obligations.LoadTableRegister
  intro c ea s t sp x hx hv hl seg off h
  rw [exec_loadTable_eq s hx]
  refine ⟨fun hge => (runInstr_privileged hv hl).trans (runInstr_check_exc hv (readTable_exc h hge)), ?_⟩
  intro hlt u sp' h' limit base w
  refine ⟨?_, ?_⟩
  · exact runInstr_privileged_ok hv hl (M_bind_ok (readTable_ok h hlt h'))
  · exact (Accessed.tableParts h h').frame_of_mem ((State.ended_mem s _).trans (loadTable_mem u _ hx)) fun _ => id

end Sys2Proof.Machine

namespace Sys2Proof.Machine

/-! ## LLDT and LTR (43_system_registers.md R404, R406) -/

/-- What LLDT and LTR share: a selector is read and checked, and what the checks give is loaded. -/
def loadSystem {α : Type} (c : Ctx) (src : RM Reg) (checks : Word → M α) (put : State → α → State) : M Completion := do
  protectedOnly
  privileged
  let sel ← rmRead16 c src
  let x ← checks sel
  update fun t => (put t x).advance c
  pure .plain

theorem exec_lldt_eq (c : Ctx) (src : RM Reg) (s : State) :
    exec (.lldt c src) s = runInstr (loadSystem c src loadLdt fun t l => { t with ldtr := l }) s := rfl

theorem exec_ltr_eq (c : Ctx) (src : RM Reg) (s : State) :
    exec (.ltr c src) s = runInstr (loadSystem c src loadTr fun t x => { t.store x.2 with tr := x.1 }) s := rfl

/-- The selector that LLDT or LTR reads at privilege level 0. -/
structure SystemOperand (c : Ctx) (src : RM Reg) (sel : Word) (s t : State) : Prop where
  vm : s.flags.vm = false
  pe : s.pe = true
  cpl : s.cpl = 0#2
  operand : rmRead16 c src s = .ok sel t

namespace SystemOperand

variable {α : Type} {c : Ctx} {src : RM Reg} {sel : Word} {s t u : State} {checks : Word → M α} {put : State → α → State}

theorem loadSystem_eq (o : SystemOperand c src sel s t) :
    loadSystem c src checks put s = (do
      let x ← checks sel
      update fun t => (put t x).advance c
      pure .plain : M Completion) t := by
  unfold loadSystem
  rw [M_bind_ok (protectedOnly_ok o.pe), M_bind_ok (privileged_ok fun _ => o.cpl), M_bind_ok o.operand]

theorem completes (o : SystemOperand c src sel s t) {x : α} (h : checks sel t = .ok x u) :
    runInstr (loadSystem c src checks put) s = .next (s.ended ((put u x).advance c)) :=
  runInstr_ok o.vm (o.loadSystem_eq.trans (M_bind_ok h))

theorem raises (o : SystemOperand c src sel s t) {e : Event} (h : checks sel t = .error (.exc e) u) :
    runInstr (loadSystem c src checks put) s = raised e u :=
  runInstr_exc o.vm (o.loadSystem_eq.trans (M_bind_error h))

theorem accessed (o : SystemOperand c src sel s t) {d : Descriptor} (hd : readDescriptor sel t = .ok (some d) u) :
    Accessed s (s.rmAccess c src 2 ++ s.descriptorAccess sel) u := (Accessed.rmRead16 o.operand).descriptor hd

end SystemOperand

section

variable {sel : Word} {s t u : State}

/-- A selector that names no descriptor of the GDT. -/
theorem gdtDescriptor_exc {α : Type} {f : Descriptor → M α} (h : selTi sel = true ∨ s.lacksDescriptor sel = true) :
    (require (!selTi sel) (raiseGP (selErr sel false)) >>= fun _ =>
        needDescriptor sel (raiseGP (selErr sel false)) >>= f) s
      = .error (.exc (faultWith s 0x0D#8 (selErr sel false))) s.freed := by
  cases hti : selTi sel with
  | true => exact require_bind_exc rfl rfl
  | false =>
    have lacks := h.resolve_left (by simp [hti])
    exact (require_bind_ok rfl).trans (M_bind_error ((needDescriptor_unnamed lacks).trans rfl))

theorem loadLdt_null (hn : selNull sel = true) :
    loadLdt sel s = .ok { s.ldtr with sel := sel, valid := false } s := by
  simp [loadLdt, hn]

theorem loadLdt_unnamed (hn : selNull sel = false) (h : selTi sel = true ∨ s.lacksDescriptor sel = true) :
    loadLdt sel s = .error (.exc (faultWith s 0x0D#8 (selErr sel false))) s.freed := by
  unfold loadLdt
  rw [M_bind_ok (getState_apply s), if_neg (by simp [hn])]
  exact gdtDescriptor_exc h

theorem loadTr_null (hn : selNull sel = true) : loadTr sel s = .error (.exc (faultWith s 0x0D#8 0x0000#16)) s.freed :=
  require_bind_exc (by simp [hn]) rfl

theorem loadTr_unnamed (hn : selNull sel = false) (h : selTi sel = true ∨ s.lacksDescriptor sel = true) :
    loadTr sel s = .error (.exc (faultWith s 0x0D#8 (selErr sel false))) s.freed :=
  (require_bind_ok (by simp [hn])).trans (gdtDescriptor_exc h)

section Named

variable {d : Descriptor} (hn : selNull sel = false) (hti : selTi sel = false)
  (hd : readDescriptor sel s = .ok (some d) t)

include hn hti hd

/-- The checks of the descriptor that LLDT's selector names (R404). -/
theorem loadLdt_named :
    loadLdt sel s = (do
      require (d.kind = 0b00010#5) (raiseGP (selErr sel false))
      require d.present (raiseNP (selErr sel false))
      pure { sel := sel, base := d.base, limit := d.limit, valid := true } : M SystemSeg) t := by
  unfold loadLdt
  rw [M_bind_ok (getState_apply s), if_neg (by simp [hn]), require_bind_ok (by simp [hti]),
    M_bind_ok (needDescriptor_named hd)]

/-- The checks of the descriptor that LTR's selector names, where it is none of the 80286 (R406). -/
theorem loadTr_named (h286 : d.kind ∉ [0b00001#5, 0b00011#5]) :
    loadTr sel s = (do
      require (d.kind = 0b01001#5) (raiseGP (selErr sel false))
      require d.present (raiseNP (selErr sel false))
      let st ← sysPrepare (d.addr + 4#32) (toBytes 4 (d.hi ||| 0x00000200#32))
      pure ({ sel := sel, base := d.base, limit := d.limit, valid := true }, st) : M (SystemSeg × Store)) t := by
  unfold loadTr
  rw [require_bind_ok (by simp [hn]), require_bind_ok (by simp [hti]), M_bind_ok (needDescriptor_named hd),
    if_neg (by simpa using h286)]

end Named

/-- The checks of a descriptor of another type than the instruction wants. -/
theorem systemKind_exc {α : Type} {d : Descriptor} {kind : BitVec 5} {f : Unit → M α} (h : d.kind ≠ kind) :
    (require (d.kind = kind) (raiseGP (selErr sel false)) >>= f) s
      = .error (.exc (faultWith s 0x0D#8 (selErr sel false))) s.freed :=
  require_bind_exc (decide_eq_false h) rfl

/-- The checks of a descriptor of the wanted type that is not present. -/
theorem systemAbsent_exc {α : Type} {d : Descriptor} {kind : BitVec 5} {f : Unit → M α} (h : d.kind = kind)
    (hp : d.present = false) :
    (require (d.kind = kind) (raiseGP (selErr sel false)) >>= fun _ =>
        require d.present (raiseNP (selErr sel false)) >>= f) s
      = .error (.exc (faultWith s 0x0B#8 (selErr sel false))) s.freed :=
  (require_bind_ok (decide_eq_true h)).trans (require_bind_exc hp rfl)

/-- The checks of a descriptor of the wanted type that is present. -/
theorem systemPresent_ok {α : Type} {d : Descriptor} {kind : BitVec 5} {f : Unit → M α} (h : d.kind = kind)
    (hp : d.present = true) :
    (require (d.kind = kind) (raiseGP (selErr sel false)) >>= fun _ =>
        require d.present (raiseNP (selErr sel false)) >>= f) s = f () s :=
  (require_bind_ok (decide_eq_true h)).trans (require_bind_ok hp)

end

/-- Settles O22: the outcomes of the checks of LLDT's selector, in their order. -/
theorem loadLdtRegister : Obligations.LoadLdtRegister := by
  unfold Obligations.LoadLdtRegister
  intro c src s t sel hv hp hl hr
  have o : SystemOperand c src sel s t := ⟨hv, hp, hl, hr⟩
  rw [exec_lldt_eq]
  refine ⟨fun hn => o.completes (loadLdt_null hn), fun hn h => o.raises (loadLdt_unnamed hn h), ?_⟩
  intro hn hti d u hd w
  have named := loadLdt_named hn hti hd
  refine ⟨fun other => ?_, fun ldt absent => ?_, fun ldt present => ⟨?_, ?_⟩⟩
  · exact o.raises (named.trans (systemKind_exc other))
  · exact o.raises (named.trans (systemAbsent_exc ldt absent))
  · exact o.completes (named.trans (systemPresent_ok ldt present))
  · exact (o.accessed hd).frame_of_mem (State.ended_mem s _) fun _ => id

/-- The store of the busy bit lies where the descriptor was read. -/
theorem Accessed.busyBit {d : Descriptor} {v : Dword} {st : Store} {l : List (Dword × Nat)} {s t u : State}
    (h : Accessed s l t) (hd : (d.addr, 8) ∈ l) (hs : sysPrepare (d.addr + 4#32) (toBytes 4 v) t = .ok st u) :
    Accessed s l u := by
  have inside : Accessed s (l ++ [(d.addr, 8)]) u := by
    refine h.access (checked_sysPrepare _ _ t st u hs) fun hw => quiet_mono (sysPrepare_quiet hw hs).1 fun a ha => ?_
    rw [toBytes_length] at ha
    exact accessByte_part (k := 4) (by omega) (by omega) (by omega) ha
  exact inside.mono (List.append_subset.mpr ⟨List.Subset.refl l, List.cons_subset.mpr ⟨hd, List.nil_subset l⟩⟩)

theorem sysPrepare_bytes {la : Dword} {bs : List Byte} {st : Store} {s t : State} (h : sysPrepare la bs s = .ok st t) :
    st.bytes = bs := by
  obtain ⟨sp, u, -, hst⟩ := M_bind_eq_ok h
  cases hst
  rfl

/-- Settles O23: the outcomes of the checks of LTR's selector, in their order; the busy bit is the only store. -/
theorem loadTaskRegister : Obligations.LoadTaskRegister := by
  unfold Obligations.LoadTaskRegister
  intro c src s t sel hv hp hl hr
  have o : SystemOperand c src sel s t := ⟨hv, hp, hl, hr⟩
  rw [exec_ltr_eq]
  refine ⟨fun hn => o.raises (loadTr_null hn), fun hn h => o.raises (loadTr_unnamed hn h), ?_⟩
  intro hn hti d u hd
  have named := loadTr_named hn hti hd
  have not286 : d.kind = 0b01001#5 → d.kind ∉ [0b00001#5, 0b00011#5] := fun tss => by rw [tss]; decide
  refine ⟨fun other => ?_, fun tss absent => ?_, ?_⟩
  · obtain ⟨not386, h286⟩ := not_or.mp (List.mem_cons.not.mp other)
    exact o.raises ((named h286).trans (systemKind_exc not386))
  · exact o.raises ((named (not286 tss)).trans (systemAbsent_exc tss absent))
  · intro tss present st v hst w
    refine ⟨o.completes ((named (not286 tss)).trans ((systemPresent_ok tss present).trans (M_bind_ok hst))), ?_⟩
    have marked : (d.addr, 8) ∈ s.rmAccess c src 2 ++ s.descriptorAccess sel :=
      List.mem_append_right _ ((Accessed.rmRead16 o.operand).descriptor_mem hd)
    refine ((o.accessed hd).busyBit marked hst).frame (sts := [st]) (State.ended_mem s _) fun a => ?_
    simp only [storesCover_cons, storesCover_nil, sysPrepare_bytes hst, toBytes_length, or_false]
    exact id

end Sys2Proof.Machine

namespace Sys2Proof.Machine

/-! ## What translations leave alone (20_memory.md R186, R200; 44_multitasking.md R470)

A task switch translates before it changes anything, and its tests translate again in the new task. A statement about
its failures needs what a translation that stops has left alone, so `Touched`, which speaks of those that complete, is
not enough; and nothing here is noted for the data breakpoints, so that the debug traps are left alone too. -/

/-- All that translations may have changed of `s` in `t`, though the last of them stopped: memory, the TLB but for the test
registers, CR2, the free values. -/
def Translating (s t : State) : Prop :=
  t = { s with mem := t.mem, tlb := { t.tlb with tr6 := s.tlb.tr6, tr7 := s.tlb.tr7 },
               ctl := { s.ctl with cr2 := t.ctl.cr2 }, free := t.free }

/-- The same where all of them completed. -/
structure Translated (s t : State) : Prop where
  translating : Translating s t
  ctl : t.ctl = s.ctl
  unpaged : s.pg = false → t.mem = s.mem

theorem Translating.trans {s t u : State} (h : Translating s t) (h' : Translating t u) : Translating s u := by
  unfold Translating at *
  rw [h', h]

namespace Translating

variable {s t : State}

theorem tr (h : Translating s t) : t.tr = s.tr := by unfold Translating at h; rw [h]

theorem gpr (h : Translating s t) : t.gpr = s.gpr := by unfold Translating at h; rw [h]

theorem seg (h : Translating s t) : t.seg = s.seg := by unfold Translating at h; rw [h]

theorem gdtr (h : Translating s t) : t.gdtr = s.gdtr := by unfold Translating at h; rw [h]

theorem ldtr (h : Translating s t) : t.ldtr = s.ldtr := by unfold Translating at h; rw [h]

theorem idtr (h : Translating s t) : t.idtr = s.idtr := by unfold Translating at h; rw [h]

theorem pc (h : Translating s t) : t.pc = s.pc := by unfold Translating at h; rw [h]

theorem flags (h : Translating s t) : t.flags = s.flags := by unfold Translating at h; rw [h]

theorem cpl (h : Translating s t) : t.cpl = s.cpl := by unfold Translating at h; rw [h]

theorem dbg (h : Translating s t) : t.dbg = s.dbg := by unfold Translating at h; rw [h]

theorem run (h : Translating s t) : t.run = s.run := by unfold Translating at h; rw [h]

theorem io (h : Translating s t) : t.io = s.io := by unfold Translating at h; rw [h]

theorem cop (h : Translating s t) : t.cop = s.cop := by unfold Translating at h; rw [h]

theorem cr0 (h : Translating s t) : t.ctl.cr0 = s.ctl.cr0 := by unfold Translating at h; rw [h]

theorem cr3 (h : Translating s t) : t.ctl.cr3 = s.ctl.cr3 := by unfold Translating at h; rw [h]

theorem tr6 (h : Translating s t) : t.tlb.tr6 = s.tlb.tr6 := by unfold Translating at h; rw [h]

theorem tr7 (h : Translating s t) : t.tlb.tr7 = s.tlb.tr7 := by unfold Translating at h; rw [h]

end Translating

theorem Translated.refl (s : State) : Translated s s := ⟨rfl, rfl, fun _ => rfl⟩

theorem Translated.pg {s t : State} (h : Translated s t) : t.pg = s.pg := by rw [State.pg, h.ctl, State.pg]

theorem Translated.trans {s t u : State} (h : Translated s t) (h' : Translated t u) : Translated s u :=
  ⟨h.translating.trans h'.translating, h'.ctl.trans h.ctl, fun hp =>
    (h'.unpaged (h.pg.trans hp)).trans (h.unpaged hp)⟩

/-- The end of a computation that did nothing but translations. -/
def TranslatedEnd {α : Type} (s : State) : EStateM.Result Err State α → Prop
  | .ok _ t => Translated s t
  | .error _ t => Translating s t

/-- The computation does nothing but translations, whether it completes or stops. -/
def Translates {α : Type} (m : M α) : Prop := ∀ s, TranslatedEnd s (m s)

namespace Translates

variable {α β : Type} {m n : M α}

theorem ok {s t : State} {a : α} (h : Translates m) (hm : m s = .ok a t) : Translated s t := by
  have h := h s
  rwa [hm] at h

theorem keeps {P : State → Prop} (h : Translates m) (hP : ∀ s t, P s → Translating s t → P t) : Keeps P m := by
  intro s hs
  have h := h s
  unfold KeepsAt
  cases hm : m s with
  | ok a t => rw [hm] at h; exact hP s t hs h.translating
  | error e t => rw [hm] at h; exact hP s t hs h

theorem pure (a : α) : Translates (Pure.pure a : M α) := fun s => .refl s

theorem stop (e : Err) : Translates (Machine.stop e : M α) := fun _ => rfl

theorem getState : Translates Machine.getState := fun s => .refl s

theorem raiseCode (v : Byte) (c : Word) : Translates (Machine.raiseCode v c : M α) := fun _ => rfl

theorem bind {f : α → M β} (hm : Translates m) (hf : ∀ a, Translates (f a)) : Translates (m >>= f) := by
  intro s
  have hs := hm s
  rw [M_bind_apply]
  cases h : m s with
  | error e t => rwa [h] at hs
  | ok a t =>
    rw [h] at hs
    have ht := hf a t
    dsimp only
    cases h' : f a t with
    | ok b u => rw [h'] at ht; exact hs.trans ht
    | error e u => rw [h'] at ht; exact hs.translating.trans ht

theorem ite {p : Prop} [Decidable p] (hm : Translates m) (hn : Translates n) : Translates (if p then m else n) := by
  split
  · exact hm
  · exact hn

end Translates

/-! ### The translation of a page -/

section Page

variable (x : State)

theorem keeps_translating {f : State → State} (h : ∀ s, Translating s (f s)) : Keeps (Translating x) (update f) :=
  keeps_update fun s hs => hs.trans (h s)

theorem translating_takeChoice : Keeps (Translating x) takeChoice := by
  intro s hs
  unfold KeepsAt takeChoice
  cases s.tlb.choices with
  | nil => exact hs.trans rfl
  | cons c r => exact hs.trans rfl

theorem translating_pageFault {α : Type} (la : Dword) (p w u : Bool) :
    Keeps (Translating x) (pageFault la p w u : M α) :=
  keeps_bind (keeps_translating x fun _ => rfl) fun _ =>
    keeps_bind (fun s (hs : Translating x s) => hs.trans (u := { s with free := s.free.next }) rfl) fun _ => keeps_stop _

/-- Memory and the TLB may change, but for the test registers. -/
theorem translating_paging {s : State} {m : PhysMem} {t : Tlb} (ht : t.tr6 = s.tlb.tr6 ∧ t.tr7 = s.tlb.tr7) :
    Translating s { s with mem := m, tlb := t } := by
  obtain ⟨h6, h7⟩ := ht
  unfold Translating
  rw [← h6, ← h7]

theorem translating_walk (la : Dword) (w u : Bool) (b : Option (BitVec 2)) : Keeps (Translating x) (walk la w u b) := by
  refine keeps_getState_bind fun s hs => ?_
  refine keepsAt_ite (fun _ => translating_pageFault x la false w u s hs) fun _ => keepsAt_ite (fun _ => hs) fun _ => ?_
  refine keepsAt_ite (fun _ => translating_pageFault x la false w u s hs) fun _ => keepsAt_ite (fun _ => hs) fun _ => ?_
  refine keepsAt_ite (fun _ => translating_pageFault x la true w u s hs) fun _ => ?_
  exact hs.trans (translating_paging (Tlb.fill_tests _ _ _))

theorem translating_translatePage (la : Dword) (w u : Bool) : Keeps (Translating x) (translatePage la w u) := by
  refine keeps_bind (translating_takeChoice x) fun c => keeps_bind (keeps_translating x fun s => ?_) fun _ =>
    keeps_bind keeps_getState fun s => ?_
  · split
    · exact translating_paging (m := s.mem) (Tlb.forget_tests _ _)
    · rfl
  · split
    · exact translating_walk x la w u c.fill
    · refine keeps_ite (fun _ => translating_pageFault x la true w u) fun _ => keeps_ite (fun _ => ?_) fun _ => keeps_pure _
      exact keeps_bind (keeps_translating x fun _ => rfl) fun _ => translating_walk x la w u c.fill
    · exact keeps_stop _

theorem translating_translate (la : Dword) (n : Nat) (w u : Bool) : Keeps (Translating x) (translate la n w u) := by
  refine keeps_bind keeps_getState fun s => keeps_ite (fun _ => keeps_pure _) fun _ => ?_
  refine keeps_bind (translating_translatePage x la w u) fun p => keeps_ite (fun _ => keeps_pure _) fun _ => ?_
  exact keeps_bind (translating_translatePage x _ w u) fun _ => keeps_pure _

end Page

namespace Translates

theorem translate (la : Dword) (n : Nat) (w u : Bool) : Translates (Machine.translate la n w u) := by
  intro s
  have kept := translating_translate s la n w u s rfl
  unfold KeepsAt at kept
  cases h : Machine.translate la n w u s with
  | error e t => rwa [h] at kept
  | ok sp t =>
    rw [h] at kept
    refine ⟨kept, (checked_translate la n w u s sp t h).ctl, fun hp => ?_⟩
    rw [translate_flat hp] at h
    cases h
    rfl

theorem sysRead (la : Dword) (n : Nat) : Translates (Machine.sysRead la n) :=
  bind (bind (translate la n false false) fun _ => bind getState fun _ => pure _) fun _ => pure _

theorem sysPrepare (la : Dword) (bs : List Byte) : Translates (Machine.sysPrepare la bs) :=
  bind (translate la _ true false) fun _ => pure _

theorem readDescriptor (sel : Word) : Translates (Machine.readDescriptor sel) :=
  bind getState fun _ => ite (pure _) <| bind (sysRead _ 4) fun _ => bind (sysRead _ 4) fun _ => pure _

theorem needDescriptor (sel : Word) {m : M Descriptor} (hm : Translates m) : Translates (Machine.needDescriptor sel m) := by
  refine bind (readDescriptor sel) fun d => ?_
  cases d with
  | none => exact hm
  | some d => exact pure _

theorem markAccessed (d : Descriptor) : Translates (Machine.markAccessed d) :=
  ite (pure _) (bind (sysPrepare _ _) fun _ => pure _)

theorem incomingTss (kind : SwitchKind) (tsel : Word) (ext : Bool) : Translates (Machine.incomingTss kind tsel ext) := by
  have exc : ∀ (v : Byte) (e : Word), Translates (Machine.raiseCode v e : M Descriptor) := raiseCode
  have bad : Translates (if kind = .iret then raiseTS (selErr tsel ext) else raiseGP (selErr tsel ext) : M Descriptor) :=
    ite (exc _ _) (exc _ _)
  refine ite bad (bind (needDescriptor tsel bad) fun d => ite (stop _) (ite bad ?_))
  exact ite (exc _ _) (ite (exc _ _) (ite (exc _ _) (ite (exc _ _) (pure _))))

theorem saveTask (nextEip flags : Dword) : Translates (Machine.saveTask nextEip flags) := by
  refine bind getState fun s => bind (sysPrepare _ _) fun _ => bind (sysPrepare _ _) fun _ => ?_
  refine bind (sysPrepare _ _) fun _ => bind (sysPrepare _ _) fun _ => bind (sysPrepare _ _) fun _ => ?_
  exact bind (sysPrepare _ _) fun _ => bind (sysPrepare _ _) fun _ => pure _

theorem clearBusy (kind : SwitchKind) : Translates (Machine.clearBusy kind) := by
  refine bind getState fun s => ite (bind (sysRead _ _) fun hi => ite ?_ (pure _)) (pure _)
  exact bind (sysPrepare _ _) fun _ => pure _

theorem setBusy (kind : SwitchKind) (d : Descriptor) : Translates (Machine.setBusy kind d) :=
  ite (pure _) (bind (sysPrepare _ _) fun _ => pure _)

theorem linkBack (kind : SwitchKind) (base : Dword) : Translates (Machine.linkBack kind base) :=
  bind getState fun _ => ite (bind (sysPrepare _ _) fun _ => pure _) (pure _)

end Translates

end Sys2Proof.Machine

namespace Sys2Proof.Machine

/-! ## The stores of a task switch (44_multitasking.md R470, R480, R481) -/

section Prepared

variable {s t : State} {la : Dword} {bs : List Byte} {st : Store}

theorem sysPrepare_flat (hp : s.pg = false) (la : Dword) (bs : List Byte) :
    sysPrepare la bs s = .ok { span := Span.flat la bs.length, bytes := bs } s :=
  M_bind_ok (translate_flat hp _ _ _ _)

theorem sysPrepare_eq_flat (hp : s.pg = false) (h : sysPrepare la bs s = .ok st t) :
    st = { span := Span.flat la bs.length, bytes := bs } := by
  rw [sysPrepare_flat hp] at h
  cases h
  rfl

theorem markAccessed_eq_flat {d : Descriptor} {marks : List Store} (hp : s.pg = false)
    (h : markAccessed d s = .ok marks t) (hst : st ∈ marks) :
    st.span = Span.flat (d.addr + 4#32) 4 ∧ st.bytes.length = 4 := by
  unfold markAccessed at h
  split at h
  · cases h
    exact absurd hst (List.not_mem_nil)
  · rw [M_bind_ok (sysPrepare_flat hp _ _)] at h
    cases h
    rw [List.mem_singleton.mp hst]
    exact ⟨by simp, toBytes_length _ _⟩

/-- Several stores prepared in a row. -/
theorem mapM_sysPrepare_bytes {l : List (Dword × List Byte)} {sts : List Store}
    (h : l.mapM (fun x => sysPrepare x.1 x.2) s = .ok sts t) : sts.map Store.bytes = l.map Prod.snd := by
  induction l generalizing s sts with
  | nil => cases h; rfl
  | cons x l ih =>
    rw [List.mapM_cons] at h
    obtain ⟨st, u, hst, h⟩ := M_bind_eq_ok h
    obtain ⟨rest, v, hrest, h⟩ := M_bind_eq_ok h
    cases h
    rw [List.map_cons, List.map_cons, sysPrepare_bytes hst, ih hrest]

theorem mapM_sysPrepare_spans {l : List (Dword × List Byte)} {sts : List Store} (hp : s.pg = false)
    (h : l.mapM (fun x => sysPrepare x.1 x.2) s = .ok sts t) :
    sts.map Store.span = l.map fun x => Span.flat x.1 x.2.length := by
  induction l generalizing sts t with
  | nil => cases h; rfl
  | cons x l ih =>
    rw [List.mapM_cons, M_bind_ok (sysPrepare_flat hp _ _)] at h
    obtain ⟨rest, v, hrest, h⟩ := M_bind_eq_ok h
    cases h
    rw [List.map_cons, List.map_cons, ih hrest]

end Prepared

/-- What a task switch stores into the TSS of the outgoing task, and where (R451, R470; log entry 20). -/
def State.savedTask (s : State) (nextEip flags : Dword) : List (Dword × List Byte) :=
  (s.tr.base + 0x20#32,
    toBytes 4 nextEip ++ toBytes 4 flags ++ toBytes 4 s.gpr.eax ++ toBytes 4 s.gpr.ecx ++ toBytes 4 s.gpr.edx
      ++ toBytes 4 s.gpr.ebx ++ toBytes 4 s.gpr.esp ++ toBytes 4 s.gpr.ebp ++ toBytes 4 s.gpr.esi ++ toBytes 4 s.gpr.edi)
  :: [(0x48#32, s.seg.es), (0x4C#32, s.seg.cs), (0x50#32, s.seg.ss), (0x54#32, s.seg.ds), (0x58#32, s.seg.fs),
      (0x5C#32, s.seg.gs)].map fun x => (s.tr.base + x.1, toBytes 2 (x.2.sel.setWidth 32))

theorem saveTask_eq (next fl : Dword) (s : State) :
    saveTask next fl s = (s.savedTask next fl).mapM (fun x => sysPrepare x.1 x.2) s := by
  unfold saveTask State.savedTask
  rw [M_bind_ok (getState_apply s)]
  simp only [List.map_cons, List.map_nil, List.mapM_cons, List.mapM_nil, bind_assoc, pure_bind]

theorem Translating.savedTask {s t : State} (h : Translating s t) (next fl : Dword) :
    t.savedTask next fl = s.savedTask next fl := by
  simp only [State.savedTask, h.tr, h.gpr, h.seg]

/-- Whether a switch nests: the new task links back to the old one (R480). -/
def SwitchKind.nests (kind : SwitchKind) : Prop := kind = .call ∨ kind = .int

/-- The upper doubleword of the GDT entry that TR names. -/
def State.taskEntry (s : State) : Dword := s.gdtr.base + BitVec.ofNat 32 (8 * selIndex s.tr.sel) + 4#32

theorem Translating.taskEntry {s t : State} (h : Translating s t) : t.taskEntry = s.taskEntry := by
  simp only [State.taskEntry, h.tr, h.gdtr]

section Stores

variable {kind : SwitchKind} {d : Descriptor} {base : Dword} {sts : List Store} {s t : State}

theorem clearBusy_kept (hk : kind.nests ∨ selNull s.tr.sel = true) : clearBusy kind s = .ok [] s := by
  have skip : ¬((decide (kind = .jmp) || decide (kind = .iret)) && !selNull s.tr.sel) = true := by
    rcases hk with (rfl | rfl) | hn
    · simp
    · simp
    · simp [hn]
  unfold clearBusy
  rw [M_bind_ok (getState_apply s), if_neg skip]
  rfl

theorem clearBusy_left (hk : ¬kind.nests) (hn : selNull s.tr.sel = false) :
    clearBusy kind s = (do
      let hi ← sysRead s.taskEntry 4
      if hi.extractLsb' 8 5 = 0b01011#5 then do
        let st ← sysPrepare s.taskEntry (toBytes 4 (hi &&& 0xFFFFFDFF#32))
        pure [st]
      else pure [] : M (List Store)) s := by
  have clears : ((decide (kind = .jmp) || decide (kind = .iret)) && !selNull s.tr.sel) = true := by
    cases kind <;> simp_all [SwitchKind.nests]
  unfold clearBusy State.taskEntry
  rw [M_bind_ok (getState_apply s), if_pos clears, Nat.mul_comm]
  rfl

theorem clearBusy_ok (hk : ¬kind.nests) (hn : selNull s.tr.sel = false) (h : clearBusy kind s = .ok sts t) :
    ∃ hi x, sysRead s.taskEntry 4 s = .ok hi x
      ∧ (hi.extractLsb' 8 5 ≠ 0b01011#5 → sts = [])
      ∧ (hi.extractLsb' 8 5 = 0b01011#5 →
          ∃ st, sysPrepare s.taskEntry (toBytes 4 (hi &&& 0xFFFFFDFF#32)) x = .ok st t ∧ sts = [st]) := by
  rw [clearBusy_left hk hn] at h
  obtain ⟨hi, x, hhi, h⟩ := M_bind_eq_ok h
  refine ⟨hi, x, hhi, fun hb => ?_, fun hb => ?_⟩
  · rw [if_neg hb] at h
    cases h
    rfl
  · rw [if_pos hb] at h
    obtain ⟨st, y, hst, h⟩ := M_bind_eq_ok h
    cases h
    exact ⟨st, hst, rfl⟩

theorem clearBusy_flat (hp : s.pg = false) (h : clearBusy kind s = .ok sts t) {st : Store} (hst : st ∈ sts) :
    st.span = Span.flat s.taskEntry 4 := by
  by_cases hk : kind.nests ∨ selNull s.tr.sel = true
  · rw [clearBusy_kept hk] at h
    cases h
    exact absurd hst List.not_mem_nil
  · obtain ⟨hnest, hnull⟩ := not_or.mp hk
    obtain ⟨hi, x, hhi, hother, hbusy⟩ := clearBusy_ok hnest (by simpa using hnull) h
    by_cases hb : hi.extractLsb' 8 5 = 0b01011#5
    · obtain ⟨st', hp', rfl⟩ := hbusy hb
      have hpx : x.pg = false := ((Translates.sysRead _ _).ok hhi).pg.trans hp
      rw [List.mem_singleton.mp hst, sysPrepare_eq_flat hpx hp', toBytes_length]
    · rw [hother hb] at hst
      exact absurd hst List.not_mem_nil

theorem setBusy_iret (h : setBusy .iret d s = .ok sts t) : sts = [] := by
  cases h
  rfl

theorem setBusy_ok (hk : kind ≠ .iret) (h : setBusy kind d s = .ok sts t) :
    ∃ st, sysPrepare (d.addr + 4#32) (toBytes 4 (d.hi ||| 0x00000200#32)) s = .ok st t ∧ sts = [st] := by
  rw [setBusy, if_neg hk] at h
  obtain ⟨st, u, hst, h⟩ := M_bind_eq_ok h
  cases h
  exact ⟨st, hst, rfl⟩

theorem linkBack_none (hk : ¬kind.nests) (h : linkBack kind base s = .ok sts t) : sts = [] := by
  unfold linkBack at h
  rw [M_bind_ok (getState_apply s), if_neg (by simpa [SwitchKind.nests] using hk)] at h
  cases h
  rfl

theorem linkBack_ok (hk : kind.nests) (h : linkBack kind base s = .ok sts t) :
    ∃ st, sysPrepare base (toBytes 2 (s.tr.sel.setWidth 32)) s = .ok st t ∧ sts = [st] := by
  unfold linkBack at h
  rw [M_bind_ok (getState_apply s), if_pos (by simpa [SwitchKind.nests] using hk)] at h
  obtain ⟨st, u, hst, h⟩ := M_bind_eq_ok h
  cases h
  exact ⟨st, hst, rfl⟩

end Stores

end Sys2Proof.Machine

namespace Sys2Proof.Machine

/-! ## The tests of the incoming task (44_multitasking.md R471, R473 to R475, R477)

The tests of CS, of SS and of a data-segment register differ in what they raise, so they are told as one (`testSeg`) over
the functions that say which exception, if any, a descriptor raises. -/

/-- The exception that tests 6 to 8 raise for the descriptor of CS. -/
def codeFault (sel : Word) (_ : BitVec 2) (d : Descriptor) : Option Byte :=
  if !d.attr.code then some 0x0A#8
  else if !d.present then some 0x0B#8
  else if !d.attr.conforming && d.dpl ≠ selRpl sel then some 0x0A#8
  else if d.attr.conforming && selRpl sel < d.dpl then some 0x0A#8
  else none

/-- The exception that tests 9 to 12 raise for the descriptor of SS. -/
def stackFault (sel : Word) (cpl : BitVec 2) (d : Descriptor) : Option Byte :=
  if !d.attr.writable then some 0x0A#8
  else if !d.present then some 0x0C#8
  else if d.dpl ≠ cpl then some 0x0A#8
  else if selRpl sel ≠ cpl then some 0x0A#8
  else none

/-- The exception that tests 13 to 16 raise for the descriptor of a data-segment register. -/
def dataFault (sel : Word) (cpl : BitVec 2) (d : Descriptor) : Option Byte :=
  if !d.attr.readable then some 0x0A#8
  else if !d.present then some 0x0B#8
  else if !d.attr.conforming && d.dpl < maxPl cpl (selRpl sel) then some 0x0D#8
  else none

/-- Raise an exception, if there is one. -/
def raiseSome {α : Type} (v : Option Byte) (e : Word) (otherwise : M α) : M α :=
  v.elim otherwise fun v => raiseCode v e

/-- The tests of a segment register: `null` is what a null selector raises, `fault` what a descriptor raises. -/
def testSeg (r : Sreg) (null : Option Byte) (fault : Word → BitVec 2 → Descriptor → Option Byte) (ext : Bool) : M Unit := do
  let s ← getState
  let sel := (s.seg.get r).sel
  let e := selErr sel ext
  if selNull sel then raiseSome null e (pure ())
  else do
    let d ← needDescriptor sel (raiseTS e)
    raiseSome (fault sel s.cpl d) e (acceptSeg r d sel)

theorem raiseSome_ite {α : Type} {p : Prop} [Decidable p] {v : Byte} {w : Option Byte} {e : Word} {m : M α} :
    raiseSome (if p then some v else w) e m = if p then raiseCode v e else raiseSome w e m := by
  split <;> rfl

theorem taskCs_eq (ext : Bool) : taskCs ext = testSeg .cs (some 0x0A#8) codeFault ext := by
  simp only [testSeg, codeFault, raiseSome_ite]
  rfl

theorem taskSs_eq (ext : Bool) : taskSs ext = testSeg .ss (some 0x0A#8) stackFault ext := by
  simp only [testSeg, stackFault, raiseSome_ite]
  rfl

theorem taskData_eq (r : Sreg) (ext : Bool) : taskData r ext = testSeg r none dataFault ext := by
  simp only [testSeg, dataFault, raiseSome_ite]
  rfl

/-! ### Which exception a descriptor raises -/

section

variable {sel : Word} {cpl : BitVec 2} {d : Descriptor}

theorem codeFault_of_not_code (h : d.attr.code = false) : codeFault sel cpl d = some 0x0A#8 := by simp [codeFault, h]

theorem codeFault_of_absent (hc : d.attr.code = true) (h : d.present = false) : codeFault sel cpl d = some 0x0B#8 := by
  simp [codeFault, hc, h]

theorem codeFault_of_level (hc : d.attr.code = true) (hp : d.present = true)
    (h : ¬if d.attr.conforming then d.dpl ≤ selRpl sel else d.dpl = selRpl sel) :
    codeFault sel cpl d = some 0x0A#8 := by
  cases hconf : d.attr.conforming with
  | true =>
    have above : selRpl sel < d.dpl := BitVec.not_le.mp (by simpa [hconf] using h)
    simp [codeFault, hc, hp, hconf, above]
  | false =>
    have other : d.dpl ≠ selRpl sel := by simpa [hconf] using h
    simp [codeFault, hc, hp, hconf, other]

theorem stackFault_of_not_writable (h : d.attr.writable = false) : stackFault sel cpl d = some 0x0A#8 := by
  simp [stackFault, h]

theorem stackFault_of_absent (hw : d.attr.writable = true) (h : d.present = false) :
    stackFault sel cpl d = some 0x0C#8 := by
  simp [stackFault, hw, h]

theorem stackFault_of_level (hw : d.attr.writable = true) (hp : d.present = true) (h : d.dpl ≠ cpl ∨ selRpl sel ≠ cpl) :
    stackFault sel cpl d = some 0x0A#8 := by
  by_cases hdpl : d.dpl = cpl
  · simp [stackFault, hw, hp, hdpl, h.resolve_left (not_not_intro hdpl)]
  · simp [stackFault, hw, hp, hdpl]

theorem dataFault_of_not_readable (h : d.attr.readable = false) : dataFault sel cpl d = some 0x0A#8 := by
  simp [dataFault, h]

theorem dataFault_of_absent (hr : d.attr.readable = true) (h : d.present = false) :
    dataFault sel cpl d = some 0x0B#8 := by
  simp [dataFault, hr, h]

theorem dataFault_of_level (hr : d.attr.readable = true) (hp : d.present = true) (hc : d.attr.conforming = false)
    (h : d.dpl < cpl ∨ d.dpl < selRpl sel) : dataFault sel cpl d = some 0x0D#8 := by
  have below : d.dpl < maxPl cpl (selRpl sel) := by
    rw [← BitVec.not_le, maxPl_le_iff, not_and_or, BitVec.not_le, BitVec.not_le]
    exact h
  simp [dataFault, hr, hp, hc, below]

end

/-! ### The exceptions of the tests -/

section Faults

variable {r : Sreg} {null : Option Byte} {fault : Word → BitVec 2 → Descriptor → Option Byte} {ext : Bool} {v : Byte}
  {d : Descriptor} {s t : State}

theorem testSeg_null (hn : selNull (s.seg.get r).sel = true) :
    testSeg r (some v) fault ext s = .error (.exc (faultWith s v (selErr (s.seg.get r).sel ext))) s.freed := by
  unfold testSeg
  rw [M_bind_ok (getState_apply s), if_pos hn]
  rfl

theorem testSeg_unnamed (hn : selNull (s.seg.get r).sel = false) (hl : s.lacksDescriptor (s.seg.get r).sel = true) :
    testSeg r null fault ext s = .error (.exc (faultWith s 0x0A#8 (selErr (s.seg.get r).sel ext))) s.freed := by
  unfold testSeg
  rw [M_bind_ok (getState_apply s), if_neg (by simp [hn])]
  exact M_bind_error (needDescriptor_unnamed hl)

theorem testSeg_none (h : selNull (s.seg.get r).sel = true ∨ s.lacksDescriptor (s.seg.get r).sel = true) :
    testSeg r (some 0x0A#8) fault ext s =
      .error (.exc (faultWith s 0x0A#8 (selErr (s.seg.get r).sel ext))) s.freed := by
  cases hn : selNull (s.seg.get r).sel with
  | true => exact testSeg_null hn
  | false => exact testSeg_unnamed hn (h.resolve_left (by simp [hn]))

theorem testSeg_fault (hn : selNull (s.seg.get r).sel = false)
    (hd : readDescriptor (s.seg.get r).sel s = .ok (some d) t) (hf : fault (s.seg.get r).sel s.cpl d = some v) :
    testSeg r null fault ext s = .error (.exc (faultWith t v (selErr (s.seg.get r).sel ext))) t.freed := by
  unfold testSeg
  rw [M_bind_ok (getState_apply s), if_neg (by simp [hn]), M_bind_ok (needDescriptor_named hd), hf]
  rfl

theorem taskLdt_unnamed (hn : selNull s.ldtr.sel = false)
    (h : selTi s.ldtr.sel = true ∨ s.lacksDescriptor s.ldtr.sel = true) :
    taskLdt ext s = .error (.exc (faultWith s 0x0A#8 (selErr s.ldtr.sel ext))) s.freed := by
  unfold taskLdt
  rw [M_bind_ok (getState_apply s), if_neg (by simp [hn])]
  cases hti : selTi s.ldtr.sel with
  | true => rfl
  | false => exact M_bind_error (needDescriptor_unnamed (h.resolve_left (by simp [hti])))

theorem taskLdt_fault (hn : selNull s.ldtr.sel = false) (hti : selTi s.ldtr.sel = false)
    (hd : readDescriptor s.ldtr.sel s = .ok (some d) t) (h : d.kind ≠ 0b00010#5 ∨ d.present = false) :
    taskLdt ext s = .error (.exc (faultWith t 0x0A#8 (selErr s.ldtr.sel ext))) t.freed := by
  unfold taskLdt
  rw [M_bind_ok (getState_apply s), if_neg (by simp [hn]), if_neg (by simp [hti]), M_bind_ok (needDescriptor_named hd)]
  by_cases hk : d.kind = 0b00010#5
  · rw [if_neg (not_not_intro hk), if_pos (by simpa using h.resolve_left (not_not_intro hk))]
    rfl
  · rw [if_pos hk]
    rfl

/-- The tests in their order, as one list. -/
theorem taskTests_eq_forM (ext : Bool) :
    taskTests ext = [taskLdt ext, taskCs ext, taskSs ext, taskData .ds ext, taskData .es ext, taskData .fs ext,
      taskData .gs ext].forM id := by
  simp only [taskTests, List.forM_eq_forM, List.forM_cons, List.forM_nil, id, bind_pure_unit]

/-- A list of computations ends in the error of the first that has one. -/
theorem forM_error {earlier later : List (M Unit)} {m : M Unit} {e : Err} {u : State}
    (h : earlier.forM id s = .ok () t) (hm : m t = .error e u) : (earlier ++ m :: later).forM id s = .error e u := by
  rw [List.forM_eq_forM] at h ⊢
  rw [List.forM_append, List.forM_cons]
  exact (M_bind_ok h).trans (M_bind_error hm)

end Faults

/-! ### What every test leaves of the new task's registers -/

/-- `t` is what tests may have made of the state `w` that they began in: the hidden parts of the segment registers and of
LDTR may differ, and what translations change. -/
structure Incoming (w t : State) : Prop where
  rest : Translating w { t with seg := w.seg, ldtr := w.ldtr }
  sels : ∀ r, (t.seg.get r).sel = (w.seg.get r).sel
  ldt : t.ldtr.sel = w.ldtr.sel

theorem translating_storeAll (s : State) (sts : List Store) : Translating s (s.storeAll sts) := by
  unfold State.storeAll
  induction sts generalizing s with
  | nil => rfl
  | cons st r ih => exact Translating.trans (t := s.store st) rfl (ih _)

namespace Incoming

variable {w s t : State}

theorem refl (w : State) : Incoming w w := ⟨rfl, fun _ => rfl, rfl⟩

theorem translating (h : Incoming w s) (ht : Translating s t) : Incoming w t := by
  refine ⟨h.rest.trans ?_, fun r => ht.seg ▸ h.sels r, ht.ldtr ▸ h.ldt⟩
  unfold Translating at ht ⊢
  rw [ht]

theorem load {r : Sreg} {g : SegReg} (h : Incoming w s) (marks : List Store) (hg : g.sel = (w.seg.get r).sel) :
    Incoming w (s.load { reg := r, val := g, marks := marks }) := by
  have stored := h.translating (translating_storeAll s marks)
  refine ⟨stored.rest, fun q => ?_, stored.ldt⟩
  show (((s.storeAll marks).seg.set r g).get q).sel = _
  rw [SegRegs.get_set]
  split
  next hq => rw [hq, hg]
  next => exact stored.sels q

end Incoming

theorem keeps_incoming {α : Type} {w : State} {m : M α} (h : Translates m) : Keeps (Incoming w) m :=
  h.keeps fun _ _ hs ht => hs.translating ht

section Kept

variable (w : State) (ext : Bool)

theorem incoming_testSeg (r : Sreg) (null : Option Byte) (fault : Word → BitVec 2 → Descriptor → Option Byte) :
    Keeps (Incoming w) (testSeg r null fault ext) := by
  have exc : ∀ (v : Byte) (e : Word), Keeps (Incoming w) (raiseCode v e : M Unit) := fun v e =>
    keeps_incoming (.raiseCode v e)
  refine keeps_getState_bind fun s hs => keepsAt_ite (fun _ => ?_) fun _ => ?_
  · cases null with
    | none => exact hs
    | some v => exact exc v _ s hs
  · refine keeps_bind (keeps_incoming (.needDescriptor _ (.raiseCode _ _))) (fun d => ?_) s hs
    cases fault (s.seg.get r).sel s.cpl d with
    | some v => exact exc v _
    | none =>
      exact keeps_bind (keeps_incoming (.markAccessed d)) fun marks => keeps_update fun t ht => ht.load marks (hs.sels r)

theorem incoming_taskLdt : Keeps (Incoming w) (taskLdt ext) := by
  have ts : ∀ {α : Type} (e : Word), Keeps (Incoming w) (raiseTS e : M α) := fun e => keeps_incoming (.raiseCode _ e)
  refine keeps_getState_bind fun s hs => keepsAt_ite (fun _ => hs) fun _ => keepsAt_ite (fun _ => ts _ s hs) fun _ => ?_
  refine keeps_bind (keeps_incoming (.needDescriptor _ (.raiseCode _ _))) (fun d => ?_) s hs
  refine keeps_ite (fun _ => ts _) fun _ => keeps_ite (fun _ => ts _) fun _ => keeps_update fun t ht => ?_
  exact ⟨ht.rest, ht.sels, hs.ldt⟩

theorem incoming_taskTests : Keeps (Incoming w) (taskTests ext) := by
  have cs := taskCs_eq ext ▸ incoming_testSeg w ext .cs (some 0x0A#8) codeFault
  have ss := taskSs_eq ext ▸ incoming_testSeg w ext .ss (some 0x0A#8) stackFault
  have data := fun r => taskData_eq r ext ▸ incoming_testSeg w ext r none dataFault
  exact keeps_bind (incoming_taskLdt w ext) fun _ => keeps_bind cs fun _ => keeps_bind ss fun _ =>
    keeps_bind (data _) fun _ => keeps_bind (data _) fun _ => keeps_bind (data _) fun _ => data _

end Kept

/-! ### What tests that pass have done -/

/-- `t` follows `s` by segment registers of the new task that passed their tests. -/
structure SegsLoaded (s t : State) : Prop where
  ctl : t.ctl = s.ctl
  gdtr : t.gdtr = s.gdtr
  ldtr : t.ldtr = s.ldtr
  sels : ∀ r, (t.seg.get r).sel = (s.seg.get r).sel
  valid : ∀ r, (s.seg.get r).valid = true → (t.seg.get r).valid = true
  wf : s.pg = false → Memory.wf s.mem = true → Memory.wf t.mem = true
  bytes : s.pg = false → Memory.wf s.mem = true → ∀ a,
    (∀ r, ¬(Span.flat (s.descriptorAddr (s.seg.get r).sel + 4#32) 4).covers 4 a) → t.byte a = s.byte a

namespace SegsLoaded

variable {s t u : State}

theorem refl (s : State) : SegsLoaded s s :=
  ⟨rfl, rfl, rfl, fun _ => rfl, fun _ => id, fun _ => id, fun _ _ _ _ => rfl⟩

theorem pg (h : SegsLoaded s t) : t.pg = s.pg := by rw [State.pg, h.ctl, State.pg]

theorem descriptorAddr (h : SegsLoaded s t) (r : Sreg) :
    t.descriptorAddr (t.seg.get r).sel = s.descriptorAddr (s.seg.get r).sel := by
  simp only [State.descriptorAddr, h.gdtr, h.ldtr, h.sels r]

theorem trans (h : SegsLoaded s t) (h' : SegsLoaded t u) : SegsLoaded s u where
  ctl := h'.ctl.trans h.ctl
  gdtr := h'.gdtr.trans h.gdtr
  ldtr := h'.ldtr.trans h.ldtr
  sels r := (h'.sels r).trans (h.sels r)
  valid r hv := h'.valid r (h.valid r hv)
  wf hp hw := h'.wf (h.pg.trans hp) (h.wf hp hw)
  bytes hp hw a ha :=
    (h'.bytes (h.pg.trans hp) (h.wf hp hw) a fun r => h.descriptorAddr r ▸ ha r).trans (h.bytes hp hw a ha)

end SegsLoaded

section Passed

variable {r : Sreg} {null : Option Byte} {fault : Word → BitVec 2 → Descriptor → Option Byte} {ext : Bool}
  {sel : Word} {d : Descriptor} {s t u : State}

theorem needDescriptor_eq_ok {v : Byte} {e : Word} (h : needDescriptor sel (raiseCode v e) s = .ok d t) :
    readDescriptor sel s = .ok (some d) t := by
  obtain ⟨x, y, hx, h⟩ := M_bind_eq_ok h
  cases x with
  | none => cases h
  | some x => cases h; exact hx

theorem raiseSome_eq_ok {v : Option Byte} {e : Word} {m : M Unit} (h : raiseSome v e m s = .ok () t) :
    v = none ∧ m s = .ok () t := by
  cases v with
  | none => exact ⟨rfl, h⟩
  | some v => cases h

/-- A segment register that its descriptor, marked accessed, has been loaded into (R475). -/
theorem acceptSeg_ok (hd : readDescriptor (s.seg.get r).sel s = .ok (some d) t)
    (h : acceptSeg r d (s.seg.get r).sel t = .ok () u) : SegsLoaded s u ∧ (u.seg.get r).valid = true := by
  obtain ⟨marks, x, hm, h⟩ := M_bind_eq_ok h
  cases h
  have read := (Translates.readDescriptor _).ok hd
  have marked := read.trans ((Translates.markAccessed d).ok hm)
  have seg : ∀ q, (x.load { reg := r, val := d.segReg (s.seg.get r).sel, marks := marks }).seg.get q =
      if q = r then d.segReg (s.seg.get r).sel else s.seg.get q := fun q => by
    show ((x.storeAll marks).seg.set r _).get q = _
    rw [SegRegs.get_set, State.storeAll_seg, marked.translating.seg]
  refine ⟨⟨(State.storeAll_ctl x marks).trans marked.ctl, (State.storeAll_gdtr x marks).trans marked.translating.gdtr,
    (State.storeAll_ldtr x marks).trans marked.translating.ldtr, fun q => ?_, fun q hv => ?_, fun hp hw => ?_,
    fun hp hw a ha => ?_⟩, ?_⟩
  · rw [seg]
    split
    next hq => rw [hq]; rfl
    next => rfl
  · rw [seg]
    split
    · rfl
    · exact hv
  · rw [← marked.unpaged hp] at hw
    exact State_wf_storeAll hw
  · have outside : ¬storesCover marks a := by
      rintro ⟨st, hst, hc⟩
      obtain ⟨hspan, hlen⟩ := markAccessed_eq_flat (read.pg.trans hp) hm hst
      rw [hspan, hlen, readDescriptor_addr hd] at hc
      exact ha r hc
    rw [← marked.unpaged hp] at hw
    exact (byte_storeAll hw outside).trans (congrArg (Memory.read · a) (marked.unpaged hp))
  · rw [seg, if_pos rfl]
    rfl

theorem testSeg_ok (h : testSeg r null fault ext s = .ok () t) :
    SegsLoaded s t ∧ (null ≠ none → (t.seg.get r).valid = true) := by
  unfold testSeg at h
  rw [M_bind_ok (getState_apply s)] at h
  split at h
  · obtain ⟨hnull, h⟩ := raiseSome_eq_ok h
    cases h
    exact ⟨.refl s, fun hne => absurd hnull hne⟩
  · obtain ⟨d, x, hd, h⟩ := M_bind_eq_ok h
    obtain ⟨loaded, valid⟩ := acceptSeg_ok (needDescriptor_eq_ok hd) (raiseSome_eq_ok h).2
    exact ⟨loaded, fun _ => valid⟩

/-- The test of the LDT changes LDTR alone. -/
theorem taskLdt_ok (h : taskLdt ext s = .ok () t) : t.ctl = s.ctl ∧ (s.pg = false → t.mem = s.mem) := by
  unfold taskLdt at h
  rw [M_bind_ok (getState_apply s)] at h
  split at h
  · cases h; exact ⟨rfl, fun _ => rfl⟩
  split at h
  · cases h
  obtain ⟨d, x, hd, h⟩ := M_bind_eq_ok h
  have read := (Translates.needDescriptor _ (.raiseCode _ _)).ok hd
  split at h
  · cases h
  split at h
  · cases h
  cases h
  exact ⟨read.ctl, read.unpaged⟩

theorem taskTests_ok (h : taskTests ext s = .ok () t) :
    t.ctl = s.ctl ∧ t.seg.cs.valid = true ∧ t.seg.ss.valid = true
      ∧ (s.pg = false → Memory.wf s.mem = true → ∀ a,
          (∀ r, ¬(Span.flat (t.descriptorAddr (t.seg.get r).sel + 4#32) 4).covers 4 a) → t.byte a = s.byte a) := by
  simp only [taskTests, taskCs_eq, taskSs_eq, taskData_eq] at h
  obtain ⟨_, x, hldt, h⟩ := M_bind_eq_ok h
  obtain ⟨_, x1, hcs, h⟩ := M_bind_eq_ok h
  obtain ⟨_, x2, hss, h⟩ := M_bind_eq_ok h
  obtain ⟨_, x3, hds, h⟩ := M_bind_eq_ok h
  obtain ⟨_, x4, hes, h⟩ := M_bind_eq_ok h
  obtain ⟨_, x5, hfs, hgs⟩ := M_bind_eq_ok h
  obtain ⟨ctl, mem⟩ := taskLdt_ok hldt
  obtain ⟨cs, csValid⟩ := testSeg_ok hcs
  obtain ⟨ss, ssValid⟩ := testSeg_ok hss
  have data := (((testSeg_ok hds).1.trans (testSeg_ok hes).1).trans (testSeg_ok hfs).1).trans (testSeg_ok hgs).1
  have all := (cs.trans ss).trans data
  refine ⟨all.ctl.trans ctl, (ss.trans data).valid .cs (csValid (by simp)), data.valid .ss (ssValid (by simp)), ?_⟩
  intro hp hw a ha
  have pg : x.pg = false := by rw [State.pg, ctl]; exact hp
  refine (all.bytes pg ((mem hp).symm ▸ hw) a fun r => all.descriptorAddr r ▸ ha r).trans ?_
  exact congrArg (Memory.read · a) (mem hp)

end Passed

end Sys2Proof.Machine

namespace Sys2Proof.Machine

/-! ## The task switch (44_multitasking.md R470) -/

/-! ### Tests 1 to 3: the descriptor of the incoming TSS (R471) -/

/-- The exception of a selector or descriptor that can name no TSS. -/
def SwitchKind.bad (kind : SwitchKind) : Byte := if kind = .iret then 0x0A#8 else 0x0D#8

/-- The exception that tests 1 to 3 raise for a descriptor. -/
def tssFault (kind : SwitchKind) (d : Descriptor) : Option Byte :=
  if d.kind ≠ 0b01001#5 && d.kind ≠ 0b01011#5 then some kind.bad
  else if !d.present then some 0x0B#8
  else if kind ≠ .iret && d.kind = 0b01011#5 then some 0x0D#8
  else if kind = .iret && d.kind = 0b01001#5 then some 0x0A#8
  else if d.limit.toNat < 103 then some 0x0A#8
  else none

section

variable {kind : SwitchKind} {d : Descriptor}

theorem tssFault_of_other (h : d.kind ∉ [0b01001#5, 0b01011#5]) : tssFault kind d = some kind.bad := by
  simp only [List.mem_cons, List.not_mem_nil, or_false, not_or] at h
  simp [tssFault, h]

theorem tssFault_of_absent (hk : d.kind = 0b01001#5 ∨ d.kind = 0b01011#5) (h : d.present = false) :
    tssFault kind d = some 0x0B#8 := by
  rcases hk with hk | hk
  · simp [tssFault, hk, h]
  · simp [tssFault, hk, h]

theorem tssFault_of_busy (hk : d.kind = 0b01011#5) (hp : d.present = true) (h : kind ≠ .iret) :
    tssFault kind d = some 0x0D#8 := by
  simp [tssFault, hk, hp, h]

theorem tssFault_of_available (hk : d.kind = 0b01001#5) (hp : d.present = true) (h : kind = .iret) :
    tssFault kind d = some 0x0A#8 := by
  simp [tssFault, hk, hp, h]

theorem tssFault_of_short (hk : d.kind = if kind = .iret then 0b01011#5 else 0b01001#5) (hp : d.present = true)
    (h : d.limit.toNat < 103) : tssFault kind d = some 0x0A#8 := by
  by_cases hi : kind = .iret
  · rw [if_pos hi] at hk
    simp [tssFault, hk, hp, hi, h]
  · rw [if_neg hi] at hk
    simp [tssFault, hk, hp, hi, h]

end

theorem raise_bad {α : Type} (kind : SwitchKind) (e : Word) :
    (if kind = .iret then raiseTS e else raiseGP e : M α) = raiseCode kind.bad e := by
  unfold SwitchKind.bad
  split <;> rfl

section IncomingTss

variable {kind : SwitchKind} {sel : Word} {ext : Bool} {next fl : Dword} {d : Descriptor} {v : Byte} {s t : State}

theorem incomingTss_none (h : selNull sel = true ∨ selTi sel = true ∨ s.lacksDescriptor sel = true) :
    incomingTss kind sel ext s = .error (.exc (faultWith s kind.bad (selErr sel ext))) s.freed := by
  simp only [incomingTss, raise_bad]
  cases hn : selNull sel with
  | true => rfl
  | false =>
    cases hti : selTi sel with
    | true => rfl
    | false => exact M_bind_error (needDescriptor_unnamed (by simpa [hn, hti] using h))

theorem incomingTss_named (hn : selNull sel = false) (hti : selTi sel = false)
    (hd : readDescriptor sel s = .ok (some d) t) (h286 : d.kind ∉ [0b00001#5, 0b00011#5]) :
    incomingTss kind sel ext s = raiseSome (tssFault kind d) (selErr sel ext) (pure d) t := by
  simp only [incomingTss, raise_bad, tssFault, raiseSome_ite]
  rw [if_neg (by simp [hn, hti]), M_bind_ok (needDescriptor_named hd), if_neg (by simpa using h286)]
  rfl

theorem taskSwitch_none (h : selNull sel = true ∨ selTi sel = true ∨ s.lacksDescriptor sel = true) :
    taskSwitch kind sel ext next fl s = .error (.exc (faultWith s kind.bad (selErr sel ext))) s.freed :=
  M_bind_error (incomingTss_none h)

theorem taskSwitch_fault (hn : selNull sel = false) (hti : selTi sel = false)
    (hd : readDescriptor sel s = .ok (some d) t) (h286 : d.kind ∉ [0b00001#5, 0b00011#5])
    (hf : tssFault kind d = some v) :
    taskSwitch kind sel ext next fl s = .error (.exc (faultWith t v (selErr sel ext))) t.freed := by
  refine M_bind_error ?_
  rw [incomingTss_named hn hti hd h286, hf]
  rfl

end IncomingTss

/-! ### The registers of the incoming task -/

/-- The new task's registers do not hang on what translations change. -/
theorem Translating.enterTask {s t : State} (h : Translating s t) (kind : SwitchKind) (sel : Word) (d : Descriptor)
    (image : List Byte) : Translating (s.enterTask kind sel d image) (t.enterTask kind sel d image) := by
  unfold Translating at h
  generalize t.mem = m, t.tlb = tlb, t.ctl.cr2 = cr2, t.free = free at h
  subst h
  by_cases flushed : s.ctl.cr0[31] = true ∧ ¬tssField image 0x1C = s.ctl.cr3
  · simp [Translating, State.enterTask, State.pg, flushed, Tlb.flush]
  · simp [Translating, State.enterTask, State.pg, flushed]

theorem enterTask_pg (s : State) (kind : SwitchKind) (sel : Word) (d : Descriptor) (image : List Byte) :
    (s.enterTask kind sel d image).pg = s.pg := by
  simp [State.pg, State.enterTask]

theorem enterTask_nt (kind : SwitchKind) (image : Bool) :
    incomingNt kind image = if kind = .jmp then false else if kind = .iret then image else true := by
  cases kind <;> rfl

/-- The state in which the T bit of the new task has been looked at (R470; 48_debug.md R658). -/
def State.taskTrap (s : State) (trap : Bool) : State :=
  s.setPending { s.run.pendingDb with bt := s.run.pendingDb.bt || trap }

/-- What tests that pass leave in the state that the stores and the new task's registers made. -/
theorem taskTests_entered {kind : SwitchKind} {sel : Word} {ext : Bool} {d : Descriptor} {image : List Byte}
    {stores : List Store} {s t v : State} (ht : Translated s t)
    (h : taskTests ext ((t.storeAll stores).enterTask kind sel d image) = .ok () v) :
    v.seg.cs.valid = true ∧ v.seg.ss.valid = true ∧ v.ctl.cr2 = s.ctl.cr2
      ∧ (s.pg = false → Memory.wf s.mem = true → ∀ a, ¬storesCover stores a →
          (∀ r, ¬(Span.flat (v.descriptorAddr (v.seg.get r).sel + 4#32) 4).covers 4 a) → v.byte a = s.byte a) := by
  obtain ⟨ctl, cs, ss, bytes⟩ := taskTests_ok h
  have stored : (t.storeAll stores).ctl = s.ctl := (State.storeAll_ctl t stores).trans ht.ctl
  refine ⟨cs, ss, by rw [ctl, ← stored]; rfl, fun hp hw a ha hmark => ?_⟩
  have pg : ((t.storeAll stores).enterTask kind sel d image).pg = false := by
    rw [enterTask_pg, State.pg, stored]
    exact hp
  have wf : Memory.wf t.mem = true := (ht.unpaged hp).symm ▸ hw
  calc v.byte a = (t.storeAll stores).byte a := bytes pg (State_wf_storeAll wf) a hmark
    _ = t.byte a := byte_storeAll wf ha
    _ = s.byte a := congrArg (Memory.read · a) (ht.unpaged hp)

section Switch

variable {kind : SwitchKind} {sel : Word} {ext : Bool} {next fl : Dword} {d : Descriptor} {span : Span}
  {save clear busy link : List Store} {s s1 s2 s3 s4 s5 s6 : State}
  (h1 : incomingTss kind sel ext s = .ok d s1) (h2 : saveTask next fl s1 = .ok save s2)
  (h3 : clearBusy kind s2 = .ok clear s3) (h4 : setBusy kind d s3 = .ok busy s4)
  (h5 : linkBack kind d.base s4 = .ok link s5) (h6 : translate d.base 104 false false s5 = .ok span s6)

include h1 h2 h3 h4 h5 h6

/-- A task switch that has prepared its stores makes them, enters the new task and makes its tests there. -/
theorem taskSwitch_prepared :
    let u := s6.storeAll (save ++ clear ++ busy ++ link)
    let image := Memory.readSpan u.mem span 0 104
    (tssField image 0x24).getLsbD 17 = false →
      taskSwitch kind sel ext next fl s = (do
        taskTests ext
        update fun t => t.taskTrap ((tssField image 0x64).getLsbD 0) : M Unit) (u.enterTask kind sel d image) := by
  intro u image hvm
  have notVirtual : ¬(u.enterTask kind sel d image).flags.vm = true := Bool.eq_false_iff.mp hvm
  have trap : (if (tssField image 0x64).getLsbD 0 = true then
      update fun s => { s with run := { s.run with pendingDb := { s.run.pendingDb with bt := true } } }
      else pure () : M Unit) = update fun t => t.taskTrap ((tssField image 0x64).getLsbD 0) := by
    cases (tssField image 0x64).getLsbD 0 with
    | true => simp only [State.taskTrap, Bool.or_true]; rfl
    | false => simp only [State.taskTrap, Bool.or_false]; rfl
  unfold taskSwitch
  rw [M_bind_ok h1, M_bind_ok h2, M_bind_ok h3, M_bind_ok h4, M_bind_ok h5, M_bind_ok h6, M_bind_ok (update_apply _ s6),
    M_bind_ok (getState_apply _), M_bind_ok (update_apply _ _), M_bind_ok (getState_apply _), if_neg notVirtual, trap]

end Switch

end Sys2Proof.Machine

namespace Sys2Proof.Machine

/-! ## What makes a task switch (44_multitasking.md R465, R466) -/

/-! ### JMP and CALL to a TSS or a task gate -/

/-- The TSS that a JMP or CALL names, itself or through a task gate. -/
def Descriptor.taskSel (d : Descriptor) (sel : Word) : Word := if d.kind = 0b01001#5 then sel else d.gateSel

/-- A far transfer to an available TSS or a task gate: the privilege check, for a gate that of its presence, the switch. -/
theorem farProtected_task {kind : FarKind} {d : Descriptor} {sel : Word} {off next : Dword} {s t : State}
    (hn : selNull sel = false) (hd : readDescriptor sel s = .ok (some d) t) (hk : d.kind ∈ [0b01001#5, 0b00101#5]) :
    farProtected kind sel off next s = (do
      require (maxPl s.cpl (selRpl sel) ≤ d.dpl) (raiseGP (selErr sel false))
      require (d.kind = 0b01001#5 || d.present) (raiseNP (selErr sel false))
      taskSwitch kind.switch (d.taskSel sel) false next s.flags.pack
      pure .newTask : M FarEnd) t := by
  simp only [List.mem_cons, List.not_mem_nil, or_false] at hk
  unfold farProtected Descriptor.taskSel
  rw [M_bind_ok (getState_apply s), require_bind_ok (by simp [hn]), M_bind_ok (needDescriptor_named hd)]
  rcases hk with hk | hk
  · have system : ¬d.attr.s = true := by simp [Descriptor.s_eq_kind, hk]
    rw [if_neg system, if_neg (by simp [hk]), if_neg (by simp [hk]), if_pos hk, if_pos hk]
    simp only [hk, decide_true, Bool.true_or, require_true, pure_bind]
  · have system : ¬d.attr.s = true := by simp [Descriptor.s_eq_kind, hk]
    have gate : ¬d.kind = 0b01001#5 := by simp [hk]
    rw [if_neg system, if_neg (by simp [hk]), if_pos hk, if_neg gate, decide_eq_false gate, Bool.false_or]

theorem farKind_switch (isCall : Bool) (c : Ctx) (s : State) :
    (farKind isCall c s).switch = if isCall then .call else .jmp := by
  cases isCall <;> rfl

namespace FarInstr

variable {isCall : Bool} {c : Ctx} {i : Instr} {off : Dword} {sel : Word} {reads : List (Dword × Nat)} {s t u : State}

/-- A far JMP or CALL that ended in another task (48_debug.md R652). -/
theorem switches (h : FarInstr isCall c i off sel reads s t) (hv : s.flags.vm = false) (hp : s.pe = true)
    (hf : farProtected (farKind isCall c s) sel off (s.nextPc c) t = .ok .newTask u) :
    exec i s = .next (s.endedRf u.a31Freed) := by
  refine h.continues.completes hv ?_
  unfold farTransfer
  rw [M_bind_apply, M_bind_ok (getState_apply t), if_pos (h.accessed.touched.pe.trans hp), M_bind_ok hf]
  rfl

end FarInstr

/-! ### IRET with NT set (46_interrupt_instructions.md R561, R565) -/

section Iret

variable {c : Ctx} {link : Dword} {s t u : State} (hv : s.flags.vm = false) (hp : s.pe = true)
  (hnt : s.flags.nt = true) (hl : sysRead s.tr.base 2 s = .ok link t)

include hp hnt hl

theorem returnFromInterrupt_nested (n : Nat) (next : Dword) :
    returnFromInterrupt n next s = (do
      taskSwitch .iret (lowWord link) false next { s.flags with nt := false }.pack
      update State.unmaskNmi : M Unit) t := by
  unfold returnFromInterrupt
  rw [M_bind_ok (getState_apply s), if_pos (by simp [hp, hnt]), M_bind_ok hl]

include hv

theorem iret_switches
    (h : taskSwitch .iret (lowWord link) false (s.nextPc c) { s.flags with nt := false }.pack t = .ok () u) :
    exec (.iret c) s = .next (s.endedRf u.unmaskNmi) := by
  refine runInstr_ok hv (k := .keepsRf) ?_
  have returned := (returnFromInterrupt_nested hp hnt hl c.opBytes (s.nextPc c)).trans (M_bind_ok h)
  exact M_bind_ok returned

theorem iret_raises {e : Event}
    (h : taskSwitch .iret (lowWord link) false (s.nextPc c) { s.flags with nt := false }.pack t = .error (.exc e) u) :
    exec (.iret c) s = raised e u :=
  runInstr_exc hv (M_bind_error ((returnFromInterrupt_nested hp hnt hl c.opBytes (s.nextPc c)).trans (M_bind_error h)))

end Iret

/-! ### An event through a task gate (60_exceptions.md R725) -/

@[simp] theorem State.savedEip_flags (s : State) (e : Event) : (s.savedEip e).flags = s.flags := by
  unfold State.savedEip
  split <;> rfl

@[simp] theorem State.savedEip_ctl (s : State) (e : Event) : (s.savedEip e).ctl = s.ctl := by
  unfold State.savedEip
  split <;> rfl

theorem deliverOnce_protected {e : Event} {s : State} (hv : s.flags.vm = false) (hp : s.pe = true) :
    deliverOnce e s = deliverProtected e s := by
  unfold deliverOnce
  rw [M_bind_ok (getState_apply s), if_neg (by simp [hv]), if_pos hp]

/-- A delivery begins in the mode in which the event arose. -/
theorem deliverOnce_begun {e : Event} {s : State} {x : Option ExcClass} (hv : s.flags.vm = false) (hp : s.pe = true) :
    deliverOnce e ((s.savedEip e).setDelivering x) = deliverProtected e ((s.savedEip e).setDelivering x) :=
  deliverOnce_protected (by simp [hv]) (by simpa [State.pe] using hp)

section TaskGate

variable {e : Event} {gate : Descriptor} {s s1 s2 : State}

/-- The delivery in protected mode through the task gate that its vector selects. -/
theorem deliverProtected_taskGate (hin : 8 * e.vector.toNat + 7 ≤ s.idtr.limit.toNat)
    (haddr : gate.addr = s.idtr.base + BitVec.ofNat 32 (8 * e.vector.toNat)) (hlo : sysRead gate.addr 4 s = .ok gate.lo s1)
    (hhi : sysRead (gate.addr + 4#32) 4 s1 = .ok gate.hi s2) (hk : gate.kind = 0b00101#5)
    (hs : e.kind = .software → s.cpl ≤ gate.dpl) :
    deliverProtected e s = (do
      require gate.present (raiseNP (idtErr e.vector e.ext))
      deliverTask e gate : M Unit) s2 := by
  obtain ⟨lo, hi, addr⟩ := gate
  subst haddr
  have allowed : (!(decide (e.kind = .software) && decide
      ((Descriptor.mk lo hi (s.idtr.base + BitVec.ofNat 32 (8 * e.vector.toNat))).dpl < s.cpl))) = true := by
    by_cases he : e.kind = .software
    · simpa [he] using hs he
    · simp [he]
  unfold deliverProtected
  rw [M_bind_ok (getState_apply s), require_bind_ok (decide_eq_true hin), M_bind_ok hlo, M_bind_ok hhi,
    if_neg (by simp [hk]), require_bind_ok (by simp [hk]), require_bind_ok allowed, if_pos hk]

/-- The switch that a task gate makes: it saves EIP and EFLAGS as they were when the delivery began. -/
def gateSwitch (e : Event) (gate : Descriptor) (s : State) : M Unit :=
  taskSwitch .int gate.gateSel e.ext s.pc (s.flags.image (e.kind = .fault))

variable {t u v : State} (ht : Touched s t)

include ht

theorem deliverTask_error {x : Err} (h : gateSwitch e gate s t = .error x u) : deliverTask e gate t = .error x u := by
  unfold deliverTask
  rw [M_bind_ok (getState_apply t), ht.pc, ht.flags]
  exact M_bind_error h

theorem deliverTask_no_code (h : gateSwitch e gate s t = .ok () u) (hc : e.code = none) :
    deliverTask e gate t = .ok () u := by
  unfold deliverTask
  rw [M_bind_ok (getState_apply t), ht.pc, ht.flags, hc]
  exact M_bind_ok h

/-- The error code goes on the stack of the new task. -/
theorem deliverTask_code {code : Dword} {sp : Span} (h : gateSwitch e gate s t = .ok () u) (hc : e.code = some code)
    (hsp : operandSpan .ss (u.stackBelow 4) 4 .write u = .ok sp v) :
    deliverTask e gate t = .ok () ((v.store { span := sp, bytes := toBytes 4 code }).moveDown 4) := by
  have push : stackPrepare 4 (toBytes 4 code) u = .ok { span := sp, bytes := toBytes 4 code } v :=
    memPrepare_ok ((toBytes_length 4 code).symm ▸ hsp)
  unfold deliverTask
  rw [M_bind_ok (getState_apply t), ht.pc, ht.flags, hc]
  exact (M_bind_ok h).trans (M_bind_ok push)

end TaskGate

end Sys2Proof.Machine

namespace Sys2Proof.Machine

/-! ## The statement about the task switch -/

/-- Settles O60: the switch by what its stores are and what its tests leave alone; what makes a switch ends in it; each
test is one branch of `tssFault`, `codeFault`, `stackFault` or `dataFault`. -/
theorem taskSwitch_holds : Obligations.TaskSwitch := by
  unfold Obligations.TaskSwitch
  refine ⟨?_, ?_, ?_, ?_, ?_, ?_⟩
  · intro kind sel ext next fl d span save clear busy link s s1 s2 s3 s4 s5 s6 h1 h2 h3 h4 h5 h6 stores u image hvm tests
      entered g nests oldEntry newBusy backLink
    have t1 := (Translates.incomingTss kind sel ext).ok h1
    have t2 := t1.trans ((Translates.saveTask next fl).ok h2)
    have t3 := t2.trans ((Translates.clearBusy kind).ok h3)
    have t4 := t3.trans ((Translates.setBusy kind d).ok h4)
    have t5 := t4.trans ((Translates.linkBack kind d.base).ok h5)
    have t6 := t5.trans ((Translates.translate d.base 104 false false).ok h6)
    have switched := taskSwitch_prepared h1 h2 h3 h4 h5 h6 hvm
    have saved := (saveTask_eq next fl s1).symm.trans h2
    rw [t1.translating.savedTask] at saved
    have entering := (t6.translating.trans (translating_storeAll s6 stores)).enterTask kind sel d image
    have tested := incoming_taskTests (u.enterTask kind sel d image) ext _ (.refl _)
    unfold KeepsAt at tested
    have entered_of : ∀ t, Incoming (u.enterTask kind sel d image) t → entered t := by
      intro t h
      have rest := entering.trans h.rest
      have system := s.enterTask_system kind sel d image
      exact ⟨rest.tr, rest.cr0, rest.cr3, rest.pc, rest.gpr, enterTask_nt kind _ ▸ rest.flags, h.sels .es, h.sels .cs,
        h.sels .ss, h.sels .ds, h.sels .fs, h.sels .gs, h.ldt, rest.cpl, rest.dbg, rest.gdtr, rest.idtr,
        rest.tr6.trans (congrArg SystemPart.tr6 system), rest.tr7.trans (congrArg SystemPart.tr7 system), rest.io, rest.cop⟩
    have sets : kind ≠ .iret → _ := fun hk => setBusy_ok hk h4
    have links : nests → ∃ st, sysPrepare d.base backLink s4 = .ok st s5 ∧ link = [st] := fun hk => by
      have linked := linkBack_ok hk h5
      rwa [t4.translating.tr] at linked
    refine ⟨mapM_sysPrepare_bytes saved, fun hp => ?_, fun hk => setBusy_iret (hk ▸ h4), sets,
      fun hk => linkBack_none hk h5, links, fun hk => ?_, fun hk hn => ?_, fun hp => ⟨?_, fun hk => ?_, fun hk => ?_, ?_⟩,
      fun e v h => ?_, fun v h => ?_⟩
    · refine (mapM_sysPrepare_spans (t1.pg.trans hp) saved).trans ?_
      simp [State.savedTask]
    · rw [clearBusy_kept (t2.translating.tr ▸ hk)] at h3
      cases h3
      rfl
    · have cleared := clearBusy_ok hk (t2.translating.tr ▸ hn) h3
      rwa [t2.translating.taskEntry] at cleared
    · rw [translate_flat (t5.pg.trans hp)] at h6
      cases h6
      rfl
    · obtain ⟨st, hst, rfl⟩ := sets hk
      rw [sysPrepare_eq_flat (t3.pg.trans hp) hst, toBytes_length]
    · obtain ⟨st, hst, rfl⟩ := links hk
      rw [sysPrepare_eq_flat (t4.pg.trans hp) hst, toBytes_length]
    · intro st hst
      exact (clearBusy_flat (t2.pg.trans hp) h3 hst).trans (congrArg (Span.flat · 4) t2.translating.taskEntry)
    · replace h : taskTests ext (u.enterTask kind sel d image) = .error e v := h
      rw [h] at tested
      exact ⟨switched.trans (M_bind_error h), entered_of v tested⟩
    · replace h : taskTests ext (u.enterTask kind sel d image) = .ok () v := h
      rw [h] at tested
      have trap : (v.taskTrap ((tssField image 0x64).getLsbD 0)).run.pendingDb.bt
          = (v.run.pendingDb.bt || (tssField image 0x64).getLsbD 0) := rfl
      rw [(entering.trans tested.rest).run] at trap
      obtain ⟨cs, ss, cr2, bytes⟩ := taskTests_entered t6 h
      exact ⟨_, switched.trans (M_bind_ok h), entered_of v tested, cs, ss, trap, cr2, bytes⟩
  · intro c i isCall off sel reads d s t u hv hp h hn hd hk open_ tss switch
    have far : FarInstr isCall c i off sel reads s t := h
    have cpl : t.cpl = s.cpl := far.accessed.touched.cpl
    have task := farProtected_task (kind := farKind isCall c s) (off := off) (next := s.nextPc c) hn hd hk
    rw [cpl, far.accessed.touched.flags, farKind_switch] at task
    have opened : open_ → decide (maxPl s.cpl (selRpl sel) ≤ d.dpl) = true := fun ho => decide_eq_true (maxPl_le_iff.mpr ho)
    refine ⟨fun ho => ?_, fun ho hg ha => ?_, fun ho ha => ?_⟩
    · exact far.raises hv hp (task.trans (require_bind_exc (decide_eq_false (maxPl_le_iff.not.mpr ho)) rfl))
    · have absent : (decide (d.kind = 0b01001#5) || d.present) = false := by simp [hg, ha]
      exact far.raises hv hp (task.trans ((require_bind_ok (opened ho)).trans (require_bind_exc absent rfl)))
    · have present : (decide (d.kind = 0b01001#5) || d.present) = true := by
        simp only [List.mem_cons, List.not_mem_nil, or_false] at hk
        rcases hk with hk | hk
        · simp [hk]
        · simp [ha hk]
      have begins := task.trans ((require_bind_ok (opened ho)).trans (require_bind_ok present))
      exact ⟨fun v hs => far.switches hv hp (begins.trans (M_bind_ok hs)),
        fun e v hs => far.raises hv hp (begins.trans (M_bind_error hs))⟩
  · intro c link s t hv hp hnt hl switch
    exact ⟨fun u h => iret_switches hv hp hnt hl h, fun e u h => iret_raises hv hp hnt hl h⟩
  · intro n e lo hi s0 s1 s2 hv hp s k at_ gate begun hin hlo hhi hk hsoft saved switch
    have touched : Touched begun s2 := touched_trans (checked_sysRead _ _ _ _ _ hlo) (checked_sysRead _ _ _ _ _ hhi)
    have once := (deliverOnce_begun hv hp).trans (deliverProtected_taskGate (s := begun) (gate := gate) hin rfl hlo hhi hk
      hsoft)
    refine ⟨fun ha => once.trans (require_bind_exc ha rfl), fun ha => ?_⟩
    replace once : deliverOnce e begun = deliverTask e gate s2 := once.trans (require_bind_ok ha)
    refine ⟨fun u h hc => ?_, fun u code sp v h hc hsp => ⟨?_, ?_⟩, fun e2 u h => ?_⟩
    · exact deliver_ok (once.trans (deliverTask_no_code touched h hc))
    · exact deliver_ok (once.trans (deliverTask_code touched h hc hsp))
    · refine ((Accessed.refl u).span hsp).frame (sts := [{ span := sp, bytes := toBytes 4 code }])
        (State.moveDown_mem _ _) fun a => ?_
      simp only [accessedByte_append, accessedByte_cons, accessedByte_nil, storesCover_cons, storesCover_nil,
        toBytes_length, or_false, false_or, imp_self]
    · exact once.trans (deliverTask_error touched h)
  · intro kind sel ext next fl s failed bad
    refine ⟨taskSwitch_none, fun d t hn hti hd => ?_⟩
    have fails : ∀ {v : Byte}, d.kind ∉ [0b00001#5, 0b00011#5] → tssFault kind d = some v → failed v t := fun h286 hf =>
      taskSwitch_fault hn hti hd h286 hf
    have not286 : ∀ {k : BitVec 5}, d.kind = k → k ∉ [0b00001#5, 0b00011#5] → d.kind ∉ [0b00001#5, 0b00011#5] :=
      fun hk h => hk ▸ h
    refine ⟨fun other => ?_, fun hk ha => ?_, fun hk hp hi => ?_, fun hk hp hi => ?_, fun hk hp hl => ?_⟩
    · refine fails (fun h286 => other ?_) (tssFault_of_other fun h => other ?_)
      · simp only [List.mem_cons] at h286 ⊢
        tauto
      · simp only [List.mem_cons] at h ⊢
        tauto
    · exact fails (hk.elim (not286 · (by decide)) (not286 · (by decide))) (tssFault_of_absent hk ha)
    · exact fails (not286 hk (by decide)) (tssFault_of_busy hk hp hi)
    · exact fails (not286 hk (by decide)) (tssFault_of_available hk hp hi)
    · exact fails (not286 hk (by split <;> decide)) (tssFault_of_short hk hp hl)
  · intro ext s failed ldt cs ss
    refine ⟨fun earlier later m e t u hl hbefore hm => ?_, fun hn h => taskLdt_unnamed hn h,
      fun d t hn hti hd h => taskLdt_fault hn hti hd h, fun h => ?_, fun d t hn hd => ?_, fun h => ?_, fun d t hn hd => ?_,
      fun r => ?_⟩
    · rw [taskTests_eq_forM, hl]
      exact forM_error hbefore hm
    · exact (congrFun (taskCs_eq ext) s).trans (testSeg_none h)
    · have fails : ∀ {v : Byte}, codeFault cs s.cpl d = some v → failed (taskCs ext) v cs t := fun hf =>
        (congrFun (taskCs_eq ext) s).trans (testSeg_fault hn hd hf)
      exact ⟨fun hc => fails (codeFault_of_not_code hc), fun hc ha => fails (codeFault_of_absent hc ha),
        fun hc hp hl => fails (codeFault_of_level hc hp hl)⟩
    · exact (congrFun (taskSs_eq ext) s).trans (testSeg_none h)
    · have fails : ∀ {v : Byte}, stackFault ss s.cpl d = some v → failed (taskSs ext) v ss t := fun hf =>
        (congrFun (taskSs_eq ext) s).trans (testSeg_fault hn hd hf)
      exact ⟨fun hw => fails (stackFault_of_not_writable hw), fun hw ha => fails (stackFault_of_absent hw ha),
        fun hw hp hl => fails (stackFault_of_level hw hp hl)⟩
    · refine ⟨fun hn hl => (congrFun (taskData_eq r ext) s).trans (testSeg_unnamed hn hl), fun d t hn hd => ?_⟩
      have fails : ∀ {v : Byte}, dataFault (s.seg.get r).sel s.cpl d = some v →
          failed (taskData r ext) v (s.seg.get r).sel t := fun hf =>
        (congrFun (taskData_eq r ext) s).trans (testSeg_fault hn hd hf)
      exact ⟨fun hr => fails (dataFault_of_not_readable hr), fun hr ha => fails (dataFault_of_absent hr ha),
        fun hr hp hc hl => fails (dataFault_of_level hr hp hc hl)⟩

end Sys2Proof.Machine

namespace Sys2Proof.Machine

/-! ## The I/O permission map (45_io.md R521 to R525) -/

section

variable {s t u : State} {port : Word} {n : Nat}

/-- The permission test where IOPL does not permit the access (R521). -/
theorem ioPermit_mapped (hp : s.pe = true) (hl : s.flags.vm = true ∨ s.flags.iopl < s.cpl) :
    ioPermit port n s = (do
      require s.tr.valid (raiseGP 0x0000#16)
      let v ← sysRead (s.tr.base + 0x66#32) 2
      require (v.toNat < s.tr.limit.toNat) (raiseGP 0x0000#16)
      ioMapBits v.toNat port.toNat n : M Unit) s := by
  have denied : (!s.flags.vm && decide (s.cpl ≤ s.flags.iopl)) = false := by
    rcases hl with hv | hl
    · simp [hv]
    · simp [BitVec.not_le.mpr hl]
  unfold ioPermit
  rw [M_bind_ok (getState_apply s), if_neg (by simp [hp]), if_neg (by simp [denied])]

/-- The test once the map's offset is read (R522). -/
theorem ioPermit_mapBase {v : Dword} (hp : s.pe = true) (hl : s.flags.vm = true ∨ s.flags.iopl < s.cpl)
    (ht : s.tr.valid = true) (hr : sysRead (s.tr.base + 0x66#32) 2 s = .ok v t) :
    ioPermit port n s =
      (require (v.toNat < s.tr.limit.toNat) (raiseGP 0x0000#16) >>= fun _ => ioMapBits v.toNat port.toNat n) t :=
  (ioPermit_mapped hp hl).trans ((require_bind_ok ht).trans (M_bind_ok hr))

/-- A TSS without a map (R525). -/
theorem ioPermit_noMap {v : Dword} (hp : s.pe = true) (hl : s.flags.vm = true ∨ s.flags.iopl < s.cpl)
    (ht : s.tr.valid = true) (hr : sysRead (s.tr.base + 0x66#32) 2 s = .ok v t) (hv : s.tr.limit.toNat ≤ v.toNat) :
    ioPermit port n s = .error (.exc (faultWith t 0x0D#8 0x0000#16)) t.freed :=
  (ioPermit_mapBase hp hl ht hr).trans (require_bind_exc (decide_eq_false (Nat.not_lt.mpr hv)) rfl)

/-! ### One port after another -/

/-- The map permits a port: its bit lies within the TSS and is 0 (R523, R524). -/
def State.portOpen (s : State) (base port : Nat) : Prop :=
  base + port / 8 ≤ s.tr.limit.toNat
    ∧ (s.byte (s.tr.base + BitVec.ofNat 32 (base + port / 8)).toNat).getLsbD (port % 8) = false

theorem sysRead_flat (hp : s.pg = false) (la : Dword) (n : Nat) :
    sysRead la n s = .ok (fromBytes (Memory.readSpan s.mem (Span.flat la n) 0 n)) s := by
  simp [sysRead, linBytes, translate_flat hp]

/-- With paging off a byte is read where it lies. -/
theorem sysRead_byte (hp : s.pg = false) (la : Dword) : sysRead la 1 s = .ok ((s.byte la.toNat).setWidth 32) s := by
  simp [sysRead_flat hp, Memory.readSpan, Span.addr, Span.flat, fromBytes, State.byte]

section Map

variable {base p : Nat}

theorem ioMapBits_succ_within (hp : s.pg = false) (h : base + p / 8 ≤ s.tr.limit.toNat) :
    ioMapBits base p (n + 1) s =
      (require (!(s.byte (s.tr.base + BitVec.ofNat 32 (base + p / 8)).toNat).getLsbD (p % 8)) (raiseGP 0x0000#16)
        >>= fun _ => ioMapBits base (p + 1) n) s := by
  have bit : ∀ b : Byte, (b.setWidth 32).getLsbD (p % 8) = b.getLsbD (p % 8) := fun b => by
    simp [show p % 8 < 32 by omega]
  rw [← bit]
  exact (require_bind_ok (decide_eq_true h)).trans (M_bind_ok (sysRead_byte hp _))

/-- The test goes on past a port that the map permits. -/
theorem ioMapBits_succ_open (hp : s.pg = false) (h : s.portOpen base p) :
    ioMapBits base p (n + 1) s = ioMapBits base (p + 1) n s :=
  (ioMapBits_succ_within hp h.1).trans (require_bind_ok (by rw [h.2, Bool.not_false]))

/-- The test ends at a port that the map does not permit. -/
theorem ioMapBits_succ_closed (hp : s.pg = false) (h : ¬s.portOpen base p) :
    ioMapBits base p (n + 1) s = .error (.exc (faultWith s 0x0D#8 0x0000#16)) s.freed := by
  by_cases within : base + p / 8 ≤ s.tr.limit.toNat
  · have one := fun zero => h ⟨within, zero⟩
    exact (ioMapBits_succ_within hp within).trans (require_bind_exc (by simpa using one) rfl)
  · exact require_bind_exc (decide_eq_false within) rfl

theorem portsOpen_succ :
    (∀ k, k < n + 1 → s.portOpen base (p + k)) ↔ s.portOpen base p ∧ ∀ k, k < n → s.portOpen base (p + 1 + k) := by
  simp only [Nat.forall_lt_succ_left, Nat.add_zero, Nat.add_right_comm p 1, Nat.add_assoc]

theorem ioMapBits_open (hp : s.pg = false) (h : ∀ k, k < n → s.portOpen base (p + k)) :
    ioMapBits base p n s = .ok () s := by
  induction n generalizing p with
  | zero => rfl
  | succ n ih =>
    obtain ⟨first, rest⟩ := portsOpen_succ.mp h
    exact (ioMapBits_succ_open hp first).trans (ih rest)

theorem ioMapBits_closed (hp : s.pg = false) (h : ¬∀ k, k < n → s.portOpen base (p + k)) :
    ioMapBits base p n s = .error (.exc (faultWith s 0x0D#8 0x0000#16)) s.freed := by
  induction n generalizing p with
  | zero => exact absurd (fun k hk => absurd hk (Nat.not_lt_zero k)) h
  | succ n ih =>
    by_cases first : s.portOpen base p
    · exact (ioMapBits_succ_open hp first).trans (ih fun rest => h (portsOpen_succ.mpr ⟨first, rest⟩))
    · exact ioMapBits_succ_closed hp first

end Map

/-! ### The accesses of the permission test -/

theorem require_eq_ok {b : Bool} {c : Word} (h : require b (raiseGP c) s = .ok () t) : b = true ∧ s = t := by
  cases b with
  | false => cases h
  | true => exact ⟨rfl, by cases h; rfl⟩

theorem ioMapBits_succ_eq_ok {base p : Nat} (h : ioMapBits base p (n + 1) s = .ok () u) :
    ∃ b t, sysRead (s.tr.base + BitVec.ofNat 32 (base + p / 8)) 1 s = .ok b t ∧ ioMapBits base (p + 1) n t = .ok () u := by
  rw [ioMapBits, M_bind_ok (getState_apply s)] at h
  obtain ⟨_, _, within, tested⟩ := M_bind_eq_ok h
  obtain ⟨-, rfl⟩ := require_eq_ok within
  obtain ⟨b, t, read, rest⟩ := M_bind_eq_ok tested
  obtain ⟨_, _, bit, later⟩ := M_bind_eq_ok rest
  obtain ⟨-, rfl⟩ := require_eq_ok bit
  exact ⟨b, t, read, later⟩

theorem ioPermit_mapped_eq_ok (hp : s.pe = true) (hl : s.flags.vm = true ∨ s.flags.iopl < s.cpl)
    (h : ioPermit port n s = .ok () u) :
    ∃ v t, sysRead (s.tr.base + 0x66#32) 2 s = .ok v t ∧ ioMapBits v.toNat port.toNat n t = .ok () u := by
  rw [ioPermit_mapped hp hl] at h
  obtain ⟨_, _, valid, tested⟩ := M_bind_eq_ok h
  obtain ⟨-, rfl⟩ := require_eq_ok valid
  obtain ⟨v, t, read, rest⟩ := M_bind_eq_ok tested
  obtain ⟨_, _, within, bits⟩ := M_bind_eq_ok rest
  obtain ⟨-, rfl⟩ := require_eq_ok within
  exact ⟨v, t, read, bits⟩

/-- The test of the map reads one byte for each port. -/
theorem Accessed.ioMapBits {l : List (Dword × Nat)} {base p : Nat} (h : Accessed s l t)
    (hb : Machine.ioMapBits base p n t = .ok () u) :
    Accessed s (l ++ (List.range n).map fun k => (s.tr.base + BitVec.ofNat 32 (base + (p + k) / 8), 1)) u := by
  induction n generalizing p l t with
  | zero =>
    cases hb
    simpa using h
  | succ n ih =>
    obtain ⟨b, t, read, rest⟩ := ioMapBits_succ_eq_ok hb
    rw [h.touched.tr] at read
    have all := ih (h.sysRead read) rest
    rw [List.append_assoc] at all
    simpa [List.range_succ_eq_map, Function.comp_def, Nat.add_assoc, Nat.add_comm 1] using all

/-- What a permission test that passes has read (R521 to R523). -/
theorem accessed_ioPermit (h : ioPermit port n s = .ok () t) : Accessed s (s.ioMapAccess port n) t := by
  unfold State.ioMapAccess
  split
  next free =>
    rw [ioPermit_free free] at h
    cases h
    exact .refl s
  next mapped =>
    have hp : s.pe = true := by simpa using fun hp => mapped (.inl hp)
    have hl : s.flags.vm = true ∨ s.flags.iopl < s.cpl := by
      rw [← BitVec.not_le, ← Bool.not_eq_false, ← not_and_or]
      exact fun permitted => mapped (.inr permitted)
    obtain ⟨v, _, read, bits⟩ := ioPermit_mapped_eq_ok hp hl h
    have base : s.ioMapBase = v.toNat := by rw [State.ioMapBase, read]
    rw [base]
    exact ((Accessed.refl s).sysRead read).ioMapBits bits

end

/-- Settles O44: the offset of the map is read, then each port's bit in turn. -/
theorem ioMap : Obligations.IoMap := by
  unfold Obligations.IoMap
  intro port n s hp hl hpg ht word base hbase open_
  have tested : ioPermit port n s = ioMapBits base port.toNat n s :=
    (ioPermit_mapBase hp hl ht (sysRead_flat hpg _ 2)).trans (require_bind_ok (decide_eq_true hbase))
  exact ⟨fun permitted => tested.trans (ioMapBits_open hpg permitted),
    fun denied => tested.trans (ioMapBits_closed hpg denied)⟩

end Sys2Proof.Machine

namespace Sys2Proof.Machine

/-! ## The I/O instructions (45_io.md R510 to R517) -/

section

variable {body : M Completion} {s t : State}

theorem runAnyMode_ok {k : Completion} (h : body s = .ok k t) :
    runAnyMode body s = .next (t.complete s.flags.tf k) := by rw [runAnyMode, h, finish]

theorem runAnyMode_exc {e : Event} (h : body s = .error (.exc e) t) : runAnyMode body s = raised e t := by
  rw [runAnyMode, h, finish, raised]

theorem runAnyMode_fault {r : Fault} (h : body s = .error (.fault r) t) : runAnyMode body s = .fault r := by
  rw [runAnyMode, h, finish]

theorem runAnyMode_refusal {r : Refusal} (h : body s = .error (.refusal r) t) : runAnyMode body s = .refused r := by
  rw [runAnyMode, h, finish]

end

/-! ### What each instruction runs -/

section

variable {c : Ctx} {p : Byte} {s : State}

/-- The IN instructions are one instruction over the port and the size. -/
theorem exec_in_eq {x : Instr × Word × Nat}
    (hx : x ∈ [(.inAlImm c p, p.setWidth 16, 1), (.inAxImm c p, p.setWidth 16, c.opBytes), (.inAlDx c, s.dx, 1),
      (.inAxDx c, s.dx, c.opBytes)]) : exec x.1 s = runAnyMode (inBody c x.2.1 x.2.2) s := by
  simp only [List.mem_cons, List.not_mem_nil, or_false] at hx
  rcases hx with rfl | rfl | rfl | rfl <;> rfl

/-- The OUT instructions are one instruction over the port and the size. -/
theorem exec_out_eq {x : Instr × Word × Nat}
    (hx : x ∈ [(.outImmAl c p, p.setWidth 16, 1), (.outImmAx c p, p.setWidth 16, c.opBytes), (.outDxAl c, s.dx, 1),
      (.outDxAx c, s.dx, c.opBytes)]) : exec x.1 s = runAnyMode (outBody c x.2.1 x.2.2) s := by
  simp only [List.mem_cons, List.not_mem_nil, or_false] at hx
  rcases hx with rfl | rfl | rfl | rfl <;> rfl

theorem exec_ins_eq {n : Nat} {i : Instr} (hi : (n, i) ∈ [(1, .insb c), (c.opBytes, .insw c)]) :
    exec i s = runAnyMode (stringOnce c (insStep c n)) s := by
  simp only [List.mem_cons, List.not_mem_nil, or_false, Prod.mk.injEq] at hi
  rcases hi with ⟨rfl, rfl⟩ | ⟨rfl, rfl⟩ <;> rfl

theorem exec_outs_eq {n : Nat} {i : Instr} (hi : (n, i) ∈ [(1, .outsb c), (c.opBytes, .outsw c)]) :
    exec i s = runAnyMode (stringOnce c (outsStep c n)) s := by
  simp only [List.mem_cons, List.not_mem_nil, or_false, Prod.mk.injEq] at hi
  rcases hi with ⟨rfl, rfl⟩ | ⟨rfl, rfl⟩ <;> rfl

/-- REP repeats the step of the instruction that it stands before. -/
theorem exec_rep_eq {x : RepTarget × M Unit}
    (hx : x ∈ [(.insb, insStep c 1), (.insw, insStep c c.opBytes), (.outsb, outsStep c 1), (.outsw, outsStep c c.opBytes)]) :
    exec (.repPrefix c x.1) s = runAnyMode (repeated c x.2) s := by
  simp only [List.mem_cons, List.not_mem_nil, or_false] at hx
  rcases hx with rfl | rfl | rfl | rfl <;> rfl

theorem notVirtual_ok (hv : s.flags.vm = false) : notVirtual s = .ok () s := by simp [notVirtual, hv]

end

/-! ### IN and OUT (R511, R512) -/

section

variable {s t : State}

theorem Touched.portValue (h : Touched s t) (n : Nat) : t.portValue n = s.portValue n := by
  simp only [State.portValue, h.io, h.free]

theorem afterInput_eq (s : State) (port : Word) (n : Nat) :
    ∃ io free, s.afterInput port n = { s with io := io, free := free } := by
  unfold State.afterInput
  cases s.io.inputs <;> exact ⟨_, _, rfl⟩

@[simp] theorem State.afterInput_gpr (s : State) (port : Word) (n : Nat) : (s.afterInput port n).gpr = s.gpr := by
  obtain ⟨_, _, h⟩ := afterInput_eq s port n
  rw [h]

@[simp] theorem State.afterInput_pc (s : State) (port : Word) (n : Nat) : (s.afterInput port n).pc = s.pc := by
  obtain ⟨_, _, h⟩ := afterInput_eq s port n
  rw [h]

@[simp] theorem State.afterInput_flags (s : State) (port : Word) (n : Nat) : (s.afterInput port n).flags = s.flags := by
  obtain ⟨_, _, h⟩ := afterInput_eq s port n
  rw [h]

@[simp] theorem State.afterInput_mem (s : State) (port : Word) (n : Nat) : (s.afterInput port n).mem = s.mem := by
  obtain ⟨_, _, h⟩ := afterInput_eq s port n
  rw [h]

/-- The accumulator is the low part of EAX (10_state.md R32). -/
theorem setAcc_eq (s : State) (n : Nat) (v : Dword) :
    s.setAcc n v = s.setReg .eax
      (if n = 1 then s.gpr.eax.extractLsb' 8 24 ++ (v.setWidth 8 : Byte)
        else if n = 2 then s.gpr.eax.extractLsb' 16 16 ++ (v.setWidth 16 : Word) else v) := by
  unfold State.setAcc State.setRegN
  split
  · rfl
  · split <;> rfl

end

/-- Settles O39: the permission test, the read of the port, the accumulator. -/
theorem inputPort : Obligations.InputPort := by
  unfold Obligations.InputPort
  intro c p x s t hx port n permitted
  have accessed := accessed_ioPermit permitted
  have read := ioRead_eq port n t
  refine ⟨fun beyond => ?_, fun within => ?_⟩
  · rw [if_neg (Nat.not_le.mpr beyond)] at read
    exact (exec_in_eq hx).trans (runAnyMode_fault ((M_bind_ok permitted).trans (M_bind_error read)))
  · intro v eax w
    rw [if_pos within, accessed.touched.portValue] at read
    have acc : (t.afterInput port n).setAcc n v = (t.afterInput port n).setReg .eax eax := by
      rw [setAcc_eq, State.afterInput_gpr, accessed.touched.gpr]
    have body : inBody c port n s = .ok .plain (((t.afterInput port n).setReg .eax eax).advance c) :=
      (M_bind_ok permitted).trans ((M_bind_ok read).trans (by rw [← acc]; rfl))
    exact ⟨(exec_in_eq hx).trans (runAnyMode_ok body), accessed.frame_of_mem (by simp [w]) fun _ => id⟩

/-- Settles O40: the permission test, then the write of the port. -/
theorem outputPort : Obligations.OutputPort := by
  unfold Obligations.OutputPort
  intro c p x s t hx port n permitted
  have accessed := accessed_ioPermit permitted
  have write := ioWrite_eq port n s.gpr.eax t
  have body : outBody c port n s = (do
      ioWrite port n s.gpr.eax
      update fun t => t.advance c
      pure .plain : M Completion) t := by
    rw [← accessed.touched.gpr]
    exact M_bind_ok permitted
  refine ⟨fun beyond => ?_, fun within => ⟨?_, ?_⟩⟩
  · rw [if_neg (Nat.not_le.mpr beyond)] at write
    exact (exec_out_eq hx).trans (runAnyMode_fault (body.trans (M_bind_error write)))
  · rw [if_pos within] at write
    exact (exec_out_eq hx).trans (runAnyMode_ok (body.trans (M_bind_ok write)))
  · exact accessed.frame_of_mem (State.ended_mem _ _) fun _ => id

/-! ### INS and OUTS (R514, R515) -/

/-- The bits of a value past its bytes are 0. -/
theorem fromBytes_getLsbD_of_ge {bs : List Byte} {i : Nat} (h : 8 * bs.length ≤ i) : (fromBytes bs).getLsbD i = false := by
  induction bs generalizing i with
  | nil => simp [fromBytes]
  | cons b r ih =>
    rw [List.length_cons] at h
    simp [fromBytes, ih (i := i - 8) (by omega), show 8 ≤ i by omega]

/-- The bytes of a value that was put together from them (20_memory.md R210). -/
theorem toBytes_fromBytes {bs : List Byte} (h : bs.length ≤ 4) : toBytes bs.length (fromBytes bs) = bs := by
  induction bs with
  | nil => rfl
  | cons b r ih =>
    rw [List.length_cons] at h
    have head : (fromBytes r <<< 8 ||| b.setWidth 32).setWidth 8 = b := by
      apply BitVec.eq_of_getLsbD_eq
      intro i hi
      simp [hi]
    have tail : (fromBytes r <<< 8 ||| b.setWidth 32) >>> 8 = fromBytes r := by
      apply BitVec.eq_of_getLsbD_eq
      intro i _
      by_cases hi : 8 + i < 32
      · simp [hi, -BitVec.getLsbD_eq_getElem]
      · simp [hi, fromBytes_getLsbD_of_ge (bs := r) (i := i) (by omega)]
    rw [List.length_cons, fromBytes, toBytes, head, tail, ih (by omega)]

/-- What an operand's n bytes give goes out as it is. -/
theorem lowBytes_readSpan (m : PhysMem) (sp : Span) {n : Nat} (hn : n ≤ 4) :
    lowBytes n (fromBytes (Memory.readSpan m sp 0 n)) = fromBytes (Memory.readSpan m sp 0 n) := by
  have bytes := toBytes_fromBytes (bs := Memory.readSpan m sp 0 n) (by simpa using hn)
  rw [readSpan_length] at bytes
  rw [lowBytes, bytes]

theorem opBytes_le (c : Ctx) : c.opBytes ≤ 4 := by
  rcases opBytes_cases c with ⟨-, h⟩ | ⟨-, h⟩ <;> omega

section

variable {c : Ctx} {s t u : State} {n : Nat} {sp : Span}

theorem insStep_ok (hv : s.flags.vm = false) (permitted : ioPermit s.dx n s = .ok () t)
    (within : s.dx.toNat + n ≤ 65536) (hsp : operandSpan .es (s.stringOff c .edi) n .write t = .ok sp u) :
    insStep c n s = .ok () (((u.afterInput s.dx n).store { span := sp, bytes := toBytes n (s.portValue n) }).bumpReg c .edi
      (s.stringStep n)) := by
  have ht : Touched s t := checked_ioPermit _ _ _ _ _ permitted
  have hu : Touched s u := touched_trans ht (checked_operandSpan _ _ _ _ _ _ _ hsp)
  have read := ioRead_eq s.dx n u
  rw [if_pos within, hu.portValue] at read
  exact (M_bind_ok permitted).trans ((M_bind_ok (notVirtual_ok (ht.flags ▸ hv))).trans ((M_bind_ok hsp).trans
    (M_bind_ok read)))

theorem outsStep_ok (hv : s.flags.vm = false) (permitted : ioPermit s.dx n s = .ok () t)
    (within : s.dx.toNat + n ≤ 65536) (hn : n ≤ 4)
    (hsp : operandSpan (c.segment .ds) (s.stringOff c .esi) n .read t = .ok sp u) :
    let v := fromBytes (Memory.readSpan u.mem sp 0 n)
    outsStep c n s = .ok ()
      ((u.logIo { write := true, port := s.dx, size := n, value := v }).bumpReg c .esi (s.stringStep n)) := by
  intro v
  have ht : Touched s t := checked_ioPermit _ _ _ _ _ permitted
  have write := ioWrite_eq s.dx n v u
  rw [if_pos within, lowBytes_readSpan _ _ hn] at write
  exact (M_bind_ok permitted).trans ((M_bind_ok (notVirtual_ok (ht.flags ▸ hv))).trans ((M_bind_ok (memRead_ok hsp)).trans
    (M_bind_ok write)))

theorem insStep_error {e : Err} (h : ioPermit s.dx n s = .error e t) : insStep c n s = .error e t :=
  (M_bind_ok (getState_apply s)).trans (M_bind_error h)

theorem outsStep_error {e : Err} (h : ioPermit s.dx n s = .error e t) : outsStep c n s = .error e t :=
  (M_bind_ok (getState_apply s)).trans (M_bind_error h)

end

/-- Settles O41: the steps, and the instructions that are one step each. -/
theorem stringPorts : Obligations.StringPorts := by
  unfold Obligations.StringPorts
  intro c s t u sp n hv port access permitted within
  have accessed := accessed_ioPermit permitted
  refine ⟨fun i hi hsp => ?_, fun i hi hsp => ?_⟩
  · intro w
    have step := insStep_ok hv permitted within hsp
    refine ⟨step, (exec_ins_eq hi).trans (runAnyMode_ok (M_bind_ok step)), ?_⟩
    refine (accessed.span hsp).frame (sts := [{ span := sp, bytes := toBytes n (s.portValue n) }]) ?_ fun a => ?_
    · simp [w, State.storeAll]
    · simp [access, port, or_comm]
  · intro v w
    have hn : n ≤ 4 := by
      simp only [List.mem_cons, List.not_mem_nil, or_false, Prod.mk.injEq] at hi
      rcases hi with ⟨rfl, -⟩ | ⟨rfl, -⟩
      · decide
      · exact opBytes_le c
    have step := outsStep_ok hv permitted within hn hsp
    refine ⟨step, (exec_outs_eq hi).trans (runAnyMode_ok (M_bind_ok step)), ?_⟩
    refine (accessed.span hsp).frame_of_mem ?_ fun a => ?_
    · simp [w]
    · simp [access, port, or_comm]

/-! ### REP (R517) -/

section

variable {c : Ctx} {s t u : State} {n : Nat}

theorem checked_notVirtual : Checked notVirtual :=
  checked_bind checked_getState fun _ => checked_require (checked_stop _)

/-- The check that a computation which completes begins with. -/
theorem Touched.after_check {α β : Type} {m : M α} {f : α → M β} {b : β} (h : Touched s t) (hm : Checked m)
    (hf : (m >>= f) t = .ok b u) : ∃ a v, Touched s v ∧ f a v = .ok b u := by
  obtain ⟨a, v, ha, hv⟩ := M_bind_eq_ok hf
  exact ⟨a, v, touched_trans h (hm _ _ _ ha), hv⟩

theorem ioRead_eq_ok {port : Word} {v : Dword} (h : ioRead port n s = .ok v t) : s.afterInput port n = t := by
  rw [ioRead_eq] at h
  split at h <;> cases h
  rfl

theorem ioWrite_eq_ok {port : Word} {v : Dword} (h : ioWrite port n v s = .ok () t) : ∃ e, s.logIo e = t := by
  rw [ioWrite_eq] at h
  split at h <;> cases h
  exact ⟨_, rfl⟩

/-- All that a step of INS which completes has done. -/
theorem insStep_eq_ok (h : insStep c n s = .ok () t) :
    ∃ u st, Touched s u ∧ t = ((u.afterInput s.dx n).store st).bumpReg c .edi (s.stringStep n) := by
  rw [insStep, M_bind_ok (getState_apply s)] at h
  obtain ⟨_, s1, t1, h1⟩ := (touched_refl s).after_check (checked_ioPermit _ _) h
  obtain ⟨_, s2, t2, h2⟩ := t1.after_check checked_notVirtual h1
  obtain ⟨_, u, t3, h3⟩ := t2.after_check (checked_operandSpan _ _ _ _) h2
  obtain ⟨_, _, read, last⟩ := M_bind_eq_ok h3
  obtain rfl := ioRead_eq_ok read
  cases last
  exact ⟨u, _, t3, rfl⟩

/-- All that a step of OUTS which completes has done. -/
theorem outsStep_eq_ok (h : outsStep c n s = .ok () t) :
    ∃ u e, Touched s u ∧ t = (u.logIo e).bumpReg c .esi (s.stringStep n) := by
  rw [outsStep, M_bind_ok (getState_apply s)] at h
  obtain ⟨_, s1, t1, h1⟩ := (touched_refl s).after_check (checked_ioPermit _ _) h
  obtain ⟨_, s2, t2, h2⟩ := t1.after_check checked_notVirtual h1
  obtain ⟨_, u, t3, h3⟩ := t2.after_check (checked_memRead _ _ _) h2
  obtain ⟨_, _, write, last⟩ := M_bind_eq_ok h3
  obtain ⟨e, rfl⟩ := ioWrite_eq_ok write
  cases last
  exact ⟨u, e, t3, rfl⟩

/-- A step of a string instruction moves neither EIP nor the flags. -/
theorem stringStep_kept {x : RepTarget × M Unit}
    (hx : x ∈ [(.insb, insStep c 1), (.insw, insStep c c.opBytes), (.outsb, outsStep c 1), (.outsw, outsStep c c.opBytes)])
    (h : x.2 s = .ok () t) : t.pc = s.pc ∧ t.flags = s.flags := by
  have ins : ∀ {n}, insStep c n s = .ok () t → t.pc = s.pc ∧ t.flags = s.flags := fun h => by
    obtain ⟨u, st, hu, rfl⟩ := insStep_eq_ok h
    simp [hu.pc, hu.flags]
  have outs : ∀ {n}, outsStep c n s = .ok () t → t.pc = s.pc ∧ t.flags = s.flags := fun h => by
    obtain ⟨u, e, hu, rfl⟩ := outsStep_eq_ok h
    simp [hu.pc, hu.flags]
  simp only [List.mem_cons, List.not_mem_nil, or_false] at hx
  rcases hx with rfl | rfl | rfl | rfl
  · exact ins h
  · exact ins h
  · exact outs h
  · exact outs h

section Repeated

variable {m : M Unit}

theorem repCount_eq_iff (k : Nat) (hk : k < 4294967296) :
    s.repCount c = k ↔ s.stringOff c .ecx = BitVec.ofNat 32 k := by
  rw [State.repCount, ← BitVec.toNat_inj, BitVec.toNat_ofNat, Nat.mod_eq_of_lt hk]

/-- With a count of 0 nothing is executed. -/
theorem repeated_none (hv : s.flags.vm = false) (h0 : s.stringOff c .ecx = 0x00000000#32) :
    repeated c m s = .ok .plain (s.advance c) := by
  rw [repeated, M_bind_ok (getState_apply s), if_pos ((repCount_eq_iff 0 (by decide)).mpr h0),
    M_bind_ok (notVirtual_ok hv)]
  rfl

section Iteration

variable (h0 : s.stringOff c .ecx ≠ 0x00000000#32)

include h0

/-- With any other count there is one step first. -/
theorem repeated_step : repeated c m s = (do
    m
    update fun t => t.bumpReg c .ecx 0xFFFFFFFF#32
    if s.repCount c = 1 then do
      update fun t => t.advance c
      pure .plain
    else pure .iterating : M Completion) s := by
  rw [repeated, M_bind_ok (getState_apply s), if_neg ((repCount_eq_iff 0 (by decide)).not.mpr h0)]

theorem repeated_error {e : Err} (h : m s = .error e t) : repeated c m s = .error e t :=
  (repeated_step h0).trans (M_bind_error h)

theorem repeated_ok (h : m s = .ok () t) :
    repeated c m s =
      let u := t.bumpReg c .ecx 0xFFFFFFFF#32
      if s.stringOff c .ecx = 0x00000001#32 then .ok .plain (u.advance c) else .ok .iterating u := by
  rw [repeated_step h0, M_bind_ok h, M_bind_ok (update_apply _ t)]
  simp only [repCount_eq_iff 1 (by decide)]
  split <;> rfl

end Iteration

end Repeated

end

/-- Settles O42: the three ways in which an iteration ends. -/
theorem repeatedString : Obligations.RepeatedString := by
  unfold Obligations.RepeatedString
  intro c x s hv hx count
  refine ⟨fun h0 => ?_, fun t h0 step => ⟨fun h1 => ?_, fun h1 => ⟨?_, ?_⟩⟩, fun op => ?_⟩
  · exact (exec_rep_eq hx).trans (runAnyMode_ok (repeated_none hv h0))
  · exact (exec_rep_eq hx).trans (runAnyMode_ok ((repeated_ok h0 step).trans (if_pos h1)))
  · exact (exec_rep_eq hx).trans (runAnyMode_ok ((repeated_ok h0 step).trans (if_neg h1)))
  · obtain ⟨pc, flags⟩ := stringStep_kept hx step
    exact ⟨(State.bumpReg_pc _ _ _ _).trans pc, by rw [State.bumpReg_flags, flags]⟩
  · exact runAnyMode_refusal (M_bind_ok (notVirtual_ok hv))

/-- An I/O instruction makes the permission test first, and raises what it raises. -/
theorem exec_io_exc {c : Ctx} {p : Byte} {i : Instr} {s t : State} {e : Event}
    (hi : i ∈ [.inAlImm c p, .inAxImm c p, .inAlDx c, .inAxDx c, .outImmAl c p, .outImmAx c p, .outDxAl c, .outDxAx c,
        .insb c, .insw c, .outsb c, .outsw c]
      ∨ (s.stringOff c .ecx ≠ 0x00000000#32
          ∧ i ∈ [.repPrefix c .insb, .repPrefix c .insw, .repPrefix c .outsb, .repPrefix c .outsw]))
    (h : ∀ port n, ioPermit port n s = .error (.exc e) t) : exec i s = raised e t := by
  have single : ∀ {port n} {f : Unit → M Completion}, runAnyMode (ioPermit port n >>= f) s = raised e t :=
    runAnyMode_exc (M_bind_error (h _ _))
  have ins : ∀ n, insStep c n s = .error (.exc e) t := fun n => insStep_error (h _ n)
  have outs : ∀ n, outsStep c n s = .error (.exc e) t := fun n => outsStep_error (h _ n)
  simp only [List.mem_cons, List.not_mem_nil, or_false] at hi
  rcases hi with (rfl | rfl | rfl | rfl | rfl | rfl | rfl | rfl | rfl | rfl | rfl | rfl) | ⟨h0, rfl | rfl | rfl | rfl⟩
  iterate 8 exact single
  iterate 2 exact runAnyMode_exc (M_bind_error (ins _))
  iterate 2 exact runAnyMode_exc (M_bind_error (outs _))
  iterate 2 exact runAnyMode_exc (repeated_error h0 (ins _))
  iterate 2 exact runAnyMode_exc (repeated_error h0 (outs _))

/-- Settles O43: the permission test finds no map, and every I/O instruction makes it first. -/
theorem noIoMap : Obligations.NoIoMap := by
  unfold Obligations.NoIoMap
  intro c p i s t base hi hv hp hl ht hr hbase
  exact exec_io_exc hi fun port n => ioPermit_noMap hp (.inr hl) ht hr hbase

end Sys2Proof.Machine

namespace Sys2Proof.Machine

/-! ## CLI, STI, PUSHF and POPF (45_io.md R530 to R535) -/

section

variable {s : State}

theorem ioplSensitive_ok (h : s.pe = true → s.cpl ≤ s.flags.iopl) : ioplSensitive s = .ok () s := by
  cases hp : s.pe
  · simp [ioplSensitive, hp]
  · simp [ioplSensitive, hp, h hp]

theorem ioplSensitive_exc (hp : s.pe = true) (h : s.flags.iopl < s.cpl) :
    ioplSensitive s = .error (.exc (faultWith s 0x0D#8 0x0000#16)) s.freed := by
  simp [ioplSensitive, hp, BitVec.not_le.mpr h, faultWith, State.freed]

end

/-- Settles O45: the check, then one flag. -/
theorem clearInterrupts : Obligations.ClearInterrupts := by
  unfold Obligations.ClearInterrupts
  intro c s hv
  exact ⟨fun hp hl => runInstr_check_exc hv (ioplSensitive_exc hp hl),
    fun hl => runInstr_ok hv (M_bind_ok (ioplSensitive_ok hl))⟩

theorem getLsbD_withLowWord (v : Dword) (w : Word) (i : Nat) :
    (withLowWord v w).getLsbD i = if i < 16 then w.getLsbD i else v.getLsbD i := by
  unfold withLowWord
  rw [BitVec.getLsbD_append, BitVec.getLsbD_extractLsb']
  by_cases hi : i < 16
  · simp [hi]
  · by_cases hi' : i < 32
    · simp [hi, show i - 16 < 16 by omega, Nat.add_sub_cancel' (Nat.not_lt.mp hi)]
    · simp [hi, show ¬i - 16 < 16 by omega, BitVec.getLsbD_of_ge v i (by omega)]

/-- A word changes neither RF nor VM of the flags that are loaded from it. -/
theorem unpack_withLowWord (v image : Dword) :
    EFlags.unpack (withLowWord v (lowWord image)) =
      { EFlags.unpack image with rf := v.getLsbD 16, vm := v.getLsbD 17 } := by
  have low : ∀ i, i < 16 → (withLowWord v (lowWord image)).getLsbD i = image.getLsbD i := by
    intro i hi
    simp [getLsbD_withLowWord, lowWord, hi]
  have iopl : (withLowWord v (lowWord image)).extractLsb' 12 2 = image.extractLsb' 12 2 := by
    apply BitVec.eq_of_getLsbD_eq
    intro i hi
    simp only [BitVec.getLsbD_extractLsb', low (12 + i) (by omega)]
  have rf : (withLowWord v (lowWord image)).getLsbD 16 = v.getLsbD 16 := getLsbD_withLowWord v _ 16
  have vm : (withLowWord v (lowWord image)).getLsbD 17 = v.getLsbD 17 := getLsbD_withLowWord v _ 17
  simp only [EFlags.unpack, iopl, rf, vm, low, Nat.reduceLT]

/-- What POPF loads (R534, R535). -/
theorem loadFlags_eq {n : Nat} (hn : n = 2 ∨ n = 4) (s0 : State) (image : Dword) (s : State) :
    loadFlags s0 n image s = { s with flags := s0.flags.popped image n (if s0.pe then s0.cpl else 0#2) } := by
  rcases hn with rfl | rfl
  · rw [loadFlags, if_pos rfl, EFlags.load, unpack_withLowWord]
    rfl
  · rfl

@[simp] theorem State.endedRf_mem (s t : State) : (s.endedRf t).mem = t.mem := t.complete_mem _ _

/-- Settles O46: STI is the check and one flag, PUSHF one push, POPF one pop and `loadFlags_eq`. -/
theorem flagInstructions : Obligations.FlagInstructions := by
  unfold Obligations.FlagInstructions
  intro c s t hv
  refine ⟨fun hp hl => ?_, fun hl => ?_, fun sp hsp => ?_, fun image pop => ?_⟩
  · exact runInstr_check_exc hv (ioplSensitive_exc hp hl)
  · exact runInstr_ok hv (M_bind_ok (ioplSensitive_ok hl))
  · intro bytes u
    have length : bytes.length = c.opBytes := toBytes_length _ _
    have push : stackPrepare c.opBytes bytes s = .ok { span := sp, bytes := bytes } t :=
      memPrepare_ok (length ▸ hsp)
    refine ⟨runInstr_ok hv (M_bind_ok push), ?_⟩
    rw [← length]
    exact frame_store (st := { span := sp, bytes := bytes }) (fun hw => length ▸ operandSpan_quiet hw hsp) (by simp [u])
  · intro u
    have size : c.opBytes = 2 ∨ c.opBytes = 4 := (opBytes_cases c).symm.imp And.right And.right
    refine ⟨runInstr_ok hv ((M_bind_ok pop).trans ?_), ?_⟩
    · rw [M_bind_ok (update_apply _ t), loadFlags_eq size]
      rfl
    · exact ((Accessed.refl s).stackRead pop).frame_of_mem (by simp [u]) fun a => by simp

end Sys2Proof.Machine

namespace Sys2Proof.Machine

/-! ## Delivery in real-address mode (60_exceptions.md R730) -/

/-- RF is not in the low word of EFLAGS. -/
theorem lowWord_pack_rf (f : EFlags) (b : Bool) : lowWord { f with rf := b }.pack = lowWord f.pack := by
  simp only [lowWord, EFlags.pack, BitVec.setWidth_append, Nat.reduceLeDiff, Nat.reduceSub, dite_true, dite_false]

theorem toBytes_two_lowWord (v : Dword) : toBytes 2 ((lowWord v).setWidth 32) = toBytes 2 v := by
  have high : (((lowWord v).setWidth 32 : Dword) >>> 8).setWidth 8 = (v >>> 8).setWidth 8 := by
    apply BitVec.eq_of_getLsbD_eq
    intro i hi
    simp [lowWord, hi, show 8 + i < 16 by omega, show 8 + i < 32 by omega]
  have low : ((lowWord v).setWidth 32 : Dword).setWidth 8 = v.setWidth 8 := by simp [lowWord]
  simp only [toBytes, high, low]

theorem moveDown_real {s : State} (hp : s.pe = false) (k : Nat) :
    s.moveDown k = s.setReg16 .esp (lowWord s.gpr.esp - BitVec.ofNat 16 k) :=
  if_neg (by simp [hp])

theorem touched_recordAccess {s t : State} (h : Touched s t) (la : Dword) (n : Nat) (w : Bool) :
    Touched s (t.recordAccess la n w) :=
  touched_trans h rfl

/-- Only an abort, the coprocessor segment overrun, saves an EIP of its own (R728). -/
theorem savedEip_of_not_abort {e : Event} (h : e.kind ≠ .abort) (s : State) : s.savedEip e = s :=
  if_neg (by simp [h])

/-- Where a word lies that is pushed some bytes below the stack's top. -/
def State.wordSlot (s : State) (k : Nat) : Dword := s.linear .ss (s.stackBelow k)

/-- The push of a word there. -/
def State.wordPush (s : State) (k : Nat) (v : Dword) : Store :=
  { span := Span.flat (s.wordSlot k) 2, bytes := toBytes 2 v }

/-- The pushes of a delivery: FLAGS, CS and IP. -/
def State.realPushes (s : State) : List Store :=
  [s.wordPush 2 s.flags.pack, s.wordPush 4 (s.seg.cs.sel.setWidth 32), s.wordPush 6 s.pc]

/-- The state after their checks, which note the accesses for the data breakpoints. -/
def State.realPushing (s : State) : State :=
  ((s.recordAccess (s.wordSlot 2) 2 true).recordAccess (s.wordSlot 4) 2 true).recordAccess (s.wordSlot 6) 2 true

/-- A vector's entry in the interrupt table. -/
def State.realEntry (s : State) (vector : Byte) : Dword :=
  fromBytes (Memory.readSpan s.mem (Span.flat (s.idtr.base + BitVec.ofNat 32 (4 * vector.toNat)) 4) 0 4)

/-- The state as a handler's first instruction finds it: FLAGS, CS and IP are pushed, IF and TF are clear, and CS:IP are
those of the vector's entry. -/
def State.realEntered (s : State) (vector : Byte) (pushes : List Store) : State :=
  { ((s.realPushing.storeAll pushes).moveDown 6).setSeg .cs
      (s.seg.cs.realLoad ((s.realEntry vector).extractLsb' 16 16)) with
    pc := (lowWord (s.realEntry vector)).setWidth 32, flags := s.flags.enterReal }

theorem accessed_realPushing (s : State) : Accessed s [] s.realPushing :=
  have touched : Touched s s.realPushing := rfl
  ⟨touched, fun _ => quiet_of_mem touched rfl⟩

section Real

variable {k : Nat} {v : Dword} {e : Event} {s t : State} (hp : s.pe = false) (hpg : s.pg = false)

include hp

theorem deliverOnce_real (hv : s.flags.vm = false) : deliverOnce e s = deliverReal e s := by
  unfold deliverOnce
  rw [M_bind_ok (getState_apply s), if_neg (by simp [hv]), if_neg (by simp [hp])]

include hpg

theorem stackPrepare_word (ht : Touched s t) (hroom : (s.stackBelow k).toNat + 2 ≤ 65536) :
    stackPrepare k (toBytes 2 v) t = .ok (s.wordPush k v) (t.recordAccess (s.wordSlot k) 2 true) := by
  have within : t.segOk .ss (t.stackBelow k) (toBytes 2 v).length .write = true := by
    rw [toBytes_length, ht.stackBelow, segOk_real (ht.pe.trans hp), decide_eq_true hroom]
  have span := operandSpan_flat (ht.pg.trans hpg) within
  rw [toBytes_length, ht.linear, ht.stackBelow] at span
  refine memPrepare_ok (sp := Span.flat (s.wordSlot k) 2) ?_
  rw [toBytes_length, ht.stackBelow]
  exact span

/-- An entry within the table and pushes within the stack segment. -/
theorem deliverReal_ok (hlimit : 4 * e.vector.toNat + 3 ≤ s.idtr.limit.toNat)
    (hroom : ∀ k ∈ [2, 4, 6], (s.stackBelow k).toNat + 2 ≤ 65536) :
    deliverReal e s = .ok () (s.realEntered e.vector s.realPushes) := by
  have first := touched_recordAccess (touched_refl s) (s.wordSlot 2) 2 true
  have second := touched_recordAccess first (s.wordSlot 4) 2 true
  unfold deliverReal
  rw [M_bind_ok (getState_apply s), require_bind_ok (decide_eq_true hlimit), M_bind_ok (sysRead_flat hpg _ 4),
    M_bind_ok (stackPrepare_word hp hpg (touched_refl s) (hroom 2 (by decide))),
    M_bind_ok (stackPrepare_word hp hpg first (hroom 4 (by decide))),
    M_bind_ok (stackPrepare_word hp hpg second (hroom 6 (by decide)))]
  rfl

end Real

/-! ## INT 3, INT n and INTO (46_interrupt_instructions.md R550 to R552) -/

/-- The state in which the delivery of a software interrupt begins in real-address mode, `pc` the EIP after the
instruction. -/
def State.interrupting (s : State) (pc : Dword) : State :=
  { s with pc := pc, flags := { s.flags with rf := false }, run := { s.run with delivering := some .benign } }

theorem storeAll_interrupting (s : State) (pc : Dword) (sts : List Store) :
    (s.interrupting pc).storeAll sts = (s.storeAll sts).interrupting pc :=
  storeAll_comm (f := fun s => s.interrupting pc) (fun _ _ => rfl) s sts

/-- RF, cleared before the delivery, is not among the words pushed. -/
theorem realPushes_interrupting (s : State) (pc : Dword) :
    (s.interrupting pc).realPushes =
      [s.wordPush 2 s.flags.pack, s.wordPush 4 (s.seg.cs.sel.setWidth 32), s.wordPush 6 pc] := by
  have flags : toBytes 2 (s.interrupting pc).flags.pack = toBytes 2 s.flags.pack := by
    rw [← toBytes_two_lowWord, ← toBytes_two_lowWord s.flags.pack]
    exact congrArg (fun w : Word => toBytes 2 (w.setWidth 32)) (lowWord_pack_rf s.flags false)
  rw [State.realPushes, State.wordPush, flags]
  rfl

/-- The entry of the handler leaves nothing of the changes with which the delivery began but the cleared RF. -/
theorem realEntered_interrupting {s : State} (hp : s.pe = false) (pc : Dword) (v : Byte) (pushes : List Store) :
    ((s.interrupting pc).realEntered v pushes).delivered =
      State.delivered { s.realEntered v pushes with flags := { s.flags.enterReal with rf := false } } := by
  have real : (s.realPushing.storeAll pushes).pe = false := by
    simpa [State.pe] using (accessed_realPushing s).touched.pe.trans hp
  have stored : (s.interrupting pc).realPushing.storeAll pushes = (s.realPushing.storeAll pushes).interrupting pc :=
    storeAll_interrupting s.realPushing pc pushes
  rw [State.realEntered, State.realEntered, stored, moveDown_real real,
    moveDown_real (s := State.interrupting _ pc) real]
  rfl

section Software

variable {c : Ctx} {v : Byte} {x : Instr × Byte} {s : State} (hv : s.flags.vm = false)

include hv

theorem exec_interrupt
    (hx : x ∈ [(.int3 c, 0x03#8), (.intImm c v, v)] ∨ (s.flags.ovf = true ∧ x = (.into c, 0x04#8))) :
    exec x.1 s = softwareInterrupt x.2 (s.advance c) := by
  have trap : ∀ n, trapInstr c n s = softwareInterrupt n (s.advance c) := fun n => if_neg (by simp [hv])
  simp only [List.mem_cons, List.not_mem_nil, or_false] at hx
  rcases hx with (rfl | rfl) | ⟨ho, rfl⟩
  · exact trap 0x03#8
  · exact trap v
  · exact (if_pos ho).trans (trap 0x04#8)

theorem exec_into_noOverflow (ho : s.flags.ovf = false) : exec (.into c) s = .next (s.ended (s.advance c)) :=
  (if_neg (by simp [ho])).trans (runInstr_ok hv rfl)

theorem softwareInterrupt_real (hp : s.pe = false) (hpg : s.pg = false)
    (hlimit : 4 * v.toNat + 3 ≤ s.idtr.limit.toNat) (hroom : ∀ k ∈ [2, 4, 6], (s.stackBelow k).toNat + 2 ≤ 65536) :
    softwareInterrupt v (s.advance c) =
      .next ((s.interrupting (s.nextPc c)).realEntered v (s.interrupting (s.nextPc c)).realPushes).delivered := by
  have real : ¬(s.advance c).pe = true := by simpa [State.pe] using hp
  have entered := deliverReal_ok (e := { vector := v, kind := .software, code := none })
    (s := s.interrupting (s.nextPc c)) hp hpg hlimit hroom
  rw [softwareInterrupt, if_neg real]
  refine deliver_ok (n := 7) ?_
  rw [savedEip_of_not_abort (EventKind.noConfusion ·)]
  exact (deliverOnce_real (s := s.interrupting (s.nextPc c)) hp hv).trans entered

end Software

/-- Settles O47: INTO with OF = 0 only moves on; the others end in `deliver`, which in real-address mode makes the three
pushes and enters the handler. -/
theorem softwareInterrupts : Obligations.SoftwareInterrupts := by
  unfold Obligations.SoftwareInterrupts
  intro c v x s hv
  refine ⟨exec_into_noOverflow hv, fun hx => ⟨fun hp => ?_, ?_⟩⟩
  · rw [exec_interrupt hv hx, softwareInterrupt, if_pos (by simpa [State.pe] using hp)]
  · intro hp hpg hlimit hroom entry slot t pushes w
    refine ⟨?_, ?_⟩
    · rw [exec_interrupt hv hx, softwareInterrupt_real hv hp hpg hlimit hroom, realPushes_interrupting,
        realEntered_interrupting hp]
      rfl
    · have mem : w.mem = (t.storeAll pushes).mem := State.moveDown_mem _ _
      exact (accessed_realPushing s).frame mem fun a ha => by simpa using ha

end Sys2Proof.Machine

namespace Sys2Proof.Machine

/-! ## BOUND (46_interrupt_instructions.md R553) -/

section Bound

variable {c : Ctx} {r : Reg} {ea : Ea} {seg : Sreg} {off : Dword} {n k : Nat} {s t u : State} {sp : Span}

/-- A later part of an operand, which does not pass offset FFFFFFFFH. -/
theorem memReadAbove_ok (hlt : off.toNat + k < 4294967296)
    (h : operandSpan seg (off + BitVec.ofNat 32 k) n .read s = .ok sp t) :
    memReadAbove seg off k n s = .ok (fromBytes (Memory.readSpan t.mem sp 0 n)) t :=
  (M_bind_ok (offsetAbove_ok hlt)).trans (memRead_ok h)

theorem signedOf_opBytes (c : Ctx) (v : Dword) :
    signedOf c.opBytes v = if c.op32 then v.toInt else (lowWord v).toInt := by
  rcases opBytes_cases c with ⟨h32, hn⟩ | ⟨h16, hn⟩
  · rw [signedOf, hn, if_neg (by decide), if_pos h32]
  · rw [signedOf, hn, if_pos rfl, if_neg (by simp [h16])]

/-- The instruction's operand lies between two bounds, both inclusive. -/
def withinBounds (c : Ctx) (s : State) (r : Reg) (lo hi : Dword) : Bool :=
  decide (signedOf c.opBytes lo ≤ signedOf c.opBytes (s.reg r))
    && decide (signedOf c.opBytes (s.reg r) ≤ signedOf c.opBytes hi)

/-- BOUND after its lower bound, `lo`, is read. -/
theorem bound_continues {lo : Dword}
    (h : memRead (c.eaSegment ea) (s.eaOffset ea) c.opBytes s = .ok lo t) :
    Continues (.bound c r (.mem ea)) s (do
      let hi ← memReadAbove (c.eaSegment ea) (s.eaOffset ea) c.opBytes c.opBytes
      require (withinBounds c s r lo hi) (raise 0x05#8)
      update fun t => t.advance c
      pure .plain) t :=
  ⟨_, rfl, M_bind_ok h⟩

end Bound

/-- Settles O51: the two reads, or the exception of the second, then the comparison. -/
theorem bound : Obligations.Bound := by
  unfold Obligations.Bound
  intro c r ea s t sp hv n seg off above signed h
  have continues := bound_continues (r := r) (memRead_ok h)
  refine ⟨fun hge => continues.raises hv (M_bind_error (M_bind_error (offsetAbove_exc hge))), ?_⟩
  intro hlt u sp' h' lo hi within
  have upper := memReadAbove_ok hlt h'
  have compared : withinBounds c s r (fromBytes (Memory.readSpan t.mem sp 0 n))
      (fromBytes (Memory.readSpan u.mem sp' 0 n)) = decide within := by
    simp only [withinBounds, signedOf_opBytes, within, lo, hi, signed, Bool.decide_and]
  refine ⟨fun outside => ?_, fun inside => ⟨?_, ?_⟩⟩
  · have check := compared.trans (decide_eq_false outside)
    exact continues.raises hv ((M_bind_ok upper).trans (require_bind_exc check (raise_apply 0x05#8 u)))
  · have check := compared.trans (decide_eq_true inside)
    exact continues.completes hv ((M_bind_ok upper).trans (require_bind_ok check))
  · exact (((Accessed.refl s).span h).span h').frame_of_mem (State.ended_mem _ _) fun _ => id

end Sys2Proof.Machine

namespace Sys2Proof.Machine

/-! ## IRET without a nested task (46_interrupt_instructions.md R560 to R565) -/

section ReturnFlags

variable {n frame skip extra : Nat} {eip : Dword} {ncs : Word}

/-- What a return does to EFLAGS comes last, after a return that leaves them alone. -/
theorem returnProtected_eq_bind (f : State → State) :
    returnProtected n frame skip extra eip ncs f =
      (do
        returnProtected n frame skip extra eip ncs id
        update f) := by
  unfold returnProtected
  simp only [bind_assoc]
  refine bind_congr fun s => bind_congr fun d => ?_
  by_cases same : selRpl ncs = s.cpl
  · rw [if_pos same, if_pos same]
    simp only [bind_assoc]
    rfl
  · rw [if_neg same, if_neg same]
    simp only [bind_assoc]
    rfl

theorem returnProtected_flags {f : State → State} {s t : State}
    (h : returnProtected n frame skip extra eip ncs id s = .ok () t) :
    returnProtected n frame skip extra eip ncs f s = .ok () (f t) := by
  rw [returnProtected_eq_bind, M_bind_ok h, update_apply]

end ReturnFlags

section Popped

variable {n : Nat} {next eip vcs image : Dword} {s t u v w : State}
  (hnt : s.pe = true → s.flags.nt = false) (hframe : s.segOk .ss (s.stackOff 0) (3 * n) .read = true)
  (hip : stackRead 0 n s = .ok eip t) (hcs : stackRead n n t = .ok vcs u) (hfl : stackRead (2 * n) n u = .ok image v)

include hnt hframe hip hcs hfl

theorem returnFromInterrupt_popped :
    returnFromInterrupt n next s =
      (do
        if s.pe then do
          returnProtected n (3 * n) (3 * n) 0 eip (lowWord vcs) (loadFlags s n image)
          if n = 4 && s.cpl = 0#2 && image.getLsbD 17 then stop (.refusal .virtual8086) else pure ()
        else
          update fun t =>
            loadFlags s n image { (t.moveUp (3 * n)).setSeg .cs (t.seg.cs.realLoad (lowWord vcs)) with pc := eip }
        update State.unmaskNmi : M Unit) v := by
  have notNested : ¬(s.pe && s.flags.nt) = true := by
    cases hp : s.pe
    · simp
    · simp [hnt hp]
  unfold returnFromInterrupt
  rw [M_bind_ok (getState_apply s), if_neg notNested, M_bind_ok (frameCheck_ok hframe), M_bind_ok hip,
    M_bind_ok hcs, M_bind_ok hfl]

theorem returnFromInterrupt_real (hp : s.pe = false) :
    returnFromInterrupt n next s = .ok () (State.unmaskNmi (loadFlags s n image
      { (v.moveUp (3 * n)).setSeg .cs (v.seg.cs.realLoad (lowWord vcs)) with pc := eip })) := by
  rw [returnFromInterrupt_popped hnt hframe hip hcs hfl, if_neg (by simp [hp])]
  rfl

theorem returnFromInterrupt_protected (hp : s.pe = true) (hvm : ¬(n = 4 ∧ s.cpl = 0#2 ∧ image.getLsbD 17 = true))
    (hret : returnProtected n (3 * n) (3 * n) 0 eip (lowWord vcs) id v = .ok () w) :
    returnFromInterrupt n next s = .ok () (State.unmaskNmi (loadFlags s n image w)) := by
  rw [returnFromInterrupt_popped hnt hframe hip hcs hfl, if_pos hp, M_bind_ok (returnProtected_flags hret),
    if_neg (by simpa [and_assoc] using hvm)]
  rfl

end Popped

/-- The end of an IRET, with the flags as R563 gives them. -/
theorem iret_completes {c : Ctx} {image : Dword} {s w : State} (hv : s.flags.vm = false)
    (h : returnFromInterrupt c.opBytes (s.nextPc c) s = .ok () (State.unmaskNmi (loadFlags s c.opBytes image w))) :
    exec (.iret c) s = .next (s.endedRf (State.unmaskNmi
      { w with flags := s.flags.popped image c.opBytes (if s.pe then s.cpl else 0#2) })) := by
  rw [loadFlags_eq (opBytes_eq c)] at h
  exact runInstr_ok hv (M_bind_ok h)

/-- Settles O52: the three pops, then the end in real-address mode, at the same level or at an outer one. -/
theorem interruptReturn : Obligations.InterruptReturn := by
  unfold Obligations.InterruptReturn
  intro c s t u v eip vcs image hv hnt n hframe hip hcs hfl ncs flags reads
  have popped := (((Accessed.refl s).stackRead hip).stackRead hcs).stackRead hfl
  refine ⟨fun hp => ⟨?_, ?_⟩, ?_⟩
  · rw [← popped.touched.seg]
    exact iret_completes hv (returnFromInterrupt_real hnt hframe hip hcs hfl hp)
  · exact popped.frame_of_mem ((State.endedRf_mem _ _).trans (State.moveUp_mem _ _)) fun _ => id
  · intro hp hvm hn level d v0 hd hc hl hpr hin cs
    have returns : ∀ {x : State}, returnProtected n (3 * n) (3 * n) 0 eip ncs id v = .ok () x →
        exec (.iret c) s = .next (s.endedRf (State.unmaskNmi { x with flags := flags })) := fun h =>
      iret_completes hv (returnFromInterrupt_protected hnt hframe hip hcs hfl hp hvm h)
    have cplv : v.cpl = s.cpl := popped.touched.cpl
    have accessed := popped.descriptor hd
    have named := popped.descriptor_mem hd
    have code : s.cpl ≤ level → returnCode ncs v = .ok d v0 := fun h => returnCode_ok (cplv ▸ h) hn hd hc hl hpr
    refine ⟨?_, ?_⟩
    · intro same marks v1 hm w
      have marked := accessed.mark (List.mem_append_right _ named) hm
      refine ⟨returns (returnProtected_same (code (BitVec.le_of_eq same.symm)) (same.trans cplv.symm) hin hm
        (marked.touched.cpl.trans cplv.symm)), marked.frame ?_ fun _ => id⟩
      exact (State.endedRf_mem _ _).trans (storeAll_mem_congr (State.moveUp_mem _ _) marks)
    · intro outer vsp vss sd marks ssMarks v1 v2 v3 v4 v5 nss hframe' hsp hss hnn hsd hw hdpl hrpl hspr hm hms esp w
      have read := (accessed.stackRead hsp).stackRead hss
      have stack := read.descriptor hsd
      have marked := (stack.mark (by simp [named]) hm).mark (by simp [read.descriptor_mem hsd]) hms
      have ne : selRpl ncs ≠ v.cpl := cplv ▸ (BitVec.ne_of_lt outer).symm
      have room : v0.segOk .ss (v0.stackOff 0) (3 * n + 2 * n) .read = true := by
        rw [accessed.touched.stackOff 0, ← Nat.add_mul]
        exact hframe'
      have hss' : stackRead (3 * n + n) n v1 = .ok vss v2 := by
        rw [← Nat.succ_mul]
        exact hss
      have ok := returnProtected_outer (frame := 3 * n) (extra := 0) (code (BitVec.le_of_lt outer)) ne
        room hsp hss' (returnStack_ok hnn hsd hw hdpl hrpl hspr) hin hm hms
      have pointer : v5.outerEsp n vsp 0 = esp := by simp [State.outerEsp, esp, marked.touched.gpr]
      rw [pointer] at ok
      refine ⟨returns ok, ?_⟩
      refine (marked.mono ?_).frame (sts := marks ++ ssMarks) (State.endedRf_mem _ _) fun _ => id
      simp [reads]

end Sys2Proof.Machine

namespace Sys2Proof.Machine

/-! ## WAIT (47_coprocessor_and_lock.md R586 to R589) -/

section Wait

variable {c : Ctx} {s : State}

theorem busyPin_iff : s.busyPin = true ↔ s.params.copKind ≠ .none ∧ s.pins.busy = true := by simp [State.busyPin]

theorem errorPin_iff : s.errorPin = true ↔ s.params.copKind ≠ .none ∧ s.pins.error = true := by simp [State.errorPin]

/-- WAIT that raises no #NM, with BUSY# inactive. -/
theorem wait_idle (hpass : s.mp = false ∨ s.ts = false) (hidle : ¬s.busyPin = true) :
    Continues (.wait c) s (do
      require (s.em || !s.errorPin) (raise 0x10#8)
      update fun t => t.advance c
      pure .plain) s :=
  ⟨_, rfl, (require_bind_ok (by rcases hpass with h | h <;> simp [h])).trans (congrFun (if_neg hidle) s)⟩

end Wait

/-- Settles O54: #NM, then BUSY#, then ERROR#, both pins seen only where a coprocessor is attached. -/
theorem coprocessorWait : Obligations.CoprocessorWait := by
  unfold Obligations.CoprocessorWait
  intro c s hv
  refine ⟨fun hmp hts => ?_, fun hpass => ⟨fun hcop hbusy => ?_, fun hidle => ?_⟩⟩
  · exact runInstr_exc hv (require_bind_exc (by simp [hmp, hts]) (raiseNM_apply s))
  · refine runInstr_ok (k := .waiting) hv ((require_bind_ok ?_).trans ?_)
    · rcases hpass with h | h <;> simp [h]
    · exact congrFun (if_pos (busyPin_iff.mpr ⟨hcop, hbusy⟩)) s
  · have inactive : ¬s.busyPin = true := fun h =>
      have ⟨hcop, hbusy⟩ := busyPin_iff.mp h
      hidle.elim (· hcop) (Bool.eq_false_iff.mp · hbusy)
    have idle := wait_idle (c := c) hpass inactive
    refine ⟨fun hcop herr hem => ?_, fun hclear => ?_⟩
    · have active : s.errorPin = true := errorPin_iff.mpr ⟨hcop, herr⟩
      exact idle.raises hv (require_bind_exc (by simp [hem, active]) (raise_apply 0x10#8 s))
    · have passes : (s.em || !s.errorPin) = true := by
        rcases hclear with h | h | h
        · simp [State.errorPin, not_not.mp h]
        · simp [State.errorPin, h]
        · simp [h]
      exact idle.completes hv (require_bind_ok passes)

/-! ## XCHG and LOCK (47_coprocessor_and_lock.md R600, R603) -/

section Exchange

variable {c : Ctx} {ea : Ea} {seg : Sreg} {off : Dword} {bs : List Byte} {s t u : State} {sp : Span}

theorem fromBytes_singleton (b : Byte) : (fromBytes [b]).setWidth 8 = b :=
  List.head_eq_of_cons_eq (toBytes_fromBytes (bs := [b]) (Nat.le_add_left 1 3))

theorem xchgByteBody_mem (r : Reg8) (h : operandSpan (c.eaSegment ea) (s.eaOffset ea) 1 .write s = .ok sp t) :
    xchgByteBody c (.mem ea) r s = .ok .plain
      (((t.store { span := sp, bytes := [s.reg8 r] }).setReg8 r (t.byte (sp.addr 0))).advance c) := by
  rw [← fromBytes_singleton (t.byte (sp.addr 0))]
  exact (M_bind_ok (getState_apply s)).trans (M_bind_ok h)

theorem xchgBody_mem (r : Reg) (h : operandSpan (c.eaSegment ea) (s.eaOffset ea) c.opBytes .write s = .ok sp t) :
    xchgBody c (.mem ea) r s = .ok .plain
      (((t.store { span := sp, bytes := toBytes c.opBytes (s.reg r) }).setRegN r c.opBytes
        (fromBytes (Memory.readSpan t.mem sp 0 c.opBytes))).advance c) :=
  (M_bind_ok (getState_apply s)).trans (M_bind_ok h)

/-- The frame of an instruction whose one access is a store to its operand. -/
theorem frame_operand (h : operandSpan seg off bs.length .write s = .ok sp t)
    (hm : u.mem = (t.store { span := sp, bytes := bs }).mem) :
    Frame s t u fun a => s.accessByte (s.linear seg off) bs.length a ∨ sp.covers bs.length a :=
  frame_store (fun hw => operandSpan_quiet hw h) hm

end Exchange

/-- Settles O55: XCHG with memory is one body with and without LOCK; LOCK before anything else is settled by its target. -/
theorem exchangeAndLock : Obligations.ExchangeAndLock := by
  unfold Obligations.ExchangeAndLock
  intro c s hv
  refine ⟨fun q r => ⟨runInstr_ok hv rfl, runInstr_exc hv rfl⟩, fun q r => ⟨runInstr_ok hv rfl, runInstr_exc hv rfl⟩, ?_, ?_,
    fun op => ⟨runInstr_exc hv rfl, runInstr_exc hv rfl⟩, ?_⟩
  · intro i ea r sp t hi la h w
    have body := xchgByteBody_mem r h
    have mem : w.mem = (t.store { span := sp, bytes := [s.reg8 r] }).mem := by simp [w]
    refine ⟨?_, frame_operand (bs := [s.reg8 r]) h mem⟩
    simp only [List.mem_cons, List.not_mem_nil, or_false] at hi
    rcases hi with rfl | rfl <;> exact runInstr_ok hv body
  · intro i ea r sp t hi n la h w
    have body := xchgBody_mem r h
    have mem : w.mem = (t.store { span := sp, bytes := toBytes n (s.reg r) }).mem := by simp [w]
    have length : (toBytes n (s.reg r)).length = n := toBytes_length _ _
    have frame := frame_operand (bs := toBytes n (s.reg r)) (by rwa [length]) mem
    rw [length] at frame
    refine ⟨?_, frame⟩
    simp only [List.mem_cons, List.not_mem_nil, or_false] at hi
    rcases hi with rfl | rfl <;> exact runInstr_ok hv body
  · intro x op b hx locks
    simp only [List.mem_cons, List.not_mem_nil, or_false] at hx
    refine ⟨fun hno => ?_, fun hyes => ?_⟩
    · rcases hx with rfl | rfl <;> exact runInstr_exc hv ((lockOther_eq _ _ b s).trans (if_neg hno))
    · rcases hx with rfl | rfl <;> exact runInstr_refusal hv ((lockOther_eq _ _ b s).trans (if_pos hyes))

end Sys2Proof.Machine

namespace Sys2Proof.Machine

/-! ## ESC: an operand that wraps around the addressing limit of its segment (47_coprocessor_and_lock.md R590) -/

/-- The segment checks let an operand's k-th byte pass. -/
def State.wrapInside (s : State) (r : Sreg) (off : Nat) (a : Access) (k : Nat) : Prop :=
  s.segOk r (s.wrappedOff r off k) 1 a = true

/-- Where an operand's k-th byte lies, with paging off. -/
def State.wrapPlace (s : State) (r : Sreg) (off k : Nat) : Span := Span.flat (s.linear r (s.wrappedOff r off k)) 1

/-- `t` is `s` with data accesses noted for the breakpoints, and differs in nothing else. -/
def Noted (s t : State) : Prop := t = s.setPending t.run.pendingDb

namespace Noted

variable {s t : State}

theorem refl (s : State) : Noted s s := rfl

theorem record (h : Noted s t) (la : Dword) (n : Nat) (w : Bool) : Noted s (t.recordAccess la n w) := by
  unfold Noted at h ⊢
  rw [h]
  rfl

theorem touched (h : Noted s t) : Touched s t := by
  unfold Noted at h
  rw [h]
  rfl

theorem mem (h : Noted s t) : t.mem = s.mem := by
  unfold Noted at h
  rw [h]
  rfl

theorem wrapInside (h : Noted s t) (r : Sreg) (off : Nat) (a : Access) (k : Nat) :
    t.wrapInside r off a k ↔ s.wrapInside r off a k := by
  simp only [State.wrapInside, State.wrappedOff, h.touched.segOk, h.touched.seg]

theorem wrapPlace (h : Noted s t) (r : Sreg) (off k : Nat) : t.wrapPlace r off k = s.wrapPlace r off k := by
  simp only [State.wrapPlace, State.wrappedOff, h.touched.linear, h.touched.seg]

/-- An exception drops the accesses noted before it (60_exceptions.md R706). -/
theorem raised_freed (h : Noted s t) (e : Event) : raised e t.freed = raised e s.freed := by
  unfold Noted at h
  rw [h]
  rfl

end Noted

section Wrapped

variable {r : Sreg} {off k n : Nat} {a : Access} {s t : State}

theorem wrappedByte_outside (ht : Noted s t) (h : ¬s.wrapInside r off a k) :
    wrappedByte r off k a t = .error (.exc (faultWith s (s.segVector r a) 0x0000#16)) t.freed := by
  rw [wrappedByte_exc (Bool.eq_false_iff.mpr (h ∘ (ht.wrapInside r off a k).mp)), State.segVector, faultWith,
    ht.touched.free, ht.touched.pe, ht.touched.seg]
  rfl

/-- In the middle of the operand the exception is the overrun, whatever its cause. -/
theorem asOverrun_outside (ht : Noted s t) (h : ¬s.wrapInside r off a k) :
    asOverrun (wrappedByte r off k a) t = .error (.exc overrun) t.freed := by
  unfold asOverrun
  rw [wrappedByte_outside ht h]
  rfl

variable (hpg : s.pg = false)

include hpg

theorem wrappedByte_inside (ht : Noted s t) (h : s.wrapInside r off a k) :
    ∃ u, Noted s u ∧ wrappedByte r off k a t = .ok (s.wrapPlace r off k) u := by
  have byte : wrappedByte r off k a t = .ok (t.wrapPlace r off k) _ :=
    wrappedByte_flat (ht.touched.pg.trans hpg) ((ht.wrapInside r off a k).mpr h)
  exact ⟨_, ht.record _ _ _, ht.wrapPlace r off k ▸ byte⟩

theorem asOverrun_inside (ht : Noted s t) (h : s.wrapInside r off a k) :
    ∃ u, Noted s u ∧ asOverrun (wrappedByte r off k a) t = .ok (s.wrapPlace r off k) u := by
  obtain ⟨u, hu, byte⟩ := wrappedByte_inside hpg ht h
  refine ⟨u, hu, ?_⟩
  unfold asOverrun
  rw [byte]

theorem wrappedMiddle_inside (ht : Noted s t) (h : ∀ j ∈ List.range' k n, s.wrapInside r off a j) :
    ∃ u, Noted s u ∧ wrappedMiddle r off a k n t = .ok ((List.range' k n).map (s.wrapPlace r off)) u := by
  induction n generalizing k t with
  | zero => exact ⟨t, ht, rfl⟩
  | succ n ih =>
    rw [List.range'_succ, List.forall_mem_cons] at h
    obtain ⟨u, hu, byte⟩ := asOverrun_inside hpg ht h.1
    obtain ⟨v, hv, rest⟩ := ih hu h.2
    exact ⟨v, hv, (M_bind_ok byte).trans (M_bind_ok rest)⟩

theorem wrappedMiddle_outside (ht : Noted s t) (h : ∃ j ∈ List.range' k n, ¬s.wrapInside r off a j) :
    ∃ u, Noted s u ∧ wrappedMiddle r off a k n t = .error (.exc overrun) u.freed := by
  induction n generalizing k t with
  | zero => simp at h
  | succ n ih =>
    by_cases inside : s.wrapInside r off a k
    · rw [List.range'_succ, List.exists_mem_cons_iff, or_iff_right (not_not.mpr inside)] at h
      obtain ⟨u, hu, byte⟩ := asOverrun_inside hpg ht inside
      obtain ⟨v, hv, rest⟩ := ih hu h
      exact ⟨v, hv, (M_bind_ok byte).trans (M_bind_error rest)⟩
    · exact ⟨t, ht, M_bind_error (asOverrun_outside ht inside)⟩

/-- The first or the last byte outside the segment. -/
theorem wrappedSpans_end_outside (h : ¬(s.wrapInside r off a 0 ∧ s.wrapInside r off a (n - 1))) :
    ∃ u, Noted s u
      ∧ wrappedSpans r off n a s = .error (.exc (faultWith s (s.segVector r a) 0x0000#16)) u.freed := by
  by_cases first : s.wrapInside r off a 0
  · obtain ⟨u, hu, byte⟩ := wrappedByte_inside hpg (.refl s) first
    have last : ¬s.wrapInside r off a (n - 1) := fun hl => h ⟨first, hl⟩
    exact ⟨u, hu, (M_bind_ok byte).trans (M_bind_error (wrappedByte_outside hu last))⟩
  · exact ⟨s, .refl s, M_bind_error (wrappedByte_outside (.refl s) first)⟩

/-- The first and the last byte within the segment, the middle not all of it. -/
theorem wrappedSpans_middle_outside (first : s.wrapInside r off a 0) (last : s.wrapInside r off a (n - 1))
    (h : ∃ k, k < n ∧ ¬s.wrapInside r off a k) :
    ∃ u, Noted s u ∧ wrappedSpans r off n a s = .error (.exc overrun) u.freed := by
  obtain ⟨k, hk, outside⟩ := h
  have notFirst : k ≠ 0 := fun h => outside (h ▸ first)
  have notLast : k ≠ n - 1 := fun h => outside (h ▸ last)
  have inMiddle : k ∈ List.range' 1 (n - 2) := by
    rw [List.mem_range'_1]
    omega
  obtain ⟨t, ht, firstByte⟩ := wrappedByte_inside hpg (.refl s) first
  obtain ⟨u, hu, lastByte⟩ := wrappedByte_inside hpg ht last
  obtain ⟨v, hv, middle⟩ := wrappedMiddle_outside hpg hu ⟨k, inMiddle, outside⟩
  exact ⟨v, hv, (M_bind_ok firstByte).trans ((M_bind_ok lastByte).trans (M_bind_error middle))⟩

/-- Every byte within the segment. -/
theorem wrappedSpans_inside (hn : 2 ≤ n) (h : ∀ k, k < n → s.wrapInside r off a k) :
    ∃ u, Noted s u ∧ wrappedSpans r off n a s = .ok ((List.range n).map (s.wrapPlace r off)) u := by
  obtain ⟨m, rfl⟩ := Nat.exists_eq_add_of_le' hn
  have within : ∀ j ∈ List.range' 1 m, s.wrapInside r off a j := fun j hj => by
    rw [List.mem_range'_1] at hj
    exact h j (by omega)
  obtain ⟨t, ht, firstByte⟩ := wrappedByte_inside hpg (.refl s) (h 0 (by omega))
  obtain ⟨u, hu, lastByte⟩ := wrappedByte_inside hpg ht (h (m + 1) (by omega))
  obtain ⟨v, hv, middle⟩ := wrappedMiddle_inside hpg hu within
  have order : List.range (m + 2) = 0 :: (List.range' 1 m ++ [m + 1]) := by
    rw [List.range_eq_range', List.range'_succ, List.range'_concat, Nat.one_mul, Nat.add_comm 1 m]
  refine ⟨v, hv, (M_bind_ok firstByte).trans ((M_bind_ok lastByte).trans ((M_bind_ok middle).trans ?_))⟩
  rw [order, List.map_cons, List.map_append]
  rfl

end Wrapped

/-- An operand that wraps has a byte on each side of the addressing limit. -/
theorem two_le_of_wraps {s : State} {r : Sreg} {off : Dword} {n : Nat} (h : s.wraps r off n = true) : 2 ≤ n := by
  simp only [State.wraps, Bool.and_eq_true, decide_eq_true_eq] at h
  omega

/-! ## ESC (47_coprocessor_and_lock.md R585, R587, R588) -/

section Transfer

variable {n : Nat} {bs : List Byte} {r : Sreg} {off : Dword} {reply : CopReply} {sp : Span} {s t : State}

theorem copData_given (h : n ≤ bs.length) (s : State) : copData n bs s = .ok (bs.take n) s := by
  induction n generalizing bs with
  | zero => rfl
  | succ n ih =>
    cases bs with
    | nil => simp at h
    | cons b bs => exact M_bind_ok (ih (Nat.le_of_succ_le_succ h))

theorem readEach_places (s : State) (r : Sreg) (off : Nat) (ks : List Nat) :
    readEach s.mem (ks.map (s.wrapPlace r off))
      = ks.map fun k => s.byte (s.linear r (s.wrappedOff r off k)).toNat := by
  induction ks with
  | nil => rfl
  | cons k ks ih =>
    have place : (s.wrapPlace r off k).addr 0 = (s.linear r (s.wrappedOff r off k)).toNat := by
      simp [State.wrapPlace, Span.addr, Span.flat]
    rw [List.map_cons, List.map_cons, readEach, ih, place]
    rfl

theorem storeEach_eq (sps : List Span) (bs : List Byte) :
    storeEach sps bs = (sps.zip bs).map fun x => { span := x.1, bytes := [x.2] } := by
  induction sps generalizing bs with
  | nil => rfl
  | cons sp sps ih =>
    cases bs with
    | nil => rfl
    | cons b bs => rw [storeEach, ih]; rfl

theorem copTransfer_read (hw : s.wraps r off reply.size = false) (hr : reply.store = false)
    (h : operandSpan r off reply.size .read s = .ok sp t) :
    copTransfer r off reply s = .ok (Memory.readSpan t.mem sp 0 reply.size, []) t := by
  unfold copTransfer
  rw [M_bind_ok (getState_apply s), if_neg (by simp [hw]), hr]
  exact M_bind_ok h

theorem copTransfer_store (hw : s.wraps r off reply.size = false) (hr : reply.store = true)
    (hn : reply.size ≤ reply.data.length) (h : operandSpan r off reply.size .write s = .ok sp t) :
    copTransfer r off reply s =
      .ok (reply.data.take reply.size, [{ span := sp, bytes := reply.data.take reply.size }]) t := by
  unfold copTransfer
  rw [M_bind_ok (getState_apply s), if_neg (by simp [hw]), hr]
  exact (M_bind_ok h).trans (M_bind_ok (copData_given hn t))

variable {sps : List Span} (hw : s.wraps r off reply.size = true)

include hw

theorem copTransfer_wrapped_exc {e : Err}
    (h : wrappedSpans r off.toNat reply.size (if reply.store then .write else .read) s = .error e t) :
    copTransfer r off reply s = .error e t := by
  unfold copTransfer
  rw [M_bind_ok (getState_apply s), if_pos hw]
  exact M_bind_error h

variable (h : wrappedSpans r off.toNat reply.size (if reply.store then .write else .read) s = .ok sps t)

include h

theorem copTransfer_wrapped_read (hr : reply.store = false) :
    copTransfer r off reply s = .ok (readEach t.mem sps, []) t := by
  unfold copTransfer
  rw [M_bind_ok (getState_apply s), if_pos hw]
  refine (M_bind_ok h).trans ?_
  rw [hr]
  rfl

theorem copTransfer_wrapped_store (hr : reply.store = true) (hn : reply.size ≤ reply.data.length) :
    copTransfer r off reply s = .ok (reply.data.take reply.size, storeEach sps (reply.data.take reply.size)) t := by
  unfold copTransfer
  rw [M_bind_ok (getState_apply s), if_pos hw]
  refine (M_bind_ok h).trans ?_
  rw [hr]
  exact M_bind_ok (copData_given hn t)

end Transfer

/-- An ESC raises neither #NM nor #MF and has a coprocessor to go to. -/
structure EscPasses (s : State) : Prop where
  em : s.em = false
  ts : s.ts = false
  attached : s.params.copKind ≠ .none
  noError : s.cop.reply.testsError = false ∨ s.pins.error = false

/-- What ESC hands to the coprocessor, with the bytes of its memory operand. -/
def State.escEvent (s : State) (c : Ctx) (op n : BitVec 3) (ea : Ea) (bytes : List Byte) : CopEvent :=
  { op := op, reg := n, operand := .memory (s.seg.get (c.eaSegment ea)).sel (s.eaOffset ea) bytes }

section Esc

variable {c : Ctx} {op n : BitVec 3} {ea : Ea} {bs : List Byte} {sts : List Store} {s t : State}

/-- The checks of ESC, before whatever is done after them. -/
theorem EscPasses.checks {m : M Completion} (h : EscPasses s) :
    (do
      require (!(s.em || s.ts)) raiseNM
      if s.params.copKind = .none then stop (.refusal .noCoprocessor)
      else do
        require (!(s.cop.reply.testsError && s.errorPin)) (raise 0x10#8)
        m : M Completion) s = m s := by
  have noError : (!(s.cop.reply.testsError && s.errorPin)) = true := by
    rcases h.noError with hr | hr <;> simp [hr, State.errorPin]
  rw [require_bind_ok (by simp [h.em, h.ts]), if_neg h.attached, require_bind_ok noError]

theorem EscPasses.register (h : EscPasses s) (r : Reg) :
    escBody c op n (.reg r) s =
      .ok .plain ((s.handOver { op := op, reg := n, operand := .opcode r.bits }).advance c) :=
  (M_bind_ok (getState_apply s)).trans h.checks

theorem EscPasses.memory (h : EscPasses s) :
    escBody c op n (.mem ea) s = (do
      let (bs, stores) ← copTransfer (c.eaSegment ea) (s.eaOffset ea) s.cop.reply
      update fun t => ((t.storeAll stores).handOver (s.escEvent c op n ea bs)).advance c
      pure .plain : M Completion) s :=
  (M_bind_ok (getState_apply s)).trans h.checks

variable (h : EscPasses s) (hv : s.flags.vm = false)

include h hv

theorem EscPasses.completes (ht : copTransfer (c.eaSegment ea) (s.eaOffset ea) s.cop.reply s = .ok (bs, sts) t) :
    exec (.esc c op n (.mem ea)) s =
      .next (s.ended (((t.storeAll sts).handOver (s.escEvent c op n ea bs)).advance c)) :=
  runInstr_ok hv (h.memory.trans (M_bind_ok ht))

theorem EscPasses.raises {e : Event} (ht : copTransfer (c.eaSegment ea) (s.eaOffset ea) s.cop.reply s = .error (.exc e) t) :
    exec (.esc c op n (.mem ea)) s = raised e t :=
  runInstr_exc hv (h.memory.trans (M_bind_error ht))

end Esc

/-- Settles O53: the checks in their order; then an operand in one piece is transferred in the state after its one access,
and a wrapped one byte by byte, the ends before the middle. -/
theorem coprocessorEscape : Obligations.CoprocessorEscape := by
  unfold Obligations.CoprocessorEscape
  intro c op reg rm s hv
  refine ⟨fun h => ?_, fun hem hts => ⟨fun hcop => ?_, fun hcop => ⟨fun htests herr => ?_, fun hok => ?_⟩⟩⟩
  · refine runInstr_exc hv ((M_bind_ok (getState_apply s)).trans (require_bind_exc ?_ (raiseNM_apply s)))
    rcases h with h | h <;> simp [h]
  · refine runInstr_refusal (t := s) hv ((M_bind_ok (getState_apply s)).trans ?_)
    rw [require_bind_ok (by simp [hem, hts]), if_pos hcop]
    rfl
  · refine runInstr_exc hv ((M_bind_ok (getState_apply s)).trans ?_)
    rw [require_bind_ok (by simp [hem, hts]), if_neg hcop]
    exact require_bind_exc (by simp [htests, errorPin_iff.mpr ⟨hcop, herr⟩]) (raise_apply 0x10#8 s)
  · have passes : EscPasses s := ⟨hem, hts, hcop, hok⟩
    cases rm with
    | reg r => exact runInstr_ok hv (passes.register r)
    | mem ea =>
      dsimp -zeta only
      intro seg off n
      refine ⟨?_, ?_, ?_⟩
      · intro hw sp t hr hsp bytes w
        refine ⟨passes.completes hv (copTransfer_read hw hr hsp), ?_⟩
        exact frame_read (fun hw => operandSpan_quiet hw hsp) (State.ended_mem _ _)
      · intro hw sp t hr hn hsp bytes w
        have length : bytes.length = n := List.length_take_of_le hn
        have frame := frame_operand (u := w) (by rwa [length]) (State.ended_mem _ _)
        rw [length] at frame
        exact ⟨passes.completes hv (copTransfer_store hw hr hn hsp), frame⟩
      · intro hw hpg kind place inside la
        refine ⟨?_, ?_, ?_, ?_⟩
        · intro hends
          obtain ⟨u, hu, spans⟩ := wrappedSpans_end_outside hpg hends
          rw [passes.raises hv (copTransfer_wrapped_exc hw spans), hu.raised_freed]
        · intro hfirst hlast hmiddle
          obtain ⟨u, hu, spans⟩ := wrappedSpans_middle_outside hpg hfirst hlast hmiddle
          rw [passes.raises hv (copTransfer_wrapped_exc hw spans), hu.raised_freed]
          rfl
        · intro hall hr bytes
          obtain ⟨u, hu, spans⟩ := wrappedSpans_inside hpg (two_le_of_wraps hw) hall
          have transfer := copTransfer_wrapped_read hw spans hr
          rw [hu.mem, readEach_places] at transfer
          exact ⟨u, hu.touched, hu.mem, passes.completes hv transfer⟩
        · intro hall hr hn bytes stores
          obtain ⟨u, hu, spans⟩ := wrappedSpans_inside hpg (two_le_of_wraps hw) hall
          have transfer := copTransfer_wrapped_store hw spans hr hn
          refine ⟨u, hu.touched, hu.mem, (passes.completes hv transfer).trans ?_⟩
          rw [storeEach_eq, List.zip_map_left, List.map_map]
          rfl

end Sys2Proof.Machine

namespace Sys2Proof

/-! ## Parsers and the bytes behind those they read

`Streams p`: the parser asks for more bytes, or whatever bytes follow its input do not change what it does. So the decoder,
which reads the bytes of an instruction one after another, asks for more until it has them all. -/

/-- A parser's result with more bytes behind those that it has left. -/
def extended {α : Type} (v : List Byte) :
    EStateM.Result DecodeStop (List Byte) α → EStateM.Result DecodeStop (List Byte) α
  | .ok a r => .ok a (r ++ v)
  | .error e r => .error e (r ++ v)

/-- A parser that does not ask for more does the same whatever bytes follow. -/
def Streams {α : Type} (p : Parse α) : Prop :=
  ∀ bs v, (∃ r, p bs = .error .needMore r) ∨ p (bs ++ v) = extended v (p bs)

section Rules

variable {α β : Type}

@[simp] theorem streams_pure (a : α) : Streams (pure a) := fun _ _ => .inr rfl

@[simp] theorem streams_unlisted (opcode : List Byte) : Streams (unlisted opcode : Parse α) := fun _ _ => .inr rfl

@[simp] theorem streams_invalid (opcode : List Byte) : Streams (invalid opcode : Parse α) := fun _ _ => .inr rfl

@[simp] theorem streams_nextByte : Streams nextByte := by
  intro bs v
  cases bs with
  | nil => exact .inl ⟨[], rfl⟩
  | cons b r => exact .inr rfl

@[simp] theorem streams_bind {p : Parse α} {f : α → Parse β} (hp : Streams p) (hf : ∀ a, Streams (f a)) :
    Streams (p >>= f) := by
  intro bs v
  rw [Parse_bind_apply, Parse_bind_apply]
  rcases hp bs v with ⟨r, h⟩ | h
  · exact .inl ⟨r, by rw [h]⟩
  · rw [h]
    cases p bs with
    | ok a r => exact hf a r v
    | error e r => exact .inr rfl

@[simp] theorem streams_map (f : α → β) {p : Parse α} (hp : Streams p) : Streams (f <$> p) :=
  streams_bind hp fun a => streams_pure (f a)

@[simp] theorem streams_ite {c : Prop} [Decidable c] {p q : Parse α} (hp : Streams p) (hq : Streams q) :
    Streams (if c then p else q) := by
  split
  · exact hp
  · exact hq

end Rules

/-! ### The parts of the decoder

Each part is built by those rules from smaller parts, all of them in the simp set; what is left to say is where a part splits
into cases. -/

@[simp] theorem streams_nextWord : Streams nextWord := by simp [nextWord]

@[simp] theorem streams_nextDword : Streams nextDword := by simp [nextDword]

@[simp] theorem streams_nextImm (op32 : Bool) : Streams (nextImm op32) := by simp [nextImm]

@[simp] theorem streams_nextFar (op32 : Bool) : Streams (nextFar op32) := by simp [nextFar]

@[simp] theorem streams_nextDisp16 (mb : BitVec 2) : Streams (nextDisp16 mb) := by
  unfold nextDisp16
  split <;> simp

@[simp] theorem streams_nextDisp32 (mb : BitVec 2) : Streams (nextDisp32 mb) := by
  unfold nextDisp32
  split <;> simp

@[simp] theorem streams_nextEa16 (mb : BitVec 2) (rm : BitVec 3) : Streams (nextEa16 mb rm) := by simp [nextEa16]

@[simp] theorem streams_nextSib (mb : BitVec 2) : Streams (nextSib mb) := by
  refine streams_bind streams_nextByte fun b => ?_
  split <;> simp

@[simp] theorem streams_nextEa32 (mb : BitVec 2) (rm : BitVec 3) : Streams (nextEa32 mb rm) :=
  streams_ite (streams_nextSib mb) (by simp)

@[simp] theorem streams_nextRmOf {ρ : Type} (regOf : BitVec 3 → ρ) (a32 : Bool) (b : Byte) :
    Streams (nextRmOf regOf a32 b) :=
  streams_ite (streams_pure _) (by simp)

@[simp] theorem streams_nextModRM (a32 : Bool) : Streams (nextModRM a32) := by simp [nextModRM]

@[simp] theorem streams_nextModRM8 (a32 : Bool) : Streams (nextModRM8 a32) := by simp [nextModRM8]

@[simp] theorem streams_nextSpecial : Streams nextSpecial := by simp [nextSpecial]

@[simp] theorem streams_parse0F00 (a32 : Bool) : Streams (parse0F00 a32) := by
  refine streams_bind (streams_nextModRM a32) fun x => ?_
  dsimp only
  split <;> simp

@[simp] theorem streams_parse0F01 (a32 : Bool) : Streams (parse0F01 a32) := by
  refine streams_bind (streams_nextModRM a32) fun x => ?_
  dsimp only
  split <;> simp

@[simp] theorem streams_parse0FBA (a32 : Bool) : Streams (parse0FBA a32) := by simp [parse0FBA]

@[simp] theorem streams_parseFE (a32 : Bool) : Streams (parseFE a32) := by simp [parseFE]

@[simp] theorem streams_parseFF (a32 : Bool) : Streams (parseFF a32) := by
  refine streams_bind (streams_nextModRM a32) fun x => ?_
  dsimp only
  split <;> simp

@[simp] theorem streams_parse0F (a32 : Bool) : Streams (parse0F a32) := by
  refine streams_bind streams_nextByte fun op => ?_
  split <;> simp

@[simp] theorem streams_parseEsc (a32 : Bool) (op : Byte) : Streams (parseEsc a32 op) := by simp [parseEsc]

@[simp] theorem streams_parseLow (c : Ctx) (op : Byte) : Streams (parseLow c op) := by
  unfold parseLow
  split <;> simp

@[simp] theorem streams_parseHigh (c : Ctx) (op : Byte) : Streams (parseHigh c op) := by
  unfold parseHigh
  split <;> simp

@[simp] theorem streams_parseLocked (c : Ctx) (op : Byte) : Streams (parseLocked c op) := by
  unfold parseLocked
  split
  · simp
  · simp
  · refine streams_bind streams_nextByte fun op2 => ?_
    split <;> simp
  · split <;> simp

@[simp] theorem streams_parseRepeated (c : Ctx) (op : Byte) : Streams (parseRepeated c op) := by
  unfold parseRepeated
  split <;> simp

theorem streams_parseOpcode (c : Ctx) : Streams (parseOpcode c) :=
  streams_bind streams_nextByte fun _ =>
    streams_ite (streams_parseLocked _ _) (streams_ite (streams_parseRepeated _ _) (by simp))

/-! ### The decoder asks for every byte of an instruction -/

/-- A byte that is not one of the prefixes ends them, whatever follows. -/
theorem takePrefixes_extended {bs t : List Byte} {b : Byte} (h : (takePrefixes bs).2 = b :: t) (v : List Byte) :
    takePrefixes (bs ++ v) = ((takePrefixes bs).1, b :: t ++ v) := by
  have none := pfxOf_takePrefixes h
  have split := takePrefixes_append bs
  rw [h] at split
  rw [← split, List.append_assoc, List.cons_append, takePrefixes_bytes _ none, takePrefixes_bytes _ none]

/-- The parser answers the encoding of an instruction with nothing left (30_encoding.md R240). -/
theorem parseOpcode_encode {i : Instr} (h : i.wf = true) :
    ∃ f, parseOpcode ⟨(takePrefixes (encode i)).1, i.ctx.d32, 0⟩ (takePrefixes (encode i)).2 = .ok f [] := by
  obtain ⟨b, r, hbytes, hb⟩ := opcodeBytes_head h
  obtain ⟨f, hparse, -⟩ := parseOpcode_opcodeBytes h []
  rw [List.append_nil, hbytes] at hparse
  rw [encode, hbytes, takePrefixes_bytes _ hb]
  exact ⟨f, hparse⟩

/-- Of an instruction's bytes no fewer than all are enough (30_encoding.md R232). -/
theorem decode_take_encode {i : Instr} (h : i.wf = true) {k : Nat} (hk : k < i.ctx.len) :
    decode i.ctx.d32 ((encode i).take k) = .needMore := by
  have short : ¬Config.maxLength ≤ ((encode i).take k).length := by
    have := len_le_of_wf h
    rw [List.length_take]
    omega
  have behind : (encode i).drop k ≠ [] := by
    rw [Ne, List.drop_eq_nil_iff, encode_length h]
    omega
  obtain ⟨f, hparse⟩ := parseOpcode_encode h
  have more : ∃ r, parseOpcode ⟨(takePrefixes ((encode i).take k)).1, i.ctx.d32, 0⟩
      (takePrefixes ((encode i).take k)).2 = .error .needMore r := by
    cases hrest : (takePrefixes ((encode i).take k)).2 with
    | nil => exact ⟨[], parseOpcode_nil _⟩
    | cons b t =>
      refine (streams_parseOpcode _ (b :: t) ((encode i).drop k)).resolve_right fun same => ?_
      have all := takePrefixes_extended hrest ((encode i).drop k)
      rw [List.take_append_drop] at all
      rw [all] at hparse
      rw [hparse] at same
      cases hshort : parseOpcode ⟨(takePrefixes ((encode i).take k)).1, i.ctx.d32, 0⟩ (b :: t) with
      | ok g r =>
        rw [hshort] at same
        obtain ⟨-, nothing⟩ := EStateM.Result.ok.inj same
        exact behind (List.append_eq_nil_iff.mp nothing.symm).2
      | error e r =>
        rw [hshort] at same
        cases same
  obtain ⟨r, hr⟩ := more
  simp only [decode, hr, if_neg short]

end Sys2Proof

namespace Sys2Proof.Machine

/-! ## A step runs the decoded instruction (60_exceptions.md R706) -/

section Fetch

variable {i : Instr} {s t u : State} {k : Nat}

/-- Where the k-th byte of an instruction lies with paging off. -/
def State.codePlace (s : State) (k : Nat) : Nat := (s.linear .cs (s.pc + BitVec.ofNat 32 k)).toNat

theorem fetchInstr_eq (hv : s.flags.vm = false) : fetchInstr s = fetchFrom (Config.maxLength + 1) [] s := by
  unfold fetchInstr
  rw [M_bind_ok (getState_apply s), if_neg (Bool.eq_false_iff.mp hv)]

theorem fetchFrom_instr {n : Nat} {bs : List Byte} (h : decode s.default32 bs = .instr i) :
    fetchFrom (n + 1) bs s = .ok i s := by
  simp [fetchFrom, h]

theorem fetchFrom_error {n : Nat} {bs : List Byte} {e : Err} (h : decode s.default32 bs = .needMore)
    (hb : fetchByte (s.pc + BitVec.ofNat 32 bs.length) s = .error e t) : fetchFrom (n + 1) bs s = .error e t := by
  simp [fetchFrom, h, hb]

/-- A byte within CS that was stored into after it may have been prefetched (20_memory.md R229). -/
theorem fetchByte_stale {off : Dword} (hp : s.pg = false) (hs : s.segOk .cs off 1 .fetch = true)
    (hstale : (s.linear .cs off).toNat ∈ s.run.prefetch.stale) :
    fetchByte off s = .error (.refusal .prefetchedStore) s := by
  have haddr : (Span.flat (s.linear .cs off) 1).addr 0 = (s.linear .cs off).toNat := by simp [Span.flat, Span.addr]
  simp [fetchByte, checkedSpan_eq, hs, translate_flat hp, haddr, hstale]

/-- With paging off the bytes of an instruction stand at CS:EIP within CS. -/
structure EncodedAt (i : Instr) (s : State) : Prop where
  pg : s.pg = false
  vm : s.flags.vm = false
  wf : i.wf = true
  size : i.ctx.d32 = s.default32
  bytes : ∀ k, k < i.ctx.len → s.segOk .cs (s.pc + BitVec.ofNat 32 k) 1 .fetch = true
    ∧ (encode i)[k]? = some (s.byte (s.codePlace k))

namespace EncodedAt

/-- The bytes before the k-th are fetched one after another, if none of them is stale. -/
theorem fetch_take (h : EncodedAt i s) (hk : k ≤ i.ctx.len)
    (fresh : ∀ j, j < k → s.codePlace j ∉ s.run.prefetch.stale) (n : Nat) :
    fetchFrom (n + k) [] s = fetchFrom n ((encode i).take k) s := by
  have length : ((encode i).take k).length = k := List.length_take_of_le (by rwa [encode_length h.wf])
  have taken := fetchFrom_take (bs := (encode i).take k) (s := s) (fun j hj => ?_) (fun j hj => ?_) n k length.ge
  · rwa [List.take_take, Nat.min_self] at taken
  · rw [length] at hj
    obtain ⟨inside, byte⟩ := h.bytes j (hj.trans_le hk)
    exact ⟨_, (List.getElem?_take_of_lt hj).trans byte, fetchByte_flat h.pg inside (fresh j hj)⟩
  · rw [length] at hj
    rw [List.take_take, Nat.min_eq_left hj.le, ← h.size]
    exact decode_take_encode h.wf (hj.trans_le hk)

/-- An instruction none of whose bytes is stale is fetched. -/
theorem fetchInstr_fresh (h : EncodedAt i s) (fresh : ∀ k, k < i.ctx.len → s.codePlace k ∉ s.run.prefetch.stale) :
    fetchInstr s = .ok i s := by
  have fuel : Config.maxLength + 1 = Config.maxLength - i.ctx.len + 1 + i.ctx.len := by
    have := len_le_of_wf h.wf
    omega
  have whole : decode s.default32 (encode i) = .instr i := by
    simpa [h.size] using decodeEncode i [] h.wf
  rw [fetchInstr_eq h.vm, fuel, h.fetch_take le_rfl fresh, List.take_of_length_le (encode_length h.wf).le]
  exact fetchFrom_instr whole

/-- The first stale byte of an instruction is refused (20_memory.md R229). -/
theorem fetchInstr_stale (h : EncodedAt i s) (hk : k < i.ctx.len)
    (fresh : ∀ j, j < k → s.codePlace j ∉ s.run.prefetch.stale) (stale : s.codePlace k ∈ s.run.prefetch.stale) :
    fetchInstr s = .error (.refusal .prefetchedStore) s := by
  have fuel : Config.maxLength + 1 = Config.maxLength - k + 1 + k := by
    have := len_le_of_wf h.wf
    omega
  have length : ((encode i).take k).length = k := List.length_take_of_le (by rw [encode_length h.wf]; exact hk.le)
  have more : decode s.default32 ((encode i).take k) = .needMore := h.size ▸ decode_take_encode h.wf hk
  rw [fetchInstr_eq h.vm, fuel, h.fetch_take hk.le fresh]
  exact fetchFrom_error more (length.symm ▸ fetchByte_stale h.pg (h.bytes k hk).1 stale)

end EncodedAt

end Fetch

section Step

variable {i : Instr} {s t u v : State}

theorem step_fetch_refused {r : Refusal} (hb : boundary s = .run t) (hf : fetchInstr t = .error (.refusal r) u) :
    step s = .refused r := by
  simp only [step, hb, runNext, hf, finish]

/-- The bytes that an instruction has changed where they may have been prefetched (log entries 7 and 54). -/
theorem mem_overwritten {n a : Nat} :
    a ∈ u.overwritten n v ↔ (∃ k, k < n + u.params.prefetchDepth ∧ u.fetchAddr k = some a)
      ∧ Memory.cell u.mem.cells a ≠ Memory.cell v.mem.cells a := by
  simp [State.overwritten]

theorem prefetchAfter_transfer (h : transfers i = true) : (prefetchAfter i u v).stale = [] := by
  rw [prefetchAfter, if_pos h]

theorem prefetchAfter_emptied (h : transfers i = false) (he : v.run.prefetch.emptied = true) :
    prefetchAfter i u v = v.run.prefetch := by
  rw [prefetchAfter, if_neg (Bool.eq_false_iff.mp h), if_pos he]

theorem mem_prefetchAfter {a : Nat} (h : ¬(transfers i = true ∨ v.run.prefetch.emptied = true)) :
    a ∈ (prefetchAfter i u v).stale ↔ a ∈ v.run.prefetch.stale
      ∨ ((∃ k, k < i.ctx.len + u.params.prefetchDepth ∧ u.fetchAddr k = some a)
        ∧ Memory.cell u.mem.cells a ≠ Memory.cell v.mem.cells a) := by
  obtain ⟨straight, kept⟩ := not_or.mp h
  rw [prefetchAfter, if_neg straight, if_neg kept, ← mem_overwritten]
  exact List.mem_append

end Step

/-- Settles O4: a step is `settle` of the execution; the instruction whose bytes stand at CS:EIP is the one fetched, up to
the first of them that is stale. -/
theorem stepRunsDecoded : Obligations.StepRunsDecoded := by
  unfold Obligations.StepRunsDecoded
  refine ⟨?_, ?_⟩
  · intro s t u i hb hf
    have run : step s = settle i u (exec i u) := step_run hb hf
    refine ⟨fun r h => ?_, fun r h => ?_, ?_⟩
    · rw [run, h, settle]
    · rw [run, h, settle]
    · intro v h emptied
      rw [h, settle] at run
      exact ⟨_, run, rfl, prefetchAfter_transfer, prefetchAfter_emptied, fun he a => mem_prefetchAfter he⟩
  · intro s t i hb hpg hvm hwf hsize place hbytes
    have encoded : EncodedAt i t := ⟨hpg, hvm, hwf, hsize, hbytes⟩
    refine ⟨fun fresh => step_run hb (encoded.fetchInstr_fresh fresh), fun stale => ?_⟩
    obtain ⟨hk, first⟩ := Nat.find_spec stale
    refine step_fetch_refused hb (encoded.fetchInstr_stale hk (fun j hj hs => ?_) first)
    exact Nat.find_min stale hj ⟨hj.trans hk, hs⟩

end Sys2Proof.Machine

namespace Sys2Proof.Machine

/-! ## The TLB commands of TR6 (49_tlb_test.md R675 to R677) -/

/-- A bit pair that Table 10-1 defines gives its bit. -/
theorem pairValue_ok {x nx : Bool} (h : nx = !x) (s : State) : pairValue x nx s = .ok x s := by
  subst h
  cases x <;> rfl

/-- The three bit pairs of a command are defined (R675). -/
def pairsDefined (v : Dword) : Prop :=
  v.getLsbD 9 = !v.getLsbD 10 ∧ v.getLsbD 7 = !v.getLsbD 8 ∧ v.getLsbD 5 = !v.getLsbD 6

/-- The entry that a write command stores (R676). -/
def tlbEntryOf (v tr7 : Dword) : TlbEntry :=
  { known := true, v := v.getLsbD 11, la := pageOf v, d := v.getLsbD 10, u := v.getLsbD 8, w := v.getLsbD 6,
    pa := tr7.extractLsb' 12 20 }

/-- An entry that a lookup with V = 1 finds (R677). -/
def TlbEntry.found (e : TlbEntry) (v : Dword) : Prop :=
  e.la = pageOf v ∧ e.v = true ∧ e.d = v.getLsbD 10 ∧ e.u = v.getLsbD 8 ∧ e.w = v.getLsbD 6

section Blocks

variable {p : Nat → Bool} {b : Nat}

/-- The only one of the four blocks that has a property. -/
theorem filter_blocks_one (hb : b < 4) (h : p b = true) (one : ∀ b', b' < 4 → p b' = true → b' = b) :
    [0, 1, 2, 3].filter p = [b] := by
  have is : ∀ b' ∈ [0, 1, 2, 3], p b' = decide (b' = b) := fun b' hb' => by
    have below : b' < 4 := (List.mem_range (n := 4)).mp hb'
    by_cases hbb : b' = b
    · rw [hbb, h, decide_eq_true rfl]
    · rw [decide_eq_false hbb, ← Bool.not_eq_true]
      exact fun h' => hbb (one b' below h')
  rw [List.filter_congr is]
  interval_cases b <;> rfl

/-- None of the four blocks has a property. -/
theorem filter_blocks_none (none : ∀ b, b < 4 → p b = false) : [0, 1, 2, 3].filter p = [] := by
  simp [none]

/-- At most one of the four blocks has a property. -/
theorem filter_blocks_length (one : ∀ b b', b < 4 → b' < 4 → p b = true → p b' = true → b' = b) :
    ([0, 1, 2, 3].filter p).length ≤ 1 := by
  by_cases h : ∃ b, b < 4 ∧ p b = true
  · obtain ⟨b, hb, h⟩ := h
    rw [filter_blocks_one hb h fun b' hb' h' => one b b' hb hb' h h', List.length_singleton]
  · rw [filter_blocks_none (by simpa using h)]
    exact Nat.zero_le 1

end Blocks

section Registers

variable (old : Dword) (pa : BitVec 20) (ht : Bool) (rep : BitVec 2)

theorem tr7With_ht : (tr7With old pa ht rep).getLsbD 4 = ht := by
  simp only [tr7With, BitVec.getLsbD_append, BitVec.getLsbD_ofBool]
  simp

theorem tr7With_rep : (tr7With old pa ht rep).extractLsb' 2 2 = rep := by
  apply BitVec.eq_of_getLsbD_eq
  intro i hi
  simp only [tr7With, BitVec.getLsbD_append, BitVec.getLsbD_extractLsb', hi, decide_true, Bool.true_and]
  interval_cases i <;> simp

theorem tr7With_pa : (tr7With old pa ht rep).extractLsb' 12 20 = pa := by
  apply BitVec.eq_of_getLsbD_eq
  intro i hi
  simp only [tr7With, BitVec.getLsbD_append, BitVec.getLsbD_extractLsb', hi, decide_true, Bool.true_and]
  interval_cases i <;> simp

end Registers

/-- The entry of a hit holds what the command asked for, so that TR6 reads as it was written. -/
theorem tr6Hit_eq {v : Dword} {e : TlbEntry} (hp : pairsDefined v) (hv : v.getLsbD 11 = true) (he : e.found v) :
    tr6Hit v e = v := by
  obtain ⟨-, v11, d, u, w⟩ := he
  obtain ⟨p10, p8, p6⟩ := hp
  apply BitVec.eq_of_getLsbD_eq
  intro i hi
  simp only [tr6Hit, v11, d, u, w, BitVec.getLsbD_append, BitVec.getLsbD_ofBool, BitVec.getLsbD_extractLsb']
  interval_cases i <;> simp_all

section Commands

variable {v : Dword} {s : State}

theorem writeTest_write (h : v.getLsbD 0 = false) : writeTest 6#3 v s = tlbWrite v s :=
  congrFun (if_neg (Bool.eq_false_iff.mp h)) s

theorem writeTest_lookup (h : v.getLsbD 0 = true) : writeTest 6#3 v s = tlbLookup v s :=
  congrFun (if_pos h) s

/-- The write command (R676). -/
theorem tlbWrite_ok (hp : pairsDefined v) (ht : s.tlb.tr7.getLsbD 4 = true) :
    tlbWrite v s = .ok ()
      { s with tlb := { s.tlb.setEntry (s.tlb.tr7.extractLsb' 2 2).toNat (tlbIndex (pageOf v)) (tlbEntryOf v s.tlb.tr7) with
                        tr6 := v } } := by
  obtain ⟨hd, hu, hw⟩ := hp
  unfold tlbWrite
  rw [M_bind_ok (getState_apply s), ht, if_neg (by decide), M_bind_ok (pairValue_ok hd s), M_bind_ok (pairValue_ok hu s),
    M_bind_ok (pairValue_ok hw s), update_apply]
  rfl

theorem TlbEntry.meets_iff (hv : v.getLsbD 11 = true) (e : TlbEntry) : e.meets v = true ↔ e.found v := by
  unfold TlbEntry.meets TlbEntry.found
  simp only [hv, Bool.and_eq_true, decide_eq_true_eq, and_assoc]

theorem pairDefined_not (x : Bool) : pairDefined x (!x) = true := by cases x <;> rfl

/-- A lookup has a result where no two valid entries hold the address (R677). -/
theorem lookup_defined {t : Tlb} (hp : pairsDefined v) (hv : v.getLsbD 11 = true)
    (h : (t.hits (pageOf v)).length ≤ 1) : lookupUndefined t v = false := by
  obtain ⟨hd, hu, hw⟩ := hp
  have few : ¬2 ≤ (t.hits (pageOf v)).length := by omega
  rw [lookupUndefined, hd, hu, hw, hv, pairDefined_not, pairDefined_not, pairDefined_not, decide_eq_false few]
  rfl

/-- The blocks whose entries a lookup finds. -/
def Tlb.found (t : Tlb) (v : Dword) : List Nat := [0, 1, 2, 3].filter fun b => (t.entry b (tlbIndex (pageOf v))).meets v

variable (hd : lookupUndefined s.tlb v = false)

include hd

/-- The lookup command, where one entry is found (R677). -/
theorem tlbLookup_hit {b : Nat} (hb : s.tlb.found v = [b]) :
    tlbLookup v s = .ok ()
      { s with tlb := { s.tlb with
          tr6 := tr6Hit v (s.tlb.entry b (tlbIndex (pageOf v))),
          tr7 := tr7With s.tlb.tr7 (s.tlb.entry b (tlbIndex (pageOf v))).pa true (BitVec.ofNat 2 b) } } := by
  unfold Tlb.found at hb
  unfold tlbLookup
  rw [M_bind_ok (getState_apply s)]
  simp only [hd, hb]
  rfl

/-- The lookup command, where none is found. -/
theorem tlbLookup_miss (hb : s.tlb.found v = []) :
    tlbLookup v s = .ok ()
      { s with
        tlb := { s.tlb with
          tr6 := v, tr7 := tr7With s.tlb.tr7 (s.free.head.extractLsb' 12 20) false (s.free.head.extractLsb' 2 2) },
        free := s.free.next } := by
  unfold Tlb.found at hb
  unfold tlbLookup
  rw [M_bind_ok (getState_apply s)]
  simp only [hd, hb]
  rfl

end Commands

/-- Settles O30: the command that TR6 names, each by its own lemma; a lookup finds one entry, or none. -/
theorem tlbTestCommands : Obligations.TlbTestCommands := by
  unfold Obligations.TlbTestCommands
  intro c src mb s hvm hl v h9 h7 h5 i e found held
  have pairs : pairsDefined v := ⟨h9, h7, h5⟩
  refine ⟨fun h0 ht => ?_, fun h0 h11 one => ?_⟩
  · exact exec_movToTr_ok hvm hl ((writeTest_write h0).trans (tlbWrite_ok pairs ht))
  have meets : ∀ b, (s.tlb.entry b i).meets v = true ↔ found b := fun b => TlbEntry.meets_iff h11 _
  have held_of : ∀ b, found b → held b := fun b h => ⟨h.1, h.2.1⟩
  have few : (s.tlb.hits (pageOf v)).length ≤ 1 :=
    filter_blocks_length fun b b' hb hb' h h' => by
      simp only [Bool.and_eq_true, decide_eq_true_eq] at h h'
      exact one b b' hb hb' h.symm h'.symm
  have result := lookup_defined pairs h11 few
  refine ⟨fun b hb hf => ?_, fun none => ?_⟩
  · have hit : s.tlb.found v = [b] := filter_blocks_one hb ((meets b).mpr hf) fun b' hb' h' =>
      one b b' hb hb' (held_of b hf) (held_of b' ((meets b').mp h'))
    refine ⟨_, exec_movToTr_ok hvm hl ((writeTest_lookup h0).trans (tlbLookup_hit result hit)), rfl,
      tr6Hit_eq pairs h11 hf, tr7With_ht _ _ _ _, tr7With_rep _ _ _ _, tr7With_pa _ _ _ _⟩
  · have miss : s.tlb.found v = [] := filter_blocks_none fun b hb =>
      Bool.eq_false_iff.mpr ((meets b).not.mpr (none b hb))
    exact ⟨_, exec_movToTr_ok hvm hl ((writeTest_lookup h0).trans (tlbLookup_miss result miss)), rfl, rfl,
      tr7With_ht _ _ _ _⟩

end Sys2Proof.Machine

namespace Sys2Proof.Machine

/-! ## Delivery through an interrupt or trap gate (60_exceptions.md R720, R722, R727) -/

/-- A gate that an event may use, and the code segment it names, read one after the other: every check passes that does not
depend on whether the handler runs at an inner level. -/
structure HandlerGate (e : Event) (gate d : Descriptor) (s s1 s2 s3 : State) : Prop where
  inTable : 8 * e.vector.toNat + 7 ≤ s.idtr.limit.toNat
  addr : gate.addr = s.idtr.base + BitVec.ofNat 32 (8 * e.vector.toNat)
  lo : sysRead gate.addr 4 s = .ok gate.lo s1
  hi : sysRead (gate.addr + 4#32) 4 s1 = .ok gate.hi s2
  kind : gate.kind ∈ [0b01110#5, 0b01111#5]
  allowed : e.kind = .software → s.cpl ≤ gate.dpl
  present : gate.present = true
  notNull : selNull gate.gateSel = false
  target : readDescriptor gate.gateSel s2 = .ok (some d) s3
  code : d.attr.code = true
  level : d.dpl ≤ s.cpl
  loaded : d.present = true

/-- The accesses by which the gate and the descriptor of its segment are read. -/
def State.gateAccess (s : State) (gate : Descriptor) : List (Dword × Nat) :=
  [(gate.addr, 4), (gate.addr + 4#32, 4)] ++ s.descriptorAccess gate.gateSel

section Gate

variable {e : Event} {gate d : Descriptor} {s s1 s2 s3 t : State}

theorem handlerCode_ok (hn : selNull gate.gateSel = false) (hd : readDescriptor gate.gateSel s = .ok (some d) t)
    (hc : d.attr.code = true) (hl : d.dpl ≤ s.cpl) (hp : d.present = true) : handlerCode e gate s = .ok d t := by
  unfold handlerCode
  rw [M_bind_ok (getState_apply s), require_bind_ok (by simp [hn]), M_bind_ok (needDescriptor_named hd),
    require_bind_ok hc, require_bind_ok (decide_eq_true hl), require_bind_ok hp]
  rfl

namespace HandlerGate

theorem accessed (g : HandlerGate e gate d s s1 s2 s3) : Accessed s (s.gateAccess gate) s3 :=
  (((Accessed.refl s).sysRead g.lo).sysRead g.hi).descriptor g.target

theorem named (g : HandlerGate e gate d s s1 s2 s3) : (d.addr, 8) ∈ s.gateAccess gate :=
  List.mem_append_right _ ((((Accessed.refl s).sysRead g.lo).sysRead g.hi).descriptor_mem g.target)

theorem not286 (g : HandlerGate e gate d s s1 s2 s3) :
    ¬(decide (gate.kind = 0b00110#5) || decide (gate.kind = 0b00111#5)) = true := by
  have kind := g.kind
  simp only [List.mem_cons, List.not_mem_nil, or_false] at kind
  rcases kind with h | h <;> simp [h]

theorem notTask (g : HandlerGate e gate d s s1 s2 s3) : ¬gate.kind = 0b00101#5 := fun h =>
  absurd (h ▸ g.kind) (by decide)

theorem isGate (g : HandlerGate e gate d s s1 s2 s3) :
    (decide (gate.kind = 0b00101#5) || decide (gate.kind = 0b01110#5) || decide (gate.kind = 0b01111#5)) = true := by
  simpa [g.notTask] using g.kind

theorem usable (g : HandlerGate e gate d s s1 s2 s3) :
    (!(decide (e.kind = .software) && decide (gate.dpl < s.cpl))) = true := by
  by_cases he : e.kind = .software
  · simpa [he] using g.allowed he
  · simp [he]

/-- The handler's level tells on which stack the event is delivered. -/
theorem enters (g : HandlerGate e gate d s s1 s2 s3) :
    deliverProtected e s =
      (if !d.attr.conforming && d.dpl < s.cpl then deliverInner e gate d else deliverSame e gate d : M Unit) s3 := by
  have read := ((Accessed.refl s).sysRead g.lo).sysRead g.hi
  have handler := handlerCode_ok (e := e) g.notNull g.target g.code (read.touched.cpl ▸ g.level) g.loaded
  have not286 := g.not286
  have notTask := g.notTask
  have isGate := g.isGate
  have usable := g.usable
  obtain ⟨lo, hi, addr⟩ := gate
  obtain ⟨inTable, rfl, hlo, hhi, -, -, present, -⟩ := g
  unfold deliverProtected
  rw [M_bind_ok (getState_apply s), require_bind_ok (decide_eq_true inTable), M_bind_ok hlo, M_bind_ok hhi, if_neg not286,
    require_bind_ok isGate, require_bind_ok usable, require_bind_ok present, if_neg notTask, M_bind_ok handler]

theorem inner (g : HandlerGate e gate d s s1 s2 s3) (hc : d.attr.conforming = false) (hl : d.dpl < s.cpl) :
    deliverProtected e s = deliverInner e gate d s3 :=
  g.enters.trans (congrFun (if_pos (by simp [hc, hl])) s3)

theorem same (g : HandlerGate e gate d s s1 s2 s3) (h : d.entered s.cpl) :
    deliverProtected e s = deliverSame e gate d s3 := by
  have outer : ¬(!d.attr.conforming && decide (d.dpl < s.cpl)) = true := by
    rcases h with h | ⟨h, -⟩ <;> simp [h]
  exact g.enters.trans (congrFun (if_neg outer) s3)

end HandlerGate

end Gate

/-! ### The frame that a delivery pushes (R722) -/

/-- The doublewords that every delivery pushes last, the first highest: EFLAGS, CS, EIP and the error code if there is one;
`f` is the free value above the selector of CS. -/
def State.returnItems (s : State) (e : Event) (f : Dword) : List (List Byte) :=
  [toBytes 4 (s.flags.image (e.kind = .fault)), toBytes 4 (withLowWord f s.seg.cs.sel), toBytes 4 s.pc] ++ codePush e

/-- The doublewords that a delivery pushes on another stack: the old SS and ESP above the others. -/
def State.switchItems (s : State) (e : Event) : List (List Byte) :=
  [toBytes 4 (withLowWord s.free.head s.seg.ss.sel), toBytes 4 s.gpr.esp] ++ s.returnItems e s.free.next.head

section Items

variable {e : Event} {f : Dword} {b : List Byte} {s t : State}

theorem length_of_mem_codePush (h : b ∈ codePush e) : b.length = 4 := by
  unfold codePush at h
  split at h
  · cases h
  · rw [List.mem_singleton.mp h, toBytes_length]

theorem length_of_mem_returnItems (h : b ∈ s.returnItems e f) : b.length = 4 := by
  rcases List.mem_append.mp h with h | h
  · simp only [List.mem_cons, List.not_mem_nil, or_false] at h
    rcases h with rfl | rfl | rfl <;> exact toBytes_length 4 _
  · exact length_of_mem_codePush h

theorem length_of_mem_switchItems (h : b ∈ s.switchItems e) : b.length = 4 := by
  rcases List.mem_append.mp h with h | h
  · simp only [List.mem_cons, List.not_mem_nil, or_false] at h
    rcases h with rfl | rfl <;> exact toBytes_length 4 _
  · exact length_of_mem_returnItems h

theorem returnItems_length (s : State) (e : Event) (f : Dword) :
    (s.returnItems e f).length = (12 + 4 * (codePush e).length) / 4 := by
  rw [State.returnItems, List.length_append]
  simp only [List.length_cons, List.length_nil]
  omega

theorem switchItems_length (s : State) (e : Event) :
    (s.switchItems e).length = (20 + 4 * (codePush e).length) / 4 := by
  rw [State.switchItems, List.length_append, returnItems_length]
  simp only [List.length_cons, List.length_nil]
  omega

theorem Touched.returnItems (h : Touched s t) : t.returnItems e f = s.returnItems e f := by
  rw [State.returnItems, State.returnItems, h.flags, h.seg, h.pc]

theorem Touched.switchItems (h : Touched s t) : t.switchItems e = s.switchItems e := by
  rw [State.switchItems, State.switchItems, h.returnItems, h.free, h.seg, h.gpr]

end Items

/-- The accesses of pushes of doublewords on the current stack, below the first `k` bytes. -/
theorem Accessed.pushAll {s t u : State} {l : List (Dword × Nat)} {k : Nat} {items : List (List Byte)} {sts : List Store}
    (h : Accessed s l t) (hb : ∀ b ∈ items, b.length = 4) (hr : Machine.pushAll k items t = .ok sts u) :
    Accessed s (l ++ (List.range items.length).map fun j => (s.linear .ss (s.stackBelow (k + 4 * (j + 1))), 4)) u := by
  induction items generalizing k t l sts with
  | nil =>
    cases hr
    simpa using h
  | cons b r ih =>
    obtain ⟨st, x, hst, hr⟩ := M_bind_eq_ok hr
    obtain ⟨rest, y, hrest, hr⟩ := M_bind_eq_ok hr
    cases hr
    rw [stackPrepare, M_bind_ok (getState_apply t), h.touched.stackBelow] at hst
    obtain ⟨sp, z, hsp, hst⟩ := M_bind_eq_ok hst
    cases hst
    rw [hb b List.mem_cons_self] at hsp
    have below : ∀ j, k + 4 + 4 * (j + 1) = k + 4 * (j + 1 + 1) := fun j => by omega
    have all := ih (h.span hsp) (fun b' hb' => hb b' (List.mem_cons_of_mem b hb')) hrest
    simpa [List.range_succ_eq_map, Function.comp_def, below] using all

/-! ### Delivery at the current level -/

theorem storeAll_setReg (s : State) (r : Reg) (v : Dword) (sts : List Store) :
    (s.setReg r v).storeAll sts = (s.storeAll sts).setReg r v :=
  storeAll_comm (f := fun s => s.setReg r v) (fun _ _ => rfl) s sts

theorem moveDown_protected {s : State} (hp : s.pe = true) (k : Nat) :
    s.moveDown k = s.setReg .esp (s.gpr.esp - BitVec.ofNat 32 k) :=
  if_pos hp

theorem deliverSame_ok {e : Event} {gate d : Descriptor} {s t u : State} {pushes marks : List Store} (hp : s.pe = true)
    (hv : s.seg.ss.valid = true)
    (hroom : s.seg.ss.inLimit (s.gpr.esp - BitVec.ofNat 32 (12 + 4 * (codePush e).length))
      (12 + 4 * (codePush e).length) = true)
    (hoff : d.holds gate.gateOff = true) (hpush : pushAll 0 (s.returnItems e s.free.head) s.freed = .ok pushes t)
    (hm : markAccessed d t = .ok marks u) :
    deliverSame e gate d s =
      .ok () { ((u.storeAll (pushes ++ marks)).setReg .esp
          (s.gpr.esp - BitVec.ofNat 32 (12 + 4 * (codePush e).length))).setSeg .cs
            (d.segReg (withRpl gate.gateSel s.cpl)) with
        pc := gate.gateOff, flags := s.flags.enterGate (gate.kind = 0b01110#5) } := by
  have touched : Touched s.freed u :=
    touched_trans (checked_pushAll _ _ _ _ _ hpush) (checked_markAccessed _ _ _ _ hm)
  unfold deliverSame
  rw [M_bind_ok (getState_apply s), require_bind_ok (by simp [hv, hroom]), require_bind_ok hoff,
    M_bind_ok (selectorSlot_eq 4 _ s)]
  refine (M_bind_ok hpush).trans ((M_bind_ok (loadCode_ok hm)).trans ?_)
  have level : ((u.storeAll pushes).moveDown (12 + 4 * (codePush e).length)).cpl = s.cpl := by
    have level : u.cpl = s.cpl := touched.cpl
    simpa using level
  have inProtected : (u.storeAll pushes).pe = true := by simpa [State.pe] using touched.pe.trans hp
  have flags : u.flags = s.flags := touched.flags
  have esp : (u.storeAll pushes).gpr = s.gpr := by
    have gpr : u.gpr = s.gpr := touched.gpr
    simpa using gpr
  rw [update_apply, loadCs_same level, moveDown_protected inProtected, esp, storeAll_setReg, ← storeAll_append,
    State.enterHandler]
  simp [flags]

/-! ### Delivery to a more privileged level -/

theorem deliverInner_ok {e : Event} {gate d sd : Descriptor} {nesp : Dword} {nss : Word}
    {ssMarks csMarks pushes : List Store} {s t u v w x : State}
    (hi : innerStack d.dpl e.ext s = .ok (nesp, nss) t) (hn : selNull nss = false)
    (hd : readDescriptor nss t = .ok (some sd) u) (hr : selRpl nss = d.dpl) (hl : sd.dpl = d.dpl)
    (hw : sd.attr.writable = true) (hp : sd.present = true)
    (hroom : (sd.segReg nss).inLimit (nesp - BitVec.ofNat 32 (20 + 4 * (codePush e).length))
      (20 + 4 * (codePush e).length) = true)
    (hoff : d.holds gate.gateOff = true) (hms : markAccessed sd u.freed.freed = .ok ssMarks v)
    (hm : markAccessed d v = .ok csMarks w)
    (hpush : innerPushes (sd.segReg nss) nesp (s.switchItems e) w = .ok pushes x) :
    deliverInner e gate d s =
      .ok () { (((x.storeAll (ssMarks ++ csMarks ++ pushes)).setSeg .ss (sd.segReg nss)).setSeg .cs
          (d.segReg (withRpl gate.gateSel d.dpl))).setReg .esp
            (nesp - BitVec.ofNat 32 (20 + 4 * (codePush e).length)) with
        cpl := d.dpl, pc := gate.gateOff, flags := s.flags.enterGate (gate.kind = 0b01110#5) } := by
  have stack := ((Accessed.refl s).innerStack hi).descriptor hd
  have free : u.free = s.free := stack.touched.free
  have touched : Touched u.freed.freed x :=
    touched_trans (touched_trans (checked_markAccessed _ _ _ _ hms) (checked_markAccessed _ _ _ _ hm))
      (checked_innerPushes _ _ _ _ _ _ hpush)
  have flags : x.flags = s.flags := touched.flags.trans stack.touched.flags
  have slots : ∀ (sel : Word) (y : State),
      selectorSlot 4 sel y = .ok (toBytes 4 (withLowWord y.free.head sel)) y.freed := selectorSlot_eq 4
  unfold deliverInner
  rw [M_bind_ok (getState_apply s)]
  refine (M_bind_ok hi).trans ((M_bind_ok ((innerStackSeg_level hn hd hr hw hl).trans (require_bind_ok hp))).trans ?_)
  refine (require_bind_ok hroom).trans ((require_bind_ok hoff).trans ((M_bind_ok (slots _ _)).trans ?_))
  refine (M_bind_ok (slots _ _)).trans ((M_bind_ok hms).trans ((M_bind_ok (loadCode_ok hm)).trans ?_))
  rw [State.switchItems, State.returnItems, ← free] at hpush
  refine (M_bind_ok hpush).trans ?_
  simp only [update_apply, load_loadCs_storeAll, State.enterHandler]
  simp [flags]

/-! ### The statements -/

theorem accessedByte_freed (s : State) (l : List (Dword × Nat)) (a : Nat) :
    s.freed.accessedByte l a ↔ s.accessedByte l a := Iff.rfl

theorem accessedByte_setDelivering (s : State) (x : Option ExcClass) (l : List (Dword × Nat)) (a : Nat) :
    (s.setDelivering x).accessedByte l a ↔ s.accessedByte l a := Iff.rfl

/-- Settles O48: the gate's checks, then the pushes on the current stack. -/
theorem deliverSameLevel : Obligations.DeliverSameLevel := by
  unfold Obligations.DeliverSameLevel
  intro n e lo hi d pushes marks s0 s1 s2 s3 s4 s5 hv hp s k at_ gate hin hlo hhi hk hsoft hpr hn hd hc hl hdp hoff need
    hss hroom hpush hm w
  have g : HandlerGate e gate d (s.setDelivering (some e.excClass)) s1 s2 s3 :=
    ⟨hin, rfl, hlo, hhi, hk, hsoft, hpr, hn, hd, hc, Descriptor.entered_le hl, hdp⟩
  have touched := g.accessed.touched
  replace hpush : pushAll 0 (s.returnItems e s.free.head) s3.freed = .ok pushes s4 := hpush
  have pe : s.pe = true := by simpa [s, State.pe] using hp
  have seg : s3.seg = s.seg := touched.seg
  have gpr : s3.gpr = s.gpr := touched.gpr
  have ok := deliverSame_ok (gate := gate) (e := e) (touched.pe.trans pe) (by rwa [seg]) (by rwa [seg, gpr]) hoff
    (by rwa [touched.returnItems, touched.free]) hm
  rw [gpr, touched.cpl, touched.flags] at ok
  refine ⟨deliver_ok ((deliverOnce_begun hv hp).trans ((g.same hl).trans ok)), ?_⟩
  have pushed := g.accessed.freed.pushAll (fun b => length_of_mem_returnItems) hpush
  rw [returnItems_length] at pushed
  have marked := pushed.mark (List.mem_append_left _ g.named) hm
  simp only [Nat.zero_add] at marked
  refine marked.frame (sts := pushes ++ marks) rfl fun a => ?_
  rw [accessedByte_freed, accessedByte_setDelivering]
  exact id

/-- Settles O49: the gate's checks, then the tests of the stack that the TSS names and the pushes on it. -/
theorem deliverInnerLevel : Obligations.DeliverInnerLevel := by
  unfold Obligations.DeliverInnerLevel
  intro n e lo hi nesp nss d sd ssMarks csMarks pushes s0 s1 s2 s3 s4 s5 s6 s7 s8 hv hp s k at_ gate hin hlo hhi hk hsoft hpr
    hn hd hc hconf hl hdp hoff hstack hsn hsd hrpl hdpl hw hsp need hroom hms hm hpush w tss
  have g : HandlerGate e gate d (s.setDelivering (some e.excClass)) s1 s2 s3 :=
    ⟨hin, rfl, hlo, hhi, hk, hsoft, hpr, hn, hd, hc, BitVec.le_of_lt hl, hdp⟩
  have touched := g.accessed.touched
  replace hpush : innerPushes (sd.segReg nss) nesp (s.switchItems e) s7 = .ok pushes s8 := hpush
  have ok := deliverInner_ok (gate := gate) hstack hsn hsd hrpl hdpl hw hsp hroom hoff hms hm
    (by rwa [touched.switchItems])
  rw [touched.flags] at ok
  refine ⟨deliver_ok ((deliverOnce_begun hv hp).trans ((g.inner hconf hl).trans ok)), ?_⟩
  have stack : Accessed _ (s.gateAccess gate ++ [(tss + 0x00000004#32, 4), (tss + 0x00000008#32, 2)]) s4 :=
    g.accessed.innerStack hstack
  have read : Accessed _ (_ ++ s.descriptorAccess nss) s5 := stack.descriptor hsd
  have marked := (read.freed.freed.mark (List.mem_append_right _ (stack.descriptor_mem hsd)) hms).mark
    (List.mem_append_left _ (List.mem_append_left _ g.named)) hm
  have pushed := marked.innerPushes (fun b => length_of_mem_switchItems) hpush
  rw [switchItems_length] at pushed
  refine pushed.frame (sts := ssMarks ++ csMarks ++ pushes) rfl fun a => ?_
  rw [accessedByte_freed, accessedByte_freed, accessedByte_setDelivering]
  exact id

end Sys2Proof.Machine

namespace Sys2Proof.Machine

/-! ## The boundary between instructions (60_exceptions.md R703, R705, R706) -/

theorem isDebugMove_iff (i : Instr) :
    isDebugMove i = true ↔ (∃ c r n m, i = .movFromDr c r n m) ∨ ∃ c n r m, i = .movToDr c n r m := by
  refine ⟨fun h => ?_, fun h => ?_⟩
  · unfold isDebugMove at h
    split at h
    · exact .inl ⟨_, _, _, _, rfl⟩
    · exact .inr ⟨_, _, _, _, rfl⟩
    · cases h
  · rcases h with ⟨c, r, n, m, rfl⟩ | ⟨c, n, r, m, rfl⟩ <;> rfl

section Boundary

variable {s t : State} {e : Event}

/-- The instruction that raises the general-detect fault (48_debug.md R648). -/
theorem detects_iff :
    s.detects = true ↔ s.params.iceInUse = true ∧ s.flags.rf = false ∧ (s.pe = true → s.cpl = 0#2)
      ∧ ∃ i u, fetchInstr s.beginInstr = .ok i u
          ∧ ((∃ c r n m, i = .movFromDr c r n m) ∨ ∃ c n r m, i = .movToDr c n r m) := by
  have level : (!s.pe || decide (s.cpl = 0#2)) = true ↔ (s.pe = true → s.cpl = 0#2) := by simp [imp_iff_not_or]
  unfold State.detects
  rw [Bool.and_eq_true, Bool.and_eq_true, Bool.and_eq_true, Bool.not_eq_true', level, and_assoc, and_assoc]
  refine and_congr_right' (and_congr_right' (and_congr_right' ?_))
  cases fetchInstr s.beginInstr with
  | ok i u => simp [isDebugMove_iff]
  | error e u => simp

/-- A processor that runs makes the checks of the boundary, in virtual 8086 mode too. -/
theorem boundary_eq_checks (hr : s.pins.reset = false) (h : s.run.runState = .running) :
    boundary s = boundaryChecks s := by
  simp [boundary, hr, h]

theorem step_take (h : boundary s = .take e t) : step s = deliver deliverBound e t := by
  rw [step, h]

theorem step_begin (h : boundary s = .run t) : step s = runNext t := by
  rw [step, h]

end Boundary

/-- Settles O5: the branches of `boundaryChecks`, in their order. -/
theorem boundaryOrder : Obligations.BoundaryOrder := by
  unfold Obligations.BoundaryOrder
  intro s hr hrun pending queue begun none trap breakpoint detect nmi intr
  have checks : boundary s = boundaryChecks s := boundary_eq_checks hr hrun
  have detects : s.detects = true ↔ detect := detects_iff
  have breaks : (!s.flags.rf && decide (s.codeHit ≠ 0#4)) = true ↔ breakpoint := by simp [breakpoint]
  unfold boundaryChecks at checks
  refine ⟨fun held => ?_, fun free => ⟨fun ht => ?_, fun ht => ⟨fun hb => ?_, fun hb => ?_⟩⟩⟩
  · exact step_begin (checks.trans (if_pos held))
  · rw [if_neg (by simp [free]), if_pos ht] at checks
    exact step_take checks
  · rw [if_neg (by simp [free]), if_neg ht, if_pos (breaks.mpr hb)] at checks
    exact step_take checks
  · rw [if_neg (by simp [free]), if_neg ht, if_neg (breaks.not.mpr hb)] at checks
    by_cases hd : detect
    · rw [if_pos (detects.mpr hd)] at checks
      have begins := step_begin checks
      exact ⟨fun h => absurd hd h.1, fun _ => ⟨fun h => absurd hd h.1, fun _ => begins⟩⟩
    · rw [if_neg (detects.not.mpr hd)] at checks
      refine ⟨fun hn => ?_, fun hn => ⟨fun hi => ?_, fun hi => ?_⟩⟩
      · rw [if_pos (by simpa [nmi, hd] using hn)] at checks
        exact step_take checks
      · rw [if_neg (by simpa [nmi, hd] using hn), if_pos (by simpa [intr, hd, and_assoc] using hi)] at checks
        exact step_take checks
      · rw [if_neg (by simpa [nmi, hd] using hn), if_neg (by simpa [intr, hd, and_assoc] using hi)] at checks
        exact step_begin checks

end Sys2Proof.Machine

namespace Sys2Proof.Machine

/-! ## Exceptions during a delivery (60_exceptions.md R750 to R752) -/

/-- Whether an event is an exception; interrupts and software interrupts are not. -/
def Event.isException (e : Event) : Prop := e.kind ≠ .external ∧ e.kind ≠ .software

/-- The vectors of the contributory exceptions (Table 9-3). -/
def contributoryVectors : List Byte := [0x00#8, 0x09#8, 0x0A#8, 0x0B#8, 0x0C#8, 0x0D#8]

section Classes

variable {e e2 : Event}

theorem excClass_of_interrupt (h : ¬e.isException) : e.excClass = .benign := by
  unfold Event.isException at h
  exact if_pos (by simpa [imp_iff_not_or] using h)

theorem Event.isException_of_fault (h : e.kind = .fault) : e.isException := by simp [Event.isException, h]

/-- The class of an exception by its vector (R750, Table 9-3). -/
theorem excClass_of_exception (h : e.isException) :
    e.excClass =
      if e.vector = 0x08#8 then .doubleFault else if e.vector = 0x0E#8 then .pageFault
      else if e.vector ∈ contributoryVectors then .contributory else .benign := by
  obtain ⟨external, software⟩ := h
  unfold Event.excClass
  rw [if_neg (by simp [external, software])]
  split <;> simp_all [contributoryVectors]

theorem pageFault_not_contributory : (0x0E#8 : Byte) ∉ contributoryVectors := by decide

theorem doubleFault_not_contributory : (0x08#8 : Byte) ∉ contributoryVectors := by decide

section Exception

variable (h : e.isException)

include h

theorem excClass_eq_doubleFault_iff : e.excClass = .doubleFault ↔ e.vector = 0x08#8 := by
  rw [excClass_of_exception h]
  split_ifs <;> simp_all

theorem excClass_eq_pageFault_iff : e.excClass = .pageFault ↔ e.vector = 0x0E#8 := by
  rw [excClass_of_exception h]
  split_ifs <;> simp_all

theorem excClass_eq_contributory_iff : e.excClass = .contributory ↔ e.vector ∈ contributoryVectors := by
  have disjoint := And.intro pageFault_not_contributory doubleFault_not_contributory
  rw [excClass_of_exception h]
  split_ifs <;> simp_all

theorem excClass_ne_benign_iff :
    e.excClass ≠ .benign ↔ e.vector = 0x08#8 ∨ e.vector = 0x0E#8 ∨ e.vector ∈ contributoryVectors := by
  rw [excClass_of_exception h]
  split_ifs <;> simp_all

end Exception

/-- Table 9-4 (R751), but for a second exception that is itself a double fault. -/
theorem doubles_iff (h : e.isException) (h2 : e2.isException) (hv2 : e2.vector ≠ 0x08#8) :
    doubles e.excClass e2.excClass = true ↔
      (e.vector ∈ contributoryVectors ∧ e2.vector ∈ contributoryVectors)
        ∨ (e.vector = 0x0E#8 ∧ (e2.vector ∈ contributoryVectors ∨ e2.vector = 0x0E#8)) := by
  unfold doubles
  simp only [Bool.or_eq_true, Bool.and_eq_true, decide_eq_true_eq, excClass_eq_contributory_iff h,
    excClass_eq_contributory_iff h2, excClass_eq_pageFault_iff h, excClass_ne_benign_iff h2, hv2, false_or,
    or_comm (a := e2.vector = 0x0E#8)]

end Classes

theorem ne_doubleFault_of_doubles {first second : ExcClass} (h : doubles first second = true) : first ≠ .doubleFault := by
  rintro rfl
  exact absurd h (by simp [doubles])

section SecondException

variable {n : Nat} {e e2 : Event} {s t : State}
  (hx : deliverOnce e ((s.savedEip e).setDelivering (some e.excClass)) = .error (.exc e2) t)

include hx

theorem deliver_doubles (h : doubles e.excClass e2.excClass = true) :
    deliver (n + 1) e s = deliver n doubleFault (t.setPending .none) := by
  rw [deliver_exc hx, if_neg (ne_doubleFault_of_doubles h), if_pos h]

theorem deliver_serial (hd : e.excClass ≠ .doubleFault) (h : ¬doubles e.excClass e2.excClass = true) :
    deliver (n + 1) e s = deliver n e2 (t.setPending .none) := by
  rw [deliver_exc hx, if_neg hd, if_neg h]

theorem deliver_shutDown (hd : e.excClass = .doubleFault) :
    deliver (n + 1) e s = .next (t.setPending .none).shutDown := by
  rw [deliver_exc hx, if_pos hd]

end SecondException

/-! ### Without an interrupt table -/

/-- A state outside virtual 8086 mode whose interrupt table holds nothing. -/
def State.tableless (s : State) : Prop := s.idtr.limit = 0x0000#16 ∧ s.flags.vm = false

/-- The delivery ends in shutdown. -/
def ShutsDown (r : Host.Outcome State Fault Refusal) : Prop :=
  ∃ t, r = .next t ∧ t.run.runState = .shutdown ∧ t.run.delivering = none

section Tableless

variable {n : Nat} {e : Event} {s : State} (h : s.tableless)

include h

/-- In either mode the first check of a delivery is that the vector lies within the table (R720, R730). -/
theorem deliverOnce_tableless : deliverOnce e s = .error (.exc (faultWith s 0x0D#8 (idtErr e.vector e.ext))) s.freed := by
  obtain ⟨limit, vm⟩ := h
  cases hp : s.pe with
  | true =>
    rw [deliverOnce_protected vm hp, deliverProtected, M_bind_ok (getState_apply s)]
    exact require_bind_exc (by simp [limit]) rfl
  | false =>
    rw [deliverOnce_real hp vm, deliverReal, M_bind_ok (getState_apply s)]
    exact require_bind_exc (by simp [limit]) rfl

theorem State.tableless.begun : ((s.savedEip e).setDelivering (some e.excClass)).tableless := by
  unfold State.savedEip
  split <;> exact h

theorem deliver_doubleFault_tableless : ShutsDown (deliver (n + 1) doubleFault s) :=
  ⟨_, deliver_shutDown (deliverOnce_tableless h.begun) rfl, rfl, rfl⟩

/-- A contributory exception makes a double fault of the #GP that its delivery raises. -/
theorem deliver_contributory_tableless (he : e.excClass = .contributory) : ShutsDown (deliver (n + 2) e s) := by
  have begun : ((s.savedEip e).setDelivering (some e.excClass)).tableless := h.begun
  rw [deliver_doubles (deliverOnce_tableless begun) (by rw [he]; rfl)]
  exact deliver_doubleFault_tableless begun

theorem deliver_tableless : ShutsDown (deliver (n + 3) e s) := by
  have begun : ((s.savedEip e).setDelivering (some e.excClass)).tableless := h.begun
  have attempt := deliverOnce_tableless (e := e) begun
  by_cases hd : e.excClass = .doubleFault
  · exact ⟨_, deliver_shutDown attempt hd, rfl, rfl⟩
  · cases hx : doubles e.excClass .contributory with
    | true =>
      rw [deliver_doubles attempt hx]
      exact deliver_doubleFault_tableless begun
    | false =>
      rw [deliver_serial attempt hd (Bool.eq_false_iff.mp hx)]
      exact deliver_contributory_tableless begun rfl

end Tableless

/-- Settles O50: the classes by the vectors, and what becomes of a second exception by `deliver_exc`; without an interrupt
table every attempt raises #GP, so that the chain ends in the double fault. -/
theorem doubleFault_holds : Obligations.DoubleFault := by
  unfold Obligations.DoubleFault
  refine ⟨?_, fun e s hlimit hv => deliver_tableless (n := 5) ⟨hlimit, hv⟩⟩
  intro n e e2 s t h2 hx exception contributory double df u
  replace h2 : e2.isException := Event.isException_of_fault h2
  have doubling : ∀ he : e.isException, e2.vector ≠ 0x08#8 → (doubles e.excClass e2.excClass = true ↔ double) :=
    fun he hv2 => (doubles_iff he h2 hv2).trans (and_iff_right he).symm
  refine ⟨fun hd => ?_, fun he hv => ?_, fun he hd hv hv2 => ?_, fun he => ?_⟩
  · have hv2 : e2.vector ≠ 0x08#8 := by
      rintro hv2
      rcases hd.2 with ⟨-, h⟩ | ⟨-, h | h⟩
      · exact doubleFault_not_contributory (hv2 ▸ h)
      · exact doubleFault_not_contributory (hv2 ▸ h)
      · exact absurd (hv2.symm.trans h) (by decide)
    exact deliver_doubles hx ((doubling hd.1 hv2).mpr hd)
  · exact deliver_shutDown hx ((excClass_eq_doubleFault_iff he).mpr hv)
  · exact deliver_serial hx ((excClass_eq_doubleFault_iff he).not.mpr hv) ((doubling he hv2).not.mpr hd)
  · have benign := excClass_of_interrupt he
    exact deliver_serial hx (by simp [benign]) (by simp [benign, doubles])

end Sys2Proof.Machine

namespace Sys2Proof.Machine

/-! ## Data breakpoints (48_debug.md R635, R646) -/

theorem bits4_getLsbD (f : Nat → Bool) {n : Nat} (h : n < 4) : (bits4 f).getLsbD n = f n := by
  simp only [bits4, BitVec.getLsbD_append, BitVec.getLsbD_ofBool]
  interval_cases n <;> simp

/-- Clearing the low bits of an address rounds it down to a multiple. -/
theorem clearLow_toNat (a : Dword) (k : Nat) :
    (a &&& ~~~(BitVec.ofNat 32 (2 ^ k - 1))).toNat = a.toNat / 2 ^ k * 2 ^ k := by
  have shifts : a &&& ~~~(BitVec.ofNat 32 (2 ^ k - 1)) = a >>> k <<< k := by
    apply BitVec.eq_of_getLsbD_eq
    intro i hi
    simp only [BitVec.getLsbD_and, BitVec.getLsbD_not, BitVec.getLsbD_ofNat, BitVec.getLsbD_shiftLeft,
      BitVec.getLsbD_ushiftRight, Nat.testBit_two_pow_sub_one, hi, decide_true, Bool.true_and]
    by_cases h : i < k
    · simp [h]
    · simp [h, Nat.add_sub_cancel' (Nat.not_lt.mp h)]
  rw [shifts, BitVec.toNat_shiftLeft, BitVec.toNat_ushiftRight, Nat.shiftRight_eq_div_pow, Nat.shiftLeft_eq]
  exact Nat.mod_eq_of_lt ((Nat.div_mul_le_self _ _).trans_lt a.isLt)

/-- Two ranges of bytes share one when neither ends before the other begins. -/
theorem ranges_meet_iff {a b m n : Nat} (hm : 0 < m) (hn : 0 < n) :
    (a ≤ b + n - 1 ∧ b ≤ a + m - 1) ↔ ∃ x, (a ≤ x ∧ x < a + m) ∧ (b ≤ x ∧ x < b + n) := by
  refine ⟨fun h => ⟨max a b, ?_⟩, fun ⟨x, h⟩ => ?_⟩ <;> omega

section DataBreakpoint

variable {d : DebugRegs} {n len : Nat}
  (hl : (d.len n = 0#2 ∧ len = 1) ∨ (d.len n = 1#2 ∧ len = 2) ∨ (d.len n = 3#2 ∧ len = 4))

include hl

theorem fieldLength_eq : fieldLength (d.len n) = len := by
  rcases hl with ⟨h, rfl⟩ | ⟨h, rfl⟩ | ⟨h, rfl⟩ <;> rw [h] <;> rfl

theorem fieldLength_pow : ∃ k, len = 2 ^ k := by
  rcases hl with ⟨-, rfl⟩ | ⟨-, rfl⟩ | ⟨-, rfl⟩
  exacts [⟨0, rfl⟩, ⟨1, rfl⟩, ⟨2, rfl⟩]

theorem fieldStart_eq : d.fieldStart n = (d.address n).toNat / len * len := by
  obtain ⟨k, hlen⟩ := fieldLength_pow hl
  rw [DebugRegs.fieldStart, fieldLength_eq hl, hlen, clearLow_toNat]

theorem defined_fields (hrw : d.rw n = 1#2 ∨ d.rw n = 3#2) : d.undefinedFields n = false := by
  have length : d.len n ≠ 2#2 := by rcases hl with ⟨h, -⟩ | ⟨h, -⟩ | ⟨h, -⟩ <;> rw [h] <;> decide
  rcases hrw with h | h <;> simp [DebugRegs.undefinedFields, h, length]

/-- The condition of a data breakpoint is met by the accesses of its kinds that share a byte with its field (R635). -/
theorem dataMatch_iff (hrw : d.rw n = 1#2 ∨ d.rw n = 3#2) {la : Dword} {size : Nat} {write : Bool} (hs : 0 < size) :
    d.dataMatch la size write n = true ↔ (d.rw n = 3#2 ∨ write = true) ∧
      ∃ a, (la.toNat ≤ a ∧ a < la.toNat + size)
        ∧ ((d.address n).toNat / len * len ≤ a ∧ a < (d.address n).toNat / len * len + len) := by
  have positive : 0 < len := by
    obtain ⟨k, rfl⟩ := fieldLength_pow hl
    exact Nat.two_pow_pos k
  have kinds : (d.rw n = 3#2 ∨ d.rw n = 1#2 ∧ write = true) ↔ (d.rw n = 3#2 ∨ write = true) := by
    rcases hrw with h | h <;> simp [h]
  rw [DebugRegs.dataMatch, if_neg (by simp [defined_fields hl hrw]), fieldLength_eq hl, fieldStart_eq hl,
    ← ranges_meet_iff hs positive, ← kinds]
  simp only [Bool.and_eq_true, Bool.or_eq_true, decide_eq_true_eq, and_assoc]

end DataBreakpoint

/-- An access adds to the pending traps the enabled breakpoints whose condition it meets (R646). -/
theorem recordAccess_hit (s : State) (la : Dword) (size : Nat) (write : Bool) {n : Nat} (h : n < 4) :
    (s.recordAccess la size write).run.pendingDb.hit.getLsbD n =
      (s.run.pendingDb.hit.getLsbD n || (s.dbg.enabled n && s.dbg.dataMatch la size write n)) := by
  simp [State.recordAccess, bits4_getLsbD _ h]

/-- Settles O58: the condition by `dataMatch_iff`, the pending trap by `recordAccess_hit`. -/
theorem dataBreakpoint : Obligations.DataBreakpoint := by
  unfold Obligations.DataBreakpoint
  intro s la size n write len hn hs hrw hl start
  exact ⟨dataMatch_iff hl hrw hs, recordAccess_hit s la size write hn⟩

end Sys2Proof.Machine
